-- ==== Sys2Proof/Word.lean ====
section
/-! DEFINITION. The word types of the machine: bytes, 64-bit words, addresses. -/

namespace Sys2Proof

/-- One byte of physical memory (20_memory.md R41). -/
abbrev Byte := BitVec 8

/-- A 64-bit value: a register, a table entry, an address held in 64 bits (00_scope.md section 5). -/
abbrev Word := BitVec 64

end Sys2Proof
end

