-- ==== Sys2Proof/Syntax.lean ====
section
/-! DEFINITION. The instructions of spec/opcode_table.json, one constructor a row, and their operands (30_encoding.md). -/

namespace Sys2Proof

/-- A general register by its number: ModRM and SIB give bits 2:0, REX gives bit 3 (30_encoding.md R61, R62). -/
abbrev Reg := Fin 16

/-- The segment registers, for a segment override (R62). -/
inductive Seg where
  | es
  | cs
  | ss
  | ds
  | fs
  | gs
deriving DecidableEq, Repr, Inhabited

/-- The address size of a memory operand, after the address-size override (R62). -/
inductive AddrSize where
  | a16
  | a32
  | a64
deriving DecidableEq, Repr, Inhabited

/-- A memory operand: the parts that ModRM, SIB, displacement, segment override and address-size override give (R61, R62). The
displacement is sign-extended to 32 bits. -/
structure MemOp where
  seg : Option Seg
  size : AddrSize
  base : Option Reg
  index : Option Reg
  scale : BitVec 2
  ripRel : Bool
  disp : BitVec 32
deriving DecidableEq, Repr, Inhabited

/-- The instructions, one constructor for each row of the opcode table (R60, R62, R63, R65). -/
inductive Instr where
  | invept (type : Reg) (desc : MemOp)
  | invvpid (type : Reg) (desc : MemOp)
  | movCr3 (src : Reg)
  | movCr4 (src : Reg)
  | invlpg (addr : MemOp)
  | vmxon (region : MemOp)
  | vmxoff
  | cpuid
deriving DecidableEq, Repr, Inhabited

/-- How wide a code segment's addresses are by default (R61): it settles how ModRM is read and whether REX exists. -/
inductive CodeSize where
  | b16
  | b32
  | b64
deriving DecidableEq, Repr, Inhabited

end Sys2Proof
end

