-- ==== Sys2Proof/Machine/Types.lean ====
section
/-! DEFINITION. The machine's plain data: modes, accesses, cached mappings, events, the labels of the transition
system. -/

namespace Sys2Proof.Machine

open Sys2Proof

/-- `mode` of 10_state.md R11. -/
inductive Mode where
  | outsideVmx
  | root
  | nonRoot
deriving DecidableEq, Repr, Inhabited

/-- The operating modes 47_invalidation.md R276 (1) and 30_encoding.md R62 tell apart. -/
inductive CpuMode where
  | realAddress
  | virtual8086
  | protectedMode
  | compatibility
  | long64
deriving DecidableEq, Repr, Inhabited

/-- Access kinds (00_scope.md section 5). -/
inductive AccKind where
  | dataRead
  | dataWrite
  | fetch
deriving DecidableEq, Repr, Inhabited

/-- Memory types (45_ept_memtype.md R204). -/
inductive MemType where
  | uc
  | wc
  | wt
  | wp
  | wb
deriving DecidableEq, Repr, Inhabited

/-- PAT memory types (45_ept_memtype.md R206). -/
inductive PatType where
  | uc
  | ucMinus
  | wc
  | wt
  | wp
  | wb
deriving DecidableEq, Repr, Inhabited

/-- `Cfg.SppCrossPagePolicy` (92_eei_decisions.md D20). -/
inductive SppPolicy where
  | apply
  | applyToNeither
  | nondet
deriving DecidableEq, Repr, Inhabited

/-- The ANDs of bits 0, 1, 2 and 10 over the EPT entries used (41_ept_translation.md R102). -/
structure Rights where
  r : Bool
  w : Bool
  x : Bool
  xu : Bool
deriving DecidableEq, Repr, Inhabited

/-- What the guest's ordinary paging may depend on (92_eei_decisions.md D15): the control registers, the PDPTE registers,
`IA32_PAT` and the privilege level. -/
structure GuestRegs where
  cr0 : Word
  cr3 : Word
  cr4 : Word
  pdpte : Vector Word 4
  pat : Word
  cpl : BitVec 2
  cpuMode : CpuMode
deriving DecidableEq, Repr

/-- A guest paging-structure entry a walk has read: the (guest-)physical address it stands at and its value. -/
structure GuestEntry where
  addr : Word
  value : Word
deriving DecidableEq, Repr, Inhabited

/-- What a mapping holds of the sub-page permissions (46_caching.md R229): the SPP vector, or one of the tables that locate it, with
the number of tables between it and the vector. -/
inductive SppCached where
  | vector (v : Word)
  | table (above : Nat) (base : Word)
deriving DecidableEq, Repr, Inhabited

/-- The bits of an EPT leaf entry a translation keeps (46_caching.md R230 `leafBits`): 5:3, 6, 8, 9 and 61. -/
structure LeafBits where
  memType : BitVec 3
  ignorePat : Bool
  accessed : Bool
  dirty : Bool
  spp : Bool
deriving DecidableEq, Repr, Inhabited

/-- An EPT entry that a cached mapping came from: where it stands, and whether its accessed flag is recorded as set. -/
structure UsedEntry where
  addr : Word
  accessed : Bool
deriving DecidableEq, Repr, Inhabited

/-- A linear translation (46_caching.md R224, R230). `page` is the linear address shifted right by `size` bits. `apicPage` is the
APIC-access page in force when it was created, if one was (47_invalidation.md R305, R306; log 15). -/
structure LinearTr where
  vpid : BitVec 16
  pcid : BitVec 12
  isGlobal : Bool
  page : Word
  frame : Word
  size : Nat
  guest : List GuestEntry
  memType : PatType
  apicPage : Option Word
deriving DecidableEq, Repr, Inhabited

/-- A linear paging-structure-cache entry (R225, R230). It covers the addresses whose bits above `size` are `upper`. DESIGN CHOICE: it
records no APIC-access page (log 15), and `guest`, the guest entries it came from, stands for R230's rights (log 28). -/
structure LinearPsc where
  vpid : BitVec 16
  pcid : BitVec 12
  upper : Word
  size : Nat
  level : Nat
  table : Word
  guest : List GuestEntry
deriving DecidableEq, Repr, Inhabited

/-- A guest-physical translation (R226, R230). `leafAddr` is where the EPT leaf entry stands and `used` what is recorded of the
accessed flags of the entries used (44_ept_ad_pml.md R177, R181; log 28), `apicPage` as for a linear translation. -/
structure GPhysTr where
  ep4ta : BitVec 40
  page : Word
  frame : Word
  size : Nat
  rights : Rights
  leaf : LeafBits
  leafAddr : Word
  used : List UsedEntry
  spp : Option SppCached
  apicPage : Option Word
deriving DecidableEq, Repr, Inhabited

/-- A guest-physical paging-structure-cache entry (R227, R230): the result of the entry at `level`. DESIGN CHOICE (log 28): it holds nothing
of the sub-page permissions, which R229 leaves open. -/
structure GPhysPsc where
  ep4ta : BitVec 40
  upper : Word
  level : Nat
  table : Word
  rights : Rights
  used : List UsedEntry
deriving DecidableEq, Repr, Inhabited

/-- A combined translation (R228, R230). DESIGN CHOICE (log 28): `gpa`, no field of R230, is the guest-physical address of the page's first
byte, recorded when the mapping is created; it is what an event or a log entry of an access through the mapping reports. -/
structure CombTr where
  vpid : BitVec 16
  pcid : BitVec 12
  ep4ta : BitVec 40
  isGlobal : Bool
  page : Word
  gpa : Word
  frame : Word
  size : Nat
  guest : List GuestEntry
  rights : Rights
  leaf : LeafBits
  leafAddr : Word
  used : List UsedEntry
  memType : Option MemType
  spp : Option SppCached
  apicPage : Option Word
deriving DecidableEq, Repr, Inhabited

/-- A combined paging-structure-cache entry (R228, R230): `table` is the physical address of the guest paging structure,
`tableGpa` its guest-physical address, `rights`, `leaf`, `leafAddr` and `used` what is recorded of the latter's translation, `apicPage`
as for a linear translation. DESIGN CHOICE (log 28): `tableGpa`, no field of R230, is what an event or a log entry of an access to a guest
entry through the mapping reports; it holds nothing of the sub-page permissions, which R229 leaves open. -/
structure CombPsc where
  vpid : BitVec 16
  pcid : BitVec 12
  ep4ta : BitVec 40
  upper : Word
  size : Nat
  level : Nat
  table : Word
  tableGpa : Word
  guest : List GuestEntry
  rights : Rights
  leaf : LeafBits
  leafAddr : Word
  used : List UsedEntry
  apicPage : Option Word
deriving DecidableEq, Repr, Inhabited

/-- `Mapping` of 46_caching.md R230. -/
inductive Mapping where
  | linearTr (m : LinearTr)
  | linearPsc (m : LinearPsc)
  | gphysTr (m : GPhysTr)
  | gphysPsc (m : GPhysPsc)
  | combTr (m : CombTr)
  | combPsc (m : CombPsc)
deriving DecidableEq, Repr, Inhabited

/-- What a software access does (20_memory.md R40 (a)): how many bytes it reads or fetches, or the bytes it writes. -/
inductive AccOp where
  | read (n : Nat)
  | write (bytes : List Byte)
  | fetch (n : Nat)
deriving DecidableEq, Repr, Inhabited

/-- Where a software access comes from, as far as sub-page write permissions ask (43_spp.md R145 items 1 to 3, R146 item 2). -/
inductive Origin where
  | plain
  | multiWrite
  | transactional
  | enclaveElrange
  | sgxEpc
deriving DecidableEq, Repr, Inhabited

/-- One access by linear address (92_eei_decisions.md D1). -/
structure Access where
  op : AccOp
  la : Word
  origin : Origin
deriving DecidableEq, Repr, Inhabited

/-- An access to one guest-physical address (42_ept_vmexits.md R117, R120): `pswalk` marks the processor's own access to a guest
paging-structure entry, `la` is the linear address being translated. -/
structure GAccess where
  kind : AccKind
  pswalk : Bool
  user : Bool
  size : Nat
  la : Option Word
  crosses : Bool
  origin : Origin
deriving DecidableEq, Repr, Inhabited

/-- The operations that architecturally invalidate TLB and paging-structure-cache entries (47_invalidation.md R262, R263):
INVLPG, the class that keeps global translations, the class that does not, and any other, whose selection `GuestPaging` gives. -/
inductive TlbOp where
  | invlpg (a : Word)
  | allButGlobal
  | all
  | other (n : Nat)
deriving DecidableEq, Repr, Inhabited

/-- Which part of the sub-page permissions a filled translation keeps. -/
inductive SppFill where
  | nothing
  | vector
  | table (above : Nat)
deriving DecidableEq, Repr, Inhabited

/-- A cache fill of the hardware (46_caching.md R244 (i)): which mapping, for which address. -/
inductive FillReq where
  | linearTr (la : Word)
  | linearPsc (la : Word) (depth : Nat)
  | gphysTr (gpa : Word) (spp : SppFill)
  | gphysPsc (gpa : Word) (level : Nat)
  | combTr (la : Word) (spp : SppFill)
  | combPsc (la : Word) (depth : Nat)
deriving DecidableEq, Repr, Inhabited

/-- Instructions whose execution in VMX non-root operation is a VM exit: INVEPT and INVVPID always (60_exceptions.md R311), the
others where the VMM configured it (47_invalidation.md R301). -/
inductive ExitInstr where
  | invept
  | invvpid
  | invlpg
  | movCr3
  | movCr4
deriving DecidableEq, Repr, Inhabited

/-- What an EPT violation carries (60_exceptions.md R313). `notPresent` is the level of a not-present entry, `mappings` the cached
mappings that the access had used (47_invalidation.md R309; log 44). -/
structure EptViolation where
  kind : AccKind
  gpa : Word
  la : Option Word
  rights : Rights
  pswalk : Bool
  notPresent : Option Nat
  mappings : List Mapping
deriving DecidableEq, Repr, Inhabited

/-- The events of 60_exceptions.md R311, a VM exit for a cause outside the spec, and the stack fault of 47_invalidation.md R276. A page
fault has an error code (60_exceptions.md R324; log 36). -/
inductive Event where
  | eptViolation (v : EptViolation)
  | eptMisconfig (gpa : Word) (level : Nat)
  | pmlFull (gpa : Word)
  | sppMiss (gpa : Word) (la : Option Word)
  | sppMisconfig (gpa : Word) (la : Option Word)
  | apicAccess (pa : Word)
  | instr (i : ExitInstr)
  | otherExit
  | pageFault (la : Word) (code : BitVec 32)
  | ud
  | gp0
  | ss0
deriving DecidableEq, Repr, Inhabited

/-- An access of the processor's own to a guest paging-structure entry or a PDPTE: the address the guest's paging gave, the physical
address, and the effective memory type where EPT translated it (45_ept_memtype.md R202). -/
structure TypedAccess where
  addr : Word
  pa : Word
  memType : Option MemType
deriving DecidableEq, Repr, Inhabited

/-- What is reported of one part of a performed access: its addresses, the memory types of 45_ept_memtype.md, and the accesses to guest
paging-structure entries made for it, in order. -/
structure PartDone where
  la : Word
  gpa : Option Word
  pa : Word
  size : Nat
  memType : Option MemType
  structType : Option MemType
  patType : Option PatType
  walk : List TypedAccess
deriving DecidableEq, Repr, Inhabited

/-- The outcome of the last step (10_state.md R26, 60_exceptions.md R322): nothing yet, Ok, Ok of a MOV to CR3 or CR4 that loaded the
PDPTE registers (with the accesses that did), VMfail(n), an access performed (its parts, and the bytes read), a VM exit, an
exception. -/
inductive Report where
  | idle
  | ok
  | loaded (walk : List TypedAccess)
  | vmFail (n : Nat)
  | access (parts : List PartDone) (bytes : List Byte)
  | exit (e : Event)
  | exception (e : Event)
deriving DecidableEq, Repr, Inhabited

/-- The six status flags of 47_invalidation.md R287. -/
structure Flags where
  cf : Bool
  pf : Bool
  af : Bool
  zf : Bool
  sf : Bool
  of : Bool
deriving DecidableEq, Repr, Inhabited

/-- A segment register as memory operands see it (30_encoding.md R62, 47_invalidation.md R276; log 1): its base, the first and the last
offset it allows (none, where the first is above the last), and whether it may be read. -/
structure Segment where
  base : Word
  first : BitVec 32
  last : BitVec 32
  readable : Bool
deriving DecidableEq, Repr, Inhabited

/-- The registers this spec takes from the surrounding processor (10_state.md R12, R13, R24 to R26). -/
structure Surroundings where
  gpr : Vector Word 16
  rip : Word
  flags : Flags
  cpl : BitVec 2
  cpuMode : CpuMode
  csDefault32 : Bool
  segs : Vector Segment 6
  cr0 : Word
  pat : Word
deriving DecidableEq, Repr

/-- The VM-execution controls (10_state.md R19, R20, what 47_invalidation.md R301 lets the VMM configure, and what 60_exceptions.md
R324 names for page faults), the VM-instruction error (R287) and the VM-exit fields (60_exceptions.md R313 to R317). DESIGN CHOICE (log
10): 16 bits for the basic exit reason, 64 for the exit qualification and the two address fields, 32 for the exception bitmap and the
page-fault error-code mask and match, 32 for the VM-instruction error; the spec gives these fields no width (91_not_in_source.md
N24). -/
structure Vmcs where
  enableEpt : Bool
  enableVpid : Bool
  modeBasedExec : Bool
  sppControl : Bool
  enablePml : Bool
  virtualizeApic : Bool
  exitOnInvlpg : Bool
  exitOnMovCr3 : Bool
  exitOnMovCr4 : Bool
  exceptionBitmap : BitVec 32
  pfErrorMask : BitVec 32
  pfErrorMatch : BitVec 32
  vpid : BitVec 16
  eptp : Word
  spptp : Word
  pmlAddress : Word
  pmlIndex : BitVec 16
  apicAccess : Word
  instrError : BitVec 32
  exitReason : BitVec 16
  exitQual : Word
  guestPhys : Word
  guestLinear : Word
deriving DecidableEq, Repr, Inhabited

/-- A write to physical memory by another agent (10_state.md R10, R28). -/
structure AgentWrite where
  pa : Word
  bytes : List Byte
deriving DecidableEq, Repr, Inhabited

/-- The labels of 92_eei_decisions.md D1 that are not instructions of the opcode table, and what the outside does to the processor:
`invvpid` and `invept` are D2's steps with their operands given; `tlb` is an operation that is performed, without a VM exit (DESIGN CHOICE,
log 47); `agents` says what other agents write before each of the accesses to
memory that the processor makes from now on (D12: a walk as a whole is not atomic; log 27). -/
inductive Input where
  | access (a : Access)
  | invvpid (type : Word) (desc : BitVec 128)
  | invept (type : Word) (desc : BitVec 128)
  | tlb (op : TlbOp)
  | vmEntry (inject : List Access)
  | vmExit
  | vmcsWrite (current : Bool) (v : Vmcs)
  | fill (f : FillReq)
  | drop (i : Nat)
  | agentWrite (pa : Word) (bytes : List Byte)
  | surroundings (x : Surroundings)
  | agents (l : List (List AgentWrite))
  | powerReset
deriving DecidableEq, Repr

/-- One label of a trace (92_eei_decisions.md D1, D3; log 2), consumed by one step: an input, an instruction of the opcode table as an
event of the trace, or the fetch and execution of the instruction at RIP. -/
inductive Label where
  | input (i : Input)
  | instr (i : Instr)
  | fetch
deriving DecidableEq, Repr

end Sys2Proof.Machine
end

