-- ==== Sys2Proof/Config.lean ====
section
/-! DEFINITION. What an implementation fixes (`Cfg`, 00_scope.md R4), the guest's ordinary paging as a parameter
(92_eei_decisions.md D15), and the free values. -/

namespace Sys2Proof

open Sys2Proof.Machine

/-- The guest's (ordinary) paging: a parameter, since no format of it is in the source (92_eei_decisions.md D15). A guest
paging structure is a table at an address; `entryOffset` is the place of the entry a linear address selects in it, so that the
spec's `start` and `next` are `startTable` and `nextTable`. Level 1 is the last. DESIGN CHOICE (log 16): of 42_ept_vmexits.md R124's walk
position g, whose form D15 leaves open, the functions see the level alone, and of its access acc they see the kind alone. -/
structure GuestPaging where
  /-- PAE paging is in use (`usesPAE`). -/
  usesPae : GuestRegs → Bool
  /-- `pdptBase(CR3)` of 41_ept_translation.md R89. -/
  pdptBase : GuestRegs → Word
  /-- `start(CR3, PDPTE, LA)`: the address of the first table. -/
  startTable : GuestRegs → Word → Word
  /-- How many tables a walk goes through at most. -/
  levels : GuestRegs → Nat
  /-- Entries have 8 bytes; else 4 (`entrySize`). DESIGN CHOICE (log 16): D15 leaves the size open, the model has these two. -/
  entry8 : GuestRegs → Bool
  /-- The offset, in the table of a level, of the entry that a linear address selects. DESIGN CHOICE (log 16): it has 12 bits, so that no
  guest table exceeds 4 KBytes. -/
  entryOffset : GuestRegs → Nat → Word → BitVec 12
  /-- `notPresentOrReserved(ge, g)`. DESIGN CHOICE (log 16): of the walk position g it sees the level alone, of the entry ge its value. -/
  notPresentOrReserved : GuestRegs → Nat → Word → Bool
  /-- `referencesTable(ge, g)`. DESIGN CHOICE (log 16): of the walk position g it sees the level alone, of the entry ge its value. -/
  referencesTable : GuestRegs → Nat → Word → Bool
  /-- `next`: the address of the table that an entry references. DESIGN CHOICE (log 16): it depends on the registers, the level and the
  entry's value only. -/
  nextTable : GuestRegs → Nat → Word → Word
  /-- Linear addresses have 64 bits; else 32 (00_scope.md section 5: their width is set by `GuestPaging`; 10_state.md R27). -/
  linear64 : GuestRegs → Bool
  /-- How many low bits of a linear address an entry of a level leaves to the levels below it. DESIGN CHOICE (log 16): it depends on the
  registers and the level only. -/
  regionBits : GuestRegs → Nat → Nat
  /-- The error code of a page fault for an access, from the entries read so far (60_exceptions.md R324; log 36). DESIGN CHOICE
  (log 16): of the access it sees the kind alone. -/
  faultCode : GuestRegs → List GuestEntry → AccKind → BitVec 32
  /-- `allowed(entries, acc)`. DESIGN CHOICE (log 16): of the access acc it sees the kind alone, not its size or what else acc holds; the
  privilege level is among the registers. -/
  allowed : GuestRegs → List GuestEntry → AccKind → Bool
  /-- `setAccessedDirty(entries, acc)`: the value each entry has afterwards. DESIGN CHOICE (log 16): of the access acc it sees the kind
  alone, not its size or what else acc holds. -/
  flagged : GuestRegs → List GuestEntry → AccKind → List Word
  /-- `finalGPA(ge, g, LA)`. DESIGN CHOICE (log 16): of the walk position g it sees the level alone, of the entry ge its value. -/
  finalGpa : GuestRegs → Nat → Word → Word → Word
  /-- `patType(entries)`. -/
  patType : GuestRegs → List GuestEntry → PatType
  /-- `currentPCID`. -/
  currentPcid : GuestRegs → BitVec 12
  /-- `isGlobal`. -/
  isGlobal : GuestRegs → List GuestEntry → Bool
  /-- `isUser`. -/
  isUser : GuestRegs → List GuestEntry → Bool
  /-- `Selected(op, m)` of an operation 47_invalidation.md R263 does not name. -/
  selected : GuestRegs → Nat → Mapping → Bool
deriving Inhabited

/-- The implementation parameters of 00_scope.md R4. -/
structure Cfg where
  /-- `VmxSupported` (R3). -/
  vmxSupported : Bool
  /-- `PhysAddrWidth` less 32 (92_eei_decisions.md D5: 32 <= N <= 52). -/
  widthOver32 : Fin 21
  execOnlySupported : Bool
  eptAdSupported : Bool
  ept2mSupported : Bool
  ept1gSupported : Bool
  /-- `EptReserved(level, leaf)`, but for bit 7 of a large page that is not supported (92_eei_decisions.md D6). -/
  eptReserved : Nat → Bool → Word
  eptpMemTypeOk : BitVec 3 → Bool
  /-- `IA32_VMX_BASIC` bits 53:50 (43_spp.md R151). -/
  sppTableMemType : BitVec 4
  sppPolicy : SppPolicy
  combineMemType : MemType → PatType → MemType
  guest : GuestPaging
  pmlLogsOnAccessedUpdate : Bool
  speculativeAccessedSet : Bool
  /-- Bit t: INVVPID type t is supported. -/
  invvpidTypes : BitVec 4
  /-- Bit t: INVEPT type t is supported (types 1 and 2; bit 0 is 0). -/
  inveptTypes : BitVec 3
  /-- The free values. -/
  free : Nat → Word
deriving Inhabited

/-- `Cfg.PhysAddrWidth`, N. -/
def Cfg.width (c : Cfg) : Nat := 32 + c.widthOver32.val

/-- The free values of the machine: nothing constrains them (log 8). -/
opaque Config.freeValue : Nat → Word

/-- The parameters the spec leaves OPEN, uninterpreted. -/
opaque Config.openParams : Cfg

/-- The machine's configuration: R4's parameters at the value or default the spec gives (R3, R201, D10, D11, D17, D20; a memory type
combined with PAT type WB is that type, 45_ept_memtype.md R207), linear addresses of 64 bits in 64-bit mode, every other uninterpreted.
DESIGN CHOICE (log 23); unsafe where a processor departs from a default. -/
def Config.cfg : Cfg :=
  { Config.openParams with
    vmxSupported := true
    eptpMemTypeOk := fun v => v == 0#3 || v == 6#3
    sppPolicy := .nondet
    guest := { Config.openParams.guest with
      linear64 := fun r => r.cpuMode == .long64 || Config.openParams.guest.linear64 r }
    combineMemType := fun t p => if p = .wb then t else Config.openParams.combineMemType t p
    pmlLogsOnAccessedUpdate := false
    speculativeAccessedSet := false
    invvpidTypes := 0b1111#4
    inveptTypes := 0b110#3
    free := Config.freeValue }

end Sys2Proof
end

