-- ==== Sys2Proof/Machine/State.lean ====
section
/-! DEFINITION. The machine's state as plain data, the reasons it can stop, and the state after reset. -/

namespace Sys2Proof.Machine

open Sys2Proof

/-- Physical memory (10_state.md R28): the bytes that differ from what an unlisted address reads as, by rising address. -/
abbrev Memory := List Host.Cell

/-- One logical processor, the memory it shares, and the labels still to come (10_state.md R10, 92_eei_decisions.md D1). -/
structure State where
  /-- The general registers (30_encoding.md R62; log 1). -/
  gpr : Vector Word 16
  /-- Where the next instruction is fetched (log 2). -/
  rip : Word
  /-- The status flags (47_invalidation.md R287; log 3). -/
  flags : Flags
  /-- The current privilege level (47_invalidation.md R276 (3)). -/
  cpl : BitVec 2
  /-- The operating mode (47_invalidation.md R276 (1)). -/
  cpuMode : CpuMode
  /-- A legacy code segment's default address size is 32 bits, else 16 (30_encoding.md R62). -/
  csDefault32 : Bool
  /-- The segment registers, ES CS SS DS FS GS (30_encoding.md R62, 47_invalidation.md R276; log 1). -/
  segs : Vector Segment 6
  /-- CR0, with PG and CD (10_state.md R12, R13). -/
  cr0 : Word
  /-- CR3 (R14). -/
  cr3 : Word
  /-- CR4 (R15). -/
  cr4 : Word
  /-- The PDPTE registers (R16). -/
  pdpte : Vector Word 4
  /-- `IA32_PAT` (R22). -/
  pat : Word
  /-- VMX operation (R11). -/
  mode : Mode
  /-- There is a current VMCS (47_invalidation.md R287). -/
  vmcsCurrent : Bool
  /-- The VM-execution controls and the VM-exit fields (R18 to R21). -/
  vmcs : Vmcs
  /-- `Cache` (R29). -/
  cache : List Mapping
  /-- `Mem` (R28). -/
  mem : Memory
  /-- The labels still to come, the first consumed by the next step (the model's own; log 2). -/
  inputs : List Label
  /-- What other agents write before the processor's next access to memory, the one after it, and so on (92_eei_decisions.md D12; the
  model's own; log 27). -/
  agents : List (List AgentWrite)
  /-- The outcome of the last step (R26, 60_exceptions.md R322; log 2). -/
  report : Report
  /-- How many free values have been drawn (the model's own; log 8). -/
  freeCtr : Nat
deriving DecidableEq, Repr

/-- Reasons to stop with a fault. -/
inductive Fault where
  /-- Raised by every physical access, of the processor or of another agent, whose address is not below 2^N, the extent of memory
  (92_eei_decisions.md D29). Safe: the machine stops at an address the spec says does not exist. -/
  | noSuchPhysicalAddress
deriving DecidableEq, Repr

/-- Reasons to refuse. -/
inductive Refusal where
  /-- Raised by exec for an instruction that has no meaning. Safe. -/
  | notModelled (mnemonic : String)
  /-- Raised by a guest-physical access whose address has a bit above 47 set (92_eei_decisions.md D25: refused, no transition).
  Safe. -/
  | guestPhysicalAbove47
  /-- Raised by a fetch whose bytes are none of the opcode table's rows (00_scope.md section 3: the ordinary instruction set is out
  of scope). Safe. -/
  | notInTable
  /-- Raised by a fetch of more bytes than an instruction can have (30_encoding.md R61). Safe. -/
  | instructionTooLong
  /-- Raised by a VM entry outside VMX root operation or with no current VMCS (60_exceptions.md R323, R330). Safe. -/
  | vmEntryNotPossible
  /-- Raised by a VM entry whose controls are not well formed (93_implementation_defined.md U3, U12, U15, U16;
  92_eei_decisions.md D18, D22). Safe. -/
  | controlsNotWellFormed
  /-- Raised by a VM exit outside VMX non-root operation (60_exceptions.md R316). Safe. -/
  | vmExitNotPossible
  /-- Raised by a write to the VM-execution controls outside VMX root operation (10_state.md R18). Safe. -/
  | controlsWriteOutsideRoot
deriving DecidableEq, Repr

/-- The state after power-up or reset: the caches are empty (10_state.md R30) and the processor is outside VMX operation (R31,
92_eei_decisions.md D19). The spec gives no other value: the registers of the surrounding processor hold the family's reset values
(PRESUMED, log 4), the rest the values of log 5 (DESIGN CHOICE). -/
def State.reset : State where
  gpr := #v[0, 0, 0x600#64, 0, 0, 0, 0, 0, 0, 0, 0, 0, 0, 0, 0, 0]
  rip := 0xFFF0#64
  flags := ⟨false, false, false, false, false, false⟩
  cpl := 0#2
  cpuMode := .realAddress
  csDefault32 := false
  segs := #v[⟨0, 0, 0xFFFF#32, true⟩, ⟨0xFFFF0000#64, 0, 0xFFFF#32, true⟩, ⟨0, 0, 0xFFFF#32, true⟩, ⟨0, 0, 0xFFFF#32, true⟩,
    ⟨0, 0, 0xFFFF#32, true⟩, ⟨0, 0, 0xFFFF#32, true⟩]
  cr0 := 0x60000010#64
  cr3 := 0#64
  cr4 := 0#64
  pdpte := #v[0, 0, 0, 0]
  pat := 0x0007040600070406#64
  mode := .outsideVmx
  vmcsCurrent := false
  vmcs := ⟨false, false, false, false, false, false, false, false, false, 0#32, 0#32, 0#32, 0#16, 0#64, 0#64, 0#64, 0#16, 0#64, 0#32,
    0#16, 0#64, 0#64, 0#64⟩
  cache := []
  mem := []
  inputs := []
  agents := []
  report := .idle
  freeCtr := 0

end Sys2Proof.Machine
end

