-- ==== Sys2Proof/Machine/Flags.lean ====
section
/-! DEFINITION. The VMsucceed and VMfail flag patterns (47_invalidation.md R287). -/

namespace Sys2Proof.Machine

/-- VMsucceed: CF, PF, AF, ZF, SF and OF all cleared (R287). -/
def Flags.vmSucceed : Flags := ⟨false, false, false, false, false, false⟩

/-- VMfail with a current VMCS: ZF set, the other five cleared (R287). -/
def Flags.vmFailValid : Flags := ⟨false, false, false, true, false, false⟩

/-- VMfail with no current VMCS: CF set, the other five cleared (R287). -/
def Flags.vmFailInvalid : Flags := ⟨true, false, false, false, false, false⟩

end Sys2Proof.Machine
end

