-- ==== Sys2Proof/Machine/Mapping.lean ====
section
/-! DEFINITION. What a cached mapping is tagged with and what it covers (46_caching.md R230, R240 to R242, 47_invalidation.md R271). -/

namespace Sys2Proof.Machine

open Sys2Proof

/-- Bits 47:0 of an address above its low `size` bits: the page or region a mapping is for (46_caching.md R225). -/
def pageOf (a : Word) (size : Nat) : Word := (a &&& 0xFFFFFFFFFFFF#64) >>> size

/-- The low bits of a region that the entry of an EPT level governs: 12, 21, 30, 39 (41_ept_translation.md R104). -/
def eptRegionBits (level : Nat) : Nat := 3 + 9 * level

/-- Linear mappings (R224, R225). -/
def Mapping.isLinear : Mapping → Bool
  | .linearTr _ => true
  | .linearPsc _ => true
  | _ => false

/-- Guest-physical mappings (R226, R227). -/
def Mapping.isGPhys : Mapping → Bool
  | .gphysTr _ => true
  | .gphysPsc _ => true
  | _ => false

/-- Combined mappings (R228). -/
def Mapping.isCombined : Mapping → Bool
  | .combTr _ => true
  | .combPsc _ => true
  | _ => false

/-- Linear or combined: the mappings that carry a VPID and a PCID (40_vpid.md R72). -/
def Mapping.isLinearOrCombined (m : Mapping) : Bool := m.isLinear || m.isCombined

/-- Guest-physical or combined: the mappings that carry an EP4TA (46_caching.md R234, R236). -/
def Mapping.isGPhysOrCombined (m : Mapping) : Bool := m.isGPhys || m.isCombined

/-- Paging-structure-cache entries (R222). -/
def Mapping.isPsc : Mapping → Bool
  | .linearPsc _ => true
  | .gphysPsc _ => true
  | .combPsc _ => true
  | _ => false

/-- The VPID tag is this one; guest-physical mappings carry none (40_vpid.md R72). -/
def Mapping.hasVpid (v : BitVec 16) : Mapping → Bool
  | .linearTr m => m.vpid == v
  | .linearPsc m => m.vpid == v
  | .combTr m => m.vpid == v
  | .combPsc m => m.vpid == v
  | _ => false

/-- The PCID tag is this one. -/
def Mapping.hasPcid (p : BitVec 12) : Mapping → Bool
  | .linearTr m => m.pcid == p
  | .linearPsc m => m.pcid == p
  | .combTr m => m.pcid == p
  | .combPsc m => m.pcid == p
  | _ => false

/-- The EP4TA tag is this one; linear mappings carry none (46_caching.md R225). -/
def Mapping.hasEp4ta (e : BitVec 40) : Mapping → Bool
  | .gphysTr m => m.ep4ta == e
  | .gphysPsc m => m.ep4ta == e
  | .combTr m => m.ep4ta == e
  | .combPsc m => m.ep4ta == e
  | _ => false

/-- A translation used for a global page (46_caching.md R241). -/
def Mapping.isGlobal : Mapping → Bool
  | .linearTr m => m.isGlobal
  | .combTr m => m.isGlobal
  | _ => false

/-- The page or region of a linear or combined mapping contains a linear address (47_invalidation.md R271). -/
def Mapping.coversLa (la : Word) : Mapping → Bool
  | .linearTr m => pageOf la m.size == m.page
  | .linearPsc m => pageOf la m.size == m.upper
  | .combTr m => pageOf la m.size == m.page
  | .combPsc m => pageOf la m.size == m.upper
  | _ => false

/-- The page or region of a guest-physical mapping contains a guest-physical address (47_invalidation.md R264). -/
def Mapping.coversGpa (gpa : Word) : Mapping → Bool
  | .gphysTr m => pageOf gpa m.size == m.page
  | .gphysPsc m => pageOf gpa (eptRegionBits m.level) == m.upper
  | _ => false

/-- A paging-structure-cache entry stands for an entry that references a table: its level is at least 2, and at most 4 for EPT. -/
def Mapping.levelOk : Mapping → Bool
  | .linearPsc m => 2 ≤ m.level
  | .gphysPsc m => 2 ≤ m.level && m.level ≤ 4
  | .combPsc m => 2 ≤ m.level
  | _ => true

/-- The mapping can stand in place of the entry of a level and what comes after it: a translation, or a paging-structure-cache entry of
that level or a lower one (46_caching.md R225, R227). -/
def Mapping.standsBelow (level : Nat) : Mapping → Bool
  | .linearPsc m => m.level ≤ level
  | .gphysPsc m => m.level ≤ level
  | .combPsc m => m.level ≤ level
  | _ => true

/-- The APIC-access page that a mapping recorded when it was created: a translation, or a combined paging-structure-cache entry, which holds
the translation of the address of a guest table. DESIGN CHOICE (log 15): other paging-structure-cache entries record none. -/
def Mapping.apicPage : Mapping → Option (Option Word)
  | .linearTr m => some m.apicPage
  | .gphysTr m => some m.apicPage
  | .combTr m => some m.apicPage
  | .combPsc m => some m.apicPage
  | _ => none

/-- The tags let the mapping be used under a VPID and a PCID: both match, or the VPID matches and the translation is global
(40_vpid.md R74, 46_caching.md R241, 92_eei_decisions.md D26). -/
def Mapping.tagsMatch (v : BitVec 16) (p : BitVec 12) (m : Mapping) : Bool :=
  m.hasVpid v && (m.hasPcid p || m.isGlobal)

end Sys2Proof.Machine
end

