-- ==== Sys2Proof/Machine/Memory.lean ====
section
/-! DEFINITION. Physical memory in its canonical form: bytes, and little-endian multi-byte reads and writes (20_memory.md R41). -/

namespace Sys2Proof.Machine

open Sys2Proof

/-- What an address reads as that memory does not list. DESIGN CHOICE (log 6): the spec gives no contents; unsafe. -/
def Memory.unlisted : Byte := 0#8

/-- The byte at an address. -/
def Memory.read (m : Memory) (a : Nat) : Byte :=
  match m with
  | [] => Memory.unlisted
  | (k, v) :: rest => if k = a then v else Memory.read rest a

/-- The list with address `a` at value `v`, kept sorted; the value an unlisted address reads as removes the entry. -/
def Memory.write (m : Memory) (a : Nat) (v : Byte) : Memory :=
  match m with
  | [] => if v = Memory.unlisted then [] else [(a, v)]
  | (k, w) :: rest =>
    if k < a then (k, w) :: Memory.write rest a v
    else if k = a then (if v = Memory.unlisted then rest else (a, v) :: rest)
    else if v = Memory.unlisted then (k, w) :: rest
    else (a, v) :: (k, w) :: rest

/-- Every address is above `lo`, addresses rise, and no entry equals what an unlisted address reads as. -/
def Memory.wfAbove (lo : Nat) : Memory → Bool
  | [] => true
  | (k, v) :: rest => lo ≤ k && v != Memory.unlisted && Memory.wfAbove (k + 1) rest

/-- The canonical form. -/
def Memory.wf (m : Memory) : Bool := Memory.wfAbove 0 m

/-- Every listed address is below a bound. -/
def Memory.below (bound : Nat) (m : Memory) : Bool := m.all fun cell => cell.1 < bound

/-- The bytes at `a`, `a + 1`, ..., `n` of them. -/
def Memory.readBytes (m : Memory) (a : Nat) : Nat → List Byte
  | 0 => []
  | n + 1 => m.read a :: m.readBytes (a + 1) n

/-- The bytes written at `a`, `a + 1`, ... in order. -/
def Memory.writeBytes (m : Memory) (a : Nat) : List Byte → Memory
  | [] => m
  | b :: bs => Memory.writeBytes (m.write a b) (a + 1) bs

/-- Writes of other agents, in order (10_state.md R10, R28). -/
def Memory.writeAll (m : Memory) : List AgentWrite → Memory
  | [] => m
  | w :: ws => Memory.writeAll (m.writeBytes w.pa.toNat w.bytes) ws

/-- A word from its bytes, the first the least significant (R41). -/
def wordOfBytes : List Byte → Word
  | [] => 0#64
  | b :: bs => (wordOfBytes bs <<< 8) ||| b.setWidth 64

/-- The `n` low bytes of a word, the first the least significant (R41). -/
def bytesOfWord (w : Word) : Nat → List Byte
  | 0 => []
  | n + 1 => w.setWidth 8 :: bytesOfWord (w >>> 8) n

/-- The 64-bit entry at an address (20_memory.md R45). -/
def Memory.read64 (m : Memory) (a : Nat) : Word := wordOfBytes (m.readBytes a 8)

/-- A 64-bit entry written. -/
def Memory.write64 (m : Memory) (a : Nat) (w : Word) : Memory := m.writeBytes a (bytesOfWord w 8)

end Sys2Proof.Machine
end

