-- ==== Sys2Proof/Machine/Ops.lean ====
section
/-! DEFINITION. The named operations over the state: updates, what is derived from mode and controls, free values, physical memory,
invalidation, taking an event (VM exit or exception), and VM entry. -/

namespace Sys2Proof.Machine

open Sys2Proof

/-! Updates: the only places where a State is rebuilt. -/

/-- The general registers replaced. -/
def State.withGpr (s : State) (v : Vector Word 16) : State := { s with gpr := v }
/-- The instruction pointer replaced. -/
def State.withRip (s : State) (v : Word) : State := { s with rip := v }
/-- The status flags replaced. -/
def State.withFlags (s : State) (v : Flags) : State := { s with flags := v }
/-- CR3 replaced. -/
def State.withCr3 (s : State) (v : Word) : State := { s with cr3 := v }
/-- CR4 replaced. -/
def State.withCr4 (s : State) (v : Word) : State := { s with cr4 := v }
/-- The PDPTE registers replaced. -/
def State.withPdpte (s : State) (v : Vector Word 4) : State := { s with pdpte := v }
/-- VMX operation changed. -/
def State.withMode (s : State) (v : Mode) : State := { s with mode := v }
/-- Whether there is a current VMCS. -/
def State.withVmcsCurrent (s : State) (v : Bool) : State := { s with vmcsCurrent := v }
/-- The VMCS fields replaced. -/
def State.withVmcs (s : State) (v : Vmcs) : State := { s with vmcs := v }
/-- The cached mappings replaced. -/
def State.withCache (s : State) (v : List Mapping) : State := { s with cache := v }
/-- Memory replaced. -/
def State.withMem (s : State) (v : Memory) : State := { s with mem := v }
/-- The labels to come replaced. -/
def State.withInputs (s : State) (v : List Label) : State := { s with inputs := v }
/-- The other agents' writes to come replaced. -/
def State.withAgents (s : State) (v : List (List AgentWrite)) : State := { s with agents := v }
/-- The last step's outcome recorded. -/
def State.withReport (s : State) (v : Report) : State := { s with report := v }
/-- The number of free values drawn. -/
def State.withFreeCtr (s : State) (v : Nat) : State := { s with freeCtr := v }
/-- The registers of the surrounding processor replaced (10_state.md R12, R13; log 43). -/
def State.withSurroundings (s : State) (x : Surroundings) : State :=
  { s with gpr := x.gpr, rip := x.rip, flags := x.flags, cpl := x.cpl, cpuMode := x.cpuMode, csDefault32 := x.csDefault32,
           segs := x.segs, cr0 := x.cr0, pat := x.pat }

/-! What the mode and the controls give. -/

/-- CR0.PG, bit 31 (10_state.md R12). -/
def State.pg (s : State) : Bool := s.cr0.getLsbD 31

/-- CR0.CD, bit 30 (R13). -/
def State.cd (s : State) : Bool := s.cr0.getLsbD 30

/-- `EptInUse` (41_ept_translation.md R81): the event-injection accesses of a VM entry are made with `mode` already NonRoot. -/
def State.eptInUse (s : State) : Bool := s.mode == .nonRoot && s.vmcs.enableEpt

/-- `EptAD`, EPTP bit 6 (44_ept_ad_pml.md R171). -/
def State.eptAd (s : State) : Bool := s.vmcs.eptp.getLsbD 6

/-- `PmlOn` (R180). -/
def State.pmlOn (s : State) : Bool := s.vmcs.enablePml && s.eptAd

/-- EP4TA: bits 51:12 of an EPTP (10_state.md R21, 46_caching.md R234). -/
def ep4taOf (eptp : Word) : BitVec 40 := eptp.extractLsb' 12 40

/-- The current EP4TA. -/
def State.ep4ta (s : State) : BitVec 40 := ep4taOf s.vmcs.eptp

/-- `currentVPID` (40_vpid.md R73). -/
def State.currentVpid (s : State) : BitVec 16 :=
  match s.mode with
  | .outsideVmx => 0#16
  | .root => 0#16
  | .nonRoot => if s.vmcs.enableVpid then s.vmcs.vpid else 0#16

/-- What the guest's paging depends on (92_eei_decisions.md D15). -/
def State.guestRegs (s : State) : GuestRegs := ⟨s.cr0, s.cr3, s.cr4, s.pdpte, s.pat, s.cpl, s.cpuMode⟩

/-- The low 32 bits of a word, zero-extended. -/
def low32 (w : Word) : Word := w &&& 0xFFFFFFFF#64

/-- A linear address as wide as it is: 64 or 32 bits, as the guest's paging has it (10_state.md R27, 00_scope.md section 5; log 13). -/
def State.linWrap (c : Cfg) (s : State) (la : Word) : Word := if c.guest.linear64 s.guestRegs then la else low32 la

/-- The current PCID (10_state.md R17). -/
def State.currentPcid (c : Cfg) (s : State) : BitVec 12 := c.guest.currentPcid s.guestRegs

/-- The APIC-access page in force (60_exceptions.md R312): in VMX non-root operation with "virtualize APIC accesses". DESIGN CHOICE (log
15): the field has 64 bits, and its bits 11:0 are ignored, so that the page is the aligned one that holds the address; the spec states
neither a width nor an alignment of the APIC-access address (10_state.md R20). -/
def State.apicPage (s : State) : Option Word :=
  if s.mode == .nonRoot && s.vmcs.virtualizeApic then some (s.vmcs.apicAccess >>> 12) else none

/-! Free values (log 8). -/

/-- One more free value drawn. -/
def State.bump (s : State) (n : Nat) : State := s.withFreeCtr (s.freeCtr + n)

/-- Execution goes on where the spec does not say (after an event or a VM entry): RIP is a free value (log 9). -/
def jumpFree (c : Cfg) (s : State) : State := (s.withRip (c.free s.freeCtr)).bump 1

/-! Computations that may end in an event or a stop. -/

/-- Why a computation stops the machine. -/
inductive Stop where
  | fault (f : Fault)
  | refused (r : Refusal)
deriving DecidableEq, Repr

/-- The state of an access in progress, and of the access so far: the EPT entries its walks have used (92_eei_decisions.md D10), what
other agents have written meanwhile (D12), the cached mappings used (47_invalidation.md R309), and the accesses made to guest
paging-structure entries and PDPTEs (45_ept_memtype.md R202). -/
structure Ctx where
  st : State
  touched : List Word
  foreign : List AgentWrite
  mappings : List Mapping
  typed : List TypedAccess
deriving DecidableEq, Repr

/-- What a computation comes to: a value; an event (00_scope.md section 5 `raise`), with the state it arose in; a stop. -/
inductive Res (α : Type) where
  | ok (a : α) (x : Ctx)
  | raised (e : Event) (x : Ctx)
  | stopped (r : Stop)
deriving DecidableEq, Repr

/-- One computation and then another. -/
def Res.bind {α β : Type} (r : Res α) (f : α → Ctx → Res β) : Res β :=
  match r with
  | .ok a x => f a x
  | .raised e x => .raised e x
  | .stopped t => .stopped t

/-- A stop as a step's outcome. -/
def Stop.outcome {σ : Type} : Stop → Host.Outcome σ Fault Refusal
  | .fault f => .fault f
  | .refused r => .refused r

/-- An access in progress starts. -/
def Ctx.start (s : State) : Ctx := ⟨s, [], [], [], []⟩

/-- The access's state changed. -/
def Ctx.mapSt (x : Ctx) (f : State → State) : Ctx := { x with st := f x.st }

/-- An EPT entry used. -/
def Ctx.touch (x : Ctx) (ea : Word) : Ctx := { x with touched := x.touched ++ [ea] }

/-- A cached mapping used. -/
def Ctx.use (x : Ctx) (m : Mapping) : Ctx := { x with mappings := x.mappings ++ [m] }

/-- An access to a guest paging-structure entry or a PDPTE noted. -/
def Ctx.note (x : Ctx) (t : TypedAccess) : Ctx := { x with typed := x.typed ++ [t] }

/-- One of some candidates, or none of them, as a free value has it (46_caching.md R244 (ii): the processor may use a matching
mapping or ignore the cache). With no candidate nothing is drawn. -/
def pick {α : Type} (c : Cfg) (x : Ctx) (l : List α) : Option α × Ctx :=
  match l with
  | [] => (none, x)
  | _ =>
    let k := (c.free x.st.freeCtr).toNat % (l.length + 1)
    ((if k = 0 then none else l[k - 1]?), x.mapSt fun s => s.bump 1)

/-- A free yes or no. -/
def chooseBool (c : Cfg) (x : Ctx) : Bool × Ctx :=
  ((c.free x.st.freeCtr).getLsbD 0, x.mapSt fun s => s.bump 1)

/-! Physical memory (20_memory.md R41, R45, R47; 92_eei_decisions.md D29). -/

/-- The bytes `a .. a + n - 1` are below 2^N. Every N is at least 32, so the first bound settles the low addresses. -/
def inRange (c : Cfg) (a n : Nat) : Bool := a + n ≤ 2 ^ 32 || a + n ≤ 2 ^ c.width

/-- The writes of other agents are to addresses that exist. -/
def writesOk (c : Cfg) (ws : List AgentWrite) : Bool := ws.all fun w => inRange c w.pa.toNat w.bytes.length

/-- What other agents write before the processor's next access to memory is written (92_eei_decisions.md D12). -/
def Ctx.interleave (x : Ctx) : Ctx :=
  match x.st.agents with
  | [] => x
  | ws :: rest =>
    { x with st := (x.st.withMem (x.st.mem.writeAll ws)).withAgents rest, foreign := x.foreign ++ ws }

/-- An access of the processor to `n` bytes of memory may take place: the bytes exist, and those that other agents write before it. -/
def accessOk (c : Cfg) (x : Ctx) (a n : Nat) : Bool := writesOk c (x.st.agents.headD []) && inRange c a n

/-- `MemRead(pa, n)` as bytes: one access, after the other agents' writes that come before it. -/
def physRead (c : Cfg) (x : Ctx) (pa : Word) (n : Nat) : Res (List Byte) :=
  if accessOk c x pa.toNat n then .ok (x.interleave.st.mem.readBytes pa.toNat n) x.interleave
  else .stopped (.fault .noSuchPhysicalAddress)

/-- `MemRead(pa, 8)`. -/
def physRead64 (c : Cfg) (x : Ctx) (pa : Word) : Res Word :=
  (physRead c x pa 8).bind fun bs y => .ok (wordOfBytes bs) y

/-- `MemWrite(pa, n, v)` as bytes: one access. -/
def physWrite (c : Cfg) (x : Ctx) (pa : Word) (bytes : List Byte) : Res Unit :=
  if accessOk c x pa.toNat bytes.length then
    .ok () (x.interleave.mapSt fun s => s.withMem (s.mem.writeBytes pa.toNat bytes))
  else .stopped (.fault .noSuchPhysicalAddress)

/-- An entry of `n` bytes read, changed and written in one access: no other agent's write falls between (20_memory.md R45,
92_eei_decisions.md D12). -/
def physUpdate (c : Cfg) (x : Ctx) (pa : Word) (n : Nat) (f : Word → Word) : Res Unit :=
  if accessOk c x pa.toNat n then
    .ok ()
      (x.interleave.mapSt fun s =>
        s.withMem (s.mem.writeBytes pa.toNat (bytesOfWord (f (wordOfBytes (s.mem.readBytes pa.toNat n))) n)))
  else .stopped (.fault .noSuchPhysicalAddress)

/-- A bit of the 64-bit entry at an address set, nothing else of it changed (20_memory.md R45). -/
def setEntryBit (c : Cfg) (x : Ctx) (ea : Word) (bit : Nat) : Res Unit := physUpdate c x ea 8 fun e => e ||| (1#64 <<< bit)

/-- A bit of several entries set, in order. -/
def setEntryBits (c : Cfg) (x : Ctx) (bit : Nat) : List Word → Res Unit
  | [] => .ok () x
  | ea :: rest => (setEntryBit c x ea bit).bind fun _ y => setEntryBits c y bit rest

/-! Invalidation (47_invalidation.md R261). -/

/-- The mappings that free values let stay: the processor may drop any other mapping (R298). -/
def thin (c : Cfg) (n : Nat) : List Mapping → List Mapping
  | [] => []
  | m :: ms => if (c.free n).getLsbD 0 then thin c (n + 1) ms else m :: thin c (n + 1) ms

/-- `Cache <- C'` for some `C'` within `Cache` less `Required` (R261). -/
def invalidate (c : Cfg) (required : Mapping → Bool) (s : State) : State :=
  let kept := s.cache.filter fun m => !required m
  (s.withCache (thin c s.freeCtr kept)).bump kept.length

/-- `Required` of VM entries and VM exits: with "enable VPID" 0, the linear and combined mappings of VPID 0000H; with it 1, none
(R266, R296). -/
def transitionRequired (s : State) (m : Mapping) : Bool :=
  !s.vmcs.enableVpid && m.isLinearOrCombined && m.hasVpid 0#16

/-- `Required` of an EPT violation (R264, R265, R309): the guest-physical mappings of the current EP4TA that cover the address; where a
linear address was being translated, the combined mappings whose tags let them be used for it; every mapping that the access had used. R265
names those of the current PCID and a guest-physical address that was the linear address's translation; that global ones, and those of
an access to a guest paging-structure entry, go too is read from R309 and 60_exceptions.md R323 (DEDUCED, log 44). -/
def violationRequired (c : Cfg) (s : State) (v : EptViolation) (m : Mapping) : Bool :=
  (m.isGPhys && m.hasEp4ta s.ep4ta && m.coversGpa v.gpa) ||
  (match v.la with
    | some la => m.isCombined && m.tagsMatch s.currentVpid (s.currentPcid c) && m.hasEp4ta s.ep4ta && m.coversLa la
    | none => false) ||
  decide (m ∈ v.mappings)

/-! Taking an event (60_exceptions.md R311, R316, R322). -/

/-- Exception vectors (R311; the stack fault's is the family's, log 33); the other events are VM exits. -/
def Event.vector : Event → Option Nat
  | .pageFault _ _ => some 14
  | .ud => some 6
  | .gp0 => some 13
  | .ss0 => some 12
  | _ => none

/-- An exception for which the VMM configured a VM exit (60_exceptions.md R324). PRESUMED (log 36): its bit of the exception bitmap is
1; of a page fault whose error code, under the mask, differs from the match, that bit is 0. -/
def Vmcs.selects (v : Vmcs) (e : Event) (vector : Nat) : Bool :=
  match e with
  | .pageFault _ code => v.exceptionBitmap.getLsbD vector == (code &&& v.pfErrorMask == v.pfErrorMatch)
  | _ => v.exceptionBitmap.getLsbD vector

/-- Delivered as a VM exit: the events of R311 that are no exception, and in VMX non-root operation the exceptions for which the VMM
configured one (R324). -/
def Event.exits (s : State) (e : Event) : Bool :=
  match e.vector with
  | none => true
  | some n => s.mode == .nonRoot && s.vmcs.selects e n

/-- Basic exit reasons (R311); none where the spec gives none. -/
def Event.exitReason : Event → Option (BitVec 16)
  | .eptViolation _ => some 48#16
  | .eptMisconfig _ _ => some 49#16
  | .pmlFull _ => some 62#16
  | .sppMiss _ _ => some 66#16
  | .sppMisconfig _ _ => some 66#16
  | .apicAccess _ => some 44#16
  | .instr .invept => some 50#16
  | .instr .invvpid => some 53#16
  | _ => none

/-- A word with one bit, if a condition holds. -/
def bitIf (b : Bool) (i : Nat) : Word := if b then 1#64 <<< i else 0#64

/-- A word's bits under a mask replaced. -/
def putBits (free mask value : Word) : Word := (free &&& ~~~mask) ||| (value &&& mask)

/-- The exit qualification of an EPT violation (R313): bits 0 to 5, 7 and 12; bit 6 with mode-based execute control; bit 8 where
bit 7 is 1. Bit 12 is 0, there being no NMI (R320). The other bits are not given: free (log 10). -/
def violationQual (modeBased : Bool) (v : EptViolation) (free : Word) : Word :=
  let known : Word := 0x10BF#64 ||| bitIf modeBased 6 ||| bitIf v.la.isSome 8
  putBits free known
    (bitIf (v.kind == .dataRead) 0 ||| bitIf (v.kind == .dataWrite) 1 ||| bitIf (v.kind == .fetch) 2 |||
      bitIf v.rights.r 3 ||| bitIf v.rights.w 4 ||| bitIf v.rights.x 5 ||| bitIf v.rights.xu 6 |||
      bitIf v.la.isSome 7 ||| bitIf (!v.pswalk) 8)

/-- The exit qualification of an event: R313, and bit 11 of R317; what the spec does not give is free (R314 calls a
misconfiguration's undefined; log 10). -/
def Event.exitQual (modeBased : Bool) (free : Word) : Event → Word
  | .eptViolation v => violationQual modeBased v free
  | .sppMiss _ _ => putBits free 0x800#64 0x800#64
  | .sppMisconfig _ _ => putBits free 0x800#64 0#64
  | _ => free

/-- The guest-physical-address field of an event (R313, R314, R317); free where the spec gives none. -/
def Event.guestPhys (free : Word) : Event → Word
  | .eptViolation v => v.gpa
  | .eptMisconfig gpa _ => gpa
  | .sppMiss gpa _ => gpa
  | .sppMisconfig gpa _ => gpa
  | _ => free

/-- The guest-linear-address field of an event (R313, R317); free where the spec gives none. -/
def Event.guestLinear (free : Word) : Event → Word
  | .eptViolation v => v.la.getD free
  | .sppMiss _ la => la.getD free
  | .sppMisconfig _ la => la.getD free
  | _ => free

/-- The VM-exit fields written (R313 to R317). -/
def recordExit (c : Cfg) (e : Event) (s : State) : State :=
  let n := s.freeCtr
  (s.withVmcs
    { s.vmcs with
      exitReason := e.exitReason.getD ((c.free n).setWidth 16)
      exitQual := e.exitQual s.vmcs.modeBasedExec (c.free (n + 1))
      guestPhys := e.guestPhys (c.free (n + 2))
      guestLinear := e.guestLinear (c.free (n + 3)) }).bump 4

/-- The mappings an event itself invalidates: those of an EPT violation (R264, R265); no other event is said to invalidate. -/
def eventInvalidate (c : Cfg) (e : Event) (s : State) : State :=
  match e with
  | .eptViolation v => invalidate c (violationRequired c s v) s
  | _ => s

/-- A VM exit (60_exceptions.md R316): the mappings of R266 go, `mode` becomes Root; no state is saved or loaded
(92_eei_decisions.md D16), and the VMM's entry point is not given (log 9). -/
def vmExit (c : Cfg) (s : State) : State :=
  jumpFree c ((invalidate c (transitionRequired s) s).withMode .root)

/-- Taking an event (R311, R324): a VM exit with its fields and invalidations, or an exception of the surrounding processor, whose
handler's address is not given (log 9). DESIGN CHOICE (log 49): an exception changes no register but RIP: privilege level, segments, flags
and operating mode stay. -/
def deliver (c : Cfg) (e : Event) (s : State) : State :=
  if e.exits s then (vmExit c (eventInvalidate c e (recordExit c e s))).withReport (.exit e)
  else (jumpFree c s).withReport (.exception e)

/-- The return to the guest, a VM entry (60_exceptions.md R323): the mappings of R266 go, `mode` becomes NonRoot. -/
def vmEnter (c : Cfg) (s : State) : State :=
  jumpFree c ((invalidate c (transitionRequired s) s).withMode .nonRoot)

/-- The state `s` before an access that has come to `x`, with none of the processor's own effects: the free values drawn and the other
agents' writes stay (92_eei_decisions.md D12). -/
def State.meanwhile (s : State) (x : Ctx) : State :=
  ((s.withMem (s.mem.writeAll x.foreign)).withAgents x.st.agents).withFreeCtr x.st.freeCtr

/-- Accessed flags of entries already used by an access that ended in an event: each may have been set
(`SpeculativeAccessedSet`, 92_eei_decisions.md D10); out-of-range entries were never read. -/
def speculate (c : Cfg) (s : State) : List Word → State
  | [] => s
  | ea :: rest =>
    let set := (c.free s.freeCtr).getLsbD 0
    let s1 := s.bump 1
    speculate c
      (if set then s1.withMem (s1.mem.write64 ea.toNat (s1.mem.read64 ea.toNat ||| (1#64 <<< 8))) else s1) rest

/-- The state an event leaves before it is taken: events are precise (60_exceptions.md R322, 92_eei_decisions.md D28), so it is the
state before the access `s`, with the free values drawn in `x` and with what other agents have written meanwhile; with
`SpeculativeAccessedSet` accessed flags may be set (D10), but not for a log-full event, where none is (44_ept_ad_pml.md R182). -/
def rollback (c : Cfg) (s : State) (e : Event) (x : Ctx) : State :=
  let s0 := s.meanwhile x
  match e with
  | .pmlFull _ => s0
  | _ => if c.speculativeAccessedSet && s.eptInUse && s.eptAd then speculate c s0 x.touched else s0

/-- A computation's result as a step's outcome: its event is taken in the state before it. -/
def Res.outcome {α : Type} (c : Cfg) (s : State) (r : Res α) (f : α → State → Host.Outcome State Fault Refusal) :
    Host.Outcome State Fault Refusal :=
  match r with
  | .ok a x => f a x.st
  | .raised e x => .next (deliver c e (rollback c s e x))
  | .stopped t => t.outcome

/-- VMsucceed (47_invalidation.md R287). -/
def vmSucceed (s : State) : State := (s.withFlags Flags.vmSucceed).withReport .ok

/-- VMfail(n) (R287): the flags by whether there is a current VMCS, whose VM-instruction error becomes n. -/
def vmFail (n : Nat) (s : State) : State :=
  if s.vmcsCurrent then
    ((s.withFlags Flags.vmFailValid).withVmcs { s.vmcs with instrError := BitVec.ofNat 32 n }).withReport (.vmFail n)
  else (s.withFlags Flags.vmFailInvalid).withReport (.vmFail n)

end Sys2Proof.Machine
end

