-- ==== Sys2Proof/Machine/Ept.lean ====
section
/-! DEFINITION. The EPT walk and its events (41_ept_translation.md, 42_ept_vmexits.md): entries, the present test,
misconfigurations, permissions. -/

namespace Sys2Proof.Machine

open Sys2Proof

/-- The index of an EPT or SPP table entry of a level in a guest-physical address: 47:39, 38:30, 29:21, 20:12 (R104). -/
def gpaIndex (gpa : Word) (level : Nat) : Word := (gpa >>> eptRegionBits level) &&& 0x1FF#64

/-- The physical address of a table: bits 51:12 of a pointer or entry (R91, R93, R95, R97). -/
def tableBase (e : Word) : Word := e &&& 0x000FFFFFFFFFF000#64

/-- The entry is a leaf: level 1, or bit 7 at levels 2 and 3 (R93, R95, R97; an EPT PML4E never maps a page, R91). -/
def isLeaf (level : Nat) (e : Word) : Bool :=
  level == 1 || ((level == 2 || level == 3) && e.getLsbD 7)

/-- `EptPresent` (R100). -/
def eptPresent (s : State) (e : Word) : Bool :=
  e.extractLsb' 0 3 != 0#3 || (s.vmcs.modeBasedExec && e.getLsbD 10)

/-- `EptReserved(level, leaf)`, with bit 7 of a large page the processor does not support (92_eei_decisions.md D6, D8). -/
def eptReservedMask (c : Cfg) (level : Nat) (leaf : Bool) : Word :=
  c.eptReserved level leaf |||
    bitIf (leaf && ((level == 3 && !c.ept1gSupported) || (level == 2 && !c.ept2mSupported))) 7

/-- The default of `EptReserved` that 92_eei_decisions.md D6 gives, by physical-address width. The machine does not assume it. -/
def eptReservedDefault (width level : Nat) (leaf : Bool) : Word :=
  (0x000FFFFFFFFFFFFF#64 &&& ~~~((1#64 <<< width) - 1#64)) |||
    (if level = 4 then 0xF8#64
     else if leaf then (if level = 3 then 0x3FFFF000#64 else if level = 2 then 0x1FF000#64 else 0#64)
     else 0x78#64)

/-- `EptMisconfigured(e, level, leaf)` (42_ept_vmexits.md R111). -/
def eptMisconfigured (c : Cfg) (s : State) (e : Word) (level : Nat) (leaf : Bool) : Bool :=
  (!e.getLsbD 0 && e.getLsbD 1) ||
  (!e.getLsbD 0 && e.getLsbD 2 && !c.execOnlySupported) ||
  (s.vmcs.modeBasedExec && !e.getLsbD 0 && e.getLsbD 10 && !c.execOnlySupported) ||
  (eptPresent s e && (e &&& eptReservedMask c level leaf) != 0#64) ||
  (eptPresent s e && leaf &&
    (e.extractLsb' 3 3 == 2#3 || e.extractLsb' 3 3 == 3#3 || e.extractLsb' 3 3 == 7#3))

/-- The rights so far and those of one more entry: the ANDs of R102. -/
def Rights.meet (a : Rights) (e : Word) : Rights :=
  ⟨a.r && e.getLsbD 0, a.w && e.getLsbD 1, a.x && e.getLsbD 2, a.xu && e.getLsbD 10⟩

/-- Before any entry, everything is allowed (R102). -/
def Rights.full : Rights := ⟨true, true, true, true⟩

/-- An EPT entry that a translation uses: where it stands, its accessed flag as read or as a cached mapping records it, and whether a
cached mapping gave it (44_ept_ad_pml.md R181). -/
structure WalkEntry where
  addr : Word
  accessed : Bool
  cached : Bool
deriving DecidableEq, Repr

/-- The entries that a cached mapping came from. -/
def recordedEntries (us : List UsedEntry) : List WalkEntry := us.map fun u => ⟨u.addr, u.accessed, true⟩

/-- What a translation of a guest-physical address comes to (R102), from a walk, from cached mappings or from both: the physical
address, the rights, the leaf entry's level, kept bits and address, whether a cached mapping gave it, the entries used, and the cached
mappings it came from. -/
structure Walk where
  pa : Word
  rights : Rights
  level : Nat
  leaf : LeafBits
  leafAddr : Word
  leafCached : Bool
  used : List WalkEntry
  sources : List Mapping
deriving DecidableEq, Repr

/-- The kept bits of a leaf entry (46_caching.md R230): 5:3, 6, 8, 9, 61. -/
def leafBitsOf (e : Word) : LeafBits :=
  ⟨e.extractLsb' 3 3, e.getLsbD 6, e.getLsbD 8, e.getLsbD 9, e.getLsbD 61⟩

/-- The low `size` bits of an address. -/
def lowBits (a : Word) (size : Nat) : Word := a &&& ((1#64 <<< size) - 1#64)

/-- The frame of a leaf entry: bits 51:12, 51:21 or 51:30 by its level (R98). -/
def leafFrame (e : Word) (level : Nat) : Word := tableBase e &&& ~~~((1#64 <<< eptRegionBits level) - 1#64)

/-- The kind an access is checked as (42_ept_vmexits.md R117): with the flags of EPTP bit 6 enabled, the processor's accesses to
guest paging-structure entries count as writes (44_ept_ad_pml.md R172). -/
def effKind (s : State) (acc : GAccess) : AccKind :=
  if acc.pswalk && s.eptAd then .dataWrite else acc.kind

/-- `FetchAllowed` (R114). -/
def fetchAllowed (s : State) (r : Rights) (user : Bool) : Bool :=
  if !s.vmcs.modeBasedExec then r.x else if user then r.xu else r.x

/-- `EptAllowed` (R117). -/
def eptAllowed (s : State) (r : Rights) (acc : GAccess) : Bool :=
  match effKind s acc with
  | .dataRead => r.r
  | .dataWrite => r.w
  | .fetch => fetchAllowed s r acc.user

/-- The EPT violation of an access (60_exceptions.md R313). -/
def violation (x : Ctx) (acc : GAccess) (gpa : Word) (r : Rights) (notPresent : Option Nat) : Event :=
  .eptViolation ⟨effKind x.st acc, gpa, acc.la, r, acc.pswalk, notPresent, x.mappings⟩

/-- One step of the walk: the entry of a level is read and tested, not-present before misconfigured (R101, R102, R116). -/
def eptEntry (c : Cfg) (acc : GAccess) (gpa : Word) (x : Ctx) (level : Nat) (base : Word) (r : Rights) : Res Word :=
  let ea := base + 8#64 * gpaIndex gpa level
  (physRead64 c x ea).bind fun e y =>
    if !eptPresent y.st e then .raised (violation y acc gpa (r.meet e) (some level)) y
    else if eptMisconfigured c y.st e level (isLeaf level e) then .raised (.eptMisconfig gpa level) y
    else .ok e (y.touch ea)

/-- The end of the walk at a leaf entry (R98, R102). -/
def walkLeaf (gpa : Word) (level : Nat) (ea e : Word) (r : Rights) (used : List WalkEntry) : Walk :=
  ⟨leafFrame e level ||| lowBits gpa (eptRegionBits level), r, level, leafBitsOf e, ea, false, used, []⟩

/-- `EptWalk` (R102) from the level after `n` further ones, at a table, with the rights and entries so far. -/
def eptWalkFrom (c : Cfg) (acc : GAccess) (gpa : Word) :
    Nat → Word → Rights → List WalkEntry → Ctx → Res Walk
  | n, base, r, used, x =>
    let level := n + 1
    let ea := base + 8#64 * gpaIndex gpa level
    (eptEntry c acc gpa x level base r).bind fun e y =>
      let r' := r.meet e
      let used' := used ++ [⟨ea, e.getLsbD 8, false⟩]
      if isLeaf level e then .ok (walkLeaf gpa level ea e r' used') y
      else
        match n with
        | 0 => .ok (walkLeaf gpa level ea e r' used') y
        | k + 1 => eptWalkFrom c acc gpa k (tableBase e) r' used' y

/-- `EptWalk(GPA)` (R102): four levels from the EPT PML4 table of EPTP bits 51:12 (R91). -/
def eptWalk (c : Cfg) (acc : GAccess) (gpa : Word) (x : Ctx) : Res Walk :=
  eptWalkFrom c acc gpa 3 (tableBase x.st.vmcs.eptp) Rights.full [] x

/-! Cached mappings (46_caching.md R240 to R244). -/

/-- The cached guest-physical mappings that may be used in place of the entry of a level (R242, R244 (ii)): of the current EP4TA, covering
the address; a paging-structure-cache entry stands for the entry of its own level and those above it. -/
def gphysUsable (s : State) (gpa : Word) (level : Nat) (m : Mapping) : Bool :=
  m.isGPhys && m.hasEp4ta s.ep4ta && m.coversGpa gpa && m.levelOk && m.standsBelow level

/-- The cached mappings that may be used in place of the guest entry of a level (R240 to R244): with EPT in use, combined mappings of the
current VPID, PCID and EP4TA; without it, linear mappings of the current VPID and PCID. Without paging a linear address is not
translated by the guest's tables, so neither linear mappings (42_ept_vmexits.md R125) nor combined paging-structure-cache entries are
used (log 32). -/
def linearUsable (c : Cfg) (s : State) (la : Word) (level : Nat) (m : Mapping) : Bool :=
  m.coversLa la && m.tagsMatch s.currentVpid (s.currentPcid c) && m.levelOk && m.standsBelow level &&
  (if s.eptInUse then m.isCombined && m.hasEp4ta s.ep4ta && (s.pg || !m.isPsc)
   else m.isLinear && s.pg)

/-- A cached guest-physical translation as the result of a translation (R242, R244): its recorded flags stand for the entry's
(44_ept_ad_pml.md R177). Its page size gives its level. -/
def walkOfGPhysTr (m : GPhysTr) (gpa : Word) (sources : List Mapping) : Walk :=
  ⟨m.frame + lowBits gpa m.size, m.rights, if m.size = 12 then 1 else if m.size = 21 then 2 else 3, m.leaf, m.leafAddr,
    true, recordedEntries m.used, sources ++ [.gphysTr m]⟩

/-- A translation of a guest-physical address from a level on (R102, R120, R244 (ii)): at each entry a usable cached mapping, as a free
value has it, or the entry. The first argument bounds the entries left; it is never used up, since an entry of level 1 is a leaf. -/
def eptTranslateFrom (c : Cfg) (acc : GAccess) (gpa : Word) :
    Nat → Nat → Word → Rights → List WalkEntry → List Mapping → Ctx → Res Walk
  | 0, _, _, _, _, _, _ => .stopped (.fault .noSuchPhysicalAddress)
  | fuel + 1, level, base, r, used, sources, x =>
    match pick c x (x.st.cache.filter (gphysUsable x.st gpa level)) with
    | (some (.gphysTr m), y) => .ok (walkOfGPhysTr m gpa sources) (y.use (.gphysTr m))
    | (some (.gphysPsc p), y) =>
      eptTranslateFrom c acc gpa fuel (p.level - 1) p.table p.rights (recordedEntries p.used) (sources ++ [.gphysPsc p]) (y.use (.gphysPsc p))
    | (_, y) =>
      let ea := base + 8#64 * gpaIndex gpa level
      (eptEntry c acc gpa y level base r).bind fun e z =>
        let r' := r.meet e
        let used' := used ++ [⟨ea, e.getLsbD 8, false⟩]
        if isLeaf level e then .ok { walkLeaf gpa level ea e r' used' with sources := sources } z
        else eptTranslateFrom c acc gpa fuel (level - 1) (tableBase e) r' used' sources z

/-- A translation of a guest-physical address (R102, R120, R244 (ii)). -/
def eptTranslate (c : Cfg) (acc : GAccess) (gpa : Word) (x : Ctx) : Res Walk :=
  eptTranslateFrom c acc gpa 4 4 (tableBase x.st.vmcs.eptp) Rights.full [] [] x

end Sys2Proof.Machine
end

