-- ==== Sys2Proof/Machine/MemTypes.lean ====
section
/-! DEFINITION. EPT and memory typing (45_ept_memtype.md). Memory types are reported; no value depends on one (20_memory.md R53). -/

namespace Sys2Proof.Machine

open Sys2Proof

/-- EPTP bits 2:0 as a memory type (R201): 0 is UC, 6 is WB, the others are reserved. -/
def decodeEptpMemType (v : BitVec 3) : Option MemType :=
  if v = 0#3 then some .uc else if v = 6#3 then some .wb else none

/-- The memory type of accesses to the EPT paging structures (R200). -/
def State.eptStructMemType (s : State) : Option MemType :=
  if s.cd then some .uc else decodeEptpMemType (s.vmcs.eptp.extractLsb' 0 3)

/-- Leaf bits 5:3 as an EPT memory type (R204); 2, 3 and 7 are reserved. -/
def decodeEptMemType (v : BitVec 3) : Option MemType :=
  match v with
  | 0#3 => some .uc
  | 1#3 => some .wc
  | 4#3 => some .wt
  | 5#3 => some .wp
  | 6#3 => some .wb
  | _ => none

/-- The PAT memory type (R206): WB without paging, else what the guest's paging selects from `IA32_PAT`. -/
def patMemType (c : Cfg) (s : State) (guest : List GuestEntry) : PatType :=
  if s.pg then c.guest.patType s.guestRegs guest else .wb

/-- What the paging structures give of the effective memory type (R204 to R207) from the kept bits of the leaf entry: the EPT type alone
with bit 6, else the combination of the EPT and PAT types. -/
def structuresMemType (c : Cfg) (s : State) (leaf : LeafBits) (guest : List GuestEntry) : Option MemType :=
  (decodeEptMemType leaf.memType).map fun ept =>
    if leaf.ignorePat then ept else c.combineMemType ept (patMemType c s guest)

/-- `EffectiveMemType` (R203, R207): UC with CR0.CD, else what the paging structures give. MTRRs play no part (R208). -/
def effectiveMemType (c : Cfg) (s : State) (leaf : LeafBits) (guest : List GuestEntry) : Option MemType :=
  if s.cd then some .uc else structuresMemType c s leaf guest

/-- The memory type the processor uses to access the SPP tables: `IA32_VMX_BASIC` bits 53:50 (43_spp.md R151). The meaning of 0 and
6 is general knowledge of the spec's (G14). -/
def sppTableMemType (c : Cfg) : Option MemType :=
  if c.sppTableMemType = 0#4 then some .uc else if c.sppTableMemType = 6#4 then some .wb else none

/-- `IA32_VMX_BASIC` as far as the source goes: bits 53:50 (10_state.md R22). The other bits are free. -/
def vmxBasic (c : Cfg) (free : Word) : Word :=
  putBits free (0xF#64 <<< 50) (c.sppTableMemType.setWidth 64 <<< 50)

/-- The capability bits of `IA32_VMX_EPT_VPID_CAP` that parameters of Cfg stand for, at the places of
93_implementation_defined.md G7 (10_state.md R22). The other bits are free. -/
def eptVpidCap (c : Cfg) (free : Word) : Word :=
  putBits free 0xF0106334141#64
    (bitIf c.execOnlySupported 0 ||| bitIf true 6 ||| bitIf (c.eptpMemTypeOk 0#3) 8 ||| bitIf (c.eptpMemTypeOk 6#3) 14 |||
      bitIf c.ept2mSupported 16 ||| bitIf c.ept1gSupported 17 ||| bitIf true 20 ||| bitIf c.eptAdSupported 21 |||
      bitIf (c.inveptTypes.getLsbD 1) 25 ||| bitIf (c.inveptTypes.getLsbD 2) 26 ||| bitIf true 32 ||| (c.invvpidTypes.setWidth 64 <<< 40))

end Sys2Proof.Machine
end

