-- ==== Sys2Proof/Machine/Spp.lean ====
section
/-! DEFINITION. Sub-page write permissions (43_spp.md): eligibility, the table lookup, the vector test. -/

namespace Sys2Proof.Machine

open Sys2Proof

/-- `SppNever` (R145): transactional regions, enclave writes, SGX instructions, and the processor's own accesses to guest
paging-structure entries. -/
def sppNever (acc : GAccess) : Bool :=
  acc.pswalk || acc.origin == .transactional || acc.origin == .enclaveElrange || acc.origin == .sgxEpc

/-- `SppMaybeNot` (R146): a write that crosses two pages, or one of several writes of an instruction. -/
def sppMaybeNot (acc : GAccess) : Bool := acc.crosses || acc.origin == .multiWrite

/-- The conditions of `SppEligible` (R142, R143, R145) that are no model's choice: the control, a write bit missing, a 4-KByte page
whose EPT PTE has bit 61, an access of a kind that may have sub-page permissions. -/
def sppCandidate (s : State) (w : Walk) (acc : GAccess) : Bool :=
  s.vmcs.sppControl && !w.rights.w && w.level == 1 && w.leaf.spp && !sppNever acc

/-- `SppEligible` (R142, R143, R146): a candidate; for the model-specific cases as `SppCrossPagePolicy` says, `nondet` by a free
value (92_eei_decisions.md D20, D21). -/
def sppEligible (c : Cfg) (x : Ctx) (w : Walk) (acc : GAccess) : Bool × Ctx :=
  if sppCandidate x.st w acc then
    if sppMaybeNot acc then
      match c.sppPolicy with
      | .apply => (true, x)
      | .applyToNeither => (false, x)
      | .nondet => chooseBool c x
    else (true, x)
  else (false, x)

/-- The address bits N-1:12 of SPPTP or an SPP table entry (R147, R149). -/
def sppBase (c : Cfg) (e : Word) : Word := e &&& (((1#64 <<< c.width) - 1#64) &&& ~~~0xFFF#64)

/-- The reserved bits 11:1 and 63:N of an SPPL4E, SPPL3E or SPPL2E (R149). -/
def sppReserved (c : Cfg) : Word := 0xFFE#64 ||| ~~~((1#64 <<< c.width) - 1#64)

/-- The odd bits of an SPP vector (R150). -/
def sppOddBits : Word := 0xAAAAAAAAAAAAAAAA#64

/-- An SPPL4E, SPPL3E or SPPL2E: an SPP miss if it is not valid, else a misconfiguration if a reserved bit is set (R158, R159). -/
def sppEntry (c : Cfg) (acc : GAccess) (gpa : Word) (x : Ctx) (table : Word) (level : Nat) : Res Word :=
  (physRead64 c x (table + 8#64 * gpaIndex gpa level)).bind fun e y =>
    if !e.getLsbD 0 then .raised (.sppMiss gpa acc.la) y
    else if (e &&& sppReserved c) != 0#64 then .raised (.sppMisconfig gpa acc.la) y
    else .ok (sppBase c e) y

/-- The table that a number of entries lead to, from a table of a level (R148). -/
def sppTables (c : Cfg) (acc : GAccess) (gpa : Word) : Nat → Nat → Word → Ctx → Res Word
  | 0, _, t, x => .ok t x
  | n + 1, level, t, x => (sppEntry c acc gpa x t level).bind fun t' y => sppTables c acc gpa n (level - 1) t' y

/-- Where the SPP vector of a page is (R147, R148): the guest-physical address of the write selects an entry in each of three
tables, then a vector. -/
def sppVectorAddr (c : Cfg) (acc : GAccess) (gpa : Word) (x : Ctx) : Res Word :=
  (sppTables c acc gpa 3 4 (sppBase c x.st.vmcs.spptp) x).bind fun t y => .ok (t + 8#64 * gpaIndex gpa 1) y

/-- What a cached mapping holds of the sub-page permissions of a page, where it may be used for an access to it (46_caching.md R229,
R242, R244 (ii)). DESIGN CHOICE (log 28): only a translation of a 4-KByte page holds any, no paging-structure-cache entry. -/
def sppHeld (c : Cfg) (s : State) (acc : GAccess) (gpa : Word) (m : Mapping) : Option SppCached :=
  match m with
  | .gphysTr t => if gphysUsable s gpa 4 m then t.spp else none
  | .combTr t =>
    match acc.la with
    | some la => if linearUsable c s la 4 m && pageOf gpa 12 == pageOf (t.gpa ||| lowBits la t.size) 12 then t.spp else none
    | none => none
  | _ => none

/-- The SPP vector of a page: from what a cached mapping holds, as a free value has it, or by the lookup (R154, 46_caching.md R229,
R244 (ii)). -/
def sppVector (c : Cfg) (acc : GAccess) (gpa : Word) (x : Ctx) : Res Word :=
  match pick c x (x.st.cache.filterMap fun m => (sppHeld c x.st acc gpa m).map fun h => (m, h)) with
  | (some (m, .vector v), y) => .ok v (y.use m)
  | (some (m, .table above t), y) =>
    (sppTables c acc gpa above (above + 1) t (y.use m)).bind fun t' z => physRead64 c z (t' + 8#64 * gpaIndex gpa 1)
  | (none, y) => (sppVectorAddr c acc gpa y).bind fun a z => physRead64 c z a

/-- The vector allows every sub-page from `first`, `count` of them: bit 2S for sub-page S (R155, R157). -/
def sppAllows (v : Word) (first : Nat) : Nat → Bool
  | 0 => true
  | k + 1 => v.getLsbD (2 * first) && sppAllows v (first + 1) k

/-- The number of sub-pages that `size` bytes at an offset of a page touch (R155). -/
def sppCount (off size : Nat) : Nat := (off + size - 1) / 128 + 1 - off / 128

/-- `SppCheck` (R154): the write is allowed, or the event of the lookup, or the EPT violation of a sub-page that may not be
written. -/
def sppCheck (c : Cfg) (acc : GAccess) (gpa : Word) (w : Walk) (x : Ctx) : Res Unit :=
  (sppVector c acc gpa x).bind fun v y =>
    let off := (gpa &&& 0xFFF#64).toNat
    if (v &&& sppOddBits) != 0#64 then .raised (.sppMisconfig gpa acc.la) y
    else if sppAllows v (off / 128) (sppCount off acc.size) then .ok () y
    else .raised (violation y acc gpa w.rights none) y

end Sys2Proof.Machine
end

