-- ==== Sys2Proof/Machine/Pml.lean ====
section
/-! DEFINITION. Accessed and dirty flags for EPT and page-modification logging (44_ept_ad_pml.md). -/

namespace Sys2Proof.Machine

open Sys2Proof

/-- The log has an entry for the index: it is in 0 to 511 (R182, R183). -/
def State.pmlIndexOk (s : State) : Bool := s.vmcs.pmlIndex.toNat ≤ 511

/-- The physical address of the log entry that the PML index names (R183). -/
def State.pmlEntry (s : State) : Word := s.vmcs.pmlAddress + 8#64 * s.vmcs.pmlIndex.setWidth 64

/-- A page-modification log entry: the guest-physical address with bits 11:0 zero is written, then the index decremented, with
wrap (R184, R186). -/
def pmlLog (c : Cfg) (gpa : Word) (x : Ctx) : Res Unit :=
  (physWrite c x x.st.pmlEntry (bytesOfWord (gpa &&& ~~~0xFFF#64) 8)).bind fun _ y =>
    .ok () (y.mapSt fun s => s.withVmcs { s.vmcs with pmlIndex := s.vmcs.pmlIndex - 1#16 })

/-- The kept bits with both flags recorded as set (47_invalidation.md R308). -/
def LeafBits.flagged (b : LeafBits) : LeafBits := { b with accessed := true, dirty := true }

/-- A flag of an entry used is set: as it is in memory now, but of an entry that a cached mapping gave as the mapping recorded it (R177,
R181; log 28). -/
def entryFlag (c : Cfg) (cached recorded : Bool) (ea : Word) (bit : Nat) (x : Ctx) : Res Bool :=
  if cached then .ok recorded x else (physRead64 c x ea).bind fun e y => .ok (e.getLsbD bit) y

/-- The entries whose accessed flag must be set (R181 `needA`). -/
def needAccessed (c : Cfg) : List WalkEntry → Ctx → Res (List Word)
  | [], x => .ok [] x
  | u :: us, x =>
    (entryFlag c u.cached u.accessed u.addr 8 x).bind fun isSet y =>
      (needAccessed c us y).bind fun l z => .ok (if isSet then l else u.addr :: l) z

/-- The leaf entry's dirty flag must be set (R181 `needD`). -/
def needDirty (c : Cfg) (w : Walk) (acc : GAccess) (x : Ctx) : Res Bool :=
  if effKind x.st acc = .dataWrite then
    (entryFlag c w.leafCached w.leaf.dirty w.leafAddr 9 x).bind fun isSet y => .ok (!isSet) y
  else .ok false x

/-- The update of R181 once the flags to set are known: nothing to set, nothing done; else the log-full check, with nothing set if it
fails (R182); the accessed flags (R173), the dirty flag (R174), the log entry (R184). -/
def eptUpdateFlags (c : Cfg) (w : Walk) (gpa : Word) (needA : List Word) (needD : Bool) (x : Ctx) : Res Unit :=
  if needA = [] ∧ ¬ needD then .ok () x
  else if x.st.pmlOn && !x.st.pmlIndexOk then .raised (.pmlFull gpa) x
  else
    (setEntryBits c x 8 needA).bind fun _ y =>
      (setEntryBits c y 9 (if needD then [w.leafAddr] else [])).bind fun _ z =>
        if x.st.pmlOn && (needD || (c.pmlLogsOnAccessedUpdate && needA ≠ [])) then pmlLog c gpa z else .ok () z

/-- `EptSetAccessedDirty` (R181): which flags must be set, then the update. -/
def eptSetAccessedDirty (c : Cfg) (w : Walk) (acc : GAccess) (gpa : Word) (x : Ctx) : Res Unit :=
  (needAccessed c w.used x).bind fun needA y =>
    (needDirty c w acc y).bind fun needD z => eptUpdateFlags c w gpa needA needD z

end Sys2Proof.Machine
end

