-- ==== Sys2Proof/Machine/Access.lean ====
section
/-! DEFINITION. The access procedures every load, store and fetch goes through (42_ept_vmexits.md): an access to one
guest-physical address, the guest walk, an access by linear address. -/

namespace Sys2Proof.Machine

open Sys2Proof

/-- The APIC-access page in force holds a physical address (60_exceptions.md R312). -/
def apicHit (s : State) (pa : Word) : Bool := s.apicPage == some (pa >>> 12)

/-- A translation came from a cached mapping that was created when another APIC-access page, or none, was in force
(47_invalidation.md R305, R306). -/
def apicStale (s : State) (sources : List Mapping) : Bool :=
  sources.any fun m =>
    match m.apicPage with
    | some a => a != s.apicPage
    | none => false

/-- The APIC-access event of an access that translates to a physical address (R312). Through a stale cached mapping the event may fail
to appear, as a free value has it (47_invalidation.md R306; log 15). -/
def apicTest (c : Cfg) (sources : List Mapping) (pa : Word) (x : Ctx) : Res Unit :=
  if apicHit x.st pa then
    if apicStale x.st sources then
      match chooseBool c x with
      | (true, y) => .ok () y
      | (false, y) => .raised (.apicAccess pa) y
    else .raised (.apicAccess pa) x
  else .ok () x

/-- The end of an access that is allowed (R120): the accessed and dirty flags where EPTP bit 6 has them, then the physical address. -/
def eptPerform (c : Cfg) (acc : GAccess) (gpa : Word) (w : Walk) (x : Ctx) : Res Word :=
  if x.st.eptAd then (eptSetAccessedDirty c w acc gpa x).bind fun _ y => .ok w.pa y else .ok w.pa x

/-- Step 2 of an access to a guest-physical address (42_ept_vmexits.md R116, R120, R127): the permission check, with sub-page write
permissions for an eligible write; the APIC-access test, which an eligible write does not undergo (43_spp.md R152); the accessed and
dirty flags. It answers the physical address at which the access is performed. -/
def eptGrant (c : Cfg) (acc : GAccess) (gpa : Word) (w : Walk) (x : Ctx) : Res Word :=
  if eptAllowed x.st w.rights acc then
    (apicTest c w.sources w.pa x).bind fun _ y => eptPerform c acc gpa w y
  else if effKind x.st acc = .dataWrite then
    match sppEligible c x w acc with
    | (true, y) => (sppCheck c acc gpa w y).bind fun _ z => eptPerform c acc gpa w z
    | (false, y) => .raised (violation y acc gpa w.rights none) y
  else .raised (violation x acc gpa w.rights none) x

/-- A guest-physical address has no bit above 47 (41_ept_translation.md R86). -/
def gpaOk (gpa : Word) : Bool := gpa >>> 48 == 0#64

/-- The addresses and memory type of one granted access: what is reported of it. -/
structure Granted where
  pa : Word
  leaf : Option LeafBits
deriving DecidableEq, Repr

/-- `GuestPhysAccess` (R120): the translation, then the permission check and the flags. A guest-physical address with a bit above
47 set is refused (92_eei_decisions.md D25). -/
def guestPhysAccess (c : Cfg) (acc : GAccess) (gpa : Word) (x : Ctx) : Res Granted :=
  if !gpaOk gpa then .stopped (.refused .guestPhysicalAbove47)
  else
    (eptTranslate c acc gpa x).bind fun w y =>
      (eptGrant c acc gpa w y).bind fun pa z => .ok ⟨pa, some w.leaf⟩ z

/-- An access to an address that guest paging or a linear address gives: through EPT when it is in use, else the address is physical
(R123 to R125). -/
def addressAccess (c : Cfg) (acc : GAccess) (a : Word) (x : Ctx) : Res Granted :=
  if x.st.eptInUse then guestPhysAccess c acc a x
  else (apicTest c [] a x).bind fun _ y => .ok ⟨a, none⟩ y

/-- The access the processor makes to a guest paging-structure entry while translating a linear address (R124). -/
def pswalkAccess (kind : AccKind) (size : Nat) (la : Word) : GAccess :=
  ⟨kind, true, false, size, some la, false, .plain⟩

/-- The size of a guest paging-structure entry: 8 bytes or 4. DESIGN CHOICE (log 16): D15 leaves it open. -/
def guestEntrySize (c : Cfg) (s : State) : Nat := if c.guest.entry8 s.guestRegs then 8 else 4

/-- What a guest walk comes to: the entries used, the final (guest-)physical address, and the page's size in address bits. -/
structure GuestWalk where
  entries : List GuestEntry
  gpa : Word
  size : Nat
deriving DecidableEq, Repr

/-- A cached combined paging-structure-cache entry as the translation of an address in its table (46_caching.md R242, R244). -/
def walkOfCombPsc (m : CombPsc) (off : Word) : Walk :=
  ⟨m.table + off, m.rights, 1, m.leaf, m.leafAddr, true, recordedEntries m.used, [.combPsc m]⟩

/-- A granted access to a guest paging-structure entry or a PDPTE, with its effective memory type by the guest entries before it
(45_ept_memtype.md R202; log 39). -/
def typedAccess (c : Cfg) (s : State) (addr : Word) (g : Granted) (es : List GuestEntry) : TypedAccess :=
  ⟨addr, g.pa, g.leaf.bind fun b => effectiveMemType c s b es⟩

/-- One step of the guest walk for an access of a kind (R124 step 1), after the entries `es`: the entry is accessed, through a cached
mapping if one gave its table, then its present bit and reserved bits are tested. DESIGN CHOICE (log 28): the guest-physical address reported
of an entry in a table that a combined paging-structure-cache entry gave is the one in the table's recorded guest-physical address. -/
def guestEntry (c : Cfg) (kind : AccKind) (la : Word) (es : List GuestEntry) (level : Nat) (table : Word) (cached : Option CombPsc)
    (x : Ctx) : Res GuestEntry :=
  let off := (c.guest.entryOffset x.st.guestRegs level la).setWidth 64
  let size := guestEntrySize c x.st
  let acc := pswalkAccess .dataRead size la
  let found : Res Granted :=
    match cached with
    | some m => (eptGrant c acc (table + off) (walkOfCombPsc m off) x).bind fun pa y => .ok ⟨pa, some m.leaf⟩ y
    | none => addressAccess c acc (table + off) x
  found.bind fun g y =>
    (physRead c (y.note (typedAccess c y.st (table + off) g es)) g.pa size).bind fun bs z =>
      let ge : GuestEntry := ⟨table + off, wordOfBytes bs⟩
      if c.guest.notPresentOrReserved z.st.guestRegs level ge.value then
        .raised (.pageFault la (c.guest.faultCode z.st.guestRegs (es ++ [ge]) kind)) z
      else .ok ge z

/-- The guest walk (R124 step 1, R125) from the level after `n` further ones, at a table, with the entries so far. The
last level's entry maps a page whatever it holds (log 16). -/
def guestWalkFrom (c : Cfg) (kind : AccKind) (la : Word) : Nat → Word → List GuestEntry → Ctx → Res GuestWalk
  | n, table, es, x =>
    let level := n + 1
    (guestEntry c kind la es level table none x).bind fun ge y =>
      let regs := y.st.guestRegs
      let done : Res GuestWalk :=
        .ok ⟨es ++ [ge], c.guest.finalGpa regs level ge.value la, c.guest.regionBits regs level⟩ y
      match n with
      | 0 => done
      | k + 1 =>
        if c.guest.referencesTable regs level ge.value then
          guestWalkFrom c kind la k (c.guest.nextTable regs level ge.value) (es ++ [ge]) y
        else done

/-- The guest walk from its start (R124): the table that CR3 or a PDPTE register gives. -/
def guestWalk (c : Cfg) (kind : AccKind) (la : Word) (x : Ctx) : Res GuestWalk :=
  guestWalkFrom c kind la (c.guest.levels x.st.guestRegs - 1) (c.guest.startTable x.st.guestRegs la) [] x

/-- An entry as it stands with the bits changed in which two values differ (20_memory.md R45: nothing else of it is lost). -/
def changeBits (old new now : Word) : Word := (now &&& ~~~(old ^^^ new)) ||| (new &&& (old ^^^ new))

/-- `setAccessedDirty` (R124): each guest entry whose value changes is updated, by an access of kind DataWrite of the processor's own;
`es` are the entries already done. DESIGN CHOICE: the root entry is updated first, which decides whose EPT-induced exit is reported (log
16); of a cached linear or combined translation, and of a linear or combined paging-structure-cache entry that a walk went on from, the
entries are those it recorded, at their recorded addresses and with their recorded values, and the record stays as it is; and a combined
paging-structure-cache entry that gave a guest entry's address does not stand for the EPT translation of the update (log 28). -/
def guestSetFlags (c : Cfg) (la : Word) (es : List GuestEntry) : List (GuestEntry × Word) → Ctx → Res Unit
  | [], x => .ok () x
  | (ge, v) :: rest, x =>
    if ge.value = v then guestSetFlags c la (es ++ [ge]) rest x
    else
      (addressAccess c (pswalkAccess .dataWrite (guestEntrySize c x.st) la) ge.addr x).bind fun g y =>
        (physUpdate c (y.note (typedAccess c y.st ge.addr g es)) g.pa (guestEntrySize c y.st) (changeBits ge.value v)).bind fun _ z =>
          guestSetFlags c la (es ++ [ge]) rest z

/-- Step 2 of the guest walk (R124): a page fault where the guest's entries do not allow the access, else their flags. -/
def guestPermit (c : Cfg) (kind : AccKind) (la : Word) (es : List GuestEntry) (x : Ctx) : Res Unit :=
  if !c.guest.allowed x.st.guestRegs es kind then .raised (.pageFault la (c.guest.faultCode x.st.guestRegs es kind)) x
  else guestSetFlags c la [] (es.zip (c.guest.flagged x.st.guestRegs es kind)) x

/-- The kind of a software access. -/
def AccOp.kind : AccOp → AccKind
  | .read _ => .dataRead
  | .write _ => .dataWrite
  | .fetch _ => .fetch

/-- The number of bytes of a software access. -/
def AccOp.size : AccOp → Nat
  | .read n => n
  | .write bs => bs.length
  | .fetch n => n

/-- One part of a software access: bytes within one 4-KByte page. -/
structure Part where
  kind : AccKind
  la : Word
  size : Nat
  crosses : Bool
  origin : Origin
deriving DecidableEq, Repr

/-- The access that a part makes to the address its linear address translates to. -/
def Part.gaccess (p : Part) (user : Bool) : GAccess := ⟨p.kind, false, user, p.size, some p.la, p.crosses, p.origin⟩

/-- A linear address is a user-mode address as the guest's entries say; without paging, never (R114). -/
def userAddress (c : Cfg) (s : State) (es : List GuestEntry) : Bool := s.pg && c.guest.isUser s.guestRegs es

/-- A cached combined translation as the result of a translation (46_caching.md R242, R244). -/
def walkOfCombTr (m : CombTr) (la : Word) : Walk :=
  ⟨m.frame + lowBits la m.size, m.rights, 1, m.leaf, m.leafAddr, true, recordedEntries m.used, [.combTr m]⟩

/-- What is reported of a performed part that EPT translated: memory types by R200 and R207. -/
def eptPart (c : Cfg) (s : State) (p : Part) (gpa pa : Word) (leaf : LeafBits) (guest : List GuestEntry) : PartDone :=
  ⟨p.la, some gpa, pa, p.size, effectiveMemType c s leaf guest, s.eptStructMemType, none, []⟩

/-- What is reported of a performed part that EPT did not translate. -/
def plainPart (p : Part) (pa : Word) (pat : Option PatType) : PartDone :=
  ⟨p.la, none, pa, p.size, none, none, pat, []⟩

/-- A part through a cached combined translation: the guest's rights, then step 2 of R120 with what the mapping recorded. Its memory
type is what the paging structures gave when the mapping was created (46_caching.md R228), but UC with CR0.CD as it is now
(45_ept_memtype.md R203). DESIGN CHOICE (log 48): one that was created without paging (R236) has no guest entries, and with paging the guest's
rights are what `GuestPaging` says of the empty list of entries; and the guest-physical address that an EPT violation, a sub-page event or a
page-modification log entry of the access reports is the one the mapping recorded (log 28). -/
def accessByCombTr (c : Cfg) (p : Part) (m : CombTr) (x : Ctx) : Res PartDone :=
  let permitted : Res Unit := if x.st.pg then guestPermit c p.kind p.la m.guest x else .ok () x
  permitted.bind fun _ y =>
    let gpa := m.gpa ||| lowBits p.la m.size
    (eptGrant c (p.gaccess (userAddress c y.st m.guest)) gpa (walkOfCombTr m p.la) y).bind fun pa z =>
      .ok { eptPart c z.st p gpa pa m.leaf m.guest with memType := if z.st.cd then some .uc else m.memType } z

/-- A part through a cached linear translation (R240). -/
def accessByLinearTr (c : Cfg) (p : Part) (m : LinearTr) (x : Ctx) : Res PartDone :=
  (guestPermit c p.kind p.la m.guest x).bind fun _ y =>
    let pa := m.frame + lowBits p.la m.size
    (apicTest c [.linearTr m] pa y).bind fun _ z => .ok (plainPart p pa (some m.memType)) z

/-- The end of a part after its guest walk (R124): the guest's rights and flags, then the access to the final address. -/
def accessAfterWalk (c : Cfg) (p : Part) (gw : GuestWalk) (x : Ctx) : Res PartDone :=
  (guestPermit c p.kind p.la gw.entries x).bind fun _ y =>
    (addressAccess c (p.gaccess (userAddress c y.st gw.entries)) gw.gpa y).bind fun g z =>
      .ok
        (match g.leaf with
          | some leaf => eptPart c z.st p gw.gpa g.pa leaf gw.entries
          | none => plainPart p g.pa (some (patMemType c z.st gw.entries))) z

/-- A linear address without paging (R123, R125): it is the guest-physical address when EPT is in use, else the physical one. -/
def accessUnpaged (c : Cfg) (p : Part) (x : Ctx) : Res PartDone :=
  (addressAccess c (p.gaccess false) p.la x).bind fun g z =>
    .ok
      (match g.leaf with
        | some leaf => eptPart c z.st p p.la g.pa leaf []
        | none => plainPart p g.pa none) z

/-- What the translation of a linear address by the guest's tables comes to: a walk, or a cached translation in place of one. -/
inductive GuestFound where
  | walk (gw : GuestWalk)
  | comb (m : CombTr)
  | linear (m : LinearTr)
deriving DecidableEq, Repr

/-- The guest walk from a level on (R124 step 1, R125, 46_caching.md R244 (ii)): at each entry a usable cached mapping, as a free value
has it, or the entry. DESIGN CHOICE (log 28): a walk that goes on from a linear or combined paging-structure-cache entry has the guest
entries that the cached one recorded before those it reads, so that the guest's rights, flags and memory type come from the recorded values, and
accessed flags are set at the recorded addresses. The first argument bounds the entries left; it is never used up, since the last level's
entry maps a page whatever it holds (log 16). -/
def guestFindFrom (c : Cfg) (kind : AccKind) (la : Word) :
    Nat → Nat → Word → Option CombPsc → List GuestEntry → Ctx → Res GuestFound
  | 0, _, _, _, _, _ => .stopped (.fault .noSuchPhysicalAddress)
  | fuel + 1, level, table, cached, es, x =>
    match pick c x (x.st.cache.filter (linearUsable c x.st la level)) with
    | (some (.combTr m), y) => .ok (.comb m) (y.use (.combTr m))
    | (some (.linearTr m), y) => .ok (.linear m) (y.use (.linearTr m))
    | (some (.linearPsc m), y) => guestFindFrom c kind la fuel (m.level - 1) m.table none m.guest (y.use (.linearPsc m))
    | (some (.combPsc m), y) => guestFindFrom c kind la fuel (m.level - 1) m.tableGpa (some m) m.guest (y.use (.combPsc m))
    | (_, y) =>
      (guestEntry c kind la es level table cached y).bind fun ge z =>
        let regs := z.st.guestRegs
        if level ≠ 1 ∧ c.guest.referencesTable regs level ge.value then
          guestFindFrom c kind la fuel (level - 1) (c.guest.nextTable regs level ge.value) none (es ++ [ge]) z
        else .ok (.walk ⟨es ++ [ge], c.guest.finalGpa regs level ge.value la, c.guest.regionBits regs level⟩) z

/-- How many levels a guest walk has: at least one. -/
def guestLevels (c : Cfg) (s : State) : Nat := max 1 (c.guest.levels s.guestRegs)

/-- The translation of a linear address by the guest's tables from its start (R124): the table that CR3 or a PDPTE register gives. -/
def guestFind (c : Cfg) (kind : AccKind) (la : Word) (x : Ctx) : Res GuestFound :=
  guestFindFrom c kind la (guestLevels c x.st) (guestLevels c x.st) (c.guest.startTable x.st.guestRegs la) none [] x

/-- A part of an access with paging (R124, R125). -/
def accessPaged (c : Cfg) (p : Part) (x : Ctx) : Res PartDone :=
  (guestFind c p.kind p.la x).bind fun f y =>
    match f with
    | .walk gw => accessAfterWalk c p gw y
    | .comb m => accessByCombTr c p m y
    | .linear m => accessByLinearTr c p m y

/-- One part of an access by linear address (R123 to R125). Without paging the linear address is the guest-physical one, refused with a bit
above 47 set (92_eei_decisions.md D25), and a cached combined translation may be used (46_caching.md R236, R242), as a free value has
it. -/
def accessPart (c : Cfg) (p : Part) (x : Ctx) : Res PartDone :=
  if x.st.pg then accessPaged c p x
  else if x.st.eptInUse && !gpaOk p.la then .stopped (.refused .guestPhysicalAbove47)
  else
    match pick c x (x.st.cache.filter (linearUsable c x.st p.la 1)) with
    | (some (.combTr m), y) => accessByCombTr c p m (y.use (.combTr m))
    | (_, y) => accessUnpaged c p y

/-- The parts of `size` bytes at a linear address, one for each 4-KByte page, lower page first (20_memory.md R44); after the last linear
address comes the first (log 13). -/
def pageParts (c : Cfg) (s : State) : Nat → Word → Nat → List (Word × Nat)
  | 0, _, _ => []
  | fuel + 1, la, size =>
    let room := 4096 - (la &&& 0xFFF#64).toNat
    if size = 0 then []
    else if size ≤ room then [(la, size)]
    else (la, room) :: pageParts c s fuel (s.linWrap c (la + BitVec.ofNat 64 room)) (size - room)

/-- The parts of a software access (R44), at a linear address as wide as the guest's paging has them (10_state.md R27). -/
def Access.parts (c : Cfg) (s : State) (a : Access) : List Part :=
  let ps := pageParts c s a.op.size (s.linWrap c a.la) a.op.size
  ps.map fun q => ⟨a.op.kind, q.1, q.2, decide (1 < ps.length), a.origin⟩

/-- Every part translated and checked, in order (R44), each with the accesses to guest paging-structure entries made for it. -/
def accessParts (c : Cfg) : List Part → Ctx → Res (List PartDone)
  | [], x => .ok [] x
  | p :: ps, x =>
    (accessPart c p { x with typed := [] }).bind fun d y =>
      (accessParts c ps y).bind fun ds z => .ok ({ d with walk := y.typed } :: ds) z

/-- The bytes of the parts read, in order. DESIGN CHOICE (log 45): the lower page is read first. -/
def readParts (c : Cfg) : List PartDone → Ctx → Res (List Byte)
  | [], x => .ok [] x
  | d :: ds, x =>
    (physRead c x d.pa d.size).bind fun bs y => (readParts c ds y).bind fun cs z => .ok (bs ++ cs) z

/-- The bytes of the parts written, in order. DESIGN CHOICE (log 45): the lower page is written first. -/
def writeParts (c : Cfg) : List PartDone → List Byte → Ctx → Res Unit
  | [], _, x => .ok () x
  | d :: ds, bs, x =>
    (physWrite c x d.pa (bs.take d.size)).bind fun _ y => writeParts c ds (bs.drop d.size) y

/-- An access by linear address (R123 to R125, 20_memory.md R44): no part of it is performed unless every part is allowed. It answers
what is reported of its parts and the bytes read. -/
def linearAccess (c : Cfg) (a : Access) (x : Ctx) : Res (List PartDone × List Byte) :=
  (accessParts c (a.parts c x.st) x).bind fun ds y =>
    match a.op with
    | .read _ => (readParts c ds y).bind fun bs z => .ok (ds, bs) z
    | .fetch _ => (readParts c ds y).bind fun bs z => .ok (ds, bs) z
    | .write bs => (writeParts c ds bs y).bind fun _ z => .ok (ds, []) z

end Sys2Proof.Machine
end

