-- ==== Sys2Proof/Machine/Operands.lean ====
section
/-! DEFINITION. Operands (30_encoding.md R61, R62, R65): the code size, register operands, the linear address of a memory operand.
PRESUMED from the family where the spec names a part without its arithmetic (log 1). -/

namespace Sys2Proof.Machine

open Sys2Proof

/-- The code size of the current code: 64-bit mode, or 32 or 16 bits (R61, R62). -/
def State.codeSize (s : State) : CodeSize :=
  match s.cpuMode with
  | .realAddress => .b16
  | .virtual8086 => .b16
  | .protectedMode => if s.csDefault32 then .b32 else .b16
  | .compatibility => if s.csDefault32 then .b32 else .b16
  | .long64 => .b64

/-- The low 16 bits of a word, zero-extended. -/
def low16 (w : Word) : Word := w &&& 0xFFFF#64

/-- A value as wide as the mode's registers and addresses: 64 bits in 64-bit mode, else 32 bits zero-extended. -/
def State.modeWrap (s : State) (w : Word) : Word := if s.cpuMode == .long64 then w else low32 w

/-- A register operand (R62, R65). -/
def State.regOperand (s : State) (r : Reg) : Word := s.modeWrap (s.gpr.get r)

/-- The value of a base register, or 0 for none. -/
def State.baseValue (s : State) (r : Option Reg) : Word :=
  match r with
  | some b => s.gpr.get b
  | none => 0#64

/-- An address truncated to its address size (R62). -/
def wrapAddr (a : AddrSize) (w : Word) : Word :=
  match a with
  | .a16 => low16 w
  | .a32 => low32 w
  | .a64 => w

/-- The effective address of a memory operand (R62): base, scaled index, displacement, and RIP where it is relative to it. RIP is
already past the instruction. -/
def State.effAddr (s : State) (m : MemOp) : Word :=
  wrapAddr m.size
    (s.baseValue m.base + (s.baseValue m.index <<< m.scale.toNat) + m.disp.signExtend 64 + (if m.ripRel then s.rip else 0#64))

/-- A segment register. -/
def State.segOf (s : State) : Seg → Segment
  | .es => s.segs.get 0
  | .cs => s.segs.get 1
  | .ss => s.segs.get 2
  | .ds => s.segs.get 3
  | .fs => s.segs.get 4
  | .gs => s.segs.get 5

/-- The segment of a memory operand: its override, else SS for a base of SP or BP, else DS. -/
def segmentOf (m : MemOp) : Seg :=
  match m.seg with
  | some g => g
  | none => if m.base = some 4 ∨ m.base = some 5 then .ss else .ds

/-- A segment base and an offset make a linear address: in 64-bit mode only FS and GS have a base. PRESUMED (log 1): outside it the sum
has 32 bits. -/
def State.linear (s : State) (g : Seg) (offset : Word) : Word :=
  s.modeWrap (if s.cpuMode == .long64 ∧ g ≠ .fs ∧ g ≠ .gs then offset else (s.segOf g).base + offset)

/-- The linear address of a memory operand (R62). -/
def State.linearAddr (s : State) (m : MemOp) : Word := s.linear (segmentOf m) (s.effAddr m)

/-- The linear address of the instruction byte at a distance from RIP. -/
def State.fetchAddr (s : State) (k : Nat) : Word := s.linear .cs (s.rip + BitVec.ofNat 64 k)

/-- A canonical address of 48 bits. PRESUMED (log 33): the spec does not say which addresses are canonical. -/
def canonical (a : Word) : Bool := (a.setWidth 48).signExtend 64 == a

/-- The `n` bytes of a memory operand may be read through its segment (47_invalidation.md R276). PRESUMED (log 33): in 64-bit mode their
addresses are canonical; elsewhere the segment may be read and allows their offsets. -/
def State.segmentAllows (s : State) (m : MemOp) (n : Nat) : Bool :=
  if s.cpuMode == .long64 then canonical (s.linearAddr m) && canonical (s.linearAddr m + BitVec.ofNat 64 (n - 1))
  else
    (s.segOf (segmentOf m)).readable && (s.segOf (segmentOf m)).first.toNat ≤ (s.effAddr m).toNat &&
      (s.effAddr m).toNat + n ≤ (s.segOf (segmentOf m)).last.toNat + 1

/-- The fault of a memory operand that its segment does not allow: a stack fault for SS, else a general-protection fault (R276). -/
def segmentFault (m : MemOp) : Event := if segmentOf m = .ss then .ss0 else .gp0

/-- RIP moved past an instruction of a length: 64 bits in 64-bit mode, else 32. -/
def State.advance (s : State) (len : Nat) : State := s.withRip (s.modeWrap (s.rip + BitVec.ofNat 64 len))

end Sys2Proof.Machine
end

