-- ==== Sys2Proof/Machine/Invalidation.lean ====
section
/-! DEFINITION. INVVPID and INVEPT (47_invalidation.md R270 to R287), the architectural TLB-invalidating operations (R262, R263)
and INVLPG. -/

namespace Sys2Proof.Machine

open Sys2Proof

/-! The tests the two instructions share. -/

/-- Tests (1) to (3) of R276 and R284: the event an INVVPID or INVEPT raises before it looks at its operands. -/
def vmxCheck (i : ExitInstr) (s : State) : Option Event :=
  if s.mode == .outsideVmx || s.cpuMode == .realAddress || s.cpuMode == .virtual8086 || s.cpuMode == .compatibility then some .ud
  else if s.mode == .nonRoot then some (.instr i)
  else if s.cpl != 0#2 then some .gp0
  else none

/-- A value is below 2^N. Every N is at least 32. -/
def belowWidth (c : Cfg) (w : Word) : Bool := w.toNat < 2 ^ 32 || w.toNat < 2 ^ c.width

/-- `EptpValid` (R284 (6)). -/
def eptpValid (c : Cfg) (e : Word) : Bool :=
  c.eptpMemTypeOk (e.extractLsb' 0 3) && e.extractLsb' 3 3 == 3#3 && (!e.getLsbD 6 || c.eptAdSupported) && e.extractLsb' 7 5 == 0#5 &&
    belowWidth c e

/-! INVVPID. -/

/-- The VPID of an INVVPID descriptor (30_encoding.md R64). -/
def descVpid (d : BitVec 128) : BitVec 16 := d.extractLsb' 0 16

/-- The reserved bits 63:16 of an INVVPID descriptor (R64). -/
def descReserved (d : BitVec 128) : BitVec 48 := d.extractLsb' 16 48

/-- The upper 64 bits of a descriptor: the linear address of INVVPID, reserved for INVEPT (R64). -/
def descHigh (d : BitVec 128) : Word := d.extractLsb' 64 64

/-- The EPTP of an INVEPT descriptor (R64). -/
def descEptp (d : BitVec 128) : Word := d.extractLsb' 0 64

/-- INVVPID's operands are valid: R276 (4) to (7). -/
def invvpidValid (c : Cfg) (type : Word) (d : BitVec 128) : Bool :=
  (type.toNat < 4 && c.invvpidTypes.getLsbD type.toNat) && descReserved d == 0#48 && (type == 2#64 || descVpid d != 0#16) &&
    (type != 0#64 || canonical (descHigh d))

/-- `Required(INVVPID)` (R271 to R274). -/
def invvpidRequired (type : Word) (d : BitVec 128) (m : Mapping) : Bool :=
  m.isLinearOrCombined &&
  (if type = 0#64 then m.hasVpid (descVpid d) && m.coversLa (descHigh d)
   else if type = 1#64 then m.hasVpid (descVpid d)
   else if type = 2#64 then !m.hasVpid 0#16
   else m.hasVpid (descVpid d) && !m.isGlobal)

/-- INVVPID with its operands (R277). -/
def invvpidOp (c : Cfg) (type : Word) (d : BitVec 128) (s : State) : State :=
  match vmxCheck .invvpid s with
  | some e => deliver c e s
  | none => if invvpidValid c type d then vmSucceed (invalidate c (invvpidRequired type d) s) else vmFail 28 s

/-! INVEPT. -/

/-- INVEPT's operands are valid: R284 (4) to (6). -/
def inveptValid (c : Cfg) (type : Word) (d : BitVec 128) : Bool :=
  ((type == 1#64 && c.inveptTypes.getLsbD 1) || (type == 2#64 && c.inveptTypes.getLsbD 2)) && descHigh d == 0#64 &&
    (type != 1#64 || eptpValid c (descEptp d))

/-- `Required(INVEPT)` (R281, R282). -/
def inveptRequired (type : Word) (d : BitVec 128) (m : Mapping) : Bool :=
  m.isGPhysOrCombined && (if type = 1#64 then m.hasEp4ta (ep4taOf (descEptp d)) else true)

/-- INVEPT with its operands (R285). -/
def inveptOp (c : Cfg) (type : Word) (d : BitVec 128) (s : State) : State :=
  match vmxCheck .invept s with
  | some e => deliver c e s
  | none => if inveptValid c type d then vmSucceed (invalidate c (inveptRequired type d) s) else vmFail 28 s

/-! The instructions. -/

/-- A descriptor from its 16 bytes, little-endian (30_encoding.md R64). -/
def descOfBytes (bs : List Byte) : BitVec 128 := wordOfBytes (bs.drop 8) ++ wordOfBytes (bs.take 8)

/-- The read of a descriptor (R64): 16 bytes at the linear address of the memory operand. -/
def descAccess (s : State) (m : MemOp) : Access := ⟨.read 16, s.linearAddr m, .plain⟩

/-- An instruction with a type register and a descriptor in memory: tests (1) to (3) come before the descriptor is read, the read
before the tests of the operands (log 37). A fault of the read is delivered as for any memory operand (R276): a general-protection or
stack fault where its segment does not allow it, else the event of the access. -/
def descInstr (c : Cfg) (i : ExitInstr) (op : Word → BitVec 128 → State → State) (r : Reg) (m : MemOp) (s : State) :
    Host.Outcome State Fault Refusal :=
  match vmxCheck i s with
  | some e => .next (deliver c e s)
  | none =>
    if s.segmentAllows m 16 then
      (linearAccess c (descAccess s m) (Ctx.start s)).outcome c s fun q t =>
        .next (op (s.regOperand r) (descOfBytes q.2) t)
    else .next (deliver c (segmentFault m) s)

/-- INVEPT (30_encoding.md R62, 47_invalidation.md R280 to R285). -/
def execInvept (r : Reg) (m : MemOp) (s : State) : Host.Outcome State Fault Refusal :=
  descInstr Config.cfg .invept (inveptOp Config.cfg) r m s

/-- INVVPID (30_encoding.md R63, 47_invalidation.md R270 to R277). -/
def execInvvpid (r : Reg) (m : MemOp) (s : State) : Host.Outcome State Fault Refusal :=
  descInstr Config.cfg .invvpid (invvpidOp Config.cfg) r m s

/-! The architectural TLB-invalidating operations. -/

/-- `Selected(op, m)` (R262, R263). -/
def tlbSelected (c : Cfg) (s : State) (op : TlbOp) (m : Mapping) : Bool :=
  match op with
  | .invlpg a =>
    (m.coversLa (s.linWrap c a) && m.hasPcid (s.currentPcid c)) || m.isGlobal || (m.isPsc && m.hasPcid (s.currentPcid c))
  | .allButGlobal => !m.isGlobal
  | .all => true
  | .other n => c.guest.selected s.guestRegs n m

/-- `Required(op)` (R262): linear and combined mappings of the current VPID that the operation selects, whether or not EPT is in
use, combined ones for all EP4TAs. -/
def tlbRequired (c : Cfg) (s : State) (op : TlbOp) (m : Mapping) : Bool :=
  m.isLinearOrCombined && m.hasVpid s.currentVpid && tlbSelected c s op m

/-- An architectural TLB-invalidating operation (R262) that is performed: no VM exit takes its place (log 47). -/
def tlbOp (c : Cfg) (op : TlbOp) (s : State) : State := (invalidate c (tlbRequired c s op) s).withReport .ok

/-- INVLPG at a configuration (R263): the linear address of its operand; a VM exit where the VMM configured one (R301). -/
def invlpgWith (c : Cfg) (m : MemOp) (s : State) : Host.Outcome State Fault Refusal :=
  if s.mode == .nonRoot && s.vmcs.exitOnInvlpg then .next (deliver c (.instr .invlpg) s)
  else .next (tlbOp c (.invlpg (s.linearAddr m)) s)

/-- INVLPG (30_encoding.md R65, 47_invalidation.md R262, R263). -/
def execInvlpg (m : MemOp) (s : State) : Host.Outcome State Fault Refusal := invlpgWith Config.cfg m s

end Sys2Proof.Machine
end

