-- ==== Sys2Proof/Machine/ControlRegs.lean ====
section
/-! DEFINITION. MOV to CR3 and MOV to CR4 (41_ept_translation.md R88, R89, 47_invalidation.md R262, R263). -/

namespace Sys2Proof.Machine

open Sys2Proof

/-- The access that loads a PDPTE register: a data read of 8 bytes (R89); no linear address is translated. -/
def pdpteAccess : GAccess := ⟨.dataRead, false, false, 8, none, false, .plain⟩

/-- One PDPTE: its guest-physical address is translated through EPT, its value is not (R89). -/
def readPdpte (c : Cfg) (i : Nat) (x : Ctx) : Res Word :=
  let gpa := c.guest.pdptBase x.st.guestRegs + BitVec.ofNat 64 (8 * i)
  (guestPhysAccess c pdpteAccess gpa x).bind fun g y => physRead64 c (y.note (typedAccess c y.st gpa g [])) g.pa

/-- The PDPTE load (R89): the four registers, in order. -/
def loadPdptes (c : Cfg) (x : Ctx) : Res Unit :=
  (readPdpte c 0 x).bind fun v0 x0 =>
    (readPdpte c 1 x0).bind fun v1 x1 =>
      (readPdpte c 2 x1).bind fun v2 x2 =>
        (readPdpte c 3 x2).bind fun v3 x3 => .ok () (x3.mapSt fun s => s.withPdpte #v[v0, v1, v2, v3])

/-- The PDPTE load takes place: with PAE paging and EPT in use (R89). -/
def pdpteLoaded (c : Cfg) (s : State) : Bool := s.eptInUse && c.guest.usesPae s.guestRegs

/-- The PDPTE load where it takes place; elsewhere the loaded address is not used (R88). It answers what is reported: the accesses made. -/
def pdpteLoad (c : Cfg) (x : Ctx) : Res Report :=
  if pdpteLoaded c x.st then (loadPdptes c x).bind fun _ y => .ok (.loaded y.typed) y else .ok .ok x

/-- What MOV to CR3 and MOV to CR4 share: the register already written in `s1`, the PDPTE load, the invalidation class. DESIGN CHOICE (log
46): whether PAE paging is in use is judged with the register as written. An event of the load is taken in `s`, with nothing changed
(92_eei_decisions.md D28). -/
def movCr (c : Cfg) (op : TlbOp) (s s1 : State) : Host.Outcome State Fault Refusal :=
  (pdpteLoad c (Ctx.start s1)).outcome c s fun report t => .next ((tlbOp c op t).withReport report)

/-- MOV to CR3 at a configuration: of the class that keeps global translations (R263); a VM exit where the VMM configured one
(R301). -/
def movCr3With (c : Cfg) (r : Reg) (s : State) : Host.Outcome State Fault Refusal :=
  if s.mode == .nonRoot && s.vmcs.exitOnMovCr3 then .next (deliver c (.instr .movCr3) s)
  else movCr c .allButGlobal s (s.withCr3 (s.regOperand r))

/-- MOV to CR4 at a configuration: of the class that includes global translations (R263); a VM exit where the VMM configured one
(R301). -/
def movCr4With (c : Cfg) (r : Reg) (s : State) : Host.Outcome State Fault Refusal :=
  if s.mode == .nonRoot && s.vmcs.exitOnMovCr4 then .next (deliver c (.instr .movCr4) s)
  else movCr c .all s (s.withCr4 (s.regOperand r))

/-- MOV to CR3 (30_encoding.md R65). -/
def execMovCr3 (r : Reg) (s : State) : Host.Outcome State Fault Refusal := movCr3With Config.cfg r s

/-- MOV to CR4 (30_encoding.md R65). -/
def execMovCr4 (r : Reg) (s : State) : Host.Outcome State Fault Refusal := movCr4With Config.cfg r s

end Sys2Proof.Machine
end

