-- ==== Sys2Proof/Machine/Cpuid.lean ====
section
/-! DEFINITION. CPUID (00_scope.md R3, 10_state.md R23, 30_encoding.md R65). -/

namespace Sys2Proof.Machine

open Sys2Proof

/-- The leaf that an execution of CPUID asks for: EAX (30_encoding.md R65). -/
def State.cpuidLeaf (s : State) : Word := low32 (s.gpr.get 0)

/-- CPUID.1:ECX[5], the VMX bit (R3). -/
def vmxBit (c : Cfg) (ecx : Word) : Word := putBits ecx 0x20#64 (bitIf c.vmxSupported 5)

/-- CPUID at a configuration: leaf 1 has the VMX bit in ECX[5]; every other bit of EAX, EBX, ECX and EDX is a free value (log 11). -/
def cpuidState (c : Cfg) (s : State) : State :=
  let n := s.freeCtr
  let ecx := low32 (c.free (n + 1))
  (((s.withGpr
      ((((s.gpr.set 0 (low32 (c.free n))).set 1 (if s.cpuidLeaf = 1#64 then vmxBit c ecx else ecx)).set 2
        (low32 (c.free (n + 2)))).set 3 (low32 (c.free (n + 3))))).bump 4)).withReport .ok

/-- CPUID (30_encoding.md R65). -/
def execCpuid (s : State) : Host.Outcome State Fault Refusal := .next (cpuidState Config.cfg s)

end Sys2Proof.Machine
end

