-- ==== Sys2Proof/Machine/Vmx.lean ====
section
/-! DEFINITION. VMXON and VMXOFF (47_invalidation.md R297, R298). -/

namespace Sys2Proof.Machine

open Sys2Proof

/-- VMX operation entered or left: nothing is required to go from the caches, anything may (R297, R298). -/
def vmxSwitch (c : Cfg) (m : Mode) (s : State) : State := ((invalidate c (fun _ => false) s).withMode m).withReport .ok

/-- VMXON (R297): the processor is in VMX root operation. What the operand's region holds is outside the spec (log 18). -/
def execVmxon (_region : MemOp) (s : State) : Host.Outcome State Fault Refusal := .next (vmxSwitch Config.cfg .root s)

/-- VMXOFF (R297): the processor is outside VMX operation. -/
def execVmxoff (s : State) : Host.Outcome State Fault Refusal := .next (vmxSwitch Config.cfg .outsideVmx s)

end Sys2Proof.Machine
end

