-- ==== Sys2Proof/Machine/Dispatch.lean ====
section
/-! DEFINITION. One arm per instruction. -/

namespace Sys2Proof.Machine

open Sys2Proof

def exec (i : Instr) (s : State) : Host.Outcome State Fault Refusal :=
  match i with
  | .invept type desc => Sys2Proof.Machine.execInvept type desc s
  | .invvpid type desc => Sys2Proof.Machine.execInvvpid type desc s
  | .movCr3 src => Sys2Proof.Machine.execMovCr3 src s
  | .movCr4 src => Sys2Proof.Machine.execMovCr4 src s
  | .invlpg addr => Sys2Proof.Machine.execInvlpg addr s
  | .vmxon region => Sys2Proof.Machine.execVmxon region s
  | .vmxoff => Sys2Proof.Machine.execVmxoff s
  | .cpuid => Sys2Proof.Machine.execCpuid s

end Sys2Proof.Machine
end

