-- ==== Sys2Proof/WellFormed.lean ====
section
/-! DEFINITION. Which instructions an encoding exists for, by code size. -/

namespace Sys2Proof

/-- Registers 8 to 15 need a REX prefix, which exists in 64-bit mode only (30_encoding.md R61). -/
def Reg.ok (cs : CodeSize) (r : Reg) : Bool :=
  match cs with
  | .b64 => true
  | _ => r.val < 8

/-- The code size or its address-size override gives the operand's address size (R62). -/
def AddrSize.ok (cs : CodeSize) (a : AddrSize) : Bool :=
  match cs, a with
  | .b64, .a16 => false
  | .b64, _ => true
  | _, .a64 => false
  | _, _ => true

/-- The base and index pairs of 16-bit addressing: BX or BP, SI or DI. -/
def MemOp.pairs16 : List (Option Reg × Option Reg) :=
  [(some 3, some 6), (some 3, some 7), (some 5, some 6), (some 5, some 7), (some 6, none), (some 7, none), (some 5, none),
    (some 3, none), (none, none)]

/-- The parts of a memory operand fit together: 16-bit addressing has its own pairs, no scale and a 16-bit displacement; SP is no
index; an absent index has no scale; RIP-relative addressing is of 64-bit mode and has neither base nor index. -/
def MemOp.ok (cs : CodeSize) (m : MemOp) : Bool :=
  m.size.ok cs &&
  match m.size with
  | .a16 =>
    decide ((m.base, m.index) ∈ MemOp.pairs16) && m.scale == 0#2 && !m.ripRel &&
      (m.disp.truncate 16).signExtend 32 == m.disp
  | _ =>
    if m.ripRel then cs == .b64 && m.base == none && m.index == none && m.scale == 0#2
    else
      (match m.base with
        | some b => b.ok cs
        | none => true) &&
      (match m.index with
        | some i => i.ok cs && i != 4
        | none => m.scale == 0#2)

/-- A well-formed instruction of a code size: one that `encode` gives the bytes of. -/
def Instr.wellFormed (cs : CodeSize) : Instr → Bool
  | .invept r m => r.ok cs && m.ok cs
  | .invvpid r m => r.ok cs && m.ok cs
  | .movCr3 r => r.ok cs
  | .movCr4 r => r.ok cs
  | .invlpg m => m.ok cs
  | .vmxon m => m.ok cs
  | .vmxoff => true
  | .cpuid => true

end Sys2Proof
end

