-- ==== Sys2Proof/Decode.lean ====
section
/-! DEFINITION. The decoder and the encoder of the opcode table's rows, from 30_encoding.md R61 to R65 (general knowledge, as the
spec marks them). -/

namespace Sys2Proof

/-- What reading from a list of bytes comes to: a value and the bytes left; more bytes are needed; the register form of a
memory-only row, which is #UD; bytes that are none of the table's rows. -/
inductive Parse (α : Type) where
  | ok (a : α) (rest : List Byte)
  | more
  | undefined
  | unknown
deriving DecidableEq, Repr

/-- Reading one thing and then another. -/
def Parse.bind {α β : Type} (p : Parse α) (f : α → List Byte → Parse β) : Parse β :=
  match p with
  | .ok a rest => f a rest
  | .more => .more
  | .undefined => .undefined
  | .unknown => .unknown

/-- The next byte. -/
def parseByte : List Byte → Parse Byte
  | [] => .more
  | b :: bs => .ok b bs

/-- ModRM.mod, bits 7:6 (R61). -/
def modOf (b : Byte) : BitVec 2 := b.extractLsb' 6 2

/-- ModRM.reg, bits 5:3 (R61). -/
def regOf (b : Byte) : BitVec 3 := b.extractLsb' 3 3

/-- ModRM.rm, bits 2:0 (R61). -/
def rmOf (b : Byte) : BitVec 3 := b.extractLsb' 0 3

/-- A register number from a REX bit and three bits of ModRM or SIB (R62). -/
def regNum (ext : Bool) (low : BitVec 3) : Reg :=
  ((BitVec.ofBool ext) ++ low).toFin

/-- A displacement of one byte, sign-extended. -/
def parseDisp8 (bs : List Byte) : Parse (BitVec 32) :=
  (parseByte bs).bind fun b rest => .ok (b.signExtend 32) rest

/-- A displacement of two bytes, least significant first, sign-extended. -/
def parseDisp16 (bs : List Byte) : Parse (BitVec 32) :=
  (parseByte bs).bind fun b0 r0 => (parseByte r0).bind fun b1 r1 => .ok ((b1 ++ b0).signExtend 32) r1

/-- A displacement of four bytes, least significant first. -/
def parseDisp32 (bs : List Byte) : Parse (BitVec 32) :=
  (parseByte bs).bind fun b0 r0 => (parseByte r0).bind fun b1 r1 =>
    (parseByte r1).bind fun b2 r2 => (parseByte r2).bind fun b3 r3 => .ok (b3 ++ b2 ++ b1 ++ b0) r3

/-- The prefixes read so far (R61, R62). -/
structure Prefixes where
  opSize : Bool
  repne : Bool
  rep : Bool
  addrSize : Bool
  seg : Option Seg
deriving DecidableEq, Repr, Inhabited

/-- No prefix. -/
def Prefixes.empty : Prefixes := ⟨false, false, false, false, none⟩

/-- A REX prefix's bits R, X and B. -/
structure Rex where
  r : Bool
  x : Bool
  b : Bool
deriving DecidableEq, Repr, Inhabited

/-- The REX bits of a byte 40H to 4FH. -/
def Rex.ofByte (b : Byte) : Rex := ⟨b.getLsbD 2, b.getLsbD 1, b.getLsbD 0⟩

/-- No REX prefix. -/
def Rex.absent : Rex := ⟨false, false, false⟩

/-- The address size: the code size's own, or the other one under the address-size override (R62). -/
def addrSizeOf (cs : CodeSize) (override : Bool) : AddrSize :=
  match cs, override with
  | .b64, false => .a64
  | .b64, true => .a32
  | .b32, false => .a32
  | .b32, true => .a16
  | .b16, false => .a16
  | .b16, true => .a32

/-- The base and index registers of 16-bit addressing by ModRM.rm. PRESUMED (the family's, log 30). -/
def pair16 (rm : BitVec 3) : Option Reg × Option Reg :=
  match rm with
  | 0#3 => (some 3, some 6)
  | 1#3 => (some 3, some 7)
  | 2#3 => (some 5, some 6)
  | 3#3 => (some 5, some 7)
  | 4#3 => (some 6, none)
  | 5#3 => (some 7, none)
  | 6#3 => (some 5, none)
  | _ => (some 3, none)

/-- A 16-bit memory operand after ModRM. PRESUMED (log 30). -/
def parseMem16 (seg : Option Seg) (modrm : Byte) (bs : List Byte) : Parse MemOp :=
  let pr := pair16 (rmOf modrm)
  if modOf modrm = 0#2 then
    if rmOf modrm = 6#3 then
      (parseDisp16 bs).bind fun d rest => .ok ⟨seg, .a16, none, none, 0#2, false, d⟩ rest
    else .ok ⟨seg, .a16, pr.1, pr.2, 0#2, false, 0#32⟩ bs
  else if modOf modrm = 1#2 then
    (parseDisp8 bs).bind fun d rest => .ok ⟨seg, .a16, pr.1, pr.2, 0#2, false, d⟩ rest
  else
    (parseDisp16 bs).bind fun d rest => .ok ⟨seg, .a16, pr.1, pr.2, 0#2, false, d⟩ rest

/-- The displacement that ModRM.mod asks for in 32- and 64-bit addressing: none, one byte, four bytes. -/
def parseDispMod (m : BitVec 2) (bs : List Byte) : Parse (BitVec 32) :=
  if m = 0#2 then .ok 0#32 bs
  else if m = 1#2 then parseDisp8 bs
  else parseDisp32 bs

/-- A memory operand with a SIB byte: index 4 without REX.X is no index, base 5 with mod 0 is no base. PRESUMED (log 30). -/
def parseSib (seg : Option Seg) (a : AddrSize) (rex : Rex) (m : BitVec 2) (bs : List Byte) : Parse MemOp :=
  (parseByte bs).bind fun sib rest =>
    let index := regNum rex.x (regOf sib)
    let idx : Option Reg := if index = 4 then none else some index
    let scale := if index = 4 then 0#2 else modOf sib
    if rmOf sib = 5#3 ∧ m = 0#2 then
      (parseDisp32 rest).bind fun d r => .ok ⟨seg, a, none, idx, scale, false, d⟩ r
    else
      (parseDispMod m rest).bind fun d r => .ok ⟨seg, a, some (regNum rex.b (rmOf sib)), idx, scale, false, d⟩ r

/-- A 32- or 64-bit memory operand after ModRM: rm 4 asks for a SIB byte; rm 5 with mod 0 is a displacement alone, relative to
RIP in 64-bit mode. PRESUMED (log 30). -/
def parseMem32 (cs : CodeSize) (seg : Option Seg) (a : AddrSize) (rex : Rex) (modrm : Byte) (bs : List Byte) : Parse MemOp :=
  if rmOf modrm = 4#3 then parseSib seg a rex (modOf modrm) bs
  else if rmOf modrm = 5#3 ∧ modOf modrm = 0#2 then
    (parseDisp32 bs).bind fun d rest => .ok ⟨seg, a, none, none, 0#2, cs == .b64, d⟩ rest
  else
    (parseDispMod (modOf modrm) bs).bind fun d rest =>
      .ok ⟨seg, a, some (regNum rex.b (rmOf modrm)), none, 0#2, false, d⟩ rest

/-- A memory operand after ModRM (R62). -/
def parseMem (cs : CodeSize) (p : Prefixes) (rex : Rex) (modrm : Byte) (bs : List Byte) : Parse MemOp :=
  match addrSizeOf cs p.addrSize with
  | .a16 => parseMem16 p.seg modrm bs
  | .a32 => parseMem32 cs p.seg .a32 rex modrm bs
  | .a64 => parseMem32 cs p.seg .a64 rex modrm bs

/-- INVEPT and INVVPID after 0F 38: 80 /r and 81 /r with the mandatory prefix 66; the register form is #UD (R62, R63). -/
def parse0F38 (cs : CodeSize) (p : Prefixes) (rex : Rex) (bs : List Byte) : Parse Instr :=
  (parseByte bs).bind fun op r0 =>
    if !p.opSize || p.rep || p.repne then .unknown
    else if op = 0x80#8 then
      (parseByte r0).bind fun m r1 =>
        if modOf m = 3#2 then .undefined
        else (parseMem cs p rex m r1).bind fun mem r2 => .ok (.invept (regNum rex.r (regOf m)) mem) r2
    else if op = 0x81#8 then
      (parseByte r0).bind fun m r1 =>
        if modOf m = 3#2 then .undefined
        else (parseMem cs p rex m r1).bind fun mem r2 => .ok (.invvpid (regNum rex.r (regOf m)) mem) r2
    else .unknown

/-- MOV to a control register after 0F 22: ModRM.reg 3 or 4 with no REX.R; ModRM.mod is ignored (R65). -/
def parse0F22 (rex : Rex) (bs : List Byte) : Parse Instr :=
  (parseByte bs).bind fun m rest =>
    if regNum rex.r (regOf m) = 3 then .ok (.movCr3 (regNum rex.b (rmOf m))) rest
    else if regNum rex.r (regOf m) = 4 then .ok (.movCr4 (regNum rex.b (rmOf m))) rest
    else .unknown

/-- VMXOFF and INVLPG after 0F 01: C4, and /7 with a memory operand (R65). -/
def parse0F01 (cs : CodeSize) (p : Prefixes) (rex : Rex) (bs : List Byte) : Parse Instr :=
  (parseByte bs).bind fun m rest =>
    if m = 0xC4#8 then .ok .vmxoff rest
    else if regOf m = 7#3 ∧ modOf m ≠ 3#2 then
      (parseMem cs p rex m rest).bind fun mem r => .ok (.invlpg mem) r
    else .unknown

/-- VMXON after 0F C7: /6 with a memory operand and the mandatory prefix F3 (R65). -/
def parse0FC7 (cs : CodeSize) (p : Prefixes) (rex : Rex) (bs : List Byte) : Parse Instr :=
  (parseByte bs).bind fun m rest =>
    if p.rep ∧ ¬ p.repne ∧ regOf m = 6#3 ∧ modOf m ≠ 3#2 then
      (parseMem cs p rex m rest).bind fun mem r => .ok (.vmxon mem) r
    else .unknown

/-- The opcode: every row begins with 0F (R62, R63, R65). -/
def parseOpcode (cs : CodeSize) (p : Prefixes) (rex : Rex) (bs : List Byte) : Parse Instr :=
  (parseByte bs).bind fun b0 r0 =>
    if b0 = 0x0F#8 then
      (parseByte r0).bind fun b1 r1 =>
        if b1 = 0x38#8 then parse0F38 cs p rex r1
        else if b1 = 0x22#8 then parse0F22 rex r1
        else if b1 = 0x01#8 then parse0F01 cs p rex r1
        else if b1 = 0xC7#8 then parse0FC7 cs p rex r1
        else if b1 = 0xA2#8 then .ok .cpuid r1
        else .unknown
    else .unknown

/-- What a legacy prefix byte adds to the prefixes read, if it is one (R61, R62). F0 (LOCK) is none the rows take. PRESUMED (the
byte values are the family's, log 30). -/
def Prefixes.add (p : Prefixes) (b : Byte) : Option Prefixes :=
  if b = 0x66#8 then some { p with opSize := true }
  else if b = 0x67#8 then some { p with addrSize := true }
  else if b = 0xF2#8 then some { p with repne := true }
  else if b = 0xF3#8 then some { p with rep := true }
  else if b = 0x26#8 then some { p with seg := some .es }
  else if b = 0x2E#8 then some { p with seg := some .cs }
  else if b = 0x36#8 then some { p with seg := some .ss }
  else if b = 0x3E#8 then some { p with seg := some .ds }
  else if b = 0x64#8 then some { p with seg := some .fs }
  else if b = 0x65#8 then some { p with seg := some .gs }
  else none

/-- Prefixes, then a REX prefix in 64-bit mode, which stands right before the opcode (R61), then the opcode. -/
def parseInstr (cs : CodeSize) (p : Prefixes) : List Byte → Parse Instr
  | [] => .more
  | b :: bs =>
    match p.add b with
    | some p' => parseInstr cs p' bs
    | none =>
      if cs = .b64 ∧ b.extractLsb' 4 4 = 4#4 then parseOpcode cs p (Rex.ofByte b) bs
      else parseOpcode cs p Rex.absent (b :: bs)

/-- The decoder: total on any bytes. -/
def decode (cs : CodeSize) (bs : List Byte) : Parse Instr := parseInstr cs Prefixes.empty bs

/-! The encoder: one byte sequence for each well-formed instruction. A memory operand of 32 or 64 bits is written with a SIB
byte and a four-byte displacement, one of 16 bits with a two-byte displacement, and in 64-bit mode there is always a REX prefix. -/

/-- A register's bit 3, which goes into REX. -/
def Reg.high (r : Reg) : Bool := (BitVec.ofFin r : BitVec 4).getLsbD 3

/-- A register's bits 2:0, which go into ModRM or SIB. -/
def Reg.low (r : Reg) : BitVec 3 := (BitVec.ofFin r : BitVec 4).extractLsb' 0 3

/-- The prefix byte of a segment override. -/
def Seg.byte : Seg → Byte
  | .es => 0x26#8
  | .cs => 0x2E#8
  | .ss => 0x36#8
  | .ds => 0x3E#8
  | .fs => 0x64#8
  | .gs => 0x65#8

/-- The prefixes of a memory operand: its segment override, and 67 where its address size is not the code size's own. -/
def memPrefixes (cs : CodeSize) (m : MemOp) : List Byte :=
  (match m.seg with
    | some g => [g.byte]
    | none => []) ++
  (if m.size = addrSizeOf cs false then [] else [0x67#8])

/-- The REX prefix of 64-bit mode, with its bits R, X and B. -/
def rexBytes (cs : CodeSize) (r x b : Bool) : List Byte :=
  match cs with
  | .b64 => [4#4 ++ (0#1 ++ BitVec.ofBool r ++ BitVec.ofBool x ++ BitVec.ofBool b)]
  | _ => []

/-- Bit 3 of the register a memory operand names as index. -/
def MemOp.indexHigh (m : MemOp) : Bool :=
  match m.index with
  | some i => i.high
  | none => false

/-- Bit 3 of the register a memory operand names as base. -/
def MemOp.baseHigh (m : MemOp) : Bool :=
  match m.base with
  | some b => b.high
  | none => false

/-- Two bytes, least significant first. -/
def bytes16 (d : BitVec 32) : List Byte := [d.extractLsb' 0 8, d.extractLsb' 8 8]

/-- Four bytes, least significant first. -/
def bytes32 (d : BitVec 32) : List Byte := [d.extractLsb' 0 8, d.extractLsb' 8 8, d.extractLsb' 16 8, d.extractLsb' 24 8]

/-- ModRM.rm of a 16-bit base and index pair; 6 stands for no register with mod 0. -/
def rm16 (m : MemOp) : BitVec 3 :=
  match m.base, m.index with
  | some b, some i => if b = 3 then (if i = 6 then 0#3 else 1#3) else (if i = 6 then 2#3 else 3#3)
  | some b, none => if b = 6 then 4#3 else if b = 7 then 5#3 else if b = 5 then 6#3 else 7#3
  | none, _ => 6#3

/-- The bits 5:3 of the SIB byte: the index, or 4 for none. -/
def MemOp.indexLow (m : MemOp) : BitVec 3 :=
  match m.index with
  | some i => i.low
  | none => 4#3

/-- ModRM with a given reg field, SIB and displacement of a memory operand. -/
def memBytes (reg : BitVec 3) (m : MemOp) : List Byte :=
  match m.size with
  | .a16 =>
    if m.base = none ∧ m.index = none then (0#2 ++ reg ++ 6#3) :: bytes16 m.disp
    else (2#2 ++ reg ++ rm16 m) :: bytes16 m.disp
  | _ =>
    if m.ripRel then (0#2 ++ reg ++ 5#3) :: bytes32 m.disp
    else
      match m.base with
      | none => (0#2 ++ reg ++ 4#3) :: (m.scale ++ m.indexLow ++ 5#3) :: bytes32 m.disp
      | some b => (2#2 ++ reg ++ 4#3) :: (m.scale ++ m.indexLow ++ b.low) :: bytes32 m.disp

/-- The encoder: the bytes of a well-formed instruction, from the same encodings of 30_encoding.md (R62, R63, R65). -/
def encode (cs : CodeSize) : Instr → List Byte
  | .invept r m =>
    memPrefixes cs m ++ [0x66#8] ++ rexBytes cs r.high m.indexHigh m.baseHigh ++ [0x0F#8, 0x38#8, 0x80#8] ++ memBytes r.low m
  | .invvpid r m =>
    memPrefixes cs m ++ [0x66#8] ++ rexBytes cs r.high m.indexHigh m.baseHigh ++ [0x0F#8, 0x38#8, 0x81#8] ++ memBytes r.low m
  | .movCr3 r => rexBytes cs false false r.high ++ [0x0F#8, 0x22#8, 3#2 ++ 3#3 ++ r.low]
  | .movCr4 r => rexBytes cs false false r.high ++ [0x0F#8, 0x22#8, 3#2 ++ 4#3 ++ r.low]
  | .invlpg m => memPrefixes cs m ++ rexBytes cs false m.indexHigh m.baseHigh ++ [0x0F#8, 0x01#8] ++ memBytes 7#3 m
  | .vmxon m =>
    memPrefixes cs m ++ [0xF3#8] ++ rexBytes cs false m.indexHigh m.baseHigh ++ [0x0F#8, 0xC7#8] ++ memBytes 6#3 m
  | .vmxoff => [0x0F#8, 0x01#8, 0xC4#8]
  | .cpuid => [0x0F#8, 0xA2#8]

/-- The least significant bytes of a number, the first the least significant, each its bits 7:0. -/
def lowBytes : Nat → Nat → List Byte
  | 0, _ => []
  | n + 1, w => BitVec.ofNat 8 w :: lowBytes n (w / 256)

/-- The longest instruction (30_encoding.md R61). -/
def maxLength : Nat := 15

/-- The bytes of an instruction whose first nbits bits are w's and whose later bits are 0, up to the longest instruction. -/
def wordBytes (nbits w : Nat) : List Byte := lowBytes maxLength (w % 2 ^ nbits)

/-- What the decoder reads from an instruction given as a number, bit 0 the least significant bit of its first byte, in 64-bit
mode, for which the opcode table is written (log 34). -/
def decodeTableWord (nbits w : Nat) : Option Instr :=
  match decode .b64 (wordBytes nbits w) with
  | .ok i _ => some i
  | _ => none

end Sys2Proof
end

