-- ==== Sys2Proof/Machine/Fetch.lean ====
section
/-! DEFINITION. Fetching an instruction (20_memory.md R40, R52, 30_encoding.md R61): its bytes one by one, each an access of kind Fetch,
until they decode. -/

namespace Sys2Proof.Machine

open Sys2Proof

/-- The fetch of one instruction byte. -/
def fetchAccess (la : Word) : Access := ⟨.fetch 1, la, .plain⟩

/-- The instruction whose bytes so far are `bs` is fetched, `fuel` more bytes at most, and run with RIP past it (log 2). The register form
of a memory-only row is #UD (log 30); bytes of no row are refused. DESIGN CHOICE (log 39): the memory types of the fetch are not
reported. -/
def fetchThen (c : Cfg) (run : Instr → State → Host.Outcome State Fault Refusal) (s0 : State) :
    Nat → List Byte → State → Host.Outcome State Fault Refusal
  | 0, _, _ => .refused .instructionTooLong
  | fuel + 1, bs, s =>
    (linearAccess c (fetchAccess (s0.fetchAddr bs.length)) (Ctx.start s)).outcome c s fun q t =>
      match decode s0.codeSize (bs ++ q.2) with
      | .ok i _ => run i (t.advance (bs ++ q.2).length)
      | .more => fetchThen c run s0 fuel (bs ++ q.2) t
      | .undefined => .next (deliver c .ud t)
      | .unknown => .refused .notInTable

/-- The bytes of the parts of an access placed in memory where the access reached. -/
def placeParts : List PartDone → List Byte → Memory → Memory
  | [], _, m => m
  | d :: ds, bs, m => placeParts ds (bs.drop d.size) (m.writeBytes d.pa.toNat (bs.take d.size))

/-- The instruction at RIP fetched and run. -/
def fetchNext (c : Cfg) (run : Instr → State → Host.Outcome State Fault Refusal) (s : State) : Host.Outcome State Fault Refusal :=
  fetchThen c run s maxLength [] s

/-- A machine whose next step fetches the given bytes in 64-bit mode: no label and no other agent's write before it, and the bytes where the
fetch reaches (log 34). -/
def placeCode (c : Cfg) (bytes : List Byte) (s : State) : State :=
  let s1 := (({ s with cpuMode := .long64 }).withInputs []).withAgents []
  match linearAccess c ⟨.fetch bytes.length, s1.fetchAddr 0, .plain⟩ (Ctx.start s1) with
  | .ok q _ => s1.withMem (placeParts q.1 bytes s1.mem)
  | _ => s1

end Sys2Proof.Machine
end

