-- ==== Sys2Proof/Machine/Caching.lean ====
section
/-! DEFINITION. Cache fills of the hardware (46_caching.md section 2): the mapping a walk of memory as it stands would yield, with
the current tags. Other agents may write between the reads of the walk (92_eei_decisions.md D12). No mapping comes from an entry that is not present, has a reserved bit set or is misconfigured (R232, R237,
47_invalidation.md R304). -/

namespace Sys2Proof.Machine

open Sys2Proof

/-- The state in which a walk of a fill is made: from memory alone, with no cached mapping, and no log to fill up. -/
def State.forFill (s : State) : State := (s.withCache []).withVmcs { s.vmcs with enablePml := false }

/-- What a walk of a fill comes to: a value, with the state its fill has come to, in which other agents have written and none of the walk's
own effects is left. -/
abbrev Found (α : Type) := Option (α × State)

/-- A walk of a fill from a state: its value, if it comes to one (R232, R237, 47_invalidation.md R304). -/
def fillRun {α : Type} (s : State) (walk : Ctx → Res α) : Found α :=
  match walk (Ctx.start s.forFill) with
  | .ok a x => some (a, s.meanwhile x)
  | _ => none

/-- The access a fill's walks are made for: a read of the processor's own translation. -/
def fillAccess : GAccess := ⟨.dataRead, false, false, 1, none, false, .plain⟩

/-- What a filled translation keeps of the sub-page permissions (46_caching.md R229): only of a page whose EPT PTE has bit 61 with
the control on, and from valid SPP entries. -/
def fillSpp (c : Cfg) (gpa : Word) (w : Walk) (f : SppFill) (s : State) : Option SppCached × State :=
  let found : Found SppCached :=
    if s.vmcs.sppControl && w.level == 1 && w.leaf.spp then
      match f with
      | .nothing => none
      | .vector => fillRun s fun x => (sppVector c fillAccess gpa x).bind fun v y => .ok (.vector v) y
      | .table above =>
        if above < 3 then
          fillRun s fun x =>
            (sppTables c fillAccess gpa (3 - above) 4 (sppBase c s.vmcs.spptp) x).bind fun t y => .ok (.table above t) y
        else none
    else none
  match found with
  | some (h, t) => (some h, t)
  | none => (none, s)

/-- The EPT walk of memory for a guest-physical address, if it ends in a translation (R234, R304). -/
def fillEpt (c : Cfg) (gpa : Word) (s : State) : Found Walk :=
  if s.eptInUse && gpaOk gpa then fillRun s (eptWalk c fillAccess gpa) else none

/-- The kept bits of a leaf entry as a filled mapping records them: with the flags of EPTP bit 6 off, bits 8 and 9 are not read
(44_ept_ad_pml.md R171) and the mapping lets a later access skip setting them (47_invalidation.md R308). -/
def fillLeaf (s : State) (b : LeafBits) : LeafBits := if s.eptAd then b else b.flagged

/-- The record of the accessed flags of the entries used, likewise. -/
def fillUsed (s : State) (us : List WalkEntry) : List UsedEntry := us.map fun u => ⟨u.addr, u.accessed || !s.eptAd⟩

/-- A guest-physical translation (R226, R234). DESIGN CHOICE (log 28): its page is the one the walk yields, no smaller fragment. -/
def fillGPhysTr (c : Cfg) (s : State) (gpa : Word) (f : SppFill) : Found Mapping :=
  (fillEpt c gpa s).map fun (w, t) =>
    let size := eptRegionBits w.level
    let (held, u) := fillSpp c gpa w f t
    (.gphysTr ⟨s.ep4ta, pageOf gpa size, w.pa - lowBits gpa size, size, w.rights, fillLeaf s w.leaf, w.leafAddr, fillUsed s w.used, held,
      s.apicPage⟩, u)

/-- The EPT entries from level 4 down to a level, each present, well configured and referencing a table: the last one's table,
the rights so far and the entries; nothing where one of them ends the walk. -/
def eptTableAt (c : Cfg) (gpa : Word) :
    Nat → Nat → Word → Rights → List WalkEntry → Ctx → Res (Option (Word × Rights × List WalkEntry))
  | 0, _, _, _, _, x => .ok none x
  | fuel + 1, level, base, r, used, x =>
    (eptEntry c fillAccess gpa x (fuel + 1) base r).bind fun e y =>
      let used' := used ++ [⟨base + 8#64 * gpaIndex gpa (fuel + 1), e.getLsbD 8, false⟩]
      if isLeaf (fuel + 1) e then .ok none y
      else if fuel + 1 = level then .ok (some (tableBase e, r.meet e, used')) y
      else eptTableAt c gpa fuel level (tableBase e) (r.meet e) used' y

/-- A walk of a fill that may find nothing. -/
def fillFind {α : Type} (s : State) (walk : Ctx → Res (Option α)) : Found α :=
  match fillRun s walk with
  | some (some a, t) => some (a, t)
  | _ => none

/-- A guest-physical paging-structure-cache entry for the entry at a level (R227, R234). -/
def fillGPhysPsc (c : Cfg) (s : State) (gpa : Word) (level : Nat) : Found Mapping :=
  if s.eptInUse && gpaOk gpa then
    (fillFind s (eptTableAt c gpa 4 level (tableBase s.vmcs.eptp) Rights.full [])).map fun (q, t) =>
      (.gphysPsc ⟨s.ep4ta, pageOf gpa (eptRegionBits level), level, q.1, q.2.1, fillUsed s q.2.2⟩, t)
  else none

/-- The guest walk of memory for a linear address with paging, if it ends in a translation (R231, R232, R236, R237). -/
def fillGuest (c : Cfg) (la : Word) (s : State) : Found GuestWalk :=
  if s.pg then fillRun s (guestWalk c .dataRead la) else none

/-- A linear translation (R224, R231); with EPT in use there is none (R238). DESIGN CHOICE (log 28): its page is the one the walk yields,
no smaller fragment. -/
def fillLinearTr (c : Cfg) (s : State) (la : Word) : Found Mapping :=
  if s.eptInUse then none
  else
    (fillGuest c la s).map fun (g, t) =>
      (.linearTr
        ⟨s.currentVpid, s.currentPcid c, c.guest.isGlobal s.guestRegs g.entries, pageOf la g.size, g.gpa - lowBits la g.size, g.size,
          g.entries, c.guest.patType s.guestRegs g.entries, s.apicPage⟩, t)

/-- The guest table that the first `depth` entries of a walk lead to, each of which references a table: its address, the level of the
last entry and the entries; nothing where one of them ends the walk. -/
def guestTableAt (c : Cfg) (la : Word) :
    Nat → Nat → Word → List GuestEntry → Ctx → Res (Option (Word × Nat × List GuestEntry))
  | 0, _, _, _, x => .ok none x
  | _ + 1, 0, _, _, x => .ok none x
  | depth + 1, n + 1, table, es, x =>
    (guestEntry c .dataRead la es (n + 2) table none x).bind fun ge y =>
      if c.guest.referencesTable y.st.guestRegs (n + 2) ge.value then
        let t := c.guest.nextTable y.st.guestRegs (n + 2) ge.value
        if depth = 0 then .ok (some (t, n + 2, es ++ [ge])) y else guestTableAt c la depth n t (es ++ [ge]) y
      else .ok none y

/-- The guest table that `depth` entries of the walk for a linear address lead to, from memory. -/
def fillGuestTable (c : Cfg) (la : Word) (depth : Nat) (s : State) : Found (Word × Nat × List GuestEntry) :=
  if s.pg then fillFind s (guestTableAt c la depth (c.guest.levels s.guestRegs - 1) (c.guest.startTable s.guestRegs la) [])
  else none

/-- A linear paging-structure-cache entry (R225, R231); with EPT in use there is none (R238). -/
def fillLinearPsc (c : Cfg) (s : State) (la : Word) (depth : Nat) : Found Mapping :=
  if s.eptInUse then none
  else
    (fillGuestTable c la depth s).map fun (q, t) =>
      let size := c.guest.regionBits s.guestRegs q.2.1
      (.linearPsc ⟨s.currentVpid, s.currentPcid c, pageOf la size, size, q.2.1, q.1, q.2.2⟩, t)

/-- A combined translation from the guest's part and the EPT's part (R228). DESIGN CHOICE (log 28): its page is the smaller of the
guest's page and the EPT's, neither a larger nor a smaller one; the spec gives no size. The memory type is what the paging structures
give, without CR0.CD (45_ept_memtype.md R203, R207). The bit that makes a page eligible for sub-page permissions counts only in an
EPT PTE (43_spp.md R143). -/
def combine (c : Cfg) (s : State) (la gpa : Word) (guest : List GuestEntry) (isGlobal : Bool) (guestSize : Nat) (w : Walk)
    (held : Option SppCached) : Mapping :=
  let size := min guestSize (eptRegionBits w.level)
  .combTr
    ⟨s.currentVpid, s.currentPcid c, s.ep4ta, isGlobal, pageOf la size, gpa - lowBits la size, w.pa - lowBits gpa size, size, guest,
      w.rights, { fillLeaf s w.leaf with spp := w.leaf.spp && w.level == 1 }, w.leafAddr, fillUsed s w.used,
      structuresMemType c s w.leaf guest, held, s.apicPage⟩

/-- A combined translation (R228, R236): with paging from the guest's tables and the EPT's, without it from the EPT's alone. -/
def fillCombTr (c : Cfg) (s : State) (la : Word) (f : SppFill) : Found Mapping :=
  if s.pg then
    (fillGuest c la s).bind fun (g, t) =>
      (fillEpt c g.gpa t).map fun (w, u) =>
        let (held, v) := fillSpp c g.gpa w f u
        (combine c s la g.gpa g.entries (c.guest.isGlobal s.guestRegs g.entries) g.size w held, v)
  else
    (fillEpt c la s).map fun (w, t) =>
      let (held, u) := fillSpp c la w f t
      (combine c s la la [] false (eptRegionBits w.level) w held, u)

/-- A combined paging-structure-cache entry (R228, R236): only with paging and EPT in use; it holds the physical address of the guest
paging structure. -/
def fillCombPsc (c : Cfg) (s : State) (la : Word) (depth : Nat) : Found Mapping :=
  if s.eptInUse then
    (fillGuestTable c la depth s).bind fun (q, t) =>
      (fillEpt c q.1 t).map fun (w, u) =>
        let size := c.guest.regionBits s.guestRegs q.2.1
        (.combPsc ⟨s.currentVpid, s.currentPcid c, s.ep4ta, pageOf la size, size, q.2.1, w.pa, q.1, q.2.2, w.rights, fillLeaf s w.leaf,
          w.leafAddr, fillUsed s w.used, s.apicPage⟩, u)
  else none

/-- The mapping a fill adds, where the rules of section 2 allow one, and the state it comes to. -/
def fillMapping (c : Cfg) (s : State) : FillReq → Found Mapping
  | .linearTr la => fillLinearTr c s (s.linWrap c la)
  | .linearPsc la depth => fillLinearPsc c s (s.linWrap c la) depth
  | .gphysTr gpa f => fillGPhysTr c s gpa f
  | .gphysPsc gpa level => fillGPhysPsc c s gpa level
  | .combTr la f => fillCombTr c s (s.linWrap c la) f
  | .combPsc la depth => fillCombPsc c s (s.linWrap c la) depth

/-- A fill (R244 (i)): the mapping is added, if there is one to add. -/
def fillCache (c : Cfg) (f : FillReq) (s : State) : State :=
  match fillMapping c s f with
  | some (m, t) => t.withCache (t.cache ++ [m])
  | none => s

end Sys2Proof.Machine
end

