-- ==== Sys2Proof/Machine/Inputs.lean ====
section
/-! DEFINITION. The labels of 92_eei_decisions.md D1 that are no instruction of the opcode table: accesses, D2's steps, VM entry and VM
exit, the VMM, the caches' own steps, other agents, reset. -/

namespace Sys2Proof.Machine

open Sys2Proof

/-- The controls VM entry may be made with: the premises of 40_vpid.md R75, 44_ept_ad_pml.md R170, R180, 45_ept_memtype.md R201,
20_memory.md R43 and 92_eei_decisions.md D7, D18, D22. DESIGN CHOICE (log 26): the SPPTP is not tested; its reserved bits, those outside
N-1:12 (43_spp.md R147; 91_not_in_source.md N7 says that the VM-entry check is missing), may be set and are ignored; and sub-page write
permissions may be enabled without EPT, where they have no effect. -/
def Vmcs.wellFormed (c : Cfg) (v : Vmcs) : Bool :=
  (!v.enableEpt || eptpValid c v.eptp) && (!v.enableVpid || v.vpid != 0#16) &&
    (!v.enablePml || (v.enableEpt && v.eptp.getLsbD 6 && v.pmlAddress.extractLsb' 0 12 == 0#12 && belowWidth c v.pmlAddress))

/-- A software access by linear address (42_ept_vmexits.md R123 to R125). -/
def runAccess (c : Cfg) (a : Access) (s : State) : Host.Outcome State Fault Refusal :=
  (linearAccess c a (Ctx.start s)).outcome c s fun q t => .next (t.withReport (.access q.1 q.2))

/-- The accesses that a VM entry makes to inject an event, in order, until one raises an event (41_ept_translation.md R81). DESIGN CHOICE
(log 39): their memory types are not reported. -/
def runInjected (c : Cfg) : List Access → State → Host.Outcome State Fault Refusal
  | [], s => .next (s.withReport .ok)
  | a :: rest, s => (linearAccess c a (Ctx.start s)).outcome c s fun _ t => runInjected c rest t

/-- VM entry (60_exceptions.md R323): from root operation, with a current VMCS and well-formed controls. -/
def runVmEntry (c : Cfg) (inject : List Access) (s : State) : Host.Outcome State Fault Refusal :=
  if s.mode == .root && s.vmcsCurrent then
    if s.vmcs.wellFormed c then runInjected c inject (vmEnter c s) else .refused .controlsNotWellFormed
  else .refused .vmEntryNotPossible

/-- A VM exit for a cause outside the spec (60_exceptions.md R316). -/
def runVmExit (c : Cfg) (s : State) : Host.Outcome State Fault Refusal :=
  if s.mode == .nonRoot then .next (deliver c .otherExit s) else .refused .vmExitNotPossible

/-- The VMM writes the controls, or makes a VMCS current or not, in root operation only (10_state.md R18). DESIGN CHOICE
(log 50): the write replaces all that the model holds of the VMCS, the page-modification log index, the VM-exit fields and the VM-instruction
error included; R18 speaks of the controls alone and has no rule for writing the VMCS. -/
def runVmcsWrite (current : Bool) (v : Vmcs) (s : State) : Host.Outcome State Fault Refusal :=
  if s.mode == .root then .next (((s.withVmcs v).withVmcsCurrent current).withReport .ok) else .refused .controlsWriteOutsideRoot

/-- Another agent writes memory (10_state.md R10, R28). -/
def runAgentWrite (c : Cfg) (pa : Word) (bytes : List Byte) (s : State) : Host.Outcome State Fault Refusal :=
  if inRange c pa.toNat bytes.length then .next ((s.withMem (s.mem.writeBytes pa.toNat bytes)).withReport .idle)
  else .fault .noSuchPhysicalAddress

/-- Power-up or reset (10_state.md R30, R31): the state after reset, with memory, the labels and the other agents' writes to come, and the
count of free values kept (log 38). -/
def powerReset (s : State) : State :=
  (((State.reset.withMem s.mem).withInputs s.inputs).withAgents s.agents).withFreeCtr s.freeCtr

/-- One input. DESIGN CHOICE (log 47): the label of a TLB-invalidating operation stands for the operation as performed and causes no VM exit
of its own; where the VMM configured one (47_invalidation.md R301), a trace has the instruction, or the label of a VM exit, in its place. -/
def runInput (c : Cfg) (i : Input) (s : State) : Host.Outcome State Fault Refusal :=
  match i with
  | .access a => runAccess c a s
  | .invvpid type desc => .next (invvpidOp c type desc s)
  | .invept type desc => .next (inveptOp c type desc s)
  | .tlb op => .next (tlbOp c op s)
  | .vmEntry inject => runVmEntry c inject s
  | .vmExit => runVmExit c s
  | .vmcsWrite current v => runVmcsWrite current v s
  | .fill f => .next ((fillCache c f s).withReport .idle)
  | .drop i => .next ((s.withCache (s.cache.eraseIdx i)).withReport .idle)
  | .agentWrite pa bytes => runAgentWrite c pa bytes s
  | .surroundings x => .next ((s.withSurroundings x).withReport .idle)
  | .agents l => .next ((s.withAgents l).withReport .idle)
  | .powerReset => .next (powerReset s)

end Sys2Proof.Machine
end

