-- ==== Sys2Proof/Machine/Step.lean ====
section
/-! DEFINITION. One step: the next label, or with none left the next instruction. -/

namespace Sys2Proof.Machine

open Sys2Proof

/-- One step (92_eei_decisions.md D1, D3; log 2): the next label, or with none left the instruction at RIP. -/
def step (s : State) : Host.Outcome State Fault Refusal :=
  match s.inputs with
  | .input i :: rest => runInput Config.cfg i (s.withInputs rest)
  | .instr i :: rest => exec i (s.withInputs rest)
  | .fetch :: rest => fetchNext Config.cfg exec (s.withInputs rest)
  | [] => fetchNext Config.cfg exec s

/-- The state with an instruction, its bits above `nbits` 0, where the next step fetches (log 34). -/
def State.withFetchWord (s : State) (nbits w : Nat) : State := placeCode Config.cfg (wordBytes nbits w) s

end Sys2Proof.Machine
end

