-- ==== Sys2Proof/Safety.lean ====
section
/-! DEFINITION. What holds of a machine that runs: the invariant of every step, and the terms the statements are made in. -/

namespace Sys2Proof.Machine

open Sys2Proof

/-- The invariant of every step: memory is in its canonical form and lists no address outside 2^N (92_eei_decisions.md D29); in VMX
non-root operation there is a current VMCS whose controls are well formed (the premises of 40_vpid.md R75, 44_ept_ad_pml.md R170 and
R180, 45_ept_memtype.md R201; 10_state.md R18 keeps the controls constant there); every cached paging-structure-cache entry stands
for an entry that can reference a table (46_caching.md R225, R227). -/
def State.Inv (c : Cfg) (s : State) : Prop :=
  s.mem.wf = true ∧ s.mem.below (2 ^ c.width) = true ∧
    (s.mode = .nonRoot → s.vmcsCurrent = true ∧ s.vmcs.wellFormed c = true) ∧ ∀ m ∈ s.cache, m.levelOk = true

/-- Linear addresses are physical addresses and no access raises an event (42_ept_vmexits.md R125, 60_exceptions.md R312): no paging,
outside VMX non-root operation; and no other agent writes during the accesses to come. -/
def State.Flat (s : State) : Prop := s.pg = false ∧ s.mode ≠ .nonRoot ∧ s.agents = []

/-- The linear address of the byte at a distance from a linear address, as wide as the guest's paging has them (10_state.md R27). -/
def State.byteAt (c : Cfg) (s : State) (la : Word) (i : Nat) : Word := s.linWrap c (la + BitVec.ofNat 64 i)

/-- The bytes at a linear address where linear addresses are physical. -/
def State.flatBytes (c : Cfg) (s : State) (la : Word) (n : Nat) : List Byte :=
  (List.range n).map fun i => s.mem.read (s.byteAt c la i).toNat

/-- The bytes at a linear address exist where linear addresses are physical. -/
def flatInRange (c : Cfg) (s : State) (la : Word) (n : Nat) : Prop := ∀ i, i < n → inRange c (s.byteAt c la i).toNat 1 = true

/-- A computation's result with its state changed. -/
def Res.onState {α : Type} (f : State → State) : Res α → Res α
  | .ok a x => .ok a (x.mapSt f)
  | .raised e x => .raised e (x.mapSt f)
  | .stopped t => .stopped t

/-- The next step fetches an instruction, from the state `s0`: there is no label left, or the next is the label of a fetch
(92_eei_decisions.md D3; log 2). -/
def State.fetching (s s0 : State) : Prop := (s.inputs = [] ∧ s0 = s) ∨ ∃ rest, s.inputs = .fetch :: rest ∧ s0 = s.withInputs rest

/-- The cached mapping cannot be used by an access to a linear address, nor by the accesses to guest paging-structure entries made for it: of its
tags one does not match, it is of a kind not used, or it does not cover the address (40_vpid.md R74, 46_caching.md R240 to R243). -/
def Mapping.unmatched (c : Cfg) (s : State) (la : Word) (m : Mapping) : Prop :=
  (m.isGPhys = true ∧ (s.eptInUse = false ∨ m.hasEp4ta s.ep4ta = false)) ∨
  (m.isGPhys = false ∧
    (m.hasVpid s.currentVpid = false ∨ (m.hasPcid (s.currentPcid c) = false ∧ m.isGlobal = false) ∨ m.coversLa la = false ∨
      (s.eptInUse = true ∧ (m.isLinear = true ∨ m.hasEp4ta s.ep4ta = false)) ∨ (s.eptInUse = false ∧ m.isLinear = false)))

/-- A byte lies outside some bytes of memory. -/
def outside (b a n : Nat) : Prop := b < a ∨ a + n ≤ b

/-- The bytes from the `k`th on of the instruction at `s0` are fetched, one access each, from `s` to `t` (20_memory.md R52). -/
def fetchesTo (c : Cfg) (s0 : State) : Nat → List Byte → State → State → Prop
  | _, [], s, t => s = t
  | k, b :: bs, s, t =>
    ∃ parts x, linearAccess c (fetchAccess (s0.fetchAddr k)) (Ctx.start s) = .ok (parts, [b]) x ∧ fetchesTo c s0 (k + 1) bs x.st t

/-- The state after an invalidation: some of the cached mappings are kept, none of those that had to go (47_invalidation.md R261),
and free values have been drawn. -/
def Invalidated (required : Mapping → Bool) (s t : State) : Prop :=
  ∃ kept n, kept.Sublist s.cache ∧ (∀ m ∈ kept, required m = false) ∧ t = { s with cache := kept, freeCtr := n }

/-- An EPT entry that a walk goes through: present, well configured, and referencing a table (42_ept_vmexits.md R116). -/
def referencesTable (c : Cfg) (s : State) (level : Nat) (e : Word) : Prop :=
  eptPresent s e = true ∧ eptMisconfigured c s e level false = false ∧ isLeaf level e = false

/-- An EPT entry that ends a walk: present, well configured, and mapping a page (R116). -/
def mapsPage (c : Cfg) (s : State) (level : Nat) (e : Word) : Prop :=
  eptPresent s e = true ∧ eptMisconfigured c s e level true = false ∧ isLeaf level e = true

/-- The entry of a level that a guest-physical address selects in a table, read from memory with no write of another agent before it: it
exists and is `e` (41_ept_translation.md R90, 43_spp.md R147, R148). -/
def entryIs (c : Cfg) (s : State) (gpa : Word) (level : Nat) (base e : Word) : Prop :=
  s.agents = [] ∧ inRange c (base + 8#64 * gpaIndex gpa level).toNat 8 = true ∧
    s.mem.read64 (base + 8#64 * gpaIndex gpa level).toNat = e

/-- The table an EPT walk for a guest-physical address uses at level `4 - k`, when every entry before it is present, well configured and
references a table (41_ept_translation.md R91 to R97). -/
def tableReached (c : Cfg) (s : State) (gpa : Word) : Nat → Word → Prop
  | 0, base => base = tableBase s.vmcs.eptp
  | k + 1, base =>
    ∃ b e, tableReached c s gpa k b ∧ entryIs c s gpa (4 - k) b e ∧ referencesTable c s (4 - k) e ∧ base = tableBase e

/-- An EPT walk for a guest-physical address meets an entry that is not present or is not configured properly (42_ept_vmexits.md R116). -/
def eptEntryBad (c : Cfg) (s : State) (gpa : Word) : Prop :=
  ∃ k base e, k < 4 ∧ tableReached c s gpa k base ∧ entryIs c s gpa (4 - k) base e ∧
    (eptPresent s e = false ∨ eptMisconfigured c s e (4 - k) (isLeaf (4 - k) e) = true)

/-- The guest entries that a walk reads in turn, from the table of level `n + 1` on after the entries `es`, from `x` to `z`: every one but
the last references the next one's table, the last maps a page (42_ept_vmexits.md R124 step 1). -/
def guestPath (c : Cfg) (kind : AccKind) (la : Word) : List GuestEntry → Nat → Word → List GuestEntry → Ctx → Ctx → Prop
  | [], _, _, _, _, _ => False
  | ge :: rest, n, table, es, x, z =>
    ∃ y, guestEntry c kind la es (n + 1) table none x = .ok ge y ∧
      ((rest = [] ∧ (n = 0 ∨ c.guest.referencesTable y.st.guestRegs (n + 1) ge.value = false) ∧ z = y) ∨
        ∃ k, n = k + 1 ∧ c.guest.referencesTable y.st.guestRegs (n + 1) ge.value = true ∧
          guestPath c kind la rest k (c.guest.nextTable y.st.guestRegs (n + 1) ge.value) (es ++ [ge]) y z)

/-- The EPT entries `es` are those that a walk for a guest-physical address goes through, from the table of a level on: each references
the next one's table, the last the table `t` (41_ept_translation.md R91 to R97, R102). -/
def eptPath (c : Cfg) (s : State) (gpa : Word) : Nat → Word → List Word → Word → Prop
  | _, base, [], t => t = base
  | level, base, e :: es, t =>
    entryIs c s gpa level base e ∧ referencesTable c s level e ∧ eptPath c s gpa (level - 1) (tableBase e) es t

/-- An EPT walk for a guest-physical address goes through the entries `es` to the table `base` of a level, whose entry `e` maps a page
(41_ept_translation.md R102). -/
def eptLeaf (c : Cfg) (s : State) (gpa : Word) (es : List Word) (level : Nat) (base e : Word) : Prop :=
  es.length + level = 4 ∧ eptPath c s gpa 4 (tableBase s.vmcs.eptp) es base ∧ entryIs c s gpa level base e ∧ mapsPage c s level e

/-- The rights of a walk through some entries: the ANDs of their bits 0, 1, 2 and 10 (41_ept_translation.md R102). -/
def rightsOf (es : List Word) : Rights :=
  ⟨es.all fun e => e.getLsbD 0, es.all fun e => e.getLsbD 1, es.all fun e => e.getLsbD 2, es.all fun e => e.getLsbD 10⟩

/-- Where the entries of a walk stand, from the table of a level on, and whether their accessed flags are recorded as set by a mapping that
is created: as they are, or with the flags of EPTP bit 6 off as set (47_invalidation.md R308; log 28). -/
def recordsOf (s : State) (gpa : Word) : Nat → Word → List Word → List UsedEntry
  | _, _, [] => []
  | level, base, e :: es =>
    ⟨base + 8#64 * gpaIndex gpa level, e.getLsbD 8 || !s.eptAd⟩ :: recordsOf s gpa (level - 1) (tableBase e) es

/-- The kept bits of a leaf entry in a mapping that is created (46_caching.md R230 `leafBits`), the flags likewise. -/
def recordedLeaf (s : State) (e : Word) : LeafBits :=
  ⟨e.extractLsb' 3 3, e.getLsbD 6, e.getLsbD 8 || !s.eptAd, e.getLsbD 9 || !s.eptAd, e.getLsbD 61⟩

/-- The guest's part of a translation that is created for a linear address: the guest entries of its walk, from memory alone, the final
guest-physical (or physical) address and the page's size (42_ept_vmexits.md R124 step 1). -/
def guestLeaf (c : Cfg) (s : State) (la : Word) (guest : List GuestEntry) (gpa : Word) (size : Nat) : Prop :=
  ∃ ges ge level z, guest = ges ++ [ge] ∧
    guestPath c .dataRead la guest (c.guest.levels s.guestRegs - 1) (c.guest.startTable s.guestRegs la) [] (Ctx.start s.forFill) z ∧
    level = c.guest.levels s.guestRegs - 1 - ges.length + 1 ∧ gpa = c.guest.finalGpa s.guestRegs level ge.value la ∧
    size = c.guest.regionBits s.guestRegs level

/-- The guest entries that a walk reads in turn, from the table of level `n + 1` on after the entries `es`, each of which references a table,
the last the table `t` (42_ept_vmexits.md R124 step 1). -/
def guestTables (c : Cfg) (la : Word) : List GuestEntry → Nat → Word → List GuestEntry → Ctx → Word → Prop
  | [], _, table, _, _, t => t = table
  | ge :: rest, n, table, es, x, t =>
    ∃ y k, n = k + 1 ∧ guestEntry c .dataRead la es (n + 1) table none x = .ok ge y ∧
      c.guest.referencesTable y.st.guestRegs (n + 1) ge.value = true ∧
      guestTables c la rest k (c.guest.nextTable y.st.guestRegs (n + 1) ge.value) (es ++ [ge]) y t

/-- The guest's part of a paging-structure-cache entry that is created for a linear address: some guest entries, the table that the last
references and its level (46_caching.md R225, R228). -/
def guestTableAtLevel (c : Cfg) (s : State) (la : Word) (guest : List GuestEntry) (table : Word) (level : Nat) : Prop :=
  guest ≠ [] ∧ guest.length + level = c.guest.levels s.guestRegs + 1 ∧
    guestTables c la guest (c.guest.levels s.guestRegs - 1) (c.guest.startTable s.guestRegs la) [] (Ctx.start s.forFill) table

/-- What a translation of a page that is created may hold of the sub-page permissions: nothing, or, with the control on and bit 61 of the EPT
PTE, the vector or a table that the lookup in memory comes to (46_caching.md R229; log 28). -/
def sppRecorded (c : Cfg) (s : State) (gpa : Word) (level : Nat) (e : Word) (spp : Option SppCached) : Prop :=
  spp = none ∨
    (s.vmcs.sppControl = true ∧ level = 1 ∧ e.getLsbD 61 = true ∧
      ((∃ v n y, spp = some (.vector v) ∧ sppVector c fillAccess gpa (Ctx.start (s.forFill.withFreeCtr n)) = .ok v y) ∨
        ∃ above b n y, above < 3 ∧ spp = some (.table above b) ∧
          sppTables c fillAccess gpa (3 - above) 4 (sppBase c s.vmcs.spptp) (Ctx.start (s.forFill.withFreeCtr n)) = .ok b y))

/-- The guest's rights of a cached translation allow an access, and none of the guest's flags has to be set; without paging the guest has none
(42_ept_vmexits.md R124 step 2). -/
def guestAllows (c : Cfg) (s : State) (kind : AccKind) (guest : List GuestEntry) : Prop :=
  s.pg = false ∨
    (c.guest.allowed s.guestRegs guest kind = true ∧ c.guest.flagged s.guestRegs guest kind = guest.map fun ge => ge.value)

/-- The accessed flag of an entry used is set: in memory, but of an entry that a cached mapping gave as the mapping records it
(44_ept_ad_pml.md R181). -/
def WalkEntry.accessedIn (m : Memory) (u : WalkEntry) : Bool :=
  if u.cached then u.accessed else (m.read64 u.addr.toNat).getLsbD 8

/-- The dirty flag of a translation's leaf entry is set: in memory, but of one that a cached mapping gave as the mapping records it. -/
def Walk.dirtyIn (m : Memory) (w : Walk) : Bool :=
  if w.leafCached then w.leaf.dirty else (m.read64 w.leafAddr.toNat).getLsbD 9

/-- An SPP table entry that a lookup goes through: valid, no reserved bit set (R158, R159). -/
def sppEntryOk (c : Cfg) (e : Word) : Prop := e.getLsbD 0 = true ∧ e &&& sppReserved c = 0#64

/-- The controls of a VMCS: its fields but the PML index, the VM-instruction error and the VM-exit fields, which the processor
writes. -/
def Vmcs.controls (v : Vmcs) : Vmcs :=
  { v with pmlIndex := 0#16, instrError := 0#32, exitReason := 0#16, exitQual := 0#64, guestPhys := 0#64, guestLinear := 0#64 }

end Sys2Proof.Machine
end

