-- ==== Sys2Proof/Certificates/Slice0/Obligations.lean ====
section
/-! DEFINITION. The statements for the provers. `c` stands for any configuration; statements about `exec` and `step` are about the
machine's own, `Config.cfg`. -/

open Sys2Proof Sys2Proof.Machine

/-! Encodings and the step. -/

/-- R62, R63, R65: words written out from the spec's encodings decode to the instructions they stand for. -/
def Obligations.WordsDecode : Prop :=
  decodeTableWord 40 0x0080380F66 = some (.invept 0 ⟨none, .a64, some 0, none, 0#2, false, 0#32⟩) ∧
  decode .b64 [0x66#8, 0x0F#8, 0x38#8, 0x80#8, 0x01#8] = .ok (.invept 0 ⟨none, .a64, some 1, none, 0#2, false, 0#32⟩) [] ∧
  decode .b64 [0x66#8, 0x4D#8, 0x0F#8, 0x38#8, 0x81#8, 0x48#8, 0x10#8] =
    .ok (.invvpid 9 ⟨none, .a64, some 8, none, 0#2, false, 0x10#32⟩) [] ∧
  decodeTableWord 24 0xDA220F = some (.movCr3 2) ∧
  decodeTableWord 24 0xE3220F = some (.movCr4 3) ∧
  decode .b32 [0x0F#8, 0x01#8, 0x3B#8] = .ok (.invlpg ⟨none, .a32, some 3, none, 0#2, false, 0#32⟩) [] ∧
  decode .b64 [0xF3#8, 0x0F#8, 0xC7#8, 0x31#8] = .ok (.vmxon ⟨none, .a64, some 1, none, 0#2, false, 0#32⟩) [] ∧
  decodeTableWord 24 0xC4010F = some .vmxoff ∧ decodeTableWord 16 0xA20F = some .cpuid

/-- Decoding what is encoded gives the instruction back, whatever bytes stand after it, for every instruction and code size. -/
def Obligations.EncodeDecodeAgree : Prop :=
  ∀ (cs : CodeSize) (i : Instr) (rest : List Byte), i.wellFormed cs = true → decode cs (encode cs i ++ rest) = .ok i rest

/-- R62, R63, R65: the register form of INVEPT and INVVPID is no instruction, with or without a REX prefix; MOV to CR3 and to CR4 take the
register that ModRM.rm names, whatever ModRM.mod is. -/
def Obligations.ModrmModForms : Prop :=
  (∀ (op m rex : Byte) (rest : List Byte), op = 0x80#8 ∨ op = 0x81#8 → modOf m = 3#2 → rex.extractLsb' 4 4 = 4#4 →
    (∀ cs, decode cs (0x66#8 :: 0x0F#8 :: 0x38#8 :: op :: m :: rest) = .undefined) ∧
      decode .b64 (0x66#8 :: rex :: 0x0F#8 :: 0x38#8 :: op :: m :: rest) = .undefined) ∧
  ∀ (cs : CodeSize) (m : Byte) (rest : List Byte),
    (regOf m = 3#3 → decode cs (0x0F#8 :: 0x22#8 :: m :: rest) = .ok (.movCr3 (regNum false (rmOf m))) rest) ∧
      (regOf m = 4#3 → decode cs (0x0F#8 :: 0x22#8 :: m :: rest) = .ok (.movCr4 (regNum false (rmOf m))) rest)

/-- D1, D3: a step with a label left consumes the first: an input is run, an instruction of the trace is executed. With none left, or at a label
that says so, it runs the instruction that the fetched bytes decode to, with RIP past it. That the trace stands in State and that a step
fetches at RIP is the model's choice (log 2); that the register form of INVEPT and INVVPID, which is no instruction, raises #UD is its
presumption (log 30). -/
def Obligations.StepRunsDecoded : Prop :=
  (∀ (s : State) (i : Input) (rest : List Label), s.inputs = .input i :: rest → step s = runInput Config.cfg i (s.withInputs rest)) ∧
  (∀ (s : State) (i : Instr) (rest : List Label), s.inputs = .instr i :: rest → step s = exec i (s.withInputs rest)) ∧
  ∀ (s s0 t : State) (bs : List Byte), s.fetching s0 → bs ≠ [] → bs.length ≤ maxLength → fetchesTo Config.cfg s0 0 bs s0 t →
    (∀ k, k < bs.length → decode s0.codeSize (bs.take k) = .more) →
    (∀ i rest, decode s0.codeSize bs = .ok i rest → step s = exec i (t.advance bs.length)) ∧
      (decode s0.codeSize bs = .undefined → step s = .next (deliver Config.cfg .ud t))

/-- Without paging and outside VMX non-root operation, with no other agent writing, a step that fetches runs the instruction that the bytes at RIP
decode to. That a step fetches at RIP is the model's choice: the spec has no program counter (log 2; R25, D3). -/
def Obligations.StepRunsBytesAtRip : Prop :=
  ∀ (s s0 : State) (bs : List Byte) (i : Instr), s.fetching s0 → s0.Flat → bs.length ≤ maxLength → decode s0.codeSize bs = .ok i [] →
    (∀ k (h : k < bs.length), inRange Config.cfg (s0.fetchAddr k).toNat 1 = true ∧ s0.mem.read (s0.fetchAddr k).toNat = bs[k]) →
    step s = exec i (s0.advance bs.length)

/-! Reset and what every step keeps. -/

/-- R30, R350: power-up or reset leaves no cached mapping, in the state after reset and after the reset label in any state. -/
def Obligations.ResetEmptiesCache : Prop :=
  State.reset.cache = [] ∧ ∀ (c : Cfg) (s : State), ∃ t, runInput c .powerReset s = .next t ∧ t.cache = []

/-- R31, D19: after reset the processor is outside VMX operation; EPT is not in use and the current VPID is 0000H. That memory is kept by a
reset while the machine runs is the model's choice (log 38). -/
def Obligations.ResetLeavesVmx : Prop :=
  ∀ (c : Cfg) (s : State), ∃ t, runInput c .powerReset s = .next t ∧ t.mode = .outsideVmx ∧ t.eptInUse = false ∧
    t.currentVpid = 0#16 ∧ t.mem = s.mem

/-- The invariant holds after reset. -/
def Obligations.ResetInv : Prop := State.reset.Inv Config.cfg

/-- Every step keeps the invariant. -/
def Obligations.StepKeepsInv : Prop :=
  ∀ s t : State, s.Inv Config.cfg → step s = .next t → t.Inv Config.cfg

/-- R330: non-root operation is entered by VM entry only. -/
def Obligations.OnlyVmEntryEntersNonRoot : Prop :=
  ∀ s t : State, step s = .next t → t.mode = .nonRoot → s.mode = .nonRoot ∨ ∃ inject rest, s.inputs = .input (.vmEntry inject) :: rest

/-- R18: in non-root operation no step changes a control of the VMCS. -/
def Obligations.ControlsConstantInNonRoot : Prop :=
  ∀ s t : State, s.mode = .nonRoot → step s = .next t → t.mode = .nonRoot → t.vmcs.controls = s.vmcs.controls

/-- R18: the VMM writes the controls in root operation, and only there. That the write replaces the rest of the VMCS too, and makes it current
or not, is the model's choice (log 50). -/
def Obligations.ControlsWrittenInRoot : Prop :=
  ∀ (c : Cfg) (s : State) (current : Bool) (v : Vmcs),
    (s.mode = .root → runInput c (.vmcsWrite current v) s = .next { s with vmcs := v, vmcsCurrent := current, report := .ok }) ∧
      (s.mode ≠ .root → runInput c (.vmcsWrite current v) s = .refused .controlsWriteOutsideRoot)

/-! Memory. -/

/-- R41, R45, D12: a 64-bit value is stored least significant byte first, and read back. An entry is read, and one of its bits set with no other
changed, in one access, which follows the other agents' writes that come before it. -/
def Obligations.LittleEndian : Prop :=
  (∀ (m : Memory) (a : Nat) (w : Word), m.wf = true →
    (∀ i, i < 8 → (m.write64 a w).read (a + i) = w.extractLsb' (8 * i) 8) ∧ (m.write64 a w).read64 a = w ∧
      ∀ b, outside b a 8 → (m.write64 a w).read b = m.read b) ∧
  ∀ (c : Cfg) (x : Ctx) (pa : Word) (ws : List AgentWrite) (rest : List (List AgentWrite)) (m : Memory), x.st.agents = ws :: rest →
    (∀ w ∈ ws, inRange c w.pa.toNat w.bytes.length = true) → inRange c pa.toNat 8 = true → m = x.st.mem.writeAll ws →
    (∃ y, physRead64 c x pa = .ok (m.read64 pa.toNat) y ∧ y.st = { x.st with mem := m, agents := rest }) ∧
      ∀ bit, bit < 64 → ∃ y, setEntryBit c x pa bit = .ok () y ∧
        y.st = { x.st with mem := m.write64 pa.toNat (m.read64 pa.toNat ||| (1#64 <<< bit)), agents := rest }

/-! VPIDs and tags. -/

/-- R73: the current VPID. -/
def Obligations.CurrentVpid : Prop :=
  ∀ s : State, s.currentVpid = if s.mode = .nonRoot ∧ s.vmcs.enableVpid = true then s.vmcs.vpid else 0#16

/-- R74, R240 to R244: which cached mappings are used, and what a used one gives. Those whose tags or kind do not match, or that do not cover
the address, are not: taken out of the cache they change nothing else, and with none that match an access goes by the walks of memory. One
that matches is used for some free value (log 8): a translation gives its frame with the low bits of the address, and the rights it
recorded decide; a paging-structure-cache entry gives the table that the walk goes on from. What a mapping records beside R230's fields, the
reported guest-physical address among it, is the model's choice (log 28), and which are used without paging is its reading (log 32). -/
def Obligations.CachedMappingsUsed : Prop :=
  (∀ (c : Cfg) (p : Part) (x : Ctx),
    (∀ m ∈ x.st.cache, m.hasVpid x.st.currentVpid = false ∨ (m.hasPcid (x.st.currentPcid c) = false ∧ m.isGlobal = false) ∨
      m.coversLa p.la = false ∨ (x.st.eptInUse = true ∧ (m.isLinear = true ∨ m.hasEp4ta x.st.ep4ta = false)) ∨
      (x.st.eptInUse = false ∧ m.isLinear = false)) →
    accessPart c p x =
      if x.st.pg = true then (guestWalk c p.kind p.la x).bind fun gw y => accessAfterWalk c p gw y else accessUnpaged c p x) ∧
  (∀ (c : Cfg) (acc : GAccess) (gpa : Word) (x : Ctx),
    (∀ m ∈ x.st.cache, m.isGPhys = false ∨ m.hasEp4ta x.st.ep4ta = false ∨ m.coversGpa gpa = false) →
    eptTranslate c acc gpa x = eptWalk c acc gpa x) ∧
  (∀ (c : Cfg) (p : Part) (x : Ctx) (keep : Mapping → Bool),
    (∀ m ∈ x.st.cache, keep m = false → m.unmatched c x.st p.la) →
    accessPart c p (x.mapSt fun s => s.withCache (s.cache.filter keep)) =
      (accessPart c p x).onState fun s => s.withCache (s.cache.filter keep)) ∧
  (∀ (c : Cfg) (acc : GAccess) (gpa : Word) (x : Ctx) (keep : Mapping → Bool),
    (∀ m ∈ x.st.cache, keep m = false → m.isGPhys = false ∨ m.hasEp4ta x.st.ep4ta = false ∨ m.coversGpa gpa = false) →
    eptTranslate c acc gpa (x.mapSt fun s => s.withCache (s.cache.filter keep)) =
      (eptTranslate c acc gpa x).onState fun s => s.withCache (s.cache.filter keep)) ∧
  (∀ (acc : GAccess) (gpa : Word) (x : Ctx) (m : GPhysTr), .gphysTr m ∈ x.st.cache → x.st.cache.length < 2 ^ 64 →
    m.ep4ta = x.st.ep4ta → pageOf gpa m.size = m.page →
    ∃ v, ∀ c : Cfg, c.free x.st.freeCtr = v →
      ∃ w y, eptTranslate c acc gpa x = .ok w y ∧ y.st = x.st.bump 1 ∧ y.mappings = x.mappings ++ [.gphysTr m] ∧
        w.pa = m.frame + lowBits gpa m.size ∧ w.rights = m.rights ∧ w.leaf = m.leaf ∧ w.leafAddr = m.leafAddr ∧
        w.used = recordedEntries m.used ∧ w.leafCached = true) ∧
  (∀ (c : Cfg) (acc : GAccess) (gpa : Word) (x y : Ctx) (w : Walk), eptTranslate c acc gpa x = .ok w y →
    (∀ k ∈ w.sources, k ∈ x.st.cache ∧ k.isGPhys = true ∧ k.hasEp4ta x.st.ep4ta = true ∧ k.coversGpa gpa = true) ∧
      ∀ m, .gphysTr m ∈ w.sources → w.pa = m.frame + lowBits gpa m.size ∧ w.rights = m.rights ∧ w.leaf = m.leaf) ∧
  (∀ (c : Cfg) (acc : GAccess) (gpa : Word) (x : Ctx) (m : GPhysPsc), .gphysPsc m ∈ x.st.cache → m.ep4ta = x.st.ep4ta →
    pageOf gpa (eptRegionBits m.level) = m.upper → 2 ≤ m.level → m.level ≤ 4 → c.free x.st.freeCtr = 1#64 →
    (∀ k ∈ x.st.cache, k = .gphysPsc m ∨ k.isGPhys = false ∨ k.hasEp4ta x.st.ep4ta = false ∨ k.coversGpa gpa = false) →
    ∃ y, y.st = x.st.bump 1 ∧ y.mappings = x.mappings ++ [.gphysPsc m] ∧
      eptTranslate c acc gpa x =
        (eptWalkFrom c acc gpa (m.level - 2) m.table m.rights (recordedEntries m.used) y).bind fun w z =>
          .ok { w with sources := [.gphysPsc m] } z) ∧
  (∀ (c : Cfg) (p : Part) (x : Ctx) (m : CombTr) (acc : GAccess) (pa gpa : Word), .combTr m ∈ x.st.cache → x.st.cache.length < 2 ^ 64 →
    x.st.eptInUse = true → m.vpid = x.st.currentVpid → m.pcid = x.st.currentPcid c ∨ m.isGlobal = true → m.ep4ta = x.st.ep4ta →
    pageOf p.la m.size = m.page → (x.st.pg = false → p.la >>> 48 = 0#64) → acc = p.gaccess (userAddress c x.st m.guest) →
    pa = m.frame + lowBits p.la m.size → gpa = m.gpa ||| lowBits p.la m.size →
    ∃ v, ∀ f : Nat → Word, f x.st.freeCtr = v →
      (x.st.pg = true → c.guest.allowed x.st.guestRegs m.guest p.kind = false →
        ∃ y, accessPart { c with free := f } p x = .raised (.pageFault p.la (c.guest.faultCode x.st.guestRegs m.guest p.kind)) y) ∧
      (guestAllows c x.st p.kind m.guest → eptAllowed x.st m.rights acc = false →
        effKind x.st acc ≠ .dataWrite ∨ sppCandidate x.st (walkOfCombTr m p.la) acc = false →
        ∃ y, accessPart { c with free := f } p x =
          .raised (.eptViolation ⟨effKind x.st acc, gpa, some p.la, m.rights, false, none, x.mappings ++ [.combTr m]⟩) y) ∧
      (guestAllows c x.st p.kind m.guest → eptAllowed x.st m.rights acc = true → apicHit x.st pa = false →
        (x.st.eptAd = false →
          ∃ d y, accessPart { c with free := f } p x = .ok d y ∧ d.pa = pa ∧ d.gpa = some gpa ∧ y.st = x.st.bump 1) ∧
        (x.st.eptAd = true → ∃ y, y.st = x.st.bump 1 ∧
          ∀ z, eptSetAccessedDirty { c with free := f } (walkOfCombTr m p.la) acc gpa y = .ok () z →
            ∃ d, accessPart { c with free := f } p x = .ok d z ∧ d.pa = pa ∧ d.gpa = some gpa))) ∧
  (∀ (c : Cfg) (p : Part) (x : Ctx) (m : LinearTr) (pa : Word), .linearTr m ∈ x.st.cache → x.st.cache.length < 2 ^ 64 →
    x.st.eptInUse = false → x.st.pg = true → m.vpid = x.st.currentVpid → m.pcid = x.st.currentPcid c ∨ m.isGlobal = true →
    pageOf p.la m.size = m.page → pa = m.frame + lowBits p.la m.size →
    ∃ v, ∀ f : Nat → Word, f x.st.freeCtr = v →
      (c.guest.allowed x.st.guestRegs m.guest p.kind = false →
        ∃ y, accessPart { c with free := f } p x = .raised (.pageFault p.la (c.guest.faultCode x.st.guestRegs m.guest p.kind)) y) ∧
      (guestAllows c x.st p.kind m.guest → apicHit x.st pa = false →
        ∃ d y, accessPart { c with free := f } p x = .ok d y ∧ d.pa = pa ∧ d.gpa = none ∧ y.st = x.st.bump 1)) ∧
  (∀ (c : Cfg) (p : Part) (x : Ctx) (m : LinearPsc), .linearPsc m ∈ x.st.cache → x.st.eptInUse = false → x.st.pg = true →
    m.vpid = x.st.currentVpid → m.pcid = x.st.currentPcid c → pageOf p.la m.size = m.upper → 2 ≤ m.level →
    m.level ≤ guestLevels c x.st → c.free x.st.freeCtr = 1#64 → (∀ k ∈ x.st.cache, k = .linearPsc m ∨ k.unmatched c x.st p.la) →
    ∃ y, y.st = x.st.bump 1 ∧ y.mappings = x.mappings ++ [.linearPsc m] ∧
      accessPart c p x =
        (guestWalkFrom c p.kind p.la (m.level - 2) m.table m.guest y).bind fun gw z => accessAfterWalk c p gw z) ∧
  (∀ (c : Cfg) (p : Part) (x : Ctx) (m : CombPsc), .combPsc m ∈ x.st.cache → x.st.eptInUse = true → x.st.pg = true →
    m.vpid = x.st.currentVpid → m.pcid = x.st.currentPcid c → m.ep4ta = x.st.ep4ta → pageOf p.la m.size = m.upper → 2 ≤ m.level →
    m.level ≤ guestLevels c x.st → c.free x.st.freeCtr = 1#64 →
    (∀ k ∈ x.st.cache, k = .combPsc m ∨ k.isGPhys = true ∨ k.unmatched c x.st p.la) →
    ∃ y, y.st = x.st.bump 1 ∧ y.mappings = x.mappings ++ [.combPsc m] ∧
      accessPart c p x =
        (guestEntry c p.kind p.la m.guest (m.level - 1) m.tableGpa (some m) y).bind fun ge z =>
          if m.level - 1 ≠ 1 ∧ c.guest.referencesTable z.st.guestRegs (m.level - 1) ge.value = true then
            (guestWalkFrom c p.kind p.la (m.level - 3) (c.guest.nextTable z.st.guestRegs (m.level - 1) ge.value) (m.guest ++ [ge]) z).bind
              fun gw u => accessAfterWalk c p gw u
          else
            accessAfterWalk c p ⟨m.guest ++ [ge], c.guest.finalGpa z.st.guestRegs (m.level - 1) ge.value p.la,
              c.guest.regionBits z.st.guestRegs (m.level - 1)⟩ z) ∧
  ∀ (c : Cfg) (kind : AccKind) (la : Word) (es : List GuestEntry) (level size : Nat) (m : CombPsc) (x : Ctx) (off value : Word) (acc : GAccess),
    off = (c.guest.entryOffset x.st.guestRegs level la).setWidth 64 → size = guestEntrySize c x.st →
    acc = pswalkAccess .dataRead size la → value = wordOfBytes (x.st.mem.readBytes (m.table + off).toNat size) →
    (eptAllowed x.st m.rights acc = false →
      guestEntry c kind la es level m.tableGpa (some m) x =
        .raised (.eptViolation ⟨effKind x.st acc, m.tableGpa + off, some la, m.rights, true, none, x.mappings⟩) x) ∧
    (eptAllowed x.st m.rights acc = true → x.st.eptAd = false → apicHit x.st (m.table + off) = false → x.st.agents = [] →
      inRange c (m.table + off).toNat size = true →
      ∃ z, z.st = x.st ∧ guestEntry c kind la es level m.tableGpa (some m) x =
        if c.guest.notPresentOrReserved x.st.guestRegs level value = true then
          .raised (.pageFault la (c.guest.faultCode x.st.guestRegs (es ++ [⟨m.tableGpa + off, value⟩]) kind)) z
        else .ok ⟨m.tableGpa + off, value⟩ z)

/-! The EPT walk and the permission check. -/

/-- R102, R98: a walk through four present, well-configured entries, the last of which maps a 4-KByte page: the physical address, the rights
as ANDs over the four entries, the entries used. Nothing changes. -/
def Obligations.WalkMapsPage : Prop :=
  ∀ (c : Cfg) (acc : GAccess) (gpa : Word) (x : Ctx) (base e4 e3 e2 e : Word),
    base = tableBase x.st.vmcs.eptp → entryIs c x.st gpa 4 base e4 → referencesTable c x.st 4 e4 →
    entryIs c x.st gpa 3 (tableBase e4) e3 → referencesTable c x.st 3 e3 →
    entryIs c x.st gpa 2 (tableBase e3) e2 → referencesTable c x.st 2 e2 →
    entryIs c x.st gpa 1 (tableBase e2) e → mapsPage c x.st 1 e →
    ∃ w y, eptWalk c acc gpa x = .ok w y ∧ y.st = x.st ∧ w.pa = tableBase e ||| (gpa &&& 0xFFF#64) ∧ w.level = 1 ∧
      w.leaf = leafBitsOf e ∧ w.leafAddr = tableBase e2 + 8#64 * gpaIndex gpa 1 ∧ w.leafCached = false ∧
      w.rights =
        ⟨e4.getLsbD 0 && e3.getLsbD 0 && e2.getLsbD 0 && e.getLsbD 0, e4.getLsbD 1 && e3.getLsbD 1 && e2.getLsbD 1 && e.getLsbD 1,
          e4.getLsbD 2 && e3.getLsbD 2 && e2.getLsbD 2 && e.getLsbD 2,
          e4.getLsbD 10 && e3.getLsbD 10 && e2.getLsbD 10 && e.getLsbD 10⟩ ∧
      w.used =
        [⟨base + 8#64 * gpaIndex gpa 4, e4.getLsbD 8, false⟩, ⟨tableBase e4 + 8#64 * gpaIndex gpa 3, e3.getLsbD 8, false⟩,
          ⟨tableBase e3 + 8#64 * gpaIndex gpa 2, e2.getLsbD 8, false⟩, ⟨tableBase e2 + 8#64 * gpaIndex gpa 1, e.getLsbD 8, false⟩]

/-- R93, R95, R98, R102: an entry with bit 7 set at level 3 or 2 maps a 1-GByte or 2-MByte page: the physical address, the rights as ANDs over
the entries, the entries used. Nothing changes. -/
def Obligations.WalkMapsLargePage : Prop :=
  ∀ (c : Cfg) (acc : GAccess) (gpa : Word) (x : Ctx) (base e4 e3 e2 : Word), base = tableBase x.st.vmcs.eptp →
    entryIs c x.st gpa 4 base e4 → referencesTable c x.st 4 e4 → entryIs c x.st gpa 3 (tableBase e4) e3 →
    (mapsPage c x.st 3 e3 →
      ∃ w y, eptWalk c acc gpa x = .ok w y ∧ y.st = x.st ∧ w.level = 3 ∧
        w.pa = (e3 &&& 0x000FFFFFC0000000#64) ||| (gpa &&& 0x3FFFFFFF#64) ∧
        w.leaf = leafBitsOf e3 ∧ w.leafAddr = tableBase e4 + 8#64 * gpaIndex gpa 3 ∧ w.leafCached = false ∧
        w.rights = ⟨e4.getLsbD 0 && e3.getLsbD 0, e4.getLsbD 1 && e3.getLsbD 1, e4.getLsbD 2 && e3.getLsbD 2,
          e4.getLsbD 10 && e3.getLsbD 10⟩ ∧
        w.used = [⟨base + 8#64 * gpaIndex gpa 4, e4.getLsbD 8, false⟩, ⟨tableBase e4 + 8#64 * gpaIndex gpa 3, e3.getLsbD 8, false⟩]) ∧
    (referencesTable c x.st 3 e3 → entryIs c x.st gpa 2 (tableBase e3) e2 → mapsPage c x.st 2 e2 →
      ∃ w y, eptWalk c acc gpa x = .ok w y ∧ y.st = x.st ∧ w.level = 2 ∧
        w.pa = (e2 &&& 0x000FFFFFFFE00000#64) ||| (gpa &&& 0x1FFFFF#64) ∧
        w.leaf = leafBitsOf e2 ∧ w.leafAddr = tableBase e3 + 8#64 * gpaIndex gpa 2 ∧ w.leafCached = false ∧
        w.rights =
          ⟨e4.getLsbD 0 && e3.getLsbD 0 && e2.getLsbD 0, e4.getLsbD 1 && e3.getLsbD 1 && e2.getLsbD 1,
            e4.getLsbD 2 && e3.getLsbD 2 && e2.getLsbD 2, e4.getLsbD 10 && e3.getLsbD 10 && e2.getLsbD 10⟩ ∧
        w.used =
          [⟨base + 8#64 * gpaIndex gpa 4, e4.getLsbD 8, false⟩, ⟨tableBase e4 + 8#64 * gpaIndex gpa 3, e3.getLsbD 8, false⟩,
            ⟨tableBase e3 + 8#64 * gpaIndex gpa 2, e2.getLsbD 8, false⟩])

/-- R101, R111, R116: at the first entry of a walk that is not present there is an EPT violation, at the first that is present and not
configured properly an EPT misconfiguration, whatever stands in the levels below; nothing changes. -/
def Obligations.WalkStopsAtBadEntry : Prop :=
  ∀ (c : Cfg) (acc : GAccess) (gpa : Word) (x : Ctx) (k : Nat) (base e : Word),
    k < 4 → tableReached c x.st gpa k base → entryIs c x.st gpa (4 - k) base e →
    (eptPresent x.st e = false →
      ∃ r y, eptWalk c acc gpa x =
          .raised (.eptViolation ⟨effKind x.st acc, gpa, acc.la, r, acc.pswalk, some (4 - k), x.mappings⟩) y ∧
        y.st = x.st) ∧
    (eptPresent x.st e = true → eptMisconfigured c x.st e (4 - k) (isLeaf (4 - k) e) = true →
      ∃ y, eptWalk c acc gpa x = .raised (.eptMisconfig gpa (4 - k)) y ∧ y.st = x.st)

/-- R100: the present test. -/
def Obligations.PresentTest : Prop :=
  ∀ (s : State) (e : Word),
    eptPresent s e = true ↔ e.extractLsb' 0 3 ≠ 0#3 ∨ (s.vmcs.modeBasedExec = true ∧ e.getLsbD 10 = true)

/-- R117 (with R112 to R114 and R172): which right an access needs. -/
def Obligations.PermissionRule : Prop :=
  ∀ (s : State) (r : Rights) (acc : GAccess),
    effKind s acc = (if acc.pswalk = true ∧ s.vmcs.eptp.getLsbD 6 = true then .dataWrite else acc.kind) ∧
    (effKind s acc = .dataRead → eptAllowed s r acc = r.r) ∧ (effKind s acc = .dataWrite → eptAllowed s r acc = r.w) ∧
    (effKind s acc = .fetch →
      eptAllowed s r acc = if s.vmcs.modeBasedExec = true ∧ acc.user = true then r.xu else r.x)

/-- R116 step 2, R120, R173, R174, R312: once the physical address is determined, an access the rights do not allow (and to which sub-page write
permissions cannot apply) is an EPT violation; an allowed one is performed there, with the flags of EPTP bit 6 after they have been set,
without them with nothing changed; an allowed one to the APIC-access page, by a translation that is not stale, is an APIC-access
event. When a translation is stale, and where the test stands, is the model's choice (log 15). -/
def Obligations.PermissionCheck : Prop :=
  ∀ (c : Cfg) (acc : GAccess) (gpa : Word) (x y : Ctx) (w : Walk), gpa >>> 48 = 0#64 → eptTranslate c acc gpa x = .ok w y →
    (eptAllowed y.st w.rights acc = false → effKind y.st acc ≠ .dataWrite ∨ sppCandidate y.st w acc = false →
      guestPhysAccess c acc gpa x =
        .raised (.eptViolation ⟨effKind y.st acc, gpa, acc.la, w.rights, acc.pswalk, none, y.mappings⟩) y) ∧
    (eptAllowed y.st w.rights acc = true → y.st.eptAd = false → apicHit y.st w.pa = false →
      guestPhysAccess c acc gpa x = .ok ⟨w.pa, some w.leaf⟩ y) ∧
    (eptAllowed y.st w.rights acc = true → y.st.eptAd = true → apicHit y.st w.pa = false →
      guestPhysAccess c acc gpa x = (eptSetAccessedDirty c w acc gpa y).bind fun _ z => .ok ⟨w.pa, some w.leaf⟩ z) ∧
    (eptAllowed y.st w.rights acc = true → apicHit y.st w.pa = true → apicStale y.st w.sources = false →
      guestPhysAccess c acc gpa x = .raised (.apicAccess w.pa) y)

/-- D25: a guest-physical address with a bit above 47 set is refused; so is, without paging, a linear address that is one, whatever is
cached. -/
def Obligations.HighGuestPhysicalRefused : Prop :=
  (∀ (c : Cfg) (acc : GAccess) (gpa : Word) (x : Ctx), gpa >>> 48 ≠ 0#64 →
    guestPhysAccess c acc gpa x = .stopped (.refused .guestPhysicalAbove47)) ∧
  ∀ (c : Cfg) (p : Part) (x : Ctx), x.st.eptInUse = true → x.st.pg = false → p.la >>> 48 ≠ 0#64 →
    accessPart c p x = .stopped (.refused .guestPhysicalAbove47)

/-! Accesses. -/

/-- R125, R27: without paging and outside non-root operation, with no other agent writing, a linear address is the physical address; a read or
fetch changes nothing, a write changes the bytes written and no other byte. After the last linear address comes the first (the model's
choice where the spec is silent, log 13). -/
def Obligations.FlatAccess : Prop :=
  ∀ (c : Cfg) (s : State) (la : Word) (o : Origin), s.Flat →
    (∀ n, flatInRange c s la n →
      (∃ parts, runInput c (.access ⟨.read n, la, o⟩) s = .next { s with report := .access parts (s.flatBytes c la n) }) ∧
      ∃ parts, runInput c (.access ⟨.fetch n, la, o⟩) s = .next { s with report := .access parts (s.flatBytes c la n) }) ∧
    ∀ bs : List Byte, flatInRange c s la bs.length → bs.length ≤ 2 ^ 32 → s.mem.wf = true →
      ∃ mem parts, runInput c (.access ⟨.write bs, la, o⟩) s = .next { s with mem := mem, report := .access parts [] } ∧
        (∀ i (h : i < bs.length), mem.read (s.byteAt c la i).toNat = bs[i]) ∧
        ∀ b, (∀ i, i < bs.length → b ≠ (s.byteAt c la i).toNat) → mem.read b = s.mem.read b

/-- R123, R102, R120, R173, R174: with EPT in use and without paging, an access within one page through four good entries, with no mapping cached
and no APIC-access page. A read that they all allow, with no accessed flag to set: the bytes at the physical address, and nothing changes.
A write that they all allow: its bytes are stored there, without the flags of EPTP bit 6 with nothing else changed, with them after they
have been set, and without the log the leaf entry's accessed and dirty flags are then 1. -/
def Obligations.GuestAccessThroughEpt : Prop :=
  ∀ (c : Cfg) (s : State) (la : Word) (n : Nat) (e4 e3 e2 e pa leafAddr : Word),
    s.eptInUse = true → s.pg = false → s.cache = [] → s.vmcs.virtualizeApic = false → la >>> 48 = 0#64 → s.linWrap c la = la →
    0 < n → (la &&& 0xFFF#64).toNat + n ≤ 4096 →
    entryIs c s la 4 (tableBase s.vmcs.eptp) e4 → referencesTable c s 4 e4 → entryIs c s la 3 (tableBase e4) e3 →
    referencesTable c s 3 e3 → entryIs c s la 2 (tableBase e3) e2 → referencesTable c s 2 e2 →
    entryIs c s la 1 (tableBase e2) e → mapsPage c s 1 e →
    pa = tableBase e ||| (la &&& 0xFFF#64) → leafAddr = tableBase e2 + 8#64 * gpaIndex la 1 → inRange c pa.toNat n = true →
    (e4.getLsbD 0 = true → e3.getLsbD 0 = true → e2.getLsbD 0 = true → e.getLsbD 0 = true →
      s.eptAd = false ∨ (e4.getLsbD 8 = true ∧ e3.getLsbD 8 = true ∧ e2.getLsbD 8 = true ∧ e.getLsbD 8 = true) →
      ∃ parts, runInput c (.access ⟨.read n, la, .plain⟩) s = .next { s with report := .access parts (s.mem.readBytes pa.toNat n) }) ∧
    ∀ (bs : List Byte) (o : Origin), bs.length = n →
      e4.getLsbD 1 = true → e3.getLsbD 1 = true → e2.getLsbD 1 = true → e.getLsbD 1 = true →
      (s.eptAd = false → ∃ parts, runInput c (.access ⟨.write bs, la, o⟩) s =
        .next { s with mem := s.mem.writeBytes pa.toNat bs, report := .access parts [] }) ∧
      (s.eptAd = true → ∀ acc w y z, acc = ⟨.dataWrite, false, false, n, some la, false, o⟩ → eptWalk c acc la (Ctx.start s) = .ok w y →
        eptSetAccessedDirty c w acc la y = .ok () z →
        ∃ parts, runInput c (.access ⟨.write bs, la, o⟩) s =
          .next { z.st with mem := z.st.mem.writeBytes pa.toNat bs, report := .access parts [] }) ∧
      (s.eptAd = true → s.pmlOn = false → s.mem.wf = true →
        ∃ t parts, runInput c (.access ⟨.write bs, la, o⟩) s = .next t ∧ t.report = .access parts [] ∧
          (∀ i (h : i < bs.length), t.mem.read (pa.toNat + i) = bs[i]) ∧
          (leafAddr.toNat + 8 ≤ pa.toNat ∨ pa.toNat + n ≤ leafAddr.toNat →
            (t.mem.read64 leafAddr.toNat).getLsbD 8 = true ∧ (t.mem.read64 leafAddr.toNat).getLsbD 9 = true))

/-- R322, D28, D12: an access that ends in an event has no effect on memory, flags, the log or the PML index, where other agents' writes
meanwhile stay; of the cached mappings none is added or changed. That general registers and CR3 stay across a VM exit is D16 (log 35, unsafe);
that an exception writes no memory and changes no register but RIP is the model's choice (logs 9, 49, unsafe), and that the earlier parts of an access that ends in an event leave no
flag and no log entry is its reading of D28 (log 12, unsafe). -/
def Obligations.EventsArePrecise : Prop :=
  ∀ (c : Cfg) (a : Access) (s t : State) (e : Event), c.speculativeAccessedSet = false → runInput c (.access a) s = .next t →
    t.report = .exit e ∨ t.report = .exception e →
    (∃ k, t.agents = s.agents.drop k ∧ t.mem = s.mem.writeAll (s.agents.take k).flatten) ∧ (s.agents = [] → t.mem = s.mem) ∧
      t.vmcs.pmlIndex = s.vmcs.pmlIndex ∧ t.cache.Sublist s.cache ∧ t.gpr = s.gpr ∧ t.cr3 = s.cr3

/-- What a performed access leaves unchanged: every register, control and VM-exit field, the cached mappings, the labels. With no other agent
writing, a byte of memory outside the parts written, the guest paging-structure entries accessed and the page-modification log has at most
its bits 0 and 1 set (the accessed and dirty flags of EPT entries, bits 8 and 9 of those), and without the flags of EPTP bit 6 nothing
of it changed. Without paging and without those flags a read or fetch leaves all of memory. -/
def Obligations.AccessFrame : Prop :=
  ∀ (c : Cfg) (a : Access) (s t : State) (parts : List PartDone) (bytes : List Byte), runInput c (.access a) s = .next t →
    t.report = .access parts bytes →
    (t.gpr = s.gpr ∧ t.rip = s.rip ∧ t.flags = s.flags ∧ t.cpl = s.cpl ∧ t.cpuMode = s.cpuMode ∧ t.csDefault32 = s.csDefault32 ∧
      t.segs = s.segs ∧ t.cr0 = s.cr0 ∧ t.cr3 = s.cr3 ∧ t.cr4 = s.cr4 ∧ t.pdpte = s.pdpte ∧ t.pat = s.pat ∧ t.mode = s.mode ∧
      t.vmcsCurrent = s.vmcsCurrent ∧ t.vmcs = { s.vmcs with pmlIndex := t.vmcs.pmlIndex } ∧ t.cache = s.cache ∧ t.inputs = s.inputs) ∧
    (s.agents = [] → s.pg = false → s.eptAd = false ∨ s.eptInUse = false → ∀ n, a.op = .read n ∨ a.op = .fetch n → t.mem = s.mem) ∧
    (s.agents = [] → s.mem.wf = true → ∀ b,
      (∀ bs, a.op = .write bs → ∀ d ∈ parts, outside b d.pa.toNat d.size) →
      (∀ d ∈ parts, ∀ g ∈ d.walk, outside b g.pa.toNat 8) →
      (s.eptInUse = true → s.pmlOn = true → ∀ i : BitVec 16, i.toNat ≤ 511 →
        outside b (s.vmcs.pmlAddress + 8#64 * i.setWidth 64).toNat 8) →
      ∃ flags : Byte, flags &&& 0xFC#8 = 0#8 ∧ t.mem.read b = s.mem.read b ||| flags ∧
        (s.eptAd = false ∨ s.eptInUse = false → flags = 0#8))

/-- R124, R202: an event of the access to a guest paging-structure entry comes before what the entry holds; a not-present entry or one with a
reserved bit is a page fault; a page fault for missing rights comes before the final address is translated. The access to an entry has an
effective memory type of its own, by the entries before it (log 39). A walk through entries of which every one but the last references a
table comes to the final address that the last gives; an access they allow is, after the guest's flags are set (none where no value
changes), performed at what that address translates to. -/
def Obligations.GuestWalkOrder : Prop :=
  (∀ (c : Cfg) (kind : AccKind) (la table : Word) (es : List GuestEntry) (level : Nat) (x y : Ctx) (e : Event),
    addressAccess c (pswalkAccess .dataRead (guestEntrySize c x.st) la)
      (table + (c.guest.entryOffset x.st.guestRegs level la).setWidth 64) x = .raised e y →
    guestEntry c kind la es level table none x = .raised e y) ∧
  (∀ (c : Cfg) (kind : AccKind) (la table entry : Word) (es : List GuestEntry) (level : Nat) (x y : Ctx) (g : Granted) (value : Word),
    entry = table + (c.guest.entryOffset x.st.guestRegs level la).setWidth 64 →
    addressAccess c (pswalkAccess .dataRead (guestEntrySize c x.st) la) entry x = .ok g y → y.st.agents = [] →
    inRange c g.pa.toNat (guestEntrySize c x.st) = true →
    value = wordOfBytes (y.st.mem.readBytes g.pa.toNat (guestEntrySize c x.st)) →
    ∃ z, z.st = y.st ∧ z.typed = y.typed ++ [⟨entry, g.pa, g.leaf.bind fun leaf => effectiveMemType c y.st leaf es⟩] ∧
      guestEntry c kind la es level table none x =
        if c.guest.notPresentOrReserved y.st.guestRegs level value = true then
          .raised (.pageFault la (c.guest.faultCode y.st.guestRegs (es ++ [⟨entry, value⟩]) kind)) z
        else .ok ⟨entry, value⟩ z) ∧
  (∀ (c : Cfg) (p : Part) (gw : GuestWalk) (x : Ctx), c.guest.allowed x.st.guestRegs gw.entries p.kind = false →
    accessAfterWalk c p gw x = .raised (.pageFault p.la (c.guest.faultCode x.st.guestRegs gw.entries p.kind)) x) ∧
  (∀ (c : Cfg) (kind : AccKind) (la : Word) (x z : Ctx) (ges : List GuestEntry) (ge : GuestEntry) (level : Nat),
    guestPath c kind la (ges ++ [ge]) (c.guest.levels x.st.guestRegs - 1) (c.guest.startTable x.st.guestRegs la) [] x z →
    level = c.guest.levels x.st.guestRegs - 1 - ges.length + 1 →
    guestWalk c kind la x =
      .ok ⟨ges ++ [ge], c.guest.finalGpa x.st.guestRegs level ge.value la, c.guest.regionBits x.st.guestRegs level⟩ z) ∧
  (∀ (c : Cfg) (la : Word) (es : List GuestEntry) (l : List (GuestEntry × Word)) (x : Ctx), (∀ q ∈ l, q.1.value = q.2) →
    guestSetFlags c la es l x = .ok () x) ∧
  ∀ (c : Cfg) (p : Part) (gw : GuestWalk) (x y z : Ctx) (g : Granted), c.guest.allowed x.st.guestRegs gw.entries p.kind = true →
    guestSetFlags c p.la [] (gw.entries.zip (c.guest.flagged x.st.guestRegs gw.entries p.kind)) x = .ok () y →
    addressAccess c (p.gaccess (y.st.pg && c.guest.isUser y.st.guestRegs gw.entries)) gw.gpa y = .ok g z →
    ∃ d, accessAfterWalk c p gw x = .ok d z ∧ d.la = p.la ∧ d.pa = g.pa ∧ d.size = p.size ∧
      (g.leaf.isSome = true → d.gpa = some gw.gpa)

/-- R311, R324: a page fault is an exception of the guest, unless the VMM configured a VM exit for it: as an exception it leaves mode, controls,
cached mappings and memory (but for other agents' writes). Which configuration causes the VM exit (the bit of the exception bitmap, the
error code under the mask against the match) is the model's presumption, log 36; that RIP is free and no stack frame is written is its choice
(log 9, unsafe for memory), and so is that privilege level, segments, flags and operating mode stay (log 49, unsafe). -/
def Obligations.PageFaultStaysInGuest : Prop :=
  (∀ (c : Cfg) (a : Access) (s t : State) (la : Word) (code : BitVec 32), c.speculativeAccessedSet = false →
    runInput c (.access a) s = .next t → t.report = .exception (.pageFault la code) →
    ∃ rip n k, t =
      { s with rip := rip, freeCtr := n, agents := s.agents.drop k, mem := s.mem.writeAll (s.agents.take k).flatten,
               report := .exception (.pageFault la code) }) ∧
  ∀ (c : Cfg) (s : State) (la : Word) (code : BitVec 32),
    (s.mode = .nonRoot → (s.vmcs.exceptionBitmap.getLsbD 14 = true ↔ code &&& s.vmcs.pfErrorMask = s.vmcs.pfErrorMatch) →
      (deliver c (.pageFault la code) s).mode = .root ∧ (deliver c (.pageFault la code) s).report = .exit (.pageFault la code)) ∧
    (s.mode ≠ .nonRoot ∨ ¬(s.vmcs.exceptionBitmap.getLsbD 14 = true ↔ code &&& s.vmcs.pfErrorMask = s.vmcs.pfErrorMatch) →
      deliver c (.pageFault la code) s =
        { s with rip := c.free s.freeCtr, freeCtr := s.freeCtr + 1, report := .exception (.pageFault la code) })

/-! Sub-page write permissions. -/

/-- R154, R155, R157, R159: what the SPP vector of a page decides for a write within the page. -/
def Obligations.SppVectorDecides : Prop :=
  ∀ (c : Cfg) (acc : GAccess) (gpa v : Word) (w : Walk) (x y : Ctx), 0 < acc.size → sppVector c acc gpa x = .ok v y →
    (v &&& 0xAAAAAAAAAAAAAAAA#64 ≠ 0#64 → sppCheck c acc gpa w x = .raised (.sppMisconfig gpa acc.la) y) ∧
    (v &&& 0xAAAAAAAAAAAAAAAA#64 = 0#64 →
      (∀ sub, (gpa &&& 0xFFF#64).toNat / 128 ≤ sub → sub ≤ ((gpa &&& 0xFFF#64).toNat + acc.size - 1) / 128 →
        v.getLsbD (2 * sub) = true) →
      sppCheck c acc gpa w x = .ok () y) ∧
    (v &&& 0xAAAAAAAAAAAAAAAA#64 = 0#64 →
      (∃ sub, (gpa &&& 0xFFF#64).toNat / 128 ≤ sub ∧ sub ≤ ((gpa &&& 0xFFF#64).toNat + acc.size - 1) / 128 ∧
        v.getLsbD (2 * sub) = false) →
      sppCheck c acc gpa w x =
        .raised (.eptViolation ⟨effKind y.st acc, gpa, acc.la, w.rights, acc.pswalk, none, y.mappings⟩) y)

/-- R147, R148, R158, R159: the lookup of an SPP vector goes through three entries; at the first that is not valid there is an SPP miss, at
the first that is valid with a reserved bit set an SPP misconfiguration; through good ones it comes to the vector's address. -/
def Obligations.SppLookup : Prop :=
  ∀ (c : Cfg) (acc : GAccess) (gpa : Word) (x : Ctx) (e4 e3 e2 : Word), entryIs c x.st gpa 4 (sppBase c x.st.vmcs.spptp) e4 →
    (e4.getLsbD 0 = false → sppVectorAddr c acc gpa x = .raised (.sppMiss gpa acc.la) x) ∧
    (e4.getLsbD 0 = true → e4 &&& sppReserved c ≠ 0#64 → sppVectorAddr c acc gpa x = .raised (.sppMisconfig gpa acc.la) x) ∧
    (sppEntryOk c e4 → entryIs c x.st gpa 3 (sppBase c e4) e3 →
      (e3.getLsbD 0 = false → sppVectorAddr c acc gpa x = .raised (.sppMiss gpa acc.la) x) ∧
      (e3.getLsbD 0 = true → e3 &&& sppReserved c ≠ 0#64 → sppVectorAddr c acc gpa x = .raised (.sppMisconfig gpa acc.la) x) ∧
      (sppEntryOk c e3 → entryIs c x.st gpa 2 (sppBase c e3) e2 →
        (e2.getLsbD 0 = false → sppVectorAddr c acc gpa x = .raised (.sppMiss gpa acc.la) x) ∧
        (e2.getLsbD 0 = true → e2 &&& sppReserved c ≠ 0#64 → sppVectorAddr c acc gpa x = .raised (.sppMisconfig gpa acc.la) x) ∧
        (sppEntryOk c e2 → sppVectorAddr c acc gpa x = .ok (sppBase c e2 + 8#64 * gpaIndex gpa 1) x)))

/-- R141 to R145: to a write that the EPT entries do not allow, sub-page write permissions do not apply with the control 0, on a page larger
than 4 KBytes, with bit 61 of the EPT PTE 0, in a transactional region or enclave, or for the processor's own accesses to guest
paging-structure entries: it is an EPT violation. -/
def Obligations.SppNotApplied : Prop :=
  ∀ (c : Cfg) (acc : GAccess) (gpa : Word) (w : Walk) (x : Ctx), effKind x.st acc = .dataWrite → w.rights.w = false →
    x.st.vmcs.sppControl = false ∨ w.level ≠ 1 ∨ w.leaf.spp = false ∨ acc.pswalk = true ∨ acc.origin = .transactional ∨
      acc.origin = .enclaveElrange ∨ acc.origin = .sgxEpc →
    eptGrant c acc gpa w x = .raised (.eptViolation ⟨.dataWrite, gpa, acc.la, w.rights, acc.pswalk, none, x.mappings⟩) x

/-- R142, R143, R152: an eligible write is decided by the SPP vector; allowed, it is performed at the physical address even where that is in
the APIC-access page, whatever "virtualize APIC accesses" is, after the flags of EPTP bit 6. A write that crosses two pages, or is one of
several, is eligible or not as the policy of D20 and D21 says: never, always, or by a free value. -/
def Obligations.SppDecidesEligibleWrite : Prop :=
  ∀ (c : Cfg) (acc : GAccess) (gpa : Word) (w : Walk) (x : Ctx), effKind x.st acc = .dataWrite → w.rights.w = false →
    x.st.vmcs.sppControl = true → w.level = 1 → w.leaf.spp = true → acc.pswalk = false →
    acc.origin = .plain ∨ acc.origin = .multiWrite →
    ((acc.crosses = false ∧ acc.origin = .plain) ∨ c.sppPolicy = .apply →
      (∀ e y, sppCheck c acc gpa w x = .raised e y → eptGrant c acc gpa w x = .raised e y) ∧
      (∀ y, sppCheck c acc gpa w x = .ok () y → y.st.eptAd = false → eptGrant c acc gpa w x = .ok w.pa y) ∧
      ∀ y, sppCheck c acc gpa w x = .ok () y → y.st.eptAd = true →
        eptGrant c acc gpa w x = (eptSetAccessedDirty c w acc gpa y).bind fun _ z => .ok w.pa z) ∧
    (acc.crosses = true ∨ acc.origin = .multiWrite →
      (c.sppPolicy = .applyToNeither →
        eptGrant c acc gpa w x = .raised (.eptViolation ⟨.dataWrite, gpa, acc.la, w.rights, acc.pswalk, none, x.mappings⟩) x) ∧
      (c.sppPolicy = .nondet → ∃ y, y = (x.mapSt fun s => s.bump 1) ∧
        (eptGrant c acc gpa w x = .raised (.eptViolation ⟨.dataWrite, gpa, acc.la, w.rights, acc.pswalk, none, y.mappings⟩) y ∨
          eptGrant c acc gpa w x = (sppCheck c acc gpa w y).bind fun _ z => eptPerform c acc gpa w z)))

/-! Accessed and dirty flags, the page-modification log. -/

/-- R181, R182: with no other agent writing, where no flag must be set nothing happens, whatever the PML index; where one must be, with the log on
and the index not in 0 to 511, there is a log-full event and nothing changes. Whether a flag must be set is what memory says at the update,
but of an entry that a cached mapping gave what the mapping recorded (log 28). -/
def Obligations.LogFullCheck : Prop :=
  ∀ (c : Cfg) (w : Walk) (acc : GAccess) (gpa : Word) (x : Ctx), x.st.agents = [] →
    (∀ u ∈ w.used, u.cached = false → inRange c u.addr.toNat 8 = true) → (w.leafCached = false → inRange c w.leafAddr.toNat 8 = true) →
    ((∀ u ∈ w.used, u.accessedIn x.st.mem = true) → effKind x.st acc ≠ .dataWrite ∨ w.dirtyIn x.st.mem = true →
      eptSetAccessedDirty c w acc gpa x = .ok () x) ∧
    ((∃ u ∈ w.used, u.accessedIn x.st.mem = false) ∨ (effKind x.st acc = .dataWrite ∧ w.dirtyIn x.st.mem = false) → x.st.pmlOn = true →
      511 < x.st.vmcs.pmlIndex.toNat → eptSetAccessedDirty c w acc gpa x = .raised (.pmlFull gpa) x)

/-- R181, R183, R184, R186, D11: a log entry is the guest-physical address with bits 11:0 zero, at the PML address plus 8 times the index; the
index goes down by one, from 0 to FFFFH; nothing else changes. With the log on and an index in 0 to 511, setting the flags of an access
writes one where the dirty flag has to be set; where only accessed flags have to be, and such updates are not logged, nothing is
logged. -/
def Obligations.LogEntryWritten : Prop :=
  ∀ (c : Cfg) (gpa : Word) (x : Ctx) (entry : Word), entry = x.st.vmcs.pmlAddress + 8#64 * x.st.vmcs.pmlIndex.setWidth 64 →
    x.st.agents = [] → x.st.mem.wf = true → inRange c entry.toNat 8 = true →
    (∃ y, pmlLog c gpa x = .ok () y ∧
      y.st = { x.st with mem := y.st.mem, vmcs := { x.st.vmcs with pmlIndex := x.st.vmcs.pmlIndex - 1#16 } } ∧
      y.st.mem.read64 entry.toNat = gpa &&& 0xFFFFFFFFFFFFF000#64 ∧
      ∀ b, outside b entry.toNat 8 → y.st.mem.read b = x.st.mem.read b) ∧
    ∀ (w : Walk) (acc : GAccess), x.st.pmlOn = true → x.st.vmcs.pmlIndex.toNat ≤ 511 →
      (∀ u ∈ w.used, inRange c u.addr.toNat 8 = true) → inRange c w.leafAddr.toNat 8 = true →
      (effKind x.st acc = .dataWrite → w.dirtyIn x.st.mem = false →
        ∃ y, eptSetAccessedDirty c w acc gpa x = .ok () y ∧ y.st.vmcs = { x.st.vmcs with pmlIndex := x.st.vmcs.pmlIndex - 1#16 } ∧
          y.st.mem.read64 entry.toNat = gpa &&& 0xFFFFFFFFFFFFF000#64) ∧
      (effKind x.st acc ≠ .dataWrite ∨ w.dirtyIn x.st.mem = true → c.pmlLogsOnAccessedUpdate = false →
        ∃ y, eptSetAccessedDirty c w acc gpa x = .ok () y ∧ y.st = { x.st with mem := y.st.mem } ∧
          ∀ b, (∀ u ∈ w.used, u.accessedIn x.st.mem = false → outside b u.addr.toNat 8) → y.st.mem.read b = x.st.mem.read b)

/-- R173, R174, R176, R185: with no other agent writing, setting the flags sets the accessed flag of every entry used and, for a write, the dirty
flag of the leaf entry, clears no bit of memory outside the log entry, and changes no byte outside the entries whose flag has to be set
and the log entry. -/
def Obligations.FlagsSetAndSticky : Prop :=
  ∀ (c : Cfg) (w : Walk) (acc : GAccess) (gpa : Word) (x y : Ctx), x.st.agents = [] → x.st.mem.wf = true →
    eptSetAccessedDirty c w acc gpa x = .ok () y →
    (∀ b, x.st.pmlOn = false ∨ outside b x.st.pmlEntry.toNat 8 → x.st.mem.read b &&& ~~~(y.st.mem.read b) = 0#8) ∧
    (∀ b, x.st.pmlOn = false ∨ outside b x.st.pmlEntry.toNat 8 → (∀ u ∈ w.used, u.accessedIn x.st.mem = false → outside b u.addr.toNat 8) →
      (effKind x.st acc = .dataWrite → w.dirtyIn x.st.mem = false → outside b w.leafAddr.toNat 8) → y.st.mem.read b = x.st.mem.read b) ∧
    (x.st.pmlOn = false →
      (∀ u ∈ w.used, u.cached = true → u.accessed = true → (x.st.mem.read64 u.addr.toNat).getLsbD 8 = true) →
      (w.leafCached = true → w.leaf.dirty = true → (x.st.mem.read64 w.leafAddr.toNat).getLsbD 9 = true) →
      (∀ u ∈ w.used, (y.st.mem.read64 u.addr.toNat).getLsbD 8 = true) ∧
        (effKind x.st acc = .dataWrite → (y.st.mem.read64 w.leafAddr.toNat).getLsbD 9 = true))

/-! Memory types. -/

/-- R200, R201: the memory type of accesses to the EPT paging structures. -/
def Obligations.EptStructuresMemType : Prop :=
  ∀ s : State, s.eptStructMemType =
    if s.cr0.getLsbD 30 = true then some .uc
    else if s.vmcs.eptp.extractLsb' 0 3 = 0#3 then some .uc
    else if s.vmcs.eptp.extractLsb' 0 3 = 6#3 then some .wb
    else none

/-- R202 to R207: the effective memory type of an access that EPT translates. Through a cached combined translation it is UC with CR0.CD as it is
now, else what the translation recorded: that a combined translation holds a type is R228, that CD counts as it is at the access is the
model's choice (logs 39, 28). -/
def Obligations.EffectiveMemType : Prop :=
  (∀ (c : Cfg) (s : State) (e : Word) (guest : List GuestEntry) (ept : MemType),
    (e.extractLsb' 3 3, ept) ∈ [(0#3, MemType.uc), (1#3, .wc), (4#3, .wt), (5#3, .wp), (6#3, .wb)] →
    effectiveMemType c s (leafBitsOf e) guest =
      some (if s.cr0.getLsbD 30 = true then .uc
        else if e.getLsbD 6 = true then ept
        else c.combineMemType ept (if s.cr0.getLsbD 31 = true then c.guest.patType s.guestRegs guest else .wb))) ∧
  ∀ (c : Cfg) (p : Part) (m : CombTr) (x y : Ctx) (d : PartDone), accessByCombTr c p m x = .ok d y →
    d.memType = if y.st.cr0.getLsbD 30 = true then some .uc else m.memType

/-! Caching. -/

/-- R224 to R231, R233, R234, R236, R238: which mappings may be created, with which tags and with which contents: those that a walk of memory
yields. What they record beside R230's fields is the model's choice (log 28; the APIC-access page log 15). That a fill changes nothing but for
what other agents write meanwhile and the count of free values is another (log 29). -/
def Obligations.FillsFollowTheRules : Prop :=
  (∀ (c : Cfg) (s t : State) (f : FillReq) (m : Mapping), fillMapping c s f = some (m, t) →
    (s.eptInUse = false → m.isLinear = true) ∧
    (s.eptInUse = true → m.isGPhysOrCombined = true ∧ m.hasEp4ta s.ep4ta = true) ∧
    (m.isGPhys = false → m.hasVpid s.currentVpid = true ∧ m.hasPcid (s.currentPcid c) = true) ∧
    (s.pg = false → m.isCombined = true → m.isPsc = false) ∧
    ∃ k n, t = { s with agents := s.agents.drop k, mem := s.mem.writeAll (s.agents.take k).flatten, freeCtr := n }) ∧
  (∀ (c : Cfg) (s : State) (gpa : Word) (f : SppFill), s.agents = [] →
    (∀ k t, fillMapping c s (.gphysTr gpa f) = some (k, t) →
      ∃ m es level base e, k = .gphysTr m ∧ eptLeaf c s gpa es level base e ∧ m.size = eptRegionBits level ∧
        m.page = pageOf gpa m.size ∧ m.frame = leafFrame e level ∧ m.rights = rightsOf (es ++ [e]) ∧ m.leaf = recordedLeaf s e ∧
        m.leafAddr = base + 8#64 * gpaIndex gpa level ∧ m.used = recordsOf s gpa 4 (tableBase s.vmcs.eptp) (es ++ [e]) ∧
        m.apicPage = s.apicPage ∧ sppRecorded c s gpa level e m.spp) ∧
    ∀ es level base e, s.eptInUse = true → gpa >>> 48 = 0#64 → eptLeaf c s gpa es level base e →
      (fillMapping c s (.gphysTr gpa f)).isSome = true) ∧
  (∀ (c : Cfg) (s t : State) (gpa : Word) (level : Nat) (k : Mapping), s.agents = [] → fillMapping c s (.gphysPsc gpa level) = some (k, t) →
    ∃ m es, k = .gphysPsc m ∧ m.level = level ∧ m.upper = pageOf gpa (eptRegionBits level) ∧ es ≠ [] ∧ es.length + level = 5 ∧
      eptPath c s gpa 4 (tableBase s.vmcs.eptp) es m.table ∧ m.rights = rightsOf es ∧
      m.used = recordsOf s gpa 4 (tableBase s.vmcs.eptp) es) ∧
  (∀ (c : Cfg) (s t : State) (a la : Word) (k : Mapping), la = s.linWrap c a → fillMapping c s (.linearTr a) = some (k, t) →
    ∃ m pa, k = .linearTr m ∧ guestLeaf c s la m.guest pa m.size ∧ m.page = pageOf la m.size ∧ m.frame + lowBits la m.size = pa ∧
      m.isGlobal = c.guest.isGlobal s.guestRegs m.guest ∧ m.memType = c.guest.patType s.guestRegs m.guest ∧ m.apicPage = s.apicPage) ∧
  (∀ (c : Cfg) (s t : State) (a la : Word) (depth : Nat) (k : Mapping), la = s.linWrap c a →
    fillMapping c s (.linearPsc a depth) = some (k, t) →
    ∃ m, k = .linearPsc m ∧ m.guest.length = depth ∧ guestTableAtLevel c s la m.guest m.table m.level ∧
      m.size = c.guest.regionBits s.guestRegs m.level ∧ m.upper = pageOf la m.size) ∧
  (∀ (c : Cfg) (s t : State) (a la : Word) (f : SppFill) (k : Mapping), s.agents = [] → la = s.linWrap c a →
    fillMapping c s (.combTr a f) = some (k, t) →
    ∃ m gpa guestSize es level base e, k = .combTr m ∧ eptLeaf c s gpa es level base e ∧
      (s.pg = true → guestLeaf c s la m.guest gpa guestSize ∧ m.isGlobal = c.guest.isGlobal s.guestRegs m.guest) ∧
      (s.pg = false → m.guest = [] ∧ gpa = la ∧ guestSize = eptRegionBits level ∧ m.isGlobal = false) ∧
      m.size = min guestSize (eptRegionBits level) ∧ m.page = pageOf la m.size ∧ m.gpa + lowBits la m.size = gpa ∧
      m.frame + lowBits gpa m.size = leafFrame e level ||| lowBits gpa (eptRegionBits level) ∧ m.rights = rightsOf (es ++ [e]) ∧
      m.leaf = { recordedLeaf s e with spp := e.getLsbD 61 && level == 1 } ∧ m.leafAddr = base + 8#64 * gpaIndex gpa level ∧
      m.used = recordsOf s gpa 4 (tableBase s.vmcs.eptp) (es ++ [e]) ∧ m.memType = structuresMemType c s (leafBitsOf e) m.guest ∧
      m.apicPage = s.apicPage ∧ sppRecorded c s gpa level e m.spp) ∧
  ∀ (c : Cfg) (s t : State) (a la : Word) (depth : Nat) (k : Mapping), s.agents = [] → la = s.linWrap c a →
    fillMapping c s (.combPsc a depth) = some (k, t) →
    ∃ m es level base e, k = .combPsc m ∧ m.guest.length = depth ∧ guestTableAtLevel c s la m.guest m.tableGpa m.level ∧
      m.size = c.guest.regionBits s.guestRegs m.level ∧ m.upper = pageOf la m.size ∧ eptLeaf c s m.tableGpa es level base e ∧
      m.table = leafFrame e level ||| lowBits m.tableGpa (eptRegionBits level) ∧ m.rights = rightsOf (es ++ [e]) ∧
      m.leaf = recordedLeaf s e ∧ m.leafAddr = base + 8#64 * gpaIndex m.tableGpa level ∧
      m.used = recordsOf s m.tableGpa 4 (tableBase s.vmcs.eptp) (es ++ [e]) ∧ m.apicPage = s.apicPage

/-- R304, R237: no guest-physical mapping and no combined mapping is created from an EPT entry that is not present or is not configured
properly: with paging, neither the guest entries of a combined mapping nor the page or guest table it is for have addresses whose EPT walk
meets such an entry. -/
def Obligations.NoFillFromBadEptEntry : Prop :=
  (∀ (c : Cfg) (s : State) (gpa : Word) (f : SppFill) (k level : Nat) (base e : Word), k < 4 → tableReached c s gpa k base →
    entryIs c s gpa (4 - k) base e → eptPresent s e = false ∨ eptMisconfigured c s e (4 - k) (isLeaf (4 - k) e) = true →
    fillMapping c s (.gphysTr gpa f) = none ∧ (level ≤ 4 - k → fillMapping c s (.gphysPsc gpa level) = none) ∧
      (s.pg = false → s.linWrap c gpa = gpa → fillMapping c s (.combTr gpa f) = none)) ∧
  ∀ (c : Cfg) (s t : State) (la : Word),
    (∀ f m, s.pg = true → fillMapping c s (.combTr la f) = some (.combTr m, t) →
      (∀ ge ∈ m.guest, ¬eptEntryBad c s ge.addr) ∧ ¬eptEntryBad c s (m.gpa + lowBits (s.linWrap c la) m.size)) ∧
    ∀ depth m, fillMapping c s (.combPsc la depth) = some (.combPsc m, t) →
      (∀ ge ∈ m.guest, ¬eptEntryBad c s ge.addr) ∧ ¬eptEntryBad c s m.tableGpa

/-- R232, R237: no guest entry of a linear or combined mapping that is created, a translation or a paging-structure-cache entry, is not present
or has a reserved bit set. -/
def Obligations.NoFillFromBadGuestEntry : Prop :=
  ∀ (c : Cfg) (s t : State) (la : Word) (guest : List GuestEntry),
    (∃ m, fillMapping c s (.linearTr la) = some (.linearTr m, t) ∧ guest = m.guest) ∨
      (∃ f m, fillMapping c s (.combTr la f) = some (.combTr m, t) ∧ guest = m.guest) ∨
      (∃ depth m, fillMapping c s (.linearPsc la depth) = some (.linearPsc m, t) ∧ guest = m.guest) ∨
      (∃ depth m, fillMapping c s (.combPsc la depth) = some (.combPsc m, t) ∧ guest = m.guest) →
    ∀ i (h : i < guest.length),
      c.guest.notPresentOrReserved s.guestRegs (max 1 (c.guest.levels s.guestRegs) - i) guest[i].value = false

/-! Invalidation. -/

/-- R290 to R293, R296: what the operations are not required to invalidate. -/
def Obligations.NeedNotInvalidate : Prop :=
  ∀ (c : Cfg) (s : State) (op : TlbOp) (type : Word) (d : BitVec 128) (m : Mapping),
    (m.isGPhys = true → tlbRequired c s op m = false ∧ invvpidRequired type d m = false ∧ transitionRequired s m = false) ∧
    (m.isLinear = true → inveptRequired type d m = false) ∧ (s.vmcs.enableVpid = true → transitionRequired s m = false)

/-- R276 (1) to (3), R284 (1) to (3): where INVEPT and INVVPID raise #UD, cause a VM exit, or raise #GP(0), in this order, whatever their
operands. -/
def Obligations.InvalidationInstrTraps : Prop :=
  ∀ (s : State) (r : Reg) (m : MemOp),
    (s.mode = .outsideVmx ∨ s.cpuMode = .realAddress ∨ s.cpuMode = .virtual8086 ∨ s.cpuMode = .compatibility →
      exec (.invept r m) s = .next (deliver Config.cfg .ud s) ∧ exec (.invvpid r m) s = .next (deliver Config.cfg .ud s)) ∧
    (s.mode = .nonRoot → s.cpuMode = .protectedMode ∨ s.cpuMode = .long64 →
      exec (.invept r m) s = .next (deliver Config.cfg (.instr .invept) s) ∧
        exec (.invvpid r m) s = .next (deliver Config.cfg (.instr .invvpid) s)) ∧
    (s.mode = .root → s.cpuMode = .protectedMode ∨ s.cpuMode = .long64 → s.cpl ≠ 0#2 →
      exec (.invept r m) s = .next (deliver Config.cfg .gp0 s) ∧ exec (.invvpid r m) s = .next (deliver Config.cfg .gp0 s))

/-- R64, R276: in root operation at privilege level 0 the two instructions read their descriptor through the ordinary translation, then do
what their type and descriptor say. A fault of the read is delivered: a stack fault or a general-protection fault where the segment does
not allow the operand (what it allows, and that this comes first, is the model's presumption, log 33), else the event of the access. -/
def Obligations.DescriptorRead : Prop :=
  (∀ (s : State) (r : Reg) (m : MemOp), exec (.invept r m) s = descInstr Config.cfg .invept (inveptOp Config.cfg) r m s ∧
    exec (.invvpid r m) s = descInstr Config.cfg .invvpid (invvpidOp Config.cfg) r m s) ∧
  ∀ (c : Cfg) (s : State) (r : Reg) (m : MemOp), s.mode = .root → s.cpl = 0#2 → s.cpuMode = .protectedMode ∨ s.cpuMode = .long64 →
    (s.segmentAllows m 16 = false →
      descInstr c .invept (inveptOp c) r m s = .next (deliver c (if segmentOf m = .ss then .ss0 else .gp0) s) ∧
        descInstr c .invvpid (invvpidOp c) r m s = .next (deliver c (if segmentOf m = .ss then .ss0 else .gp0) s)) ∧
    (s.segmentAllows m 16 = true →
      (∀ parts bs x, linearAccess c (descAccess s m) (Ctx.start s) = .ok (parts, bs) x →
        descInstr c .invept (inveptOp c) r m s = .next (inveptOp c (s.regOperand r) (descOfBytes bs) x.st) ∧
          descInstr c .invvpid (invvpidOp c) r m s = .next (invvpidOp c (s.regOperand r) (descOfBytes bs) x.st)) ∧
      ∀ e x, linearAccess c (descAccess s m) (Ctx.start s) = .raised e x →
        descInstr c .invept (inveptOp c) r m s = .next (deliver c e (rollback c s e x)) ∧
          descInstr c .invvpid (invvpidOp c) r m s = .next (deliver c e (rollback c s e x)))

/-- R281, R282, R285, R287: INVEPT completes in root operation at privilege level 0 without paging, its segment allowing the operand (log
33) and no other agent writing, with type 1 and a valid EPTP, or type 2,
and bits 127:64 of the descriptor 0: VMsucceed, and the mappings that had to go are gone. Registers, controls and memory stay. -/
def Obligations.InveptCompletes : Prop :=
  ∀ (s : State) (r : Reg) (m : MemOp) (d : BitVec 128), s.mode = .root → s.cpl = 0#2 →
    s.cpuMode = .protectedMode ∨ s.cpuMode = .long64 → s.pg = false → s.agents = [] → s.segmentAllows m 16 = true →
    flatInRange Config.cfg s (s.linearAddr m) 16 → d = descOfBytes (s.flatBytes Config.cfg (s.linearAddr m) 16) → descHigh d = 0#64 →
    (s.regOperand r = 1#64 → eptpValid Config.cfg (descEptp d) = true →
      ∃ kept n, exec (.invept r m) s =
          .next { s with flags := ⟨false, false, false, false, false, false⟩, cache := kept, freeCtr := n, report := .ok } ∧
        kept.Sublist s.cache ∧ ∀ k ∈ kept, ¬(k.isGPhysOrCombined = true ∧ k.hasEp4ta ((descEptp d).extractLsb' 12 40) = true)) ∧
    (s.regOperand r = 2#64 →
      ∃ kept n, exec (.invept r m) s =
          .next { s with flags := ⟨false, false, false, false, false, false⟩, cache := kept, freeCtr := n, report := .ok } ∧
        kept.Sublist s.cache ∧ ∀ k ∈ kept, k.isGPhysOrCombined = false)

/-- R284 (4) to (6), R287: INVEPT with a bad operand, in the mode that may run it: VMfail(28), nothing invalidated. -/
def Obligations.InveptFails : Prop :=
  ∀ (c : Cfg) (s : State) (type : Word) (d : BitVec 128), s.mode = .root → s.cpl = 0#2 →
    s.cpuMode = .protectedMode ∨ s.cpuMode = .long64 →
    (type ≠ 1#64 ∧ type ≠ 2#64) ∨ (type = 1#64 ∧ c.inveptTypes.getLsbD 1 = false) ∨
      (type = 2#64 ∧ c.inveptTypes.getLsbD 2 = false) ∨ descHigh d ≠ 0#64 ∨ (type = 1#64 ∧ eptpValid c (descEptp d) = false) →
    (s.vmcsCurrent = true → inveptOp c type d s =
      { s with flags := ⟨false, false, false, true, false, false⟩, vmcs := { s.vmcs with instrError := 28#32 }, report := .vmFail 28 }) ∧
    (s.vmcsCurrent = false → inveptOp c type d s =
      { s with flags := ⟨true, false, false, false, false, false⟩, report := .vmFail 28 })

/-- R271 to R274, R277, R287: INVVPID completes in root operation at privilege level 0 without paging, its segment allowing the operand
(log 33) and no other agent writing, with valid operands of each type:
VMsucceed, and the mappings that had to go are gone. Registers, controls and memory stay. -/
def Obligations.InvvpidCompletes : Prop :=
  ∀ (s : State) (r : Reg) (m : MemOp) (d : BitVec 128), s.mode = .root → s.cpl = 0#2 →
    s.cpuMode = .protectedMode ∨ s.cpuMode = .long64 → s.pg = false → s.agents = [] → s.segmentAllows m 16 = true →
    flatInRange Config.cfg s (s.linearAddr m) 16 → d = descOfBytes (s.flatBytes Config.cfg (s.linearAddr m) 16) → d.extractLsb' 16 48 = 0#48 →
    (s.regOperand r = 2#64 ∨ (s.regOperand r = 1#64 ∧ d.extractLsb' 0 16 ≠ 0#16) ∨
      (s.regOperand r = 3#64 ∧ d.extractLsb' 0 16 ≠ 0#16) ∨
      (s.regOperand r = 0#64 ∧ d.extractLsb' 0 16 ≠ 0#16 ∧ canonical (d.extractLsb' 64 64) = true)) →
    ∃ kept n, exec (.invvpid r m) s =
        .next { s with flags := ⟨false, false, false, false, false, false⟩, cache := kept, freeCtr := n, report := .ok } ∧
      kept.Sublist s.cache ∧
      ∀ k ∈ kept, k.isLinearOrCombined = true →
        (s.regOperand r = 0#64 → ¬(k.hasVpid (d.extractLsb' 0 16) = true ∧ k.coversLa (d.extractLsb' 64 64) = true)) ∧
        (s.regOperand r = 1#64 → k.hasVpid (d.extractLsb' 0 16) = false) ∧
        (s.regOperand r = 2#64 → k.hasVpid 0#16 = true) ∧
        (s.regOperand r = 3#64 → ¬(k.hasVpid (d.extractLsb' 0 16) = true ∧ k.isGlobal = false))

/-- R276 (4) to (7), R287: INVVPID with a bad operand, in the mode that may run it: VMfail(28), nothing invalidated. -/
def Obligations.InvvpidFails : Prop :=
  ∀ (c : Cfg) (s : State) (type : Word) (d : BitVec 128), s.mode = .root → s.cpl = 0#2 →
    s.cpuMode = .protectedMode ∨ s.cpuMode = .long64 →
    3 < type.toNat ∨ c.invvpidTypes.getLsbD type.toNat = false ∨ d.extractLsb' 16 48 ≠ 0#48 ∨
      (type ≠ 2#64 ∧ d.extractLsb' 0 16 = 0#16) ∨ (type = 0#64 ∧ canonical (d.extractLsb' 64 64) = false) →
    (s.vmcsCurrent = true → invvpidOp c type d s =
      { s with flags := ⟨false, false, false, true, false, false⟩, vmcs := { s.vmcs with instrError := 28#32 }, report := .vmFail 28 }) ∧
    (s.vmcsCurrent = false → invvpidOp c type d s =
      { s with flags := ⟨true, false, false, false, false, false⟩, report := .vmFail 28 })

/-- R262, R263: INVLPG, where it causes no VM exit: the linear and combined mappings of the current VPID that it selects (log 20) are gone, for
every EP4TA; nothing else changes. That it checks no privilege level is the model's choice (log 19). -/
def Obligations.InvlpgCompletes : Prop :=
  ∀ (s : State) (m : MemOp), s.mode ≠ .nonRoot ∨ s.vmcs.exitOnInvlpg = false →
    ∃ kept n, exec (.invlpg m) s = .next { s with cache := kept, freeCtr := n, report := .ok } ∧ kept.Sublist s.cache ∧
      ∀ k ∈ kept, k.isLinearOrCombined = true → k.hasVpid s.currentVpid = true →
        k.isGlobal = false ∧
          (k.hasPcid (s.currentPcid Config.cfg) = true → k.coversLa (s.linearAddr m) = false ∧ k.isPsc = false)

/-- R88, R89, R262, R263: MOV to CR3 and MOV to CR4, where they cause no VM exit: the register is written, with PAE paging and EPT in use the
PDPTE registers are loaded, linear and combined mappings of the current VPID are gone, but for CR3 those of global translations need not
be; nothing else changes but for what the load does. That mappings go whichever bits of the register are written is the model's choice
(log 21), that no privilege level is checked is another (log 19), and that PAE paging is judged with the register as written, so that a
MOV to CR4 that turns it off loads nothing and keeps the PDPTE registers, is a third (log 46, unsafe). -/
def Obligations.MovCrCompletes : Prop :=
  (∀ (s : State) (r : Reg),
    (s.mode ≠ .nonRoot ∨ s.vmcs.exitOnMovCr3 = false →
      s.eptInUse = false ∨ Config.cfg.guest.usesPae (s.withCr3 (s.regOperand r)).guestRegs = false →
      ∃ kept n, exec (.movCr3 r) s =
          .next { s with cr3 := s.regOperand r, cache := kept, freeCtr := n, report := .ok } ∧ kept.Sublist s.cache ∧
        ∀ k ∈ kept, k.isLinearOrCombined = true → k.hasVpid s.currentVpid = true → k.isGlobal = true) ∧
    (s.mode ≠ .nonRoot ∨ s.vmcs.exitOnMovCr4 = false →
      s.eptInUse = false ∨ Config.cfg.guest.usesPae (s.withCr4 (s.regOperand r)).guestRegs = false →
      ∃ kept n, exec (.movCr4 r) s =
          .next { s with cr4 := s.regOperand r, cache := kept, freeCtr := n, report := .ok } ∧ kept.Sublist s.cache ∧
        ∀ k ∈ kept, k.isLinearOrCombined = true → k.hasVpid s.currentVpid = false)) ∧
  (∀ (s : State) (r : Reg), exec (.movCr3 r) s = movCr3With Config.cfg r s ∧ exec (.movCr4 r) s = movCr4With Config.cfg r s) ∧
  ∀ (c : Cfg) (s : State) (r : Reg) (report : Report) (x : Ctx),
    (s.mode ≠ .nonRoot ∨ s.vmcs.exitOnMovCr3 = false → pdpteLoad c (Ctx.start (s.withCr3 (s.regOperand r))) = .ok report x →
      ∃ kept n, movCr3With c r s = .next { x.st with cache := kept, freeCtr := n, report := report } ∧ kept.Sublist s.cache ∧
        (∀ k ∈ kept, k.isLinearOrCombined = true → k.hasVpid s.currentVpid = true → k.isGlobal = true) ∧
        x.st.cr3 = s.regOperand r ∧ x.st.cr4 = s.cr4 ∧ x.st.gpr = s.gpr ∧ x.st.flags = s.flags ∧ x.st.mode = s.mode) ∧
    (s.mode ≠ .nonRoot ∨ s.vmcs.exitOnMovCr4 = false → pdpteLoad c (Ctx.start (s.withCr4 (s.regOperand r))) = .ok report x →
      ∃ kept n, movCr4With c r s = .next { x.st with cache := kept, freeCtr := n, report := report } ∧ kept.Sublist s.cache ∧
        (∀ k ∈ kept, k.isLinearOrCombined = true → k.hasVpid s.currentVpid = false) ∧
        x.st.cr4 = s.regOperand r ∧ x.st.cr3 = s.cr3 ∧ x.st.gpr = s.gpr ∧ x.st.flags = s.flags ∧ x.st.mode = s.mode)

/-- R89: with PAE paging and EPT in use the four PDPTE registers are loaded from guest-physical memory at the base that CR3 gives, each
through EPT as a data read; the values are not translated. MovCrCompletes says that both instructions complete with what this load
leaves; the state here has the register as written (log 46). -/
def Obligations.PdpteLoad : Prop :=
  (∀ (c : Cfg) (i : Nat) (x y : Ctx) (g : Granted),
    guestPhysAccess c ⟨.dataRead, false, false, 8, none, false, .plain⟩ (c.guest.pdptBase x.st.guestRegs + BitVec.ofNat 64 (8 * i)) x =
      .ok g y →
    y.st.agents = [] → inRange c g.pa.toNat 8 = true →
    ∃ z, readPdpte c i x = .ok (y.st.mem.read64 g.pa.toNat) z ∧ z.st = y.st ∧ z.typed.length = y.typed.length + 1) ∧
  ∀ (c : Cfg) (x0 x1 x2 x3 x4 : Ctx) (v0 v1 v2 v3 : Word), c.guest.usesPae x0.st.guestRegs = true → x0.st.eptInUse = true →
    readPdpte c 0 x0 = .ok v0 x1 → readPdpte c 1 x1 = .ok v1 x2 → readPdpte c 2 x2 = .ok v2 x3 → readPdpte c 3 x3 = .ok v3 x4 →
    ∃ x5, pdpteLoad c x0 = .ok (.loaded x4.typed) x5 ∧ x5.st = { x4.st with pdpte := #v[v0, v1, v2, v3] }

/-- R89, D28, R316: MOV to CR3 or CR4 that ends in a VM exit, configured or by an event of the PDPTE load, keeps the control, PDPTE, general and
segment registers, the flags, `IA32_PAT`, privilege level and operating mode, the controls and the PML index and, with no other agent
writing, memory; no mapping is added and the mode is root. RIP becomes a free value (log 9), and the VM-exit fields are written. That a VM exit saves
and loads no state is D16 (log 35, unsafe for claims about registers): R316 puts it outside the source. -/
def Obligations.MovCrExitKeepsRegisters : Prop :=
  (∀ (s : State) (r : Reg), exec (.movCr3 r) s = movCr3With Config.cfg r s ∧ exec (.movCr4 r) s = movCr4With Config.cfg r s) ∧
  Config.cfg.speculativeAccessedSet = false ∧
  ∀ (c : Cfg) (s t : State) (r : Reg) (e : Event), c.speculativeAccessedSet = false →
    movCr3With c r s = .next t ∨ movCr4With c r s = .next t → t.report = .exit e →
    t.cr0 = s.cr0 ∧ t.cr3 = s.cr3 ∧ t.cr4 = s.cr4 ∧ t.pdpte = s.pdpte ∧ t.gpr = s.gpr ∧ t.segs = s.segs ∧ t.flags = s.flags ∧
      t.pat = s.pat ∧ t.cpl = s.cpl ∧ t.cpuMode = s.cpuMode ∧ t.csDefault32 = s.csDefault32 ∧ t.vmcsCurrent = s.vmcsCurrent ∧
      t.vmcs.controls = s.vmcs.controls ∧ t.vmcs.pmlIndex = s.vmcs.pmlIndex ∧ (s.agents = [] → t.mem = s.mem) ∧
      t.cache.Sublist s.cache ∧ t.mode = .root

/-- R301: in non-root operation INVLPG, MOV to CR3 and MOV to CR4 cause a VM exit where the VMM configured one (log 22). -/
def Obligations.ConfiguredExits : Prop :=
  ∀ (s : State) (m : MemOp) (r : Reg), s.mode = .nonRoot →
    (s.vmcs.exitOnInvlpg = true → exec (.invlpg m) s = .next (deliver Config.cfg (.instr .invlpg) s)) ∧
    (s.vmcs.exitOnMovCr3 = true → exec (.movCr3 r) s = .next (deliver Config.cfg (.instr .movCr3) s)) ∧
    (s.vmcs.exitOnMovCr4 = true → exec (.movCr4 r) s = .next (deliver Config.cfg (.instr .movCr4) s))

/-- R297, R298: VMXON enters root operation and VMXOFF leaves VMX operation; cached mappings may go, none is added; nothing else
changes. That neither checks a mode or a privilege level and VMXON does not read its operand is the model's reading (logs 18, 19). -/
def Obligations.VmxonVmxoffComplete : Prop :=
  ∀ (s : State) (m : MemOp),
    (∃ kept n, exec (.vmxon m) s = .next { s with mode := .root, cache := kept, freeCtr := n, report := .ok } ∧
      kept.Sublist s.cache) ∧
    ∃ kept n, exec .vmxoff s = .next { s with mode := .outsideVmx, cache := kept, freeCtr := n, report := .ok } ∧
      kept.Sublist s.cache

/-- R3, R23: CPUID with leaf 1 in EAX returns 1 in bit 5 of ECX. With any leaf it changes EAX, ECX, EDX and EBX and no other register; nothing
else changes. That it completes in every state, causing no VM exit in non-root operation and checking no privilege level, is the model's
choice (logs 22, 19), and so is that the upper halves of the four registers become zero (log 11). -/
def Obligations.CpuidCompletes : Prop :=
  ∀ s : State, ∃ gpr n, exec .cpuid s = .next { s with gpr := gpr, freeCtr := n, report := .ok } ∧
    (∀ r : Reg, 4 ≤ r.val → gpr.get r = s.gpr.get r) ∧ (∀ r : Reg, r.val < 4 → (gpr.get r).extractLsb' 32 32 = 0#32) ∧
    ((s.gpr.get 0).extractLsb' 0 32 = 1#32 → (gpr.get 1).getLsbD 5 = true)

/-! Events, VM exits and VM entries. -/

/-- R264, R265, R313, R316: an EPT violation removes the guest-physical mappings of the current EP4TA that cover the address and, where it is
the translation of a linear address, the combined mappings of the current tags for that; nothing is added. That it is a VM exit after which
the mode is root and memory as before is R313, R316 and D16 (no state is saved or loaded, log 35), not R264 or R265. -/
def Obligations.EptViolationInvalidates : Prop :=
  ∀ (c : Cfg) (v : EptViolation) (s t : State), t = deliver c (.eptViolation v) s →
    t.mode = .root ∧ t.report = .exit (.eptViolation v) ∧ t.mem = s.mem ∧ t.cache.Sublist s.cache ∧
    (∀ m ∈ t.cache, ¬(m.isGPhys = true ∧ m.hasEp4ta s.ep4ta = true ∧ m.coversGpa v.gpa = true)) ∧
    ∀ la, v.la = some la → v.pswalk = false → ∀ m ∈ t.cache,
      ¬(m.isCombined = true ∧ m.hasVpid s.currentVpid = true ∧ m.hasPcid (s.currentPcid c) = true ∧ m.hasEp4ta s.ep4ta = true ∧
        m.coversLa la = true)

/-- R309, R323, R265: after an EPT violation and the return to the guest, an access to its guest-physical address walks the tables, and so does
one by its linear address, which uses no cached combined mapping; the mappings that the access had used are gone. That these go, and
combined mappings of global translations and of accesses to guest paging-structure entries with them, is the model's reading of R309
(log 44). -/
def Obligations.RetryWalksTables : Prop :=
  ∀ (c : Cfg) (v : EptViolation) (s t u : State), t = deliver c (.eptViolation v) s → u = vmEnter c t →
    (∀ acc : GAccess, eptTranslate c acc v.gpa (Ctx.start u) = eptWalk c acc v.gpa (Ctx.start u)) ∧
    (∀ m ∈ v.mappings, m ∉ u.cache) ∧
    ∀ p : Part, s.mode = .nonRoot → s.vmcs.enableEpt = true → v.la = some p.la →
      accessPart c p (Ctx.start u) =
        if u.pg = true then (guestWalk c p.kind p.la (Ctx.start u)).bind fun gw y => accessAfterWalk c p gw y
        else accessUnpaged c p (Ctx.start u)

/-- R266, R314 to R316: a VM exit: the mode is root, EPT is not in use and the current VPID is 0000H; with "enable VPID" 0 no linear or
combined mapping of VPID 0000H stays; registers, controls and memory stay, since no state is
saved or loaded (D16; log 35, unsafe). Every event of R311 but the exceptions is one, and so is the label
of a VM exit from non-root operation; outside non-root operation that label has no transition. -/
def Obligations.VmExitEffect : Prop :=
  (∀ (c : Cfg) (s : State),
    (s.mode = .nonRoot → ∃ t, runInput c .vmExit s = .next t ∧ t.mode = .root ∧ t.eptInUse = false ∧ t.currentVpid = 0#16 ∧
      t.cache.Sublist s.cache ∧ (s.vmcs.enableVpid = false → ∀ m ∈ t.cache, m.hasVpid 0#16 = false) ∧ t.mem = s.mem ∧
      t.gpr = s.gpr ∧ t.cr3 = s.cr3 ∧ t.vmcs.controls = s.vmcs.controls) ∧
    (s.mode ≠ .nonRoot → runInput c .vmExit s = .refused .vmExitNotPossible)) ∧
  (∀ (s : State) (e : Event), e ≠ .ud → e ≠ .gp0 → e ≠ .ss0 → (∀ la code, e ≠ .pageFault la code) → e.exits s = true) ∧
  ∀ (c : Cfg) (s t : State) (e : Event), e.exits s = true → t = deliver c e s →
    t.mode = .root ∧ t.report = .exit e ∧ t.eptInUse = false ∧ t.currentVpid = 0#16 ∧ t.cache.Sublist s.cache ∧
      (s.vmcs.enableVpid = false → ∀ m ∈ t.cache, m.hasVpid 0#16 = false) ∧ t.mem = s.mem ∧ t.gpr = s.gpr ∧ t.flags = s.flags ∧
      t.cr0 = s.cr0 ∧ t.cr3 = s.cr3 ∧ t.cr4 = s.cr4 ∧ t.pdpte = s.pdpte ∧ t.vmcs.controls = s.vmcs.controls ∧
      t.vmcs.pmlIndex = s.vmcs.pmlIndex

/-- R323, R266, R81: a VM entry from root operation with a current VMCS and well-formed controls: the mode is non-root and the controls take
effect; with "enable VPID" 0 no linear or combined mapping of VPID 0000H stays. The accesses it makes to inject an event are made in order in
non-root operation, with EPT in use where it is enabled; an event of one of them is taken, the rest are then not made. That general
registers and CR3 stay is D16, no state is saved or loaded (log 35, unsafe), and not R323. Other VM entries are refused (log 26). -/
def Obligations.VmEntryEffect : Prop :=
  ∀ (c : Cfg) (s : State),
    (s.mode = .root → s.vmcsCurrent = true → s.vmcs.wellFormed c = true →
      ∃ t, runInput c (.vmEntry []) s = .next t ∧ t.mode = .nonRoot ∧ t.eptInUse = s.vmcs.enableEpt ∧
        t.currentVpid = (if s.vmcs.enableVpid = true then s.vmcs.vpid else 0#16) ∧ t.vmcs = s.vmcs ∧ t.cache.Sublist s.cache ∧
        (s.vmcs.enableVpid = false → ∀ m ∈ t.cache, m.hasVpid 0#16 = false) ∧ t.mem = s.mem ∧ t.gpr = s.gpr ∧ t.cr3 = s.cr3) ∧
    (s.mode = .root → s.vmcsCurrent = true → s.vmcs.wellFormed c = true →
      (vmEnter c s).mode = .nonRoot ∧ (vmEnter c s).eptInUse = s.vmcs.enableEpt ∧
      (∀ a rest q x, linearAccess c a (Ctx.start (vmEnter c s)) = .ok q x →
        runInput c (.vmEntry (a :: rest)) s = runInjected c rest x.st) ∧
      (∀ a rest e x, linearAccess c a (Ctx.start (vmEnter c s)) = .raised e x →
        runInput c (.vmEntry (a :: rest)) s = .next (deliver c e (rollback c (vmEnter c s) e x))) ∧
      ∀ inject t, runInput c (.vmEntry inject) s = .next t → t.report = .ok →
        t.mode = .nonRoot ∧ t.gpr = s.gpr ∧ t.cr3 = s.cr3 ∧ t.vmcs.controls = s.vmcs.controls ∧ t.cache.Sublist s.cache) ∧
    (∀ (a : Access) (rest : List Access) (u : State),
      runInjected c [] u = .next { u with report := .ok } ∧
      (∀ q x, linearAccess c a (Ctx.start u) = .ok q x → runInjected c (a :: rest) u = runInjected c rest x.st) ∧
      ∀ e x, linearAccess c a (Ctx.start u) = .raised e x → runInjected c (a :: rest) u = .next (deliver c e (rollback c u e x))) ∧
    (s.mode = .root → s.vmcsCurrent = true → s.vmcs.wellFormed c = false → ∀ inject,
      runInput c (.vmEntry inject) s = .refused .controlsNotWellFormed) ∧
    (s.mode ≠ .root ∨ s.vmcsCurrent = false → ∀ inject, runInput c (.vmEntry inject) s = .refused .vmEntryNotPossible)

/-- R311, R313: the VM-exit fields of an EPT violation. -/
def Obligations.EptViolationFields : Prop :=
  ∀ (c : Cfg) (v : EptViolation) (s t : State), t = deliver c (.eptViolation v) s →
    t.vmcs.exitReason = 48#16 ∧ t.vmcs.guestPhys = v.gpa ∧ (∀ la, v.la = some la → t.vmcs.guestLinear = la) ∧
    t.vmcs.exitQual.getLsbD 0 = (v.kind == .dataRead) ∧ t.vmcs.exitQual.getLsbD 1 = (v.kind == .dataWrite) ∧
    t.vmcs.exitQual.getLsbD 2 = (v.kind == .fetch) ∧ t.vmcs.exitQual.getLsbD 3 = v.rights.r ∧
    t.vmcs.exitQual.getLsbD 4 = v.rights.w ∧ t.vmcs.exitQual.getLsbD 5 = v.rights.x ∧
    (s.vmcs.modeBasedExec = true → t.vmcs.exitQual.getLsbD 6 = v.rights.xu) ∧ t.vmcs.exitQual.getLsbD 7 = v.la.isSome ∧
    (v.la.isSome = true → t.vmcs.exitQual.getLsbD 8 = !v.pswalk)

/-- R311, R314, R315, R317: the exit reasons of the other VM exits, the guest-physical address of an EPT misconfiguration and of SPP-related
events, and of the latter the guest-linear address and bit 11 of the exit qualification. -/
def Obligations.OtherExitFields : Prop :=
  ∀ (c : Cfg) (s : State) (gpa pa : Word) (level : Nat) (la : Option Word),
    (deliver c (.eptMisconfig gpa level) s).vmcs.exitReason = 49#16 ∧ (deliver c (.eptMisconfig gpa level) s).vmcs.guestPhys = gpa ∧
    (deliver c (.pmlFull gpa) s).vmcs.exitReason = 62#16 ∧ (deliver c (.apicAccess pa) s).vmcs.exitReason = 44#16 ∧
    (deliver c (.instr .invept) s).vmcs.exitReason = 50#16 ∧ (deliver c (.instr .invvpid) s).vmcs.exitReason = 53#16 ∧
    (deliver c (.sppMiss gpa la) s).vmcs.exitReason = 66#16 ∧ (deliver c (.sppMiss gpa la) s).vmcs.guestPhys = gpa ∧
    (deliver c (.sppMiss gpa la) s).vmcs.exitQual.getLsbD 11 = true ∧
    (deliver c (.sppMisconfig gpa la) s).vmcs.exitReason = 66#16 ∧ (deliver c (.sppMisconfig gpa la) s).vmcs.guestPhys = gpa ∧
    (deliver c (.sppMisconfig gpa la) s).vmcs.exitQual.getLsbD 11 = false ∧
    ∀ a, la = some a →
      (deliver c (.sppMiss gpa la) s).vmcs.guestLinear = a ∧ (deliver c (.sppMisconfig gpa la) s).vmcs.guestLinear = a
end

