-- ==== Sys2Proof/Laws/Memory.lean ====
section
/-! SUPPORT. Memory: a read after a write, and every operation keeps the canonical form. -/

namespace Sys2Proof.Machine

open Sys2Proof

theorem Memory.wfAbove_mono {lo lo' : Nat} (h : lo' ≤ lo) {m : Memory} (hm : Memory.wfAbove lo m = true) :
    Memory.wfAbove lo' m = true := by
  cases m with
  | nil => rfl
  | cons cell rest =>
    obtain ⟨k, v⟩ := cell
    simp only [Memory.wfAbove, Bool.and_eq_true, decide_eq_true_eq] at hm ⊢
    exact ⟨⟨by omega, hm.1.2⟩, hm.2⟩

theorem Memory.wfAbove_write {lo : Nat} {m : Memory} (hm : Memory.wfAbove lo m = true) {a : Nat} (ha : lo ≤ a) (v : Byte) :
    Memory.wfAbove lo (m.write a v) = true := by
  induction m generalizing lo with
  | nil =>
    unfold Memory.write
    split <;> simp_all [Memory.wfAbove]
  | cons cell rest ih =>
    obtain ⟨k, w⟩ := cell
    simp only [Memory.wfAbove, Bool.and_eq_true, decide_eq_true_eq, bne_iff_ne] at hm
    obtain ⟨⟨hk, hw⟩, hr⟩ := hm
    unfold Memory.write
    split
    · simp only [Memory.wfAbove, Bool.and_eq_true, decide_eq_true_eq, bne_iff_ne]
      exact ⟨⟨hk, hw⟩, ih hr (by omega)⟩
    · split
      · split
        · exact Memory.wfAbove_mono (by omega) hr
        · subst_vars
          simp only [Memory.wfAbove, Bool.and_eq_true, decide_eq_true_eq, bne_iff_ne]
          exact ⟨⟨hk, by assumption⟩, hr⟩
      · split
        · simp only [Memory.wfAbove, Bool.and_eq_true, decide_eq_true_eq, bne_iff_ne]
          exact ⟨⟨hk, hw⟩, hr⟩
        · simp only [Memory.wfAbove, Bool.and_eq_true, decide_eq_true_eq, bne_iff_ne]
          exact ⟨⟨ha, by assumption⟩, ⟨by omega, hw⟩, hr⟩

/-- A write keeps the canonical form. -/
theorem Memory.wf_write {m : Memory} (hm : m.wf = true) (a : Nat) (v : Byte) : (m.write a v).wf = true :=
  Memory.wfAbove_write hm (Nat.zero_le a) v

/-- Writes of several bytes keep the canonical form. -/
theorem Memory.wf_writeBytes {m : Memory} (hm : m.wf = true) (a : Nat) (bs : List Byte) : (m.writeBytes a bs).wf = true := by
  induction bs generalizing m a with
  | nil => exact hm
  | cons b bs ih => exact ih (Memory.wf_write hm a b) (a + 1)

/-- A 64-bit write keeps the canonical form. -/
theorem Memory.wf_write64 {m : Memory} (hm : m.wf = true) (a : Nat) (w : Word) : (m.write64 a w).wf = true :=
  Memory.wf_writeBytes hm a _

theorem Memory.read_of_wfAbove {lo : Nat} {m : Memory} (hm : Memory.wfAbove lo m = true) {a : Nat} (ha : a < lo) :
    m.read a = Memory.unlisted := by
  induction m generalizing lo with
  | nil => rfl
  | cons cell rest ih =>
    obtain ⟨k, w⟩ := cell
    simp only [Memory.wfAbove, Bool.and_eq_true, decide_eq_true_eq] at hm
    unfold Memory.read
    rw [if_neg (by omega)]
    exact ih hm.2 (by omega)

theorem Memory.read_write_wfAbove {lo : Nat} {m : Memory} (hm : Memory.wfAbove lo m = true) (a : Nat) (v : Byte) (b : Nat) :
    (m.write a v).read b = if b = a then v else m.read b := by
  induction m generalizing lo with
  | nil =>
    unfold Memory.write
    by_cases hv : v = Memory.unlisted
    · simp [hv, Memory.read]
    · by_cases hb : b = a
      · simp [hv, Memory.read, hb]
      · simp [hv, Memory.read, hb, Ne.symm hb]
  | cons cell rest ih =>
    obtain ⟨k, w⟩ := cell
    simp only [Memory.wfAbove, Bool.and_eq_true, decide_eq_true_eq] at hm
    unfold Memory.write
    split
    · by_cases hkb : k = b
      · have : b ≠ a := by omega
        simp [Memory.read, hkb, this]
      · simp [Memory.read, hkb, ih hm.2]
    · split
      · rename_i hka
        subst hka
        by_cases hb : b = k
        · subst hb
          split
          · rw [Memory.read_of_wfAbove hm.2 (by omega)]
            simp_all
          · simp [Memory.read]
        · have hb' : k ≠ b := fun h => hb h.symm
          split
          · simp [Memory.read, hb']
          · simp [Memory.read, hb']
      · have hka : a < k := by omega
        by_cases hb : b = a
        · subst hb
          split
          · have hkb : k ≠ b := by omega
            simp only [Memory.read, if_neg hkb, Memory.read_of_wfAbove hm.2 (show b < k + 1 by omega), if_true]
            simp_all
          · simp [Memory.read]
        · have hb' : a ≠ b := fun h => hb h.symm
          split
          · simp [Memory.read]
          · simp [Memory.read, hb']

/-- A byte read after a byte written, for memory in its canonical form. -/
theorem Memory.read_write {m : Memory} (hm : m.wf = true) (a : Nat) (v : Byte) (b : Nat) :
    (m.write a v).read b = if b = a then v else m.read b :=
  Memory.read_write_wfAbove hm a v b

/-- Bytes outside those written read as before. -/
theorem Memory.read_writeBytes_outside {m : Memory} (hm : m.wf = true) {a : Nat} {bs : List Byte} {b : Nat}
    (h : b < a ∨ a + bs.length ≤ b) : (m.writeBytes a bs).read b = m.read b := by
  induction bs generalizing m a with
  | nil => rfl
  | cons x bs ih =>
    simp only [List.length_cons] at h
    unfold Memory.writeBytes
    rw [ih (Memory.wf_write hm a x) (by omega), Memory.read_write hm, if_neg (by omega)]

/-- A byte among those written reads as written. -/
theorem Memory.read_writeBytes_inside {m : Memory} (hm : m.wf = true) {a : Nat} {bs : List Byte} {i : Nat} (h : i < bs.length) :
    (m.writeBytes a bs).read (a + i) = bs[i] := by
  induction bs generalizing m a i with
  | nil => exact absurd h (Nat.not_lt_zero i)
  | cons x bs ih =>
    unfold Memory.writeBytes
    cases i with
    | zero =>
      rw [Memory.read_writeBytes_outside (Memory.wf_write hm a x) (by omega), Memory.read_write hm, Nat.add_zero, if_pos rfl]
      rfl
    | succ j =>
      have hj : j < bs.length := by simpa using h
      have := ih (Memory.wf_write hm a x) (a := a + 1) hj
      rw [show a + 1 + j = a + (j + 1) by omega] at this
      simpa using this

/-- What was written is read back. -/
theorem Memory.readBytes_writeBytes {m : Memory} (hm : m.wf = true) (a : Nat) (bs : List Byte) :
    (m.writeBytes a bs).readBytes a bs.length = bs := by
  suffices h : ∀ (m' : Memory) (k : Nat) (cs : List Byte), (∀ i (hi : i < cs.length), m'.read (k + i) = cs[i]) →
      m'.readBytes k cs.length = cs by
    exact h _ _ _ fun i hi => Memory.read_writeBytes_inside hm hi
  intro m' k cs
  induction cs generalizing k with
  | nil => intro _; rfl
  | cons c cs ih =>
    intro h
    have h0 := h 0 (by simp)
    have hrest := ih (k + 1) fun i hi => by
      have := h (i + 1) (by simpa using hi)
      rw [show k + 1 + i = k + (i + 1) by omega]
      simpa using this
    simp only [List.length_cons, Memory.readBytes, hrest]
    simpa using h0

@[simp] theorem Memory.length_readBytes (m : Memory) (a n : Nat) : (m.readBytes a n).length = n := by
  induction n generalizing a with
  | zero => rfl
  | succ n ih => simp [Memory.readBytes, ih]

/-- Bytes read in two goes. -/
theorem Memory.readBytes_append (m : Memory) (a n k : Nat) : m.readBytes a n ++ m.readBytes (a + n) k = m.readBytes a (n + k) := by
  induction n generalizing a with
  | zero => simp [Memory.readBytes]
  | succ n ih =>
    rw [show n + 1 + k = (n + k) + 1 by omega]
    simp only [Memory.readBytes, List.cons_append]
    rw [← ih (a + 1), show a + 1 + n = a + (n + 1) by omega]

/-- A write at a listed or unlisted address below a bound keeps every listed address below it. -/
theorem Memory.below_write {bound : Nat} {m : Memory} (hm : m.below bound = true) {a : Nat} (ha : a < bound) (v : Byte) :
    (m.write a v).below bound = true := by
  induction m with
  | nil =>
    unfold Memory.write
    split <;> simp [Memory.below, ha]
  | cons cell rest ih =>
    obtain ⟨k, w⟩ := cell
    simp only [Memory.below, List.all_cons, Bool.and_eq_true, decide_eq_true_eq] at hm
    have hr : Memory.below bound rest = true := hm.2
    unfold Memory.write
    split
    · have := ih hr
      simp only [Memory.below, List.all_cons, Bool.and_eq_true, decide_eq_true_eq] at this ⊢
      exact ⟨hm.1, this⟩
    · split
      · split
        · exact hr
        · simp only [Memory.below, List.all_cons, Bool.and_eq_true, decide_eq_true_eq]
          exact ⟨ha, hm.2⟩
      · split
        · simp only [Memory.below, List.all_cons, Bool.and_eq_true, decide_eq_true_eq]
          exact hm
        · simp only [Memory.below, List.all_cons, Bool.and_eq_true, decide_eq_true_eq]
          exact ⟨ha, hm.1, hm.2⟩

/-- Writes below a bound keep every listed address below it. -/
theorem Memory.below_writeBytes {bound : Nat} {m : Memory} (hm : m.below bound = true) {a : Nat} {bs : List Byte}
    (h : a + bs.length ≤ bound) : (m.writeBytes a bs).below bound = true := by
  induction bs generalizing m a with
  | nil => exact hm
  | cons b bs ih =>
    simp only [List.length_cons] at h
    exact ih (Memory.below_write hm (by omega) b) (by omega)

/-- Writes of other agents keep the canonical form. -/
theorem Memory.wf_writeAll {m : Memory} (hm : m.wf = true) (ws : List AgentWrite) : (m.writeAll ws).wf = true := by
  induction ws generalizing m with
  | nil => exact hm
  | cons w ws ih => exact ih (Memory.wf_writeBytes hm _ _)

/-- Writes of other agents below a bound keep every listed address below it. -/
theorem Memory.below_writeAll {bound : Nat} {m : Memory} (hm : m.below bound = true) {ws : List AgentWrite}
    (h : ∀ w ∈ ws, w.pa.toNat + w.bytes.length ≤ bound) : (m.writeAll ws).below bound = true := by
  induction ws generalizing m with
  | nil => exact hm
  | cons w ws ih =>
    exact ih (Memory.below_writeBytes hm (h w (List.mem_cons_self ..))) fun v hv => h v (List.mem_cons_of_mem _ hv)

theorem Memory.writeAll_append (m : Memory) (vs ws : List AgentWrite) : m.writeAll (vs ++ ws) = (m.writeAll vs).writeAll ws := by
  induction vs generalizing m with
  | nil => rfl
  | cons v vs ih => exact ih _

@[simp] theorem length_bytesOfWord (w : Word) (n : Nat) : (bytesOfWord w n).length = n := by
  induction n generalizing w with
  | zero => rfl
  | succ n ih => simp [bytesOfWord, ih]

theorem getLsbD_wordOfBytes_bytesOfWord (w : Word) (n i : Nat) :
    (wordOfBytes (bytesOfWord w n)).getLsbD i = (decide (i < 8 * n) && w.getLsbD i) := by
  induction n generalizing w i with
  | zero => simp [bytesOfWord, wordOfBytes]
  | succ n ih =>
    simp only [bytesOfWord, wordOfBytes, BitVec.getLsbD_or, BitVec.getLsbD_shiftLeft, ih, BitVec.getLsbD_setWidth,
      BitVec.getLsbD_ushiftRight]
    by_cases h64 : i < 64
    · by_cases h8 : i < 8
      · have : i < 8 * (n + 1) := by omega
        simp [h64, h8, this]
      · have : 8 + (i - 8) = i := by omega
        have h' : (i - 8 < 8 * n) = (i < 8 * (n + 1)) := by
          apply propext
          constructor <;> intro h <;> omega
        simp [h64, h8, this, h']
    · have hw : w.getLsbD i = false := BitVec.getLsbD_of_ge w i (by omega)
      simp [h64, hw]

/-- The eight bytes of a word make the word. -/
theorem wordOfBytes_bytesOfWord (w : Word) : wordOfBytes (bytesOfWord w 8) = w := by
  apply BitVec.eq_of_getLsbD_eq
  intro i hi
  rw [getLsbD_wordOfBytes_bytesOfWord]
  simp [show i < 8 * 8 by omega]

/-- A 64-bit entry written is read back. -/
theorem Memory.read64_write64 {m : Memory} (hm : m.wf = true) (a : Nat) (w : Word) : (m.write64 a w).read64 a = w := by
  have h := Memory.readBytes_writeBytes hm a (bytesOfWord w 8)
  rw [length_bytesOfWord] at h
  unfold Memory.read64 Memory.write64
  rw [h, wordOfBytes_bytesOfWord]

end Sys2Proof.Machine
end

