-- ==== Sys2Proof/Laws/State.lean ====
section
/-! SUPPORT. One lemma per field per update of the state, and what the updates leave of what mode and controls give. -/

namespace Sys2Proof.Machine

open Sys2Proof

@[simp] theorem State.withGpr_gpr (s : State) (v : Vector Word 16) : (s.withGpr v).gpr = v := rfl
@[simp] theorem State.withGpr_rip (s : State) (v : Vector Word 16) : (s.withGpr v).rip = s.rip := rfl
@[simp] theorem State.withGpr_flags (s : State) (v : Vector Word 16) : (s.withGpr v).flags = s.flags := rfl
@[simp] theorem State.withGpr_cpl (s : State) (v : Vector Word 16) : (s.withGpr v).cpl = s.cpl := rfl
@[simp] theorem State.withGpr_cpuMode (s : State) (v : Vector Word 16) : (s.withGpr v).cpuMode = s.cpuMode := rfl
@[simp] theorem State.withGpr_csDefault32 (s : State) (v : Vector Word 16) : (s.withGpr v).csDefault32 = s.csDefault32 := rfl
@[simp] theorem State.withGpr_segs (s : State) (v : Vector Word 16) : (s.withGpr v).segs = s.segs := rfl
@[simp] theorem State.withGpr_cr0 (s : State) (v : Vector Word 16) : (s.withGpr v).cr0 = s.cr0 := rfl
@[simp] theorem State.withGpr_cr3 (s : State) (v : Vector Word 16) : (s.withGpr v).cr3 = s.cr3 := rfl
@[simp] theorem State.withGpr_cr4 (s : State) (v : Vector Word 16) : (s.withGpr v).cr4 = s.cr4 := rfl
@[simp] theorem State.withGpr_pdpte (s : State) (v : Vector Word 16) : (s.withGpr v).pdpte = s.pdpte := rfl
@[simp] theorem State.withGpr_pat (s : State) (v : Vector Word 16) : (s.withGpr v).pat = s.pat := rfl
@[simp] theorem State.withGpr_mode (s : State) (v : Vector Word 16) : (s.withGpr v).mode = s.mode := rfl
@[simp] theorem State.withGpr_vmcsCurrent (s : State) (v : Vector Word 16) : (s.withGpr v).vmcsCurrent = s.vmcsCurrent := rfl
@[simp] theorem State.withGpr_vmcs (s : State) (v : Vector Word 16) : (s.withGpr v).vmcs = s.vmcs := rfl
@[simp] theorem State.withGpr_cache (s : State) (v : Vector Word 16) : (s.withGpr v).cache = s.cache := rfl
@[simp] theorem State.withGpr_mem (s : State) (v : Vector Word 16) : (s.withGpr v).mem = s.mem := rfl
@[simp] theorem State.withGpr_inputs (s : State) (v : Vector Word 16) : (s.withGpr v).inputs = s.inputs := rfl
@[simp] theorem State.withGpr_agents (s : State) (v : Vector Word 16) : (s.withGpr v).agents = s.agents := rfl
@[simp] theorem State.withGpr_report (s : State) (v : Vector Word 16) : (s.withGpr v).report = s.report := rfl
@[simp] theorem State.withGpr_freeCtr (s : State) (v : Vector Word 16) : (s.withGpr v).freeCtr = s.freeCtr := rfl

@[simp] theorem State.withRip_gpr (s : State) (v : Word) : (s.withRip v).gpr = s.gpr := rfl
@[simp] theorem State.withRip_rip (s : State) (v : Word) : (s.withRip v).rip = v := rfl
@[simp] theorem State.withRip_flags (s : State) (v : Word) : (s.withRip v).flags = s.flags := rfl
@[simp] theorem State.withRip_cpl (s : State) (v : Word) : (s.withRip v).cpl = s.cpl := rfl
@[simp] theorem State.withRip_cpuMode (s : State) (v : Word) : (s.withRip v).cpuMode = s.cpuMode := rfl
@[simp] theorem State.withRip_csDefault32 (s : State) (v : Word) : (s.withRip v).csDefault32 = s.csDefault32 := rfl
@[simp] theorem State.withRip_segs (s : State) (v : Word) : (s.withRip v).segs = s.segs := rfl
@[simp] theorem State.withRip_cr0 (s : State) (v : Word) : (s.withRip v).cr0 = s.cr0 := rfl
@[simp] theorem State.withRip_cr3 (s : State) (v : Word) : (s.withRip v).cr3 = s.cr3 := rfl
@[simp] theorem State.withRip_cr4 (s : State) (v : Word) : (s.withRip v).cr4 = s.cr4 := rfl
@[simp] theorem State.withRip_pdpte (s : State) (v : Word) : (s.withRip v).pdpte = s.pdpte := rfl
@[simp] theorem State.withRip_pat (s : State) (v : Word) : (s.withRip v).pat = s.pat := rfl
@[simp] theorem State.withRip_mode (s : State) (v : Word) : (s.withRip v).mode = s.mode := rfl
@[simp] theorem State.withRip_vmcsCurrent (s : State) (v : Word) : (s.withRip v).vmcsCurrent = s.vmcsCurrent := rfl
@[simp] theorem State.withRip_vmcs (s : State) (v : Word) : (s.withRip v).vmcs = s.vmcs := rfl
@[simp] theorem State.withRip_cache (s : State) (v : Word) : (s.withRip v).cache = s.cache := rfl
@[simp] theorem State.withRip_mem (s : State) (v : Word) : (s.withRip v).mem = s.mem := rfl
@[simp] theorem State.withRip_inputs (s : State) (v : Word) : (s.withRip v).inputs = s.inputs := rfl
@[simp] theorem State.withRip_agents (s : State) (v : Word) : (s.withRip v).agents = s.agents := rfl
@[simp] theorem State.withRip_report (s : State) (v : Word) : (s.withRip v).report = s.report := rfl
@[simp] theorem State.withRip_freeCtr (s : State) (v : Word) : (s.withRip v).freeCtr = s.freeCtr := rfl

@[simp] theorem State.withFlags_gpr (s : State) (v : Flags) : (s.withFlags v).gpr = s.gpr := rfl
@[simp] theorem State.withFlags_rip (s : State) (v : Flags) : (s.withFlags v).rip = s.rip := rfl
@[simp] theorem State.withFlags_flags (s : State) (v : Flags) : (s.withFlags v).flags = v := rfl
@[simp] theorem State.withFlags_cpl (s : State) (v : Flags) : (s.withFlags v).cpl = s.cpl := rfl
@[simp] theorem State.withFlags_cpuMode (s : State) (v : Flags) : (s.withFlags v).cpuMode = s.cpuMode := rfl
@[simp] theorem State.withFlags_csDefault32 (s : State) (v : Flags) : (s.withFlags v).csDefault32 = s.csDefault32 := rfl
@[simp] theorem State.withFlags_segs (s : State) (v : Flags) : (s.withFlags v).segs = s.segs := rfl
@[simp] theorem State.withFlags_cr0 (s : State) (v : Flags) : (s.withFlags v).cr0 = s.cr0 := rfl
@[simp] theorem State.withFlags_cr3 (s : State) (v : Flags) : (s.withFlags v).cr3 = s.cr3 := rfl
@[simp] theorem State.withFlags_cr4 (s : State) (v : Flags) : (s.withFlags v).cr4 = s.cr4 := rfl
@[simp] theorem State.withFlags_pdpte (s : State) (v : Flags) : (s.withFlags v).pdpte = s.pdpte := rfl
@[simp] theorem State.withFlags_pat (s : State) (v : Flags) : (s.withFlags v).pat = s.pat := rfl
@[simp] theorem State.withFlags_mode (s : State) (v : Flags) : (s.withFlags v).mode = s.mode := rfl
@[simp] theorem State.withFlags_vmcsCurrent (s : State) (v : Flags) : (s.withFlags v).vmcsCurrent = s.vmcsCurrent := rfl
@[simp] theorem State.withFlags_vmcs (s : State) (v : Flags) : (s.withFlags v).vmcs = s.vmcs := rfl
@[simp] theorem State.withFlags_cache (s : State) (v : Flags) : (s.withFlags v).cache = s.cache := rfl
@[simp] theorem State.withFlags_mem (s : State) (v : Flags) : (s.withFlags v).mem = s.mem := rfl
@[simp] theorem State.withFlags_inputs (s : State) (v : Flags) : (s.withFlags v).inputs = s.inputs := rfl
@[simp] theorem State.withFlags_agents (s : State) (v : Flags) : (s.withFlags v).agents = s.agents := rfl
@[simp] theorem State.withFlags_report (s : State) (v : Flags) : (s.withFlags v).report = s.report := rfl
@[simp] theorem State.withFlags_freeCtr (s : State) (v : Flags) : (s.withFlags v).freeCtr = s.freeCtr := rfl

@[simp] theorem State.withCr3_gpr (s : State) (v : Word) : (s.withCr3 v).gpr = s.gpr := rfl
@[simp] theorem State.withCr3_rip (s : State) (v : Word) : (s.withCr3 v).rip = s.rip := rfl
@[simp] theorem State.withCr3_flags (s : State) (v : Word) : (s.withCr3 v).flags = s.flags := rfl
@[simp] theorem State.withCr3_cpl (s : State) (v : Word) : (s.withCr3 v).cpl = s.cpl := rfl
@[simp] theorem State.withCr3_cpuMode (s : State) (v : Word) : (s.withCr3 v).cpuMode = s.cpuMode := rfl
@[simp] theorem State.withCr3_csDefault32 (s : State) (v : Word) : (s.withCr3 v).csDefault32 = s.csDefault32 := rfl
@[simp] theorem State.withCr3_segs (s : State) (v : Word) : (s.withCr3 v).segs = s.segs := rfl
@[simp] theorem State.withCr3_cr0 (s : State) (v : Word) : (s.withCr3 v).cr0 = s.cr0 := rfl
@[simp] theorem State.withCr3_cr3 (s : State) (v : Word) : (s.withCr3 v).cr3 = v := rfl
@[simp] theorem State.withCr3_cr4 (s : State) (v : Word) : (s.withCr3 v).cr4 = s.cr4 := rfl
@[simp] theorem State.withCr3_pdpte (s : State) (v : Word) : (s.withCr3 v).pdpte = s.pdpte := rfl
@[simp] theorem State.withCr3_pat (s : State) (v : Word) : (s.withCr3 v).pat = s.pat := rfl
@[simp] theorem State.withCr3_mode (s : State) (v : Word) : (s.withCr3 v).mode = s.mode := rfl
@[simp] theorem State.withCr3_vmcsCurrent (s : State) (v : Word) : (s.withCr3 v).vmcsCurrent = s.vmcsCurrent := rfl
@[simp] theorem State.withCr3_vmcs (s : State) (v : Word) : (s.withCr3 v).vmcs = s.vmcs := rfl
@[simp] theorem State.withCr3_cache (s : State) (v : Word) : (s.withCr3 v).cache = s.cache := rfl
@[simp] theorem State.withCr3_mem (s : State) (v : Word) : (s.withCr3 v).mem = s.mem := rfl
@[simp] theorem State.withCr3_inputs (s : State) (v : Word) : (s.withCr3 v).inputs = s.inputs := rfl
@[simp] theorem State.withCr3_agents (s : State) (v : Word) : (s.withCr3 v).agents = s.agents := rfl
@[simp] theorem State.withCr3_report (s : State) (v : Word) : (s.withCr3 v).report = s.report := rfl
@[simp] theorem State.withCr3_freeCtr (s : State) (v : Word) : (s.withCr3 v).freeCtr = s.freeCtr := rfl

@[simp] theorem State.withCr4_gpr (s : State) (v : Word) : (s.withCr4 v).gpr = s.gpr := rfl
@[simp] theorem State.withCr4_rip (s : State) (v : Word) : (s.withCr4 v).rip = s.rip := rfl
@[simp] theorem State.withCr4_flags (s : State) (v : Word) : (s.withCr4 v).flags = s.flags := rfl
@[simp] theorem State.withCr4_cpl (s : State) (v : Word) : (s.withCr4 v).cpl = s.cpl := rfl
@[simp] theorem State.withCr4_cpuMode (s : State) (v : Word) : (s.withCr4 v).cpuMode = s.cpuMode := rfl
@[simp] theorem State.withCr4_csDefault32 (s : State) (v : Word) : (s.withCr4 v).csDefault32 = s.csDefault32 := rfl
@[simp] theorem State.withCr4_segs (s : State) (v : Word) : (s.withCr4 v).segs = s.segs := rfl
@[simp] theorem State.withCr4_cr0 (s : State) (v : Word) : (s.withCr4 v).cr0 = s.cr0 := rfl
@[simp] theorem State.withCr4_cr3 (s : State) (v : Word) : (s.withCr4 v).cr3 = s.cr3 := rfl
@[simp] theorem State.withCr4_cr4 (s : State) (v : Word) : (s.withCr4 v).cr4 = v := rfl
@[simp] theorem State.withCr4_pdpte (s : State) (v : Word) : (s.withCr4 v).pdpte = s.pdpte := rfl
@[simp] theorem State.withCr4_pat (s : State) (v : Word) : (s.withCr4 v).pat = s.pat := rfl
@[simp] theorem State.withCr4_mode (s : State) (v : Word) : (s.withCr4 v).mode = s.mode := rfl
@[simp] theorem State.withCr4_vmcsCurrent (s : State) (v : Word) : (s.withCr4 v).vmcsCurrent = s.vmcsCurrent := rfl
@[simp] theorem State.withCr4_vmcs (s : State) (v : Word) : (s.withCr4 v).vmcs = s.vmcs := rfl
@[simp] theorem State.withCr4_cache (s : State) (v : Word) : (s.withCr4 v).cache = s.cache := rfl
@[simp] theorem State.withCr4_mem (s : State) (v : Word) : (s.withCr4 v).mem = s.mem := rfl
@[simp] theorem State.withCr4_inputs (s : State) (v : Word) : (s.withCr4 v).inputs = s.inputs := rfl
@[simp] theorem State.withCr4_agents (s : State) (v : Word) : (s.withCr4 v).agents = s.agents := rfl
@[simp] theorem State.withCr4_report (s : State) (v : Word) : (s.withCr4 v).report = s.report := rfl
@[simp] theorem State.withCr4_freeCtr (s : State) (v : Word) : (s.withCr4 v).freeCtr = s.freeCtr := rfl

@[simp] theorem State.withPdpte_gpr (s : State) (v : Vector Word 4) : (s.withPdpte v).gpr = s.gpr := rfl
@[simp] theorem State.withPdpte_rip (s : State) (v : Vector Word 4) : (s.withPdpte v).rip = s.rip := rfl
@[simp] theorem State.withPdpte_flags (s : State) (v : Vector Word 4) : (s.withPdpte v).flags = s.flags := rfl
@[simp] theorem State.withPdpte_cpl (s : State) (v : Vector Word 4) : (s.withPdpte v).cpl = s.cpl := rfl
@[simp] theorem State.withPdpte_cpuMode (s : State) (v : Vector Word 4) : (s.withPdpte v).cpuMode = s.cpuMode := rfl
@[simp] theorem State.withPdpte_csDefault32 (s : State) (v : Vector Word 4) : (s.withPdpte v).csDefault32 = s.csDefault32 := rfl
@[simp] theorem State.withPdpte_segs (s : State) (v : Vector Word 4) : (s.withPdpte v).segs = s.segs := rfl
@[simp] theorem State.withPdpte_cr0 (s : State) (v : Vector Word 4) : (s.withPdpte v).cr0 = s.cr0 := rfl
@[simp] theorem State.withPdpte_cr3 (s : State) (v : Vector Word 4) : (s.withPdpte v).cr3 = s.cr3 := rfl
@[simp] theorem State.withPdpte_cr4 (s : State) (v : Vector Word 4) : (s.withPdpte v).cr4 = s.cr4 := rfl
@[simp] theorem State.withPdpte_pdpte (s : State) (v : Vector Word 4) : (s.withPdpte v).pdpte = v := rfl
@[simp] theorem State.withPdpte_pat (s : State) (v : Vector Word 4) : (s.withPdpte v).pat = s.pat := rfl
@[simp] theorem State.withPdpte_mode (s : State) (v : Vector Word 4) : (s.withPdpte v).mode = s.mode := rfl
@[simp] theorem State.withPdpte_vmcsCurrent (s : State) (v : Vector Word 4) : (s.withPdpte v).vmcsCurrent = s.vmcsCurrent := rfl
@[simp] theorem State.withPdpte_vmcs (s : State) (v : Vector Word 4) : (s.withPdpte v).vmcs = s.vmcs := rfl
@[simp] theorem State.withPdpte_cache (s : State) (v : Vector Word 4) : (s.withPdpte v).cache = s.cache := rfl
@[simp] theorem State.withPdpte_mem (s : State) (v : Vector Word 4) : (s.withPdpte v).mem = s.mem := rfl
@[simp] theorem State.withPdpte_inputs (s : State) (v : Vector Word 4) : (s.withPdpte v).inputs = s.inputs := rfl
@[simp] theorem State.withPdpte_agents (s : State) (v : Vector Word 4) : (s.withPdpte v).agents = s.agents := rfl
@[simp] theorem State.withPdpte_report (s : State) (v : Vector Word 4) : (s.withPdpte v).report = s.report := rfl
@[simp] theorem State.withPdpte_freeCtr (s : State) (v : Vector Word 4) : (s.withPdpte v).freeCtr = s.freeCtr := rfl

@[simp] theorem State.withMode_gpr (s : State) (v : Mode) : (s.withMode v).gpr = s.gpr := rfl
@[simp] theorem State.withMode_rip (s : State) (v : Mode) : (s.withMode v).rip = s.rip := rfl
@[simp] theorem State.withMode_flags (s : State) (v : Mode) : (s.withMode v).flags = s.flags := rfl
@[simp] theorem State.withMode_cpl (s : State) (v : Mode) : (s.withMode v).cpl = s.cpl := rfl
@[simp] theorem State.withMode_cpuMode (s : State) (v : Mode) : (s.withMode v).cpuMode = s.cpuMode := rfl
@[simp] theorem State.withMode_csDefault32 (s : State) (v : Mode) : (s.withMode v).csDefault32 = s.csDefault32 := rfl
@[simp] theorem State.withMode_segs (s : State) (v : Mode) : (s.withMode v).segs = s.segs := rfl
@[simp] theorem State.withMode_cr0 (s : State) (v : Mode) : (s.withMode v).cr0 = s.cr0 := rfl
@[simp] theorem State.withMode_cr3 (s : State) (v : Mode) : (s.withMode v).cr3 = s.cr3 := rfl
@[simp] theorem State.withMode_cr4 (s : State) (v : Mode) : (s.withMode v).cr4 = s.cr4 := rfl
@[simp] theorem State.withMode_pdpte (s : State) (v : Mode) : (s.withMode v).pdpte = s.pdpte := rfl
@[simp] theorem State.withMode_pat (s : State) (v : Mode) : (s.withMode v).pat = s.pat := rfl
@[simp] theorem State.withMode_mode (s : State) (v : Mode) : (s.withMode v).mode = v := rfl
@[simp] theorem State.withMode_vmcsCurrent (s : State) (v : Mode) : (s.withMode v).vmcsCurrent = s.vmcsCurrent := rfl
@[simp] theorem State.withMode_vmcs (s : State) (v : Mode) : (s.withMode v).vmcs = s.vmcs := rfl
@[simp] theorem State.withMode_cache (s : State) (v : Mode) : (s.withMode v).cache = s.cache := rfl
@[simp] theorem State.withMode_mem (s : State) (v : Mode) : (s.withMode v).mem = s.mem := rfl
@[simp] theorem State.withMode_inputs (s : State) (v : Mode) : (s.withMode v).inputs = s.inputs := rfl
@[simp] theorem State.withMode_agents (s : State) (v : Mode) : (s.withMode v).agents = s.agents := rfl
@[simp] theorem State.withMode_report (s : State) (v : Mode) : (s.withMode v).report = s.report := rfl
@[simp] theorem State.withMode_freeCtr (s : State) (v : Mode) : (s.withMode v).freeCtr = s.freeCtr := rfl

@[simp] theorem State.withVmcsCurrent_gpr (s : State) (v : Bool) : (s.withVmcsCurrent v).gpr = s.gpr := rfl
@[simp] theorem State.withVmcsCurrent_rip (s : State) (v : Bool) : (s.withVmcsCurrent v).rip = s.rip := rfl
@[simp] theorem State.withVmcsCurrent_flags (s : State) (v : Bool) : (s.withVmcsCurrent v).flags = s.flags := rfl
@[simp] theorem State.withVmcsCurrent_cpl (s : State) (v : Bool) : (s.withVmcsCurrent v).cpl = s.cpl := rfl
@[simp] theorem State.withVmcsCurrent_cpuMode (s : State) (v : Bool) : (s.withVmcsCurrent v).cpuMode = s.cpuMode := rfl
@[simp] theorem State.withVmcsCurrent_csDefault32 (s : State) (v : Bool) : (s.withVmcsCurrent v).csDefault32 = s.csDefault32 := rfl
@[simp] theorem State.withVmcsCurrent_segs (s : State) (v : Bool) : (s.withVmcsCurrent v).segs = s.segs := rfl
@[simp] theorem State.withVmcsCurrent_cr0 (s : State) (v : Bool) : (s.withVmcsCurrent v).cr0 = s.cr0 := rfl
@[simp] theorem State.withVmcsCurrent_cr3 (s : State) (v : Bool) : (s.withVmcsCurrent v).cr3 = s.cr3 := rfl
@[simp] theorem State.withVmcsCurrent_cr4 (s : State) (v : Bool) : (s.withVmcsCurrent v).cr4 = s.cr4 := rfl
@[simp] theorem State.withVmcsCurrent_pdpte (s : State) (v : Bool) : (s.withVmcsCurrent v).pdpte = s.pdpte := rfl
@[simp] theorem State.withVmcsCurrent_pat (s : State) (v : Bool) : (s.withVmcsCurrent v).pat = s.pat := rfl
@[simp] theorem State.withVmcsCurrent_mode (s : State) (v : Bool) : (s.withVmcsCurrent v).mode = s.mode := rfl
@[simp] theorem State.withVmcsCurrent_vmcsCurrent (s : State) (v : Bool) : (s.withVmcsCurrent v).vmcsCurrent = v := rfl
@[simp] theorem State.withVmcsCurrent_vmcs (s : State) (v : Bool) : (s.withVmcsCurrent v).vmcs = s.vmcs := rfl
@[simp] theorem State.withVmcsCurrent_cache (s : State) (v : Bool) : (s.withVmcsCurrent v).cache = s.cache := rfl
@[simp] theorem State.withVmcsCurrent_mem (s : State) (v : Bool) : (s.withVmcsCurrent v).mem = s.mem := rfl
@[simp] theorem State.withVmcsCurrent_inputs (s : State) (v : Bool) : (s.withVmcsCurrent v).inputs = s.inputs := rfl
@[simp] theorem State.withVmcsCurrent_agents (s : State) (v : Bool) : (s.withVmcsCurrent v).agents = s.agents := rfl
@[simp] theorem State.withVmcsCurrent_report (s : State) (v : Bool) : (s.withVmcsCurrent v).report = s.report := rfl
@[simp] theorem State.withVmcsCurrent_freeCtr (s : State) (v : Bool) : (s.withVmcsCurrent v).freeCtr = s.freeCtr := rfl

@[simp] theorem State.withVmcs_gpr (s : State) (v : Vmcs) : (s.withVmcs v).gpr = s.gpr := rfl
@[simp] theorem State.withVmcs_rip (s : State) (v : Vmcs) : (s.withVmcs v).rip = s.rip := rfl
@[simp] theorem State.withVmcs_flags (s : State) (v : Vmcs) : (s.withVmcs v).flags = s.flags := rfl
@[simp] theorem State.withVmcs_cpl (s : State) (v : Vmcs) : (s.withVmcs v).cpl = s.cpl := rfl
@[simp] theorem State.withVmcs_cpuMode (s : State) (v : Vmcs) : (s.withVmcs v).cpuMode = s.cpuMode := rfl
@[simp] theorem State.withVmcs_csDefault32 (s : State) (v : Vmcs) : (s.withVmcs v).csDefault32 = s.csDefault32 := rfl
@[simp] theorem State.withVmcs_segs (s : State) (v : Vmcs) : (s.withVmcs v).segs = s.segs := rfl
@[simp] theorem State.withVmcs_cr0 (s : State) (v : Vmcs) : (s.withVmcs v).cr0 = s.cr0 := rfl
@[simp] theorem State.withVmcs_cr3 (s : State) (v : Vmcs) : (s.withVmcs v).cr3 = s.cr3 := rfl
@[simp] theorem State.withVmcs_cr4 (s : State) (v : Vmcs) : (s.withVmcs v).cr4 = s.cr4 := rfl
@[simp] theorem State.withVmcs_pdpte (s : State) (v : Vmcs) : (s.withVmcs v).pdpte = s.pdpte := rfl
@[simp] theorem State.withVmcs_pat (s : State) (v : Vmcs) : (s.withVmcs v).pat = s.pat := rfl
@[simp] theorem State.withVmcs_mode (s : State) (v : Vmcs) : (s.withVmcs v).mode = s.mode := rfl
@[simp] theorem State.withVmcs_vmcsCurrent (s : State) (v : Vmcs) : (s.withVmcs v).vmcsCurrent = s.vmcsCurrent := rfl
@[simp] theorem State.withVmcs_vmcs (s : State) (v : Vmcs) : (s.withVmcs v).vmcs = v := rfl
@[simp] theorem State.withVmcs_cache (s : State) (v : Vmcs) : (s.withVmcs v).cache = s.cache := rfl
@[simp] theorem State.withVmcs_mem (s : State) (v : Vmcs) : (s.withVmcs v).mem = s.mem := rfl
@[simp] theorem State.withVmcs_inputs (s : State) (v : Vmcs) : (s.withVmcs v).inputs = s.inputs := rfl
@[simp] theorem State.withVmcs_agents (s : State) (v : Vmcs) : (s.withVmcs v).agents = s.agents := rfl
@[simp] theorem State.withVmcs_report (s : State) (v : Vmcs) : (s.withVmcs v).report = s.report := rfl
@[simp] theorem State.withVmcs_freeCtr (s : State) (v : Vmcs) : (s.withVmcs v).freeCtr = s.freeCtr := rfl

@[simp] theorem State.withCache_gpr (s : State) (v : List Mapping) : (s.withCache v).gpr = s.gpr := rfl
@[simp] theorem State.withCache_rip (s : State) (v : List Mapping) : (s.withCache v).rip = s.rip := rfl
@[simp] theorem State.withCache_flags (s : State) (v : List Mapping) : (s.withCache v).flags = s.flags := rfl
@[simp] theorem State.withCache_cpl (s : State) (v : List Mapping) : (s.withCache v).cpl = s.cpl := rfl
@[simp] theorem State.withCache_cpuMode (s : State) (v : List Mapping) : (s.withCache v).cpuMode = s.cpuMode := rfl
@[simp] theorem State.withCache_csDefault32 (s : State) (v : List Mapping) : (s.withCache v).csDefault32 = s.csDefault32 := rfl
@[simp] theorem State.withCache_segs (s : State) (v : List Mapping) : (s.withCache v).segs = s.segs := rfl
@[simp] theorem State.withCache_cr0 (s : State) (v : List Mapping) : (s.withCache v).cr0 = s.cr0 := rfl
@[simp] theorem State.withCache_cr3 (s : State) (v : List Mapping) : (s.withCache v).cr3 = s.cr3 := rfl
@[simp] theorem State.withCache_cr4 (s : State) (v : List Mapping) : (s.withCache v).cr4 = s.cr4 := rfl
@[simp] theorem State.withCache_pdpte (s : State) (v : List Mapping) : (s.withCache v).pdpte = s.pdpte := rfl
@[simp] theorem State.withCache_pat (s : State) (v : List Mapping) : (s.withCache v).pat = s.pat := rfl
@[simp] theorem State.withCache_mode (s : State) (v : List Mapping) : (s.withCache v).mode = s.mode := rfl
@[simp] theorem State.withCache_vmcsCurrent (s : State) (v : List Mapping) : (s.withCache v).vmcsCurrent = s.vmcsCurrent := rfl
@[simp] theorem State.withCache_vmcs (s : State) (v : List Mapping) : (s.withCache v).vmcs = s.vmcs := rfl
@[simp] theorem State.withCache_cache (s : State) (v : List Mapping) : (s.withCache v).cache = v := rfl
@[simp] theorem State.withCache_mem (s : State) (v : List Mapping) : (s.withCache v).mem = s.mem := rfl
@[simp] theorem State.withCache_inputs (s : State) (v : List Mapping) : (s.withCache v).inputs = s.inputs := rfl
@[simp] theorem State.withCache_agents (s : State) (v : List Mapping) : (s.withCache v).agents = s.agents := rfl
@[simp] theorem State.withCache_report (s : State) (v : List Mapping) : (s.withCache v).report = s.report := rfl
@[simp] theorem State.withCache_freeCtr (s : State) (v : List Mapping) : (s.withCache v).freeCtr = s.freeCtr := rfl

@[simp] theorem State.withMem_gpr (s : State) (v : Memory) : (s.withMem v).gpr = s.gpr := rfl
@[simp] theorem State.withMem_rip (s : State) (v : Memory) : (s.withMem v).rip = s.rip := rfl
@[simp] theorem State.withMem_flags (s : State) (v : Memory) : (s.withMem v).flags = s.flags := rfl
@[simp] theorem State.withMem_cpl (s : State) (v : Memory) : (s.withMem v).cpl = s.cpl := rfl
@[simp] theorem State.withMem_cpuMode (s : State) (v : Memory) : (s.withMem v).cpuMode = s.cpuMode := rfl
@[simp] theorem State.withMem_csDefault32 (s : State) (v : Memory) : (s.withMem v).csDefault32 = s.csDefault32 := rfl
@[simp] theorem State.withMem_segs (s : State) (v : Memory) : (s.withMem v).segs = s.segs := rfl
@[simp] theorem State.withMem_cr0 (s : State) (v : Memory) : (s.withMem v).cr0 = s.cr0 := rfl
@[simp] theorem State.withMem_cr3 (s : State) (v : Memory) : (s.withMem v).cr3 = s.cr3 := rfl
@[simp] theorem State.withMem_cr4 (s : State) (v : Memory) : (s.withMem v).cr4 = s.cr4 := rfl
@[simp] theorem State.withMem_pdpte (s : State) (v : Memory) : (s.withMem v).pdpte = s.pdpte := rfl
@[simp] theorem State.withMem_pat (s : State) (v : Memory) : (s.withMem v).pat = s.pat := rfl
@[simp] theorem State.withMem_mode (s : State) (v : Memory) : (s.withMem v).mode = s.mode := rfl
@[simp] theorem State.withMem_vmcsCurrent (s : State) (v : Memory) : (s.withMem v).vmcsCurrent = s.vmcsCurrent := rfl
@[simp] theorem State.withMem_vmcs (s : State) (v : Memory) : (s.withMem v).vmcs = s.vmcs := rfl
@[simp] theorem State.withMem_cache (s : State) (v : Memory) : (s.withMem v).cache = s.cache := rfl
@[simp] theorem State.withMem_mem (s : State) (v : Memory) : (s.withMem v).mem = v := rfl
@[simp] theorem State.withMem_inputs (s : State) (v : Memory) : (s.withMem v).inputs = s.inputs := rfl
@[simp] theorem State.withMem_agents (s : State) (v : Memory) : (s.withMem v).agents = s.agents := rfl
@[simp] theorem State.withMem_report (s : State) (v : Memory) : (s.withMem v).report = s.report := rfl
@[simp] theorem State.withMem_freeCtr (s : State) (v : Memory) : (s.withMem v).freeCtr = s.freeCtr := rfl

@[simp] theorem State.withInputs_gpr (s : State) (v : List Label) : (s.withInputs v).gpr = s.gpr := rfl
@[simp] theorem State.withInputs_rip (s : State) (v : List Label) : (s.withInputs v).rip = s.rip := rfl
@[simp] theorem State.withInputs_flags (s : State) (v : List Label) : (s.withInputs v).flags = s.flags := rfl
@[simp] theorem State.withInputs_cpl (s : State) (v : List Label) : (s.withInputs v).cpl = s.cpl := rfl
@[simp] theorem State.withInputs_cpuMode (s : State) (v : List Label) : (s.withInputs v).cpuMode = s.cpuMode := rfl
@[simp] theorem State.withInputs_csDefault32 (s : State) (v : List Label) : (s.withInputs v).csDefault32 = s.csDefault32 := rfl
@[simp] theorem State.withInputs_segs (s : State) (v : List Label) : (s.withInputs v).segs = s.segs := rfl
@[simp] theorem State.withInputs_cr0 (s : State) (v : List Label) : (s.withInputs v).cr0 = s.cr0 := rfl
@[simp] theorem State.withInputs_cr3 (s : State) (v : List Label) : (s.withInputs v).cr3 = s.cr3 := rfl
@[simp] theorem State.withInputs_cr4 (s : State) (v : List Label) : (s.withInputs v).cr4 = s.cr4 := rfl
@[simp] theorem State.withInputs_pdpte (s : State) (v : List Label) : (s.withInputs v).pdpte = s.pdpte := rfl
@[simp] theorem State.withInputs_pat (s : State) (v : List Label) : (s.withInputs v).pat = s.pat := rfl
@[simp] theorem State.withInputs_mode (s : State) (v : List Label) : (s.withInputs v).mode = s.mode := rfl
@[simp] theorem State.withInputs_vmcsCurrent (s : State) (v : List Label) : (s.withInputs v).vmcsCurrent = s.vmcsCurrent := rfl
@[simp] theorem State.withInputs_vmcs (s : State) (v : List Label) : (s.withInputs v).vmcs = s.vmcs := rfl
@[simp] theorem State.withInputs_cache (s : State) (v : List Label) : (s.withInputs v).cache = s.cache := rfl
@[simp] theorem State.withInputs_mem (s : State) (v : List Label) : (s.withInputs v).mem = s.mem := rfl
@[simp] theorem State.withInputs_inputs (s : State) (v : List Label) : (s.withInputs v).inputs = v := rfl
@[simp] theorem State.withInputs_agents (s : State) (v : List Label) : (s.withInputs v).agents = s.agents := rfl
@[simp] theorem State.withInputs_report (s : State) (v : List Label) : (s.withInputs v).report = s.report := rfl
@[simp] theorem State.withInputs_freeCtr (s : State) (v : List Label) : (s.withInputs v).freeCtr = s.freeCtr := rfl

@[simp] theorem State.withAgents_gpr (s : State) (v : List (List AgentWrite)) : (s.withAgents v).gpr = s.gpr := rfl
@[simp] theorem State.withAgents_rip (s : State) (v : List (List AgentWrite)) : (s.withAgents v).rip = s.rip := rfl
@[simp] theorem State.withAgents_flags (s : State) (v : List (List AgentWrite)) : (s.withAgents v).flags = s.flags := rfl
@[simp] theorem State.withAgents_cpl (s : State) (v : List (List AgentWrite)) : (s.withAgents v).cpl = s.cpl := rfl
@[simp] theorem State.withAgents_cpuMode (s : State) (v : List (List AgentWrite)) : (s.withAgents v).cpuMode = s.cpuMode := rfl
@[simp] theorem State.withAgents_csDefault32 (s : State) (v : List (List AgentWrite)) : (s.withAgents v).csDefault32 = s.csDefault32 := rfl
@[simp] theorem State.withAgents_segs (s : State) (v : List (List AgentWrite)) : (s.withAgents v).segs = s.segs := rfl
@[simp] theorem State.withAgents_cr0 (s : State) (v : List (List AgentWrite)) : (s.withAgents v).cr0 = s.cr0 := rfl
@[simp] theorem State.withAgents_cr3 (s : State) (v : List (List AgentWrite)) : (s.withAgents v).cr3 = s.cr3 := rfl
@[simp] theorem State.withAgents_cr4 (s : State) (v : List (List AgentWrite)) : (s.withAgents v).cr4 = s.cr4 := rfl
@[simp] theorem State.withAgents_pdpte (s : State) (v : List (List AgentWrite)) : (s.withAgents v).pdpte = s.pdpte := rfl
@[simp] theorem State.withAgents_pat (s : State) (v : List (List AgentWrite)) : (s.withAgents v).pat = s.pat := rfl
@[simp] theorem State.withAgents_mode (s : State) (v : List (List AgentWrite)) : (s.withAgents v).mode = s.mode := rfl
@[simp] theorem State.withAgents_vmcsCurrent (s : State) (v : List (List AgentWrite)) : (s.withAgents v).vmcsCurrent = s.vmcsCurrent := rfl
@[simp] theorem State.withAgents_vmcs (s : State) (v : List (List AgentWrite)) : (s.withAgents v).vmcs = s.vmcs := rfl
@[simp] theorem State.withAgents_cache (s : State) (v : List (List AgentWrite)) : (s.withAgents v).cache = s.cache := rfl
@[simp] theorem State.withAgents_mem (s : State) (v : List (List AgentWrite)) : (s.withAgents v).mem = s.mem := rfl
@[simp] theorem State.withAgents_inputs (s : State) (v : List (List AgentWrite)) : (s.withAgents v).inputs = s.inputs := rfl
@[simp] theorem State.withAgents_agents (s : State) (v : List (List AgentWrite)) : (s.withAgents v).agents = v := rfl
@[simp] theorem State.withAgents_report (s : State) (v : List (List AgentWrite)) : (s.withAgents v).report = s.report := rfl
@[simp] theorem State.withAgents_freeCtr (s : State) (v : List (List AgentWrite)) : (s.withAgents v).freeCtr = s.freeCtr := rfl

@[simp] theorem State.withReport_gpr (s : State) (v : Report) : (s.withReport v).gpr = s.gpr := rfl
@[simp] theorem State.withReport_rip (s : State) (v : Report) : (s.withReport v).rip = s.rip := rfl
@[simp] theorem State.withReport_flags (s : State) (v : Report) : (s.withReport v).flags = s.flags := rfl
@[simp] theorem State.withReport_cpl (s : State) (v : Report) : (s.withReport v).cpl = s.cpl := rfl
@[simp] theorem State.withReport_cpuMode (s : State) (v : Report) : (s.withReport v).cpuMode = s.cpuMode := rfl
@[simp] theorem State.withReport_csDefault32 (s : State) (v : Report) : (s.withReport v).csDefault32 = s.csDefault32 := rfl
@[simp] theorem State.withReport_segs (s : State) (v : Report) : (s.withReport v).segs = s.segs := rfl
@[simp] theorem State.withReport_cr0 (s : State) (v : Report) : (s.withReport v).cr0 = s.cr0 := rfl
@[simp] theorem State.withReport_cr3 (s : State) (v : Report) : (s.withReport v).cr3 = s.cr3 := rfl
@[simp] theorem State.withReport_cr4 (s : State) (v : Report) : (s.withReport v).cr4 = s.cr4 := rfl
@[simp] theorem State.withReport_pdpte (s : State) (v : Report) : (s.withReport v).pdpte = s.pdpte := rfl
@[simp] theorem State.withReport_pat (s : State) (v : Report) : (s.withReport v).pat = s.pat := rfl
@[simp] theorem State.withReport_mode (s : State) (v : Report) : (s.withReport v).mode = s.mode := rfl
@[simp] theorem State.withReport_vmcsCurrent (s : State) (v : Report) : (s.withReport v).vmcsCurrent = s.vmcsCurrent := rfl
@[simp] theorem State.withReport_vmcs (s : State) (v : Report) : (s.withReport v).vmcs = s.vmcs := rfl
@[simp] theorem State.withReport_cache (s : State) (v : Report) : (s.withReport v).cache = s.cache := rfl
@[simp] theorem State.withReport_mem (s : State) (v : Report) : (s.withReport v).mem = s.mem := rfl
@[simp] theorem State.withReport_inputs (s : State) (v : Report) : (s.withReport v).inputs = s.inputs := rfl
@[simp] theorem State.withReport_agents (s : State) (v : Report) : (s.withReport v).agents = s.agents := rfl
@[simp] theorem State.withReport_report (s : State) (v : Report) : (s.withReport v).report = v := rfl
@[simp] theorem State.withReport_freeCtr (s : State) (v : Report) : (s.withReport v).freeCtr = s.freeCtr := rfl

@[simp] theorem State.withFreeCtr_gpr (s : State) (v : Nat) : (s.withFreeCtr v).gpr = s.gpr := rfl
@[simp] theorem State.withFreeCtr_rip (s : State) (v : Nat) : (s.withFreeCtr v).rip = s.rip := rfl
@[simp] theorem State.withFreeCtr_flags (s : State) (v : Nat) : (s.withFreeCtr v).flags = s.flags := rfl
@[simp] theorem State.withFreeCtr_cpl (s : State) (v : Nat) : (s.withFreeCtr v).cpl = s.cpl := rfl
@[simp] theorem State.withFreeCtr_cpuMode (s : State) (v : Nat) : (s.withFreeCtr v).cpuMode = s.cpuMode := rfl
@[simp] theorem State.withFreeCtr_csDefault32 (s : State) (v : Nat) : (s.withFreeCtr v).csDefault32 = s.csDefault32 := rfl
@[simp] theorem State.withFreeCtr_segs (s : State) (v : Nat) : (s.withFreeCtr v).segs = s.segs := rfl
@[simp] theorem State.withFreeCtr_cr0 (s : State) (v : Nat) : (s.withFreeCtr v).cr0 = s.cr0 := rfl
@[simp] theorem State.withFreeCtr_cr3 (s : State) (v : Nat) : (s.withFreeCtr v).cr3 = s.cr3 := rfl
@[simp] theorem State.withFreeCtr_cr4 (s : State) (v : Nat) : (s.withFreeCtr v).cr4 = s.cr4 := rfl
@[simp] theorem State.withFreeCtr_pdpte (s : State) (v : Nat) : (s.withFreeCtr v).pdpte = s.pdpte := rfl
@[simp] theorem State.withFreeCtr_pat (s : State) (v : Nat) : (s.withFreeCtr v).pat = s.pat := rfl
@[simp] theorem State.withFreeCtr_mode (s : State) (v : Nat) : (s.withFreeCtr v).mode = s.mode := rfl
@[simp] theorem State.withFreeCtr_vmcsCurrent (s : State) (v : Nat) : (s.withFreeCtr v).vmcsCurrent = s.vmcsCurrent := rfl
@[simp] theorem State.withFreeCtr_vmcs (s : State) (v : Nat) : (s.withFreeCtr v).vmcs = s.vmcs := rfl
@[simp] theorem State.withFreeCtr_cache (s : State) (v : Nat) : (s.withFreeCtr v).cache = s.cache := rfl
@[simp] theorem State.withFreeCtr_mem (s : State) (v : Nat) : (s.withFreeCtr v).mem = s.mem := rfl
@[simp] theorem State.withFreeCtr_inputs (s : State) (v : Nat) : (s.withFreeCtr v).inputs = s.inputs := rfl
@[simp] theorem State.withFreeCtr_agents (s : State) (v : Nat) : (s.withFreeCtr v).agents = s.agents := rfl
@[simp] theorem State.withFreeCtr_report (s : State) (v : Nat) : (s.withFreeCtr v).report = s.report := rfl
@[simp] theorem State.withFreeCtr_freeCtr (s : State) (v : Nat) : (s.withFreeCtr v).freeCtr = v := rfl

@[simp] theorem State.bump_gpr (s : State) (n : Nat) : (s.bump n).gpr = s.gpr := rfl
@[simp] theorem State.bump_rip (s : State) (n : Nat) : (s.bump n).rip = s.rip := rfl
@[simp] theorem State.bump_flags (s : State) (n : Nat) : (s.bump n).flags = s.flags := rfl
@[simp] theorem State.bump_cpl (s : State) (n : Nat) : (s.bump n).cpl = s.cpl := rfl
@[simp] theorem State.bump_cpuMode (s : State) (n : Nat) : (s.bump n).cpuMode = s.cpuMode := rfl
@[simp] theorem State.bump_csDefault32 (s : State) (n : Nat) : (s.bump n).csDefault32 = s.csDefault32 := rfl
@[simp] theorem State.bump_segs (s : State) (n : Nat) : (s.bump n).segs = s.segs := rfl
@[simp] theorem State.bump_cr0 (s : State) (n : Nat) : (s.bump n).cr0 = s.cr0 := rfl
@[simp] theorem State.bump_cr3 (s : State) (n : Nat) : (s.bump n).cr3 = s.cr3 := rfl
@[simp] theorem State.bump_cr4 (s : State) (n : Nat) : (s.bump n).cr4 = s.cr4 := rfl
@[simp] theorem State.bump_pdpte (s : State) (n : Nat) : (s.bump n).pdpte = s.pdpte := rfl
@[simp] theorem State.bump_pat (s : State) (n : Nat) : (s.bump n).pat = s.pat := rfl
@[simp] theorem State.bump_mode (s : State) (n : Nat) : (s.bump n).mode = s.mode := rfl
@[simp] theorem State.bump_vmcsCurrent (s : State) (n : Nat) : (s.bump n).vmcsCurrent = s.vmcsCurrent := rfl
@[simp] theorem State.bump_vmcs (s : State) (n : Nat) : (s.bump n).vmcs = s.vmcs := rfl
@[simp] theorem State.bump_cache (s : State) (n : Nat) : (s.bump n).cache = s.cache := rfl
@[simp] theorem State.bump_mem (s : State) (n : Nat) : (s.bump n).mem = s.mem := rfl
@[simp] theorem State.bump_inputs (s : State) (n : Nat) : (s.bump n).inputs = s.inputs := rfl
@[simp] theorem State.bump_agents (s : State) (n : Nat) : (s.bump n).agents = s.agents := rfl
@[simp] theorem State.bump_report (s : State) (n : Nat) : (s.bump n).report = s.report := rfl
@[simp] theorem State.bump_freeCtr (s : State) (n : Nat) : (s.bump n).freeCtr = s.freeCtr + n := rfl

@[simp] theorem State.withSurroundings_gpr (s : State) (x : Surroundings) : (s.withSurroundings x).gpr = x.gpr := rfl
@[simp] theorem State.withSurroundings_rip (s : State) (x : Surroundings) : (s.withSurroundings x).rip = x.rip := rfl
@[simp] theorem State.withSurroundings_flags (s : State) (x : Surroundings) : (s.withSurroundings x).flags = x.flags := rfl
@[simp] theorem State.withSurroundings_cpl (s : State) (x : Surroundings) : (s.withSurroundings x).cpl = x.cpl := rfl
@[simp] theorem State.withSurroundings_cpuMode (s : State) (x : Surroundings) : (s.withSurroundings x).cpuMode = x.cpuMode := rfl
@[simp] theorem State.withSurroundings_csDefault32 (s : State) (x : Surroundings) : (s.withSurroundings x).csDefault32 = x.csDefault32 := rfl
@[simp] theorem State.withSurroundings_segs (s : State) (x : Surroundings) : (s.withSurroundings x).segs = x.segs := rfl
@[simp] theorem State.withSurroundings_cr0 (s : State) (x : Surroundings) : (s.withSurroundings x).cr0 = x.cr0 := rfl
@[simp] theorem State.withSurroundings_cr3 (s : State) (x : Surroundings) : (s.withSurroundings x).cr3 = s.cr3 := rfl
@[simp] theorem State.withSurroundings_cr4 (s : State) (x : Surroundings) : (s.withSurroundings x).cr4 = s.cr4 := rfl
@[simp] theorem State.withSurroundings_pdpte (s : State) (x : Surroundings) : (s.withSurroundings x).pdpte = s.pdpte := rfl
@[simp] theorem State.withSurroundings_pat (s : State) (x : Surroundings) : (s.withSurroundings x).pat = x.pat := rfl
@[simp] theorem State.withSurroundings_mode (s : State) (x : Surroundings) : (s.withSurroundings x).mode = s.mode := rfl
@[simp] theorem State.withSurroundings_vmcsCurrent (s : State) (x : Surroundings) : (s.withSurroundings x).vmcsCurrent = s.vmcsCurrent := rfl
@[simp] theorem State.withSurroundings_vmcs (s : State) (x : Surroundings) : (s.withSurroundings x).vmcs = s.vmcs := rfl
@[simp] theorem State.withSurroundings_cache (s : State) (x : Surroundings) : (s.withSurroundings x).cache = s.cache := rfl
@[simp] theorem State.withSurroundings_mem (s : State) (x : Surroundings) : (s.withSurroundings x).mem = s.mem := rfl
@[simp] theorem State.withSurroundings_inputs (s : State) (x : Surroundings) : (s.withSurroundings x).inputs = s.inputs := rfl
@[simp] theorem State.withSurroundings_agents (s : State) (x : Surroundings) : (s.withSurroundings x).agents = s.agents := rfl
@[simp] theorem State.withSurroundings_report (s : State) (x : Surroundings) : (s.withSurroundings x).report = s.report := rfl
@[simp] theorem State.withSurroundings_freeCtr (s : State) (x : Surroundings) : (s.withSurroundings x).freeCtr = s.freeCtr := rfl

@[simp] theorem State.withGpr_pg (s : State) (v : Vector Word 16) : (s.withGpr v).pg = s.pg := rfl
@[simp] theorem State.withRip_pg (s : State) (v : Word) : (s.withRip v).pg = s.pg := rfl
@[simp] theorem State.withFlags_pg (s : State) (v : Flags) : (s.withFlags v).pg = s.pg := rfl
@[simp] theorem State.withCr3_pg (s : State) (v : Word) : (s.withCr3 v).pg = s.pg := rfl
@[simp] theorem State.withCr4_pg (s : State) (v : Word) : (s.withCr4 v).pg = s.pg := rfl
@[simp] theorem State.withPdpte_pg (s : State) (v : Vector Word 4) : (s.withPdpte v).pg = s.pg := rfl
@[simp] theorem State.withMode_pg (s : State) (v : Mode) : (s.withMode v).pg = s.pg := rfl
@[simp] theorem State.withVmcsCurrent_pg (s : State) (v : Bool) : (s.withVmcsCurrent v).pg = s.pg := rfl
@[simp] theorem State.withVmcs_pg (s : State) (v : Vmcs) : (s.withVmcs v).pg = s.pg := rfl
@[simp] theorem State.withCache_pg (s : State) (v : List Mapping) : (s.withCache v).pg = s.pg := rfl
@[simp] theorem State.withMem_pg (s : State) (v : Memory) : (s.withMem v).pg = s.pg := rfl
@[simp] theorem State.withInputs_pg (s : State) (v : List Label) : (s.withInputs v).pg = s.pg := rfl
@[simp] theorem State.withAgents_pg (s : State) (v : List (List AgentWrite)) : (s.withAgents v).pg = s.pg := rfl
@[simp] theorem State.withReport_pg (s : State) (v : Report) : (s.withReport v).pg = s.pg := rfl
@[simp] theorem State.withFreeCtr_pg (s : State) (v : Nat) : (s.withFreeCtr v).pg = s.pg := rfl
@[simp] theorem State.bump_pg (s : State) (n : Nat) : (s.bump n).pg = s.pg := rfl

@[simp] theorem State.withGpr_cd (s : State) (v : Vector Word 16) : (s.withGpr v).cd = s.cd := rfl
@[simp] theorem State.withRip_cd (s : State) (v : Word) : (s.withRip v).cd = s.cd := rfl
@[simp] theorem State.withFlags_cd (s : State) (v : Flags) : (s.withFlags v).cd = s.cd := rfl
@[simp] theorem State.withCr3_cd (s : State) (v : Word) : (s.withCr3 v).cd = s.cd := rfl
@[simp] theorem State.withCr4_cd (s : State) (v : Word) : (s.withCr4 v).cd = s.cd := rfl
@[simp] theorem State.withPdpte_cd (s : State) (v : Vector Word 4) : (s.withPdpte v).cd = s.cd := rfl
@[simp] theorem State.withMode_cd (s : State) (v : Mode) : (s.withMode v).cd = s.cd := rfl
@[simp] theorem State.withVmcsCurrent_cd (s : State) (v : Bool) : (s.withVmcsCurrent v).cd = s.cd := rfl
@[simp] theorem State.withVmcs_cd (s : State) (v : Vmcs) : (s.withVmcs v).cd = s.cd := rfl
@[simp] theorem State.withCache_cd (s : State) (v : List Mapping) : (s.withCache v).cd = s.cd := rfl
@[simp] theorem State.withMem_cd (s : State) (v : Memory) : (s.withMem v).cd = s.cd := rfl
@[simp] theorem State.withInputs_cd (s : State) (v : List Label) : (s.withInputs v).cd = s.cd := rfl
@[simp] theorem State.withAgents_cd (s : State) (v : List (List AgentWrite)) : (s.withAgents v).cd = s.cd := rfl
@[simp] theorem State.withReport_cd (s : State) (v : Report) : (s.withReport v).cd = s.cd := rfl
@[simp] theorem State.withFreeCtr_cd (s : State) (v : Nat) : (s.withFreeCtr v).cd = s.cd := rfl
@[simp] theorem State.bump_cd (s : State) (n : Nat) : (s.bump n).cd = s.cd := rfl

@[simp] theorem State.withGpr_eptInUse (s : State) (v : Vector Word 16) : (s.withGpr v).eptInUse = s.eptInUse := rfl
@[simp] theorem State.withRip_eptInUse (s : State) (v : Word) : (s.withRip v).eptInUse = s.eptInUse := rfl
@[simp] theorem State.withFlags_eptInUse (s : State) (v : Flags) : (s.withFlags v).eptInUse = s.eptInUse := rfl
@[simp] theorem State.withCr3_eptInUse (s : State) (v : Word) : (s.withCr3 v).eptInUse = s.eptInUse := rfl
@[simp] theorem State.withCr4_eptInUse (s : State) (v : Word) : (s.withCr4 v).eptInUse = s.eptInUse := rfl
@[simp] theorem State.withPdpte_eptInUse (s : State) (v : Vector Word 4) : (s.withPdpte v).eptInUse = s.eptInUse := rfl
@[simp] theorem State.withVmcsCurrent_eptInUse (s : State) (v : Bool) : (s.withVmcsCurrent v).eptInUse = s.eptInUse := rfl
@[simp] theorem State.withCache_eptInUse (s : State) (v : List Mapping) : (s.withCache v).eptInUse = s.eptInUse := rfl
@[simp] theorem State.withMem_eptInUse (s : State) (v : Memory) : (s.withMem v).eptInUse = s.eptInUse := rfl
@[simp] theorem State.withInputs_eptInUse (s : State) (v : List Label) : (s.withInputs v).eptInUse = s.eptInUse := rfl
@[simp] theorem State.withAgents_eptInUse (s : State) (v : List (List AgentWrite)) : (s.withAgents v).eptInUse = s.eptInUse := rfl
@[simp] theorem State.withReport_eptInUse (s : State) (v : Report) : (s.withReport v).eptInUse = s.eptInUse := rfl
@[simp] theorem State.withFreeCtr_eptInUse (s : State) (v : Nat) : (s.withFreeCtr v).eptInUse = s.eptInUse := rfl
@[simp] theorem State.bump_eptInUse (s : State) (n : Nat) : (s.bump n).eptInUse = s.eptInUse := rfl

@[simp] theorem State.withGpr_eptAd (s : State) (v : Vector Word 16) : (s.withGpr v).eptAd = s.eptAd := rfl
@[simp] theorem State.withRip_eptAd (s : State) (v : Word) : (s.withRip v).eptAd = s.eptAd := rfl
@[simp] theorem State.withFlags_eptAd (s : State) (v : Flags) : (s.withFlags v).eptAd = s.eptAd := rfl
@[simp] theorem State.withCr3_eptAd (s : State) (v : Word) : (s.withCr3 v).eptAd = s.eptAd := rfl
@[simp] theorem State.withCr4_eptAd (s : State) (v : Word) : (s.withCr4 v).eptAd = s.eptAd := rfl
@[simp] theorem State.withPdpte_eptAd (s : State) (v : Vector Word 4) : (s.withPdpte v).eptAd = s.eptAd := rfl
@[simp] theorem State.withMode_eptAd (s : State) (v : Mode) : (s.withMode v).eptAd = s.eptAd := rfl
@[simp] theorem State.withVmcsCurrent_eptAd (s : State) (v : Bool) : (s.withVmcsCurrent v).eptAd = s.eptAd := rfl
@[simp] theorem State.withCache_eptAd (s : State) (v : List Mapping) : (s.withCache v).eptAd = s.eptAd := rfl
@[simp] theorem State.withMem_eptAd (s : State) (v : Memory) : (s.withMem v).eptAd = s.eptAd := rfl
@[simp] theorem State.withInputs_eptAd (s : State) (v : List Label) : (s.withInputs v).eptAd = s.eptAd := rfl
@[simp] theorem State.withAgents_eptAd (s : State) (v : List (List AgentWrite)) : (s.withAgents v).eptAd = s.eptAd := rfl
@[simp] theorem State.withReport_eptAd (s : State) (v : Report) : (s.withReport v).eptAd = s.eptAd := rfl
@[simp] theorem State.withFreeCtr_eptAd (s : State) (v : Nat) : (s.withFreeCtr v).eptAd = s.eptAd := rfl
@[simp] theorem State.bump_eptAd (s : State) (n : Nat) : (s.bump n).eptAd = s.eptAd := rfl

@[simp] theorem State.withGpr_pmlOn (s : State) (v : Vector Word 16) : (s.withGpr v).pmlOn = s.pmlOn := rfl
@[simp] theorem State.withRip_pmlOn (s : State) (v : Word) : (s.withRip v).pmlOn = s.pmlOn := rfl
@[simp] theorem State.withFlags_pmlOn (s : State) (v : Flags) : (s.withFlags v).pmlOn = s.pmlOn := rfl
@[simp] theorem State.withCr3_pmlOn (s : State) (v : Word) : (s.withCr3 v).pmlOn = s.pmlOn := rfl
@[simp] theorem State.withCr4_pmlOn (s : State) (v : Word) : (s.withCr4 v).pmlOn = s.pmlOn := rfl
@[simp] theorem State.withPdpte_pmlOn (s : State) (v : Vector Word 4) : (s.withPdpte v).pmlOn = s.pmlOn := rfl
@[simp] theorem State.withMode_pmlOn (s : State) (v : Mode) : (s.withMode v).pmlOn = s.pmlOn := rfl
@[simp] theorem State.withVmcsCurrent_pmlOn (s : State) (v : Bool) : (s.withVmcsCurrent v).pmlOn = s.pmlOn := rfl
@[simp] theorem State.withCache_pmlOn (s : State) (v : List Mapping) : (s.withCache v).pmlOn = s.pmlOn := rfl
@[simp] theorem State.withMem_pmlOn (s : State) (v : Memory) : (s.withMem v).pmlOn = s.pmlOn := rfl
@[simp] theorem State.withInputs_pmlOn (s : State) (v : List Label) : (s.withInputs v).pmlOn = s.pmlOn := rfl
@[simp] theorem State.withAgents_pmlOn (s : State) (v : List (List AgentWrite)) : (s.withAgents v).pmlOn = s.pmlOn := rfl
@[simp] theorem State.withReport_pmlOn (s : State) (v : Report) : (s.withReport v).pmlOn = s.pmlOn := rfl
@[simp] theorem State.withFreeCtr_pmlOn (s : State) (v : Nat) : (s.withFreeCtr v).pmlOn = s.pmlOn := rfl
@[simp] theorem State.bump_pmlOn (s : State) (n : Nat) : (s.bump n).pmlOn = s.pmlOn := rfl

@[simp] theorem State.withGpr_ep4ta (s : State) (v : Vector Word 16) : (s.withGpr v).ep4ta = s.ep4ta := rfl
@[simp] theorem State.withRip_ep4ta (s : State) (v : Word) : (s.withRip v).ep4ta = s.ep4ta := rfl
@[simp] theorem State.withFlags_ep4ta (s : State) (v : Flags) : (s.withFlags v).ep4ta = s.ep4ta := rfl
@[simp] theorem State.withCr3_ep4ta (s : State) (v : Word) : (s.withCr3 v).ep4ta = s.ep4ta := rfl
@[simp] theorem State.withCr4_ep4ta (s : State) (v : Word) : (s.withCr4 v).ep4ta = s.ep4ta := rfl
@[simp] theorem State.withPdpte_ep4ta (s : State) (v : Vector Word 4) : (s.withPdpte v).ep4ta = s.ep4ta := rfl
@[simp] theorem State.withMode_ep4ta (s : State) (v : Mode) : (s.withMode v).ep4ta = s.ep4ta := rfl
@[simp] theorem State.withVmcsCurrent_ep4ta (s : State) (v : Bool) : (s.withVmcsCurrent v).ep4ta = s.ep4ta := rfl
@[simp] theorem State.withCache_ep4ta (s : State) (v : List Mapping) : (s.withCache v).ep4ta = s.ep4ta := rfl
@[simp] theorem State.withMem_ep4ta (s : State) (v : Memory) : (s.withMem v).ep4ta = s.ep4ta := rfl
@[simp] theorem State.withInputs_ep4ta (s : State) (v : List Label) : (s.withInputs v).ep4ta = s.ep4ta := rfl
@[simp] theorem State.withAgents_ep4ta (s : State) (v : List (List AgentWrite)) : (s.withAgents v).ep4ta = s.ep4ta := rfl
@[simp] theorem State.withReport_ep4ta (s : State) (v : Report) : (s.withReport v).ep4ta = s.ep4ta := rfl
@[simp] theorem State.withFreeCtr_ep4ta (s : State) (v : Nat) : (s.withFreeCtr v).ep4ta = s.ep4ta := rfl
@[simp] theorem State.bump_ep4ta (s : State) (n : Nat) : (s.bump n).ep4ta = s.ep4ta := rfl

@[simp] theorem State.withGpr_currentVpid (s : State) (v : Vector Word 16) : (s.withGpr v).currentVpid = s.currentVpid := rfl
@[simp] theorem State.withRip_currentVpid (s : State) (v : Word) : (s.withRip v).currentVpid = s.currentVpid := rfl
@[simp] theorem State.withFlags_currentVpid (s : State) (v : Flags) : (s.withFlags v).currentVpid = s.currentVpid := rfl
@[simp] theorem State.withCr3_currentVpid (s : State) (v : Word) : (s.withCr3 v).currentVpid = s.currentVpid := rfl
@[simp] theorem State.withCr4_currentVpid (s : State) (v : Word) : (s.withCr4 v).currentVpid = s.currentVpid := rfl
@[simp] theorem State.withPdpte_currentVpid (s : State) (v : Vector Word 4) : (s.withPdpte v).currentVpid = s.currentVpid := rfl
@[simp] theorem State.withVmcsCurrent_currentVpid (s : State) (v : Bool) : (s.withVmcsCurrent v).currentVpid = s.currentVpid := rfl
@[simp] theorem State.withCache_currentVpid (s : State) (v : List Mapping) : (s.withCache v).currentVpid = s.currentVpid := rfl
@[simp] theorem State.withMem_currentVpid (s : State) (v : Memory) : (s.withMem v).currentVpid = s.currentVpid := rfl
@[simp] theorem State.withInputs_currentVpid (s : State) (v : List Label) : (s.withInputs v).currentVpid = s.currentVpid := rfl
@[simp] theorem State.withAgents_currentVpid (s : State) (v : List (List AgentWrite)) : (s.withAgents v).currentVpid = s.currentVpid := rfl
@[simp] theorem State.withReport_currentVpid (s : State) (v : Report) : (s.withReport v).currentVpid = s.currentVpid := rfl
@[simp] theorem State.withFreeCtr_currentVpid (s : State) (v : Nat) : (s.withFreeCtr v).currentVpid = s.currentVpid := rfl
@[simp] theorem State.bump_currentVpid (s : State) (n : Nat) : (s.bump n).currentVpid = s.currentVpid := rfl

@[simp] theorem State.withGpr_guestRegs (s : State) (v : Vector Word 16) : (s.withGpr v).guestRegs = s.guestRegs := rfl
@[simp] theorem State.withRip_guestRegs (s : State) (v : Word) : (s.withRip v).guestRegs = s.guestRegs := rfl
@[simp] theorem State.withFlags_guestRegs (s : State) (v : Flags) : (s.withFlags v).guestRegs = s.guestRegs := rfl
@[simp] theorem State.withMode_guestRegs (s : State) (v : Mode) : (s.withMode v).guestRegs = s.guestRegs := rfl
@[simp] theorem State.withVmcsCurrent_guestRegs (s : State) (v : Bool) : (s.withVmcsCurrent v).guestRegs = s.guestRegs := rfl
@[simp] theorem State.withVmcs_guestRegs (s : State) (v : Vmcs) : (s.withVmcs v).guestRegs = s.guestRegs := rfl
@[simp] theorem State.withCache_guestRegs (s : State) (v : List Mapping) : (s.withCache v).guestRegs = s.guestRegs := rfl
@[simp] theorem State.withMem_guestRegs (s : State) (v : Memory) : (s.withMem v).guestRegs = s.guestRegs := rfl
@[simp] theorem State.withInputs_guestRegs (s : State) (v : List Label) : (s.withInputs v).guestRegs = s.guestRegs := rfl
@[simp] theorem State.withAgents_guestRegs (s : State) (v : List (List AgentWrite)) : (s.withAgents v).guestRegs = s.guestRegs := rfl
@[simp] theorem State.withReport_guestRegs (s : State) (v : Report) : (s.withReport v).guestRegs = s.guestRegs := rfl
@[simp] theorem State.withFreeCtr_guestRegs (s : State) (v : Nat) : (s.withFreeCtr v).guestRegs = s.guestRegs := rfl
@[simp] theorem State.bump_guestRegs (s : State) (n : Nat) : (s.bump n).guestRegs = s.guestRegs := rfl

@[simp] theorem State.meanwhile_gpr (s : State) (x : Ctx) : (s.meanwhile x).gpr = s.gpr := rfl
@[simp] theorem State.meanwhile_rip (s : State) (x : Ctx) : (s.meanwhile x).rip = s.rip := rfl
@[simp] theorem State.meanwhile_flags (s : State) (x : Ctx) : (s.meanwhile x).flags = s.flags := rfl
@[simp] theorem State.meanwhile_cpl (s : State) (x : Ctx) : (s.meanwhile x).cpl = s.cpl := rfl
@[simp] theorem State.meanwhile_cpuMode (s : State) (x : Ctx) : (s.meanwhile x).cpuMode = s.cpuMode := rfl
@[simp] theorem State.meanwhile_csDefault32 (s : State) (x : Ctx) : (s.meanwhile x).csDefault32 = s.csDefault32 := rfl
@[simp] theorem State.meanwhile_segs (s : State) (x : Ctx) : (s.meanwhile x).segs = s.segs := rfl
@[simp] theorem State.meanwhile_cr0 (s : State) (x : Ctx) : (s.meanwhile x).cr0 = s.cr0 := rfl
@[simp] theorem State.meanwhile_cr3 (s : State) (x : Ctx) : (s.meanwhile x).cr3 = s.cr3 := rfl
@[simp] theorem State.meanwhile_cr4 (s : State) (x : Ctx) : (s.meanwhile x).cr4 = s.cr4 := rfl
@[simp] theorem State.meanwhile_pdpte (s : State) (x : Ctx) : (s.meanwhile x).pdpte = s.pdpte := rfl
@[simp] theorem State.meanwhile_pat (s : State) (x : Ctx) : (s.meanwhile x).pat = s.pat := rfl
@[simp] theorem State.meanwhile_mode (s : State) (x : Ctx) : (s.meanwhile x).mode = s.mode := rfl
@[simp] theorem State.meanwhile_vmcsCurrent (s : State) (x : Ctx) : (s.meanwhile x).vmcsCurrent = s.vmcsCurrent := rfl
@[simp] theorem State.meanwhile_vmcs (s : State) (x : Ctx) : (s.meanwhile x).vmcs = s.vmcs := rfl
@[simp] theorem State.meanwhile_cache (s : State) (x : Ctx) : (s.meanwhile x).cache = s.cache := rfl
@[simp] theorem State.meanwhile_mem (s : State) (x : Ctx) : (s.meanwhile x).mem = s.mem.writeAll x.foreign := rfl
@[simp] theorem State.meanwhile_inputs (s : State) (x : Ctx) : (s.meanwhile x).inputs = s.inputs := rfl
@[simp] theorem State.meanwhile_agents (s : State) (x : Ctx) : (s.meanwhile x).agents = x.st.agents := rfl
@[simp] theorem State.meanwhile_report (s : State) (x : Ctx) : (s.meanwhile x).report = s.report := rfl
@[simp] theorem State.meanwhile_freeCtr (s : State) (x : Ctx) : (s.meanwhile x).freeCtr = x.st.freeCtr := rfl

@[simp] theorem State.meanwhile_pg (s : State) (x : Ctx) : (s.meanwhile x).pg = s.pg := rfl
@[simp] theorem State.meanwhile_cd (s : State) (x : Ctx) : (s.meanwhile x).cd = s.cd := rfl
@[simp] theorem State.meanwhile_eptInUse (s : State) (x : Ctx) : (s.meanwhile x).eptInUse = s.eptInUse := rfl
@[simp] theorem State.meanwhile_eptAd (s : State) (x : Ctx) : (s.meanwhile x).eptAd = s.eptAd := rfl
@[simp] theorem State.meanwhile_pmlOn (s : State) (x : Ctx) : (s.meanwhile x).pmlOn = s.pmlOn := rfl
@[simp] theorem State.meanwhile_ep4ta (s : State) (x : Ctx) : (s.meanwhile x).ep4ta = s.ep4ta := rfl
@[simp] theorem State.meanwhile_currentVpid (s : State) (x : Ctx) : (s.meanwhile x).currentVpid = s.currentVpid := rfl
@[simp] theorem State.meanwhile_guestRegs (s : State) (x : Ctx) : (s.meanwhile x).guestRegs = s.guestRegs := rfl
@[simp] theorem State.meanwhile_apicPage (s : State) (x : Ctx) : (s.meanwhile x).apicPage = s.apicPage := rfl

@[simp] theorem State.withGpr_linWrap (c : Cfg) (s : State) (v : Vector Word 16) (la : Word) : (s.withGpr v).linWrap c la = s.linWrap c la := rfl
@[simp] theorem State.withRip_linWrap (c : Cfg) (s : State) (v : Word) (la : Word) : (s.withRip v).linWrap c la = s.linWrap c la := rfl
@[simp] theorem State.withFlags_linWrap (c : Cfg) (s : State) (v : Flags) (la : Word) : (s.withFlags v).linWrap c la = s.linWrap c la := rfl
@[simp] theorem State.withVmcsCurrent_linWrap (c : Cfg) (s : State) (v : Bool) (la : Word) : (s.withVmcsCurrent v).linWrap c la = s.linWrap c la := rfl
@[simp] theorem State.withCache_linWrap (c : Cfg) (s : State) (v : List Mapping) (la : Word) : (s.withCache v).linWrap c la = s.linWrap c la := rfl
@[simp] theorem State.withMem_linWrap (c : Cfg) (s : State) (v : Memory) (la : Word) : (s.withMem v).linWrap c la = s.linWrap c la := rfl
@[simp] theorem State.withInputs_linWrap (c : Cfg) (s : State) (v : List Label) (la : Word) : (s.withInputs v).linWrap c la = s.linWrap c la := rfl
@[simp] theorem State.withAgents_linWrap (c : Cfg) (s : State) (v : List (List AgentWrite)) (la : Word) : (s.withAgents v).linWrap c la = s.linWrap c la := rfl
@[simp] theorem State.withReport_linWrap (c : Cfg) (s : State) (v : Report) (la : Word) : (s.withReport v).linWrap c la = s.linWrap c la := rfl
@[simp] theorem State.withFreeCtr_linWrap (c : Cfg) (s : State) (v : Nat) (la : Word) : (s.withFreeCtr v).linWrap c la = s.linWrap c la := rfl
@[simp] theorem State.bump_linWrap (c : Cfg) (s : State) (n : Nat) (la : Word) : (s.bump n).linWrap c la = s.linWrap c la := rfl
@[simp] theorem State.withMode_linWrap (c : Cfg) (s : State) (v : Mode) (la : Word) : (s.withMode v).linWrap c la = s.linWrap c la := rfl
@[simp] theorem State.withVmcs_linWrap (c : Cfg) (s : State) (v : Vmcs) (la : Word) : (s.withVmcs v).linWrap c la = s.linWrap c la := rfl
@[simp] theorem State.meanwhile_linWrap (c : Cfg) (s : State) (x : Ctx) (la : Word) : (s.meanwhile x).linWrap c la = s.linWrap c la := rfl

end Sys2Proof.Machine
end

