-- ==== Sys2Proof/Laws/Ops.lean ====
section
/-! SUPPORT. One lemma for each shared operation that says what it can do. -/

namespace Sys2Proof.Machine

open Sys2Proof

/-! Computations. -/

/-- A sequence that comes to a value: its first part did. -/
theorem Res.bind_eq_ok {α β : Type} {r : Res α} {f : α → Ctx → Res β} {b : β} {y : Ctx} :
    r.bind f = .ok b y ↔ ∃ a x, r = .ok a x ∧ f a x = .ok b y := by
  cases r <;> simp [Res.bind]

/-- A sequence that ends in an event: its first part did, or its second. -/
theorem Res.bind_eq_raised {α β : Type} {r : Res α} {f : α → Ctx → Res β} {e : Event} {y : Ctx} :
    r.bind f = .raised e y ↔ r = .raised e y ∨ ∃ a x, r = .ok a x ∧ f a x = .raised e y := by
  cases r <;> simp [Res.bind]

/-- A sequence that stops: its first part did, or its second. -/
theorem Res.bind_eq_stopped {α β : Type} {r : Res α} {f : α → Ctx → Res β} {t : Stop} :
    r.bind f = .stopped t ↔ r = .stopped t ∨ ∃ a x, r = .ok a x ∧ f a x = .stopped t := by
  cases r <;> simp [Res.bind]

@[simp] theorem Res.bind_ok {α β : Type} (a : α) (x : Ctx) (f : α → Ctx → Res β) : (Res.ok a x).bind f = f a x := rfl
@[simp] theorem Res.bind_raised {α β : Type} (e : Event) (x : Ctx) (f : α → Ctx → Res β) :
    (Res.raised e x : Res α).bind f = .raised e x := rfl
@[simp] theorem Res.bind_stopped {α β : Type} (t : Stop) (f : α → Ctx → Res β) : (Res.stopped t : Res α).bind f = .stopped t := rfl

@[simp] theorem Ctx.start_st (s : State) : (Ctx.start s).st = s := rfl
@[simp] theorem Ctx.mapSt_st (x : Ctx) (f : State → State) : (x.mapSt f).st = f x.st := rfl
@[simp] theorem Ctx.mapSt_touched (x : Ctx) (f : State → State) : (x.mapSt f).touched = x.touched := rfl
@[simp] theorem Ctx.touch_st (x : Ctx) (ea : Word) : (x.touch ea).st = x.st := rfl

@[simp] theorem Stop.outcome_ne_next {σ : Type} (t : Stop) (s : σ) : t.outcome ≠ (.next s : Host.Outcome σ Fault Refusal) := by
  cases t <;> simp [Stop.outcome]

/-- A computation's outcome is a next state: it came to a value and its continuation to that state, or it ended in an event that was
taken. -/
theorem Res.outcome_eq_next {α : Type} {c : Cfg} {s t : State} {r : Res α} {f : α → State → Host.Outcome State Fault Refusal} :
    r.outcome c s f = .next t ↔
      (∃ a x, r = .ok a x ∧ f a x.st = .next t) ∨ ∃ e x, r = .raised e x ∧ t = deliver c e (rollback c s e x) := by
  cases r with
  | ok a x => simp [Res.outcome]
  | raised e x => simp [Res.outcome, eq_comm]
  | stopped r => simp [Res.outcome]

/-- What can be picked: nothing, or one of the candidates; only the count of free values changes. -/
theorem pick_spec {α : Type} (c : Cfg) (x : Ctx) (l : List α) :
    ((pick c x l).1 = none ∨ ∃ a ∈ l, (pick c x l).1 = some a) ∧ ∃ n, (pick c x l).2 = x.mapSt fun s => s.bump n := by
  unfold pick
  split
  · exact ⟨.inl rfl, 0, rfl⟩
  · dsimp only
    refine ⟨?_, 1, rfl⟩
    split
    · exact .inl rfl
    · generalize h : l[(c.free x.st.freeCtr).toNat % (l.length + 1) - 1]? = o
      cases o with
      | none => exact .inl rfl
      | some a => exact .inr ⟨a, List.mem_of_getElem? h, rfl⟩

/-- A candidate is picked for the free value that counts one more than its place. -/
theorem pick_index {α : Type} {c : Cfg} {x : Ctx} {l : List α} {i : Nat} {a : α} (h : l[i]? = some a) (hl : l.length < 2 ^ 64)
    (hf : c.free x.st.freeCtr = BitVec.ofNat 64 (i + 1)) : pick c x l = (some a, x.mapSt fun s => s.bump 1) := by
  have hi : i < l.length := (List.getElem?_eq_some_iff.1 h).1
  have hk : (c.free x.st.freeCtr).toNat % (l.length + 1) = i + 1 := by
    rw [hf, BitVec.toNat_ofNat, Nat.mod_eq_of_lt (by omega), Nat.mod_eq_of_lt (by omega)]
  unfold pick
  split
  · cases h
  · dsimp only
    rw [hk]
    simp [h]

@[simp] theorem pick_nil {α : Type} (c : Cfg) (x : Ctx) : pick c x ([] : List α) = (none, x) := rfl

@[simp] theorem Ctx.use_st (x : Ctx) (m : Mapping) : (x.use m).st = x.st := rfl
@[simp] theorem Ctx.use_mappings (x : Ctx) (m : Mapping) : (x.use m).mappings = x.mappings ++ [m] := rfl
@[simp] theorem Ctx.note_st (x : Ctx) (t : TypedAccess) : (x.note t).st = x.st := rfl
@[simp] theorem Ctx.note_typed (x : Ctx) (t : TypedAccess) : (x.note t).typed = x.typed ++ [t] := rfl
@[simp] theorem Ctx.note_foreign (x : Ctx) (t : TypedAccess) : (x.note t).foreign = x.foreign := rfl
@[simp] theorem Ctx.use_foreign (x : Ctx) (m : Mapping) : (x.use m).foreign = x.foreign := rfl
@[simp] theorem Ctx.touch_foreign (x : Ctx) (ea : Word) : (x.touch ea).foreign = x.foreign := rfl
@[simp] theorem Ctx.mapSt_foreign (x : Ctx) (f : State → State) : (x.mapSt f).foreign = x.foreign := rfl
@[simp] theorem Ctx.mapSt_mappings (x : Ctx) (f : State → State) : (x.mapSt f).mappings = x.mappings := rfl
@[simp] theorem Ctx.mapSt_typed (x : Ctx) (f : State → State) : (x.mapSt f).typed = x.typed := rfl
@[simp] theorem Ctx.touch_mappings (x : Ctx) (ea : Word) : (x.touch ea).mappings = x.mappings := rfl
@[simp] theorem Ctx.touch_typed (x : Ctx) (ea : Word) : (x.touch ea).typed = x.typed := rfl

/-! Other agents' writes (92_eei_decisions.md D12). -/

/-- With no other agent's write to come an access is made in memory as it stands. -/
theorem Ctx.interleave_nil {x : Ctx} (h : x.st.agents = []) : x.interleave = x := by
  unfold Ctx.interleave
  rw [h]

/-- With no other agent's write to come an access may take place where its bytes exist. -/
theorem accessOk_nil {c : Cfg} {x : Ctx} (h : x.st.agents = []) (a n : Nat) : accessOk c x a n = inRange c a n := by
  simp [accessOk, h, writesOk]

/-- An access that may take place is to bytes that exist. -/
theorem accessOk_inRange {c : Cfg} {x : Ctx} {a n : Nat} (h : accessOk c x a n = true) : inRange c a n = true :=
  (Bool.and_eq_true_iff.1 h).2

/-- What other agents write before the next access. -/
theorem Ctx.interleave_spec (x : Ctx) :
    x.interleave.st = (x.st.withMem (x.st.mem.writeAll (x.st.agents.headD []))).withAgents x.st.agents.tail ∧
      x.interleave.foreign = x.foreign ++ x.st.agents.headD [] := by
  obtain ⟨s, touched, foreign, mappings, typed⟩ := x
  obtain ⟨_, _, _, _, _, _, _, _, _, _, _, _, _, _, _, _, mem, _, agents, _, _⟩ := s
  cases agents with
  | nil => exact ⟨rfl, (List.append_nil _).symm⟩
  | cons ws rest => exact ⟨rfl, rfl⟩

/-! Physical memory. -/

/-- A physical read comes to a value: the bytes exist, and nothing changes but for the other agents' writes before it. -/
theorem physRead_eq_ok {c : Cfg} {x y : Ctx} {pa : Word} {n : Nat} {bs : List Byte} :
    physRead c x pa n = .ok bs y ↔
      accessOk c x pa.toNat n = true ∧ bs = x.interleave.st.mem.readBytes pa.toNat n ∧ y = x.interleave := by
  unfold physRead
  split
  · rename_i h
    rw [Res.ok.injEq]
    exact ⟨fun ⟨h1, h2⟩ => ⟨h, h1.symm, h2.symm⟩, fun ⟨_, h1, h2⟩ => ⟨h1.symm, h2.symm⟩⟩
  · rename_i h
    exact ⟨fun h1 => (by cases h1), fun h1 => absurd h1.1 h⟩

/-- A physical 64-bit read comes to a value: the entry exists, and nothing changes but for the other agents' writes before it. -/
theorem physRead64_eq_ok {c : Cfg} {x y : Ctx} {pa w : Word} :
    physRead64 c x pa = .ok w y ↔
      accessOk c x pa.toNat 8 = true ∧ w = x.interleave.st.mem.read64 pa.toNat ∧ y = x.interleave := by
  unfold physRead64
  rw [Res.bind_eq_ok]
  constructor
  · rintro ⟨bs, z, h, h2⟩
    obtain ⟨h1, rfl, rfl⟩ := physRead_eq_ok.1 h
    cases h2
    exact ⟨h1, rfl, rfl⟩
  · rintro ⟨h1, rfl, rfl⟩
    exact ⟨_, _, physRead_eq_ok.2 ⟨h1, rfl, rfl⟩, rfl⟩

/-- A physical write comes to a value: the bytes exist and memory holds them. -/
theorem physWrite_eq_ok {c : Cfg} {x y : Ctx} {pa : Word} {bs : List Byte} {u : Unit} :
    physWrite c x pa bs = .ok u y ↔
      accessOk c x pa.toNat bs.length = true ∧ y = x.interleave.mapSt fun s => s.withMem (s.mem.writeBytes pa.toNat bs) := by
  unfold physWrite
  split
  · rename_i h
    rw [Res.ok.injEq]
    exact ⟨fun ⟨_, h2⟩ => ⟨h, h2.symm⟩, fun ⟨_, h2⟩ => ⟨rfl, h2.symm⟩⟩
  · rename_i h
    exact ⟨fun h1 => (by cases h1), fun h1 => absurd h1.1 h⟩

/-- An update of an entry comes to a value: the entry exists, and memory holds its new value. -/
theorem physUpdate_eq_ok {c : Cfg} {x y : Ctx} {pa : Word} {n : Nat} {f : Word → Word} {u : Unit} :
    physUpdate c x pa n f = .ok u y ↔
      accessOk c x pa.toNat n = true ∧
        y = x.interleave.mapSt fun s =>
          s.withMem (s.mem.writeBytes pa.toNat (bytesOfWord (f (wordOfBytes (s.mem.readBytes pa.toNat n))) n)) := by
  unfold physUpdate
  split
  · rename_i h
    rw [Res.ok.injEq]
    exact ⟨fun ⟨_, h2⟩ => ⟨h, h2.symm⟩, fun ⟨_, h2⟩ => ⟨rfl, h2.symm⟩⟩
  · rename_i h
    exact ⟨fun h1 => (by cases h1), fun h1 => absurd h1.1 h⟩

/-- A physical read raises no event. -/
@[simp] theorem physRead_ne_raised (c : Cfg) (x : Ctx) (pa : Word) (n : Nat) (e : Event) (y : Ctx) :
    physRead c x pa n ≠ .raised e y := by
  unfold physRead
  split <;> simp

/-- A physical 64-bit read raises no event. -/
@[simp] theorem physRead64_ne_raised (c : Cfg) (x : Ctx) (pa : Word) (e : Event) (y : Ctx) : physRead64 c x pa ≠ .raised e y := by
  intro h
  rcases Res.bind_eq_raised.1 h with h | ⟨_, _, _, h⟩
  · exact physRead_ne_raised _ _ _ _ _ _ h
  · cases h

/-- A physical write raises no event. -/
@[simp] theorem physWrite_ne_raised (c : Cfg) (x : Ctx) (pa : Word) (bs : List Byte) (e : Event) (y : Ctx) :
    physWrite c x pa bs ≠ .raised e y := by
  unfold physWrite
  split <;> simp

/-- An update of an entry raises no event. -/
@[simp] theorem physUpdate_ne_raised (c : Cfg) (x : Ctx) (pa : Word) (n : Nat) (f : Word → Word) (e : Event) (y : Ctx) :
    physUpdate c x pa n f ≠ .raised e y := by
  unfold physUpdate
  split <;> simp

/-- Setting a bit of an entry: the entry exists, its new value is written in one access, nothing else changes but for the other agents'
writes before it (20_memory.md R45). -/
theorem setEntryBit_eq_ok {c : Cfg} {x y : Ctx} {ea : Word} {bit : Nat} {u : Unit} :
    setEntryBit c x ea bit = .ok u y ↔
      accessOk c x ea.toNat 8 = true ∧
        y = x.interleave.mapSt fun s => s.withMem (s.mem.write64 ea.toNat (s.mem.read64 ea.toNat ||| (1#64 <<< bit))) :=
  physUpdate_eq_ok

/-- A range that ends no later is as good. -/
theorem inRange_mono {c : Cfg} {a n b k : Nat} (h : inRange c a n = true) (hk : b + k ≤ a + n) : inRange c b k = true := by
  simp only [inRange, Bool.or_eq_true, decide_eq_true_eq] at h ⊢
  omega

/-- What is in range is below 2^N. -/
theorem inRange_le {c : Cfg} {a n : Nat} (h : inRange c a n = true) : a + n ≤ 2 ^ c.width := by
  simp only [inRange, Bool.or_eq_true, decide_eq_true_eq] at h
  rcases h with h | h
  · exact h.trans (Nat.pow_le_pow_right (by omega) (by unfold Cfg.width; omega))
  · exact h

/-! Invalidation. -/

theorem thin_sublist (c : Cfg) (n : Nat) (l : List Mapping) : (thin c n l).Sublist l := by
  induction l generalizing n with
  | nil => exact List.Sublist.slnil
  | cons m ms ih =>
    unfold thin
    split
    · exact (ih (n + 1)).cons m
    · exact (ih (n + 1)).cons_cons m

/-- What an invalidation does (47_invalidation.md R261). -/
theorem invalidate_spec (c : Cfg) (required : Mapping → Bool) (s : State) : Invalidated required s (invalidate c required s) := by
  refine ⟨thin c s.freeCtr (s.cache.filter fun m => !required m), s.freeCtr + (s.cache.filter fun m => !required m).length, ?_, ?_, rfl⟩
  · exact (thin_sublist c _ _).trans List.filter_sublist
  · intro m hm
    have := (thin_sublist c _ _).subset hm
    simpa using (List.mem_filter.1 this).2

theorem Invalidated.mem {required : Mapping → Bool} {s t : State} (h : Invalidated required s t) {m : Mapping} (hm : m ∈ t.cache) :
    m ∈ s.cache ∧ required m = false := by
  obtain ⟨kept, n, hsub, hreq, rfl⟩ := h
  exact ⟨hsub.subset hm, hreq m hm⟩

/-! Taking an event. -/

/-- An exception (60_exceptions.md R311): RIP is a free value; nothing else but the report and the count of free values changes. -/
theorem deliver_exception {e : Event} {s : State} (he : e.exits s = false) (c : Cfg) :
    deliver c e s = { s with rip := c.free s.freeCtr, freeCtr := s.freeCtr + 1, report := .exception e } := by
  simp [deliver, he, jumpFree, State.withRip, State.bump, State.withFreeCtr, State.withReport]

/-- A VM exit (R316): from the state with the VM-exit fields written, some mappings stay, none of those that had to go; the mode is Root;
RIP is a free value; nothing else but the report and the count of free values changes. -/
theorem deliver_exit {e : Event} {s : State} (he : e.exits s = true) (c : Cfg) :
    ∃ kept n rip, kept.Sublist s.cache ∧ (∀ m ∈ kept, transitionRequired s m = false) ∧
      (∀ v, e = .eptViolation v → ∀ m ∈ kept, violationRequired c s v m = false) ∧
      deliver c e s =
        { s with vmcs := (recordExit c e s).vmcs, cache := kept, mode := .root, rip := rip, freeCtr := n, report := .exit e } := by
  have key : ∀ s1 : State, ∃ kept n rip, kept.Sublist s1.cache ∧ (∀ m ∈ kept, transitionRequired s1 m = false) ∧
      vmExit c s1 = { s1 with cache := kept, mode := .root, rip := rip, freeCtr := n } := by
    intro s1
    obtain ⟨kept, n, h1, h2, h3⟩ := invalidate_spec c (transitionRequired s1) s1
    refine ⟨kept, n + 1, c.free n, h1, h2, ?_⟩
    simp [vmExit, h3, jumpFree, State.withRip, State.withMode, State.bump, State.withFreeCtr]
  have hd : deliver c e s = (vmExit c (eventInvalidate c e (recordExit c e s))).withReport (.exit e) := by simp [deliver, he]
  have other : (∀ v, e ≠ .eptViolation v) → eventInvalidate c e (recordExit c e s) = recordExit c e s := by
    intro h
    cases e <;> first | rfl | exact absurd rfl (h _)
  by_cases hv : ∃ v, e = .eptViolation v
  · obtain ⟨v, rfl⟩ := hv
    obtain ⟨k1, n1, h1, h2, h3⟩ :=
      invalidate_spec c (violationRequired c (recordExit c (.eptViolation v) s) v) (recordExit c (.eptViolation v) s)
    obtain ⟨k2, n2, rip, h4, h5, h6⟩ := key (eventInvalidate c (.eptViolation v) (recordExit c (.eptViolation v) s))
    have h7 : eventInvalidate c (.eptViolation v) (recordExit c (.eptViolation v) s) =
        { recordExit c (.eptViolation v) s with cache := k1, freeCtr := n1 } := h3
    rw [h7] at h4 h5 h6
    refine ⟨k2, n2, rip, h4.trans h1, h5, ?_, ?_⟩
    · intro v' hv m hm
      cases hv
      exact h2 m (h4.subset hm)
    · rw [hd, h7, h6]
      rfl
  · obtain ⟨k2, n2, rip, h4, h5, h6⟩ := key (recordExit c e s)
    refine ⟨k2, n2, rip, h4, h5, fun v h => absurd ⟨v, h⟩ hv, ?_⟩
    rw [hd, other fun v h => hv ⟨v, h⟩, h6]
    rfl

end Sys2Proof.Machine
end

