-- ==== Sys2Proof/Laws/Access.lean ====
section
/-! SUPPORT. What an access can change, and what it is where linear addresses are physical. -/

namespace Sys2Proof.Machine

open Sys2Proof

/-- What a computation may have changed, whether it comes to a value or ends in an event: memory, the PML index, the count of free values,
and the other agents' writes to come, of which the first are done and recorded; memory keeps its form and its bound. -/
def Kept (c : Cfg) (x y : Ctx) : Prop :=
  (∃ mem i n k, y.st = { x.st with mem := mem, agents := x.st.agents.drop k, freeCtr := n, vmcs := { x.st.vmcs with pmlIndex := i } } ∧
      y.foreign = x.foreign ++ (x.st.agents.take k).flatten) ∧
    (x.st.mem.wf = true → y.st.mem.wf = true) ∧
    (x.st.mem.below (2 ^ c.width) = true → y.st.mem.below (2 ^ c.width) = true) ∧
    (writesOk c x.foreign = true → writesOk c y.foreign = true)

/-- A change of no more than the count of free values and what is noted of the access. -/
theorem Kept.of_bump {c : Cfg} {x y : Ctx} {n : Nat} (h : y.st = x.st.bump n) (hf : y.foreign = x.foreign) : Kept c x y :=
  ⟨⟨x.st.mem, x.st.vmcs.pmlIndex, x.st.freeCtr + n, 0, by rw [h]; rfl, by simp [hf]⟩, by rw [h]; exact id, by rw [h]; exact id,
    by rw [hf]; exact id⟩

theorem Kept.of_st {c : Cfg} {x y : Ctx} (h : y.st = x.st) (hf : y.foreign = x.foreign) : Kept c x y := Kept.of_bump (n := 0) h hf

theorem Kept.refl (c : Cfg) (x : Ctx) : Kept c x x := Kept.of_st rfl rfl

theorem Kept.trans {c : Cfg} {x y z : Ctx} (h1 : Kept c x y) (h2 : Kept c y z) : Kept c x z := by
  obtain ⟨⟨m1, i1, n1, k1, e1, f1⟩, a1, b1, d1⟩ := h1
  obtain ⟨⟨m2, i2, n2, k2, e2, f2⟩, a2, b2, d2⟩ := h2
  refine ⟨⟨m2, i2, n2, k1 + k2, ?_, ?_⟩, a2 ∘ a1, b2 ∘ b1, d2 ∘ d1⟩
  · rw [e2, e1]
    simp [List.drop_drop]
  · rw [f2, f1, e1]
    simp [List.take_add]

/-- A computation that changes no more than `Kept` says. -/
def Keeps {α : Type} (c : Cfg) (x : Ctx) : Res α → Prop
  | .ok _ y => Kept c x y
  | .raised _ y => Kept c x y
  | .stopped _ => True

theorem Keeps.ok {α : Type} {c : Cfg} {x y : Ctx} (a : α) (h : Kept c x y) : Keeps c x (.ok a y) := h

theorem Keeps.same {α : Type} (c : Cfg) (x : Ctx) (a : α) : Keeps c x (.ok a x) := Kept.refl c x

theorem Keeps.raised {α : Type} (c : Cfg) (x : Ctx) (e : Event) : Keeps c x (.raised e x : Res α) := Kept.refl c x

theorem Keeps.stopped {α : Type} (c : Cfg) (x : Ctx) (t : Stop) : Keeps c x (.stopped t : Res α) := trivial

theorem Keeps.from {α : Type} {c : Cfg} {x y : Ctx} {r : Res α} (h : Kept c x y) (hr : Keeps c y r) : Keeps c x r := by
  cases r with
  | ok a z => exact h.trans hr
  | raised e z => exact h.trans hr
  | stopped t => trivial

theorem Keeps.bind {α β : Type} {c : Cfg} {x : Ctx} {r : Res α} {f : α → Ctx → Res β} (h : Keeps c x r)
    (hf : ∀ a y, r = .ok a y → Keeps c y (f a y)) : Keeps c x (r.bind f) := by
  cases r with
  | ok a y => exact Keeps.from h (hf a y rfl)
  | raised e y => exact h
  | stopped t => trivial

/-- The state before an access, with what has happened meanwhile, keeps the form and the bound of memory. -/
theorem Kept.meanwhile {c : Cfg} {s : State} {y : Ctx} (h : Kept c (Ctx.start s) y) :
    (∃ k, y.st.agents = s.agents.drop k ∧ y.foreign = (s.agents.take k).flatten) ∧
      (s.mem.wf = true → (s.meanwhile y).mem.wf = true) ∧
      (s.mem.below (2 ^ c.width) = true → (s.meanwhile y).mem.below (2 ^ c.width) = true) := by
  obtain ⟨⟨m, i, n, k, e, f⟩, -, -, d⟩ := h
  refine ⟨⟨k, by rw [e]; rfl, by rw [f]; rfl⟩, fun hw => Memory.wf_writeAll hw _, fun hb => Memory.below_writeAll hb fun w hw => ?_⟩
  exact inRange_le (List.all_eq_true.1 (d rfl) w hw)

theorem kept_bump (c : Cfg) (x : Ctx) (n : Nat) : Kept c x (x.mapSt fun s => s.bump n) := Kept.of_bump rfl rfl

theorem kept_pick {α : Type} (c : Cfg) (x : Ctx) (l : List α) : Kept c x (pick c x l).2 := by
  obtain ⟨-, n, h⟩ := pick_spec c x l
  rw [h]
  exact kept_bump c x n

theorem kept_use (c : Cfg) (x : Ctx) (m : Mapping) : Kept c x (x.use m) := Kept.of_st rfl rfl

theorem kept_note (c : Cfg) (x : Ctx) (t : TypedAccess) : Kept c x (x.note t) := Kept.of_st rfl rfl

theorem kept_touch (c : Cfg) (x : Ctx) (ea : Word) : Kept c x (x.touch ea) := Kept.of_st rfl rfl

/-- The other agents' writes before an access that may take place. -/
theorem kept_interleave {c : Cfg} {x : Ctx} {a n : Nat} (h : accessOk c x a n = true) : Kept c x x.interleave := by
  have hw : writesOk c (x.st.agents.headD []) = true := (Bool.and_eq_true_iff.1 h).1
  obtain ⟨h1, h2⟩ := x.interleave_spec
  refine ⟨⟨x.st.mem.writeAll (x.st.agents.headD []), x.st.vmcs.pmlIndex, x.st.freeCtr, 1, ?_, ?_⟩, ?_, ?_, ?_⟩
  · rw [h1, ← List.drop_one]
    rfl
  · rw [h2]
    cases x.st.agents <;> simp
  · rw [h1]
    exact fun hm => Memory.wf_writeAll hm _
  · rw [h1]
    exact fun hm => Memory.below_writeAll hm fun w hv => inRange_le (List.all_eq_true.1 hw w hv)
  · rw [h2]
    intro hf
    simp only [writesOk, List.all_append, Bool.and_eq_true] at hf hw ⊢
    exact ⟨hf, hw⟩

theorem kept_write {c : Cfg} {x : Ctx} {a : Nat} {bs : List Byte} (h : inRange c a bs.length = true) :
    Kept c x (x.mapSt fun s => s.withMem (s.mem.writeBytes a bs)) :=
  ⟨⟨_, _, _, 0, rfl, by simp⟩, fun hm => Memory.wf_writeBytes hm _ _, fun hm => Memory.below_writeBytes hm (inRange_le h), id⟩

theorem physRead_keeps (c : Cfg) (x : Ctx) (pa : Word) (n : Nat) : Keeps c x (physRead c x pa n) := by
  unfold physRead
  split
  · next h => exact kept_interleave h
  · trivial

theorem physRead64_keeps (c : Cfg) (x : Ctx) (pa : Word) : Keeps c x (physRead64 c x pa) :=
  (physRead_keeps c x pa 8).bind fun _ _ _ => Keeps.same c _ _

theorem physWrite_keeps (c : Cfg) (x : Ctx) (pa : Word) (bs : List Byte) : Keeps c x (physWrite c x pa bs) := by
  unfold physWrite
  split
  · next h => exact (kept_interleave h).trans (kept_write (accessOk_inRange h))
  · trivial

theorem physUpdate_keeps (c : Cfg) (x : Ctx) (pa : Word) (n : Nat) (f : Word → Word) : Keeps c x (physUpdate c x pa n f) := by
  unfold physUpdate
  split
  · next h =>
    refine (kept_interleave h).trans ?_
    exact kept_write (x := x.interleave) (bs := bytesOfWord (f (wordOfBytes (x.interleave.st.mem.readBytes pa.toNat n))) n)
      (by rw [length_bytesOfWord]; exact accessOk_inRange h)
  · trivial

theorem setEntryBit_keeps (c : Cfg) (x : Ctx) (ea : Word) (bit : Nat) : Keeps c x (setEntryBit c x ea bit) :=
  physUpdate_keeps c x ea 8 _

theorem setEntryBits_keeps (c : Cfg) (bit : Nat) (l : List Word) (x : Ctx) : Keeps c x (setEntryBits c x bit l) := by
  induction l generalizing x with
  | nil => exact Keeps.same c x ()
  | cons ea rest ih => exact (setEntryBit_keeps c x ea bit).bind fun _ y _ => ih y

theorem eptEntry_keeps (c : Cfg) (acc : GAccess) (gpa : Word) (x : Ctx) (level : Nat) (base : Word) (r : Rights) :
    Keeps c x (eptEntry c acc gpa x level base r) := by
  refine (physRead64_keeps c x _).bind fun e y _ => ?_
  split
  · exact Keeps.raised c _ _
  · split
    · exact Keeps.raised c _ _
    · exact Keeps.ok _ (kept_touch c y _)

/-- One step of the EPT walk over an entry in memory: not present, misconfigured, or gone through (R101, R116). -/
theorem eptEntry_of {c : Cfg} {acc : GAccess} {gpa : Word} {x : Ctx} {level : Nat} {base : Word} {r : Rights} {e : Word}
    (h : entryIs c x.st gpa level base e) :
    eptEntry c acc gpa x level base r =
      if !eptPresent x.st e then .raised (violation x acc gpa (r.meet e) (some level)) x
      else if eptMisconfigured c x.st e level (isLeaf level e) then .raised (.eptMisconfig gpa level) x
      else .ok e (x.touch (base + 8#64 * gpaIndex gpa level)) := by
  unfold eptEntry
  dsimp only
  have hi := Ctx.interleave_nil h.1
  rw [(physRead64_eq_ok (w := e) (y := x)).2 ⟨by rw [accessOk_nil h.1]; exact h.2.1, by rw [hi]; exact h.2.2.symm, hi.symm⟩]
  rfl

/-- An entry that references a table is gone through. -/
theorem eptEntry_ref {c : Cfg} {acc : GAccess} {gpa : Word} {x : Ctx} {level : Nat} {base : Word} {r : Rights} {e : Word}
    (h : entryIs c x.st gpa level base e) (h2 : referencesTable c x.st level e) :
    eptEntry c acc gpa x level base r = .ok e (x.touch (base + 8#64 * gpaIndex gpa level)) := by
  rw [eptEntry_of h]
  simp [h2.1, h2.2.2, h2.2.1]

/-- An entry that maps a page is gone through. -/
theorem eptEntry_maps {c : Cfg} {acc : GAccess} {gpa : Word} {x : Ctx} {level : Nat} {base : Word} {r : Rights} {e : Word}
    (h : entryIs c x.st gpa level base e) (h2 : mapsPage c x.st level e) :
    eptEntry c acc gpa x level base r = .ok e (x.touch (base + 8#64 * gpaIndex gpa level)) := by
  rw [eptEntry_of h]
  simp [h2.1, h2.2.2, h2.2.1]

theorem eptWalkFrom_keeps (c : Cfg) (acc : GAccess) (gpa : Word) (n : Nat) (base : Word) (r : Rights) (used : List WalkEntry)
    (x : Ctx) : Keeps c x (eptWalkFrom c acc gpa n base r used x) := by
  induction n generalizing base r used x with
  | zero =>
    unfold eptWalkFrom
    refine (eptEntry_keeps c acc gpa x _ base r).bind fun e y _ => ?_
    dsimp only
    split <;> exact Keeps.same c _ _
  | succ n ih =>
    unfold eptWalkFrom
    refine (eptEntry_keeps c acc gpa x _ base r).bind fun e y _ => ?_
    dsimp only
    split
    · exact Keeps.same c _ _
    · exact ih _ _ _ y

theorem eptTranslateFrom_keeps (c : Cfg) (acc : GAccess) (gpa : Word) (fuel level : Nat) (base : Word) (r : Rights)
    (used : List WalkEntry) (sources : List Mapping) (x : Ctx) :
    Keeps c x (eptTranslateFrom c acc gpa fuel level base r used sources x) := by
  induction fuel generalizing level base r used sources x with
  | zero => exact Keeps.stopped c _ _
  | succ fuel ih =>
    have hk := kept_pick c x (x.st.cache.filter (gphysUsable x.st gpa level))
    unfold eptTranslateFrom
    split
    · next h => rw [h] at hk; exact Keeps.ok _ (hk.trans (kept_use c _ _))
    · next h => rw [h] at hk; exact Keeps.from (hk.trans (kept_use c _ _)) (ih _ _ _ _ _ _)
    · next h =>
      rw [h] at hk
      refine Keeps.from hk ((eptEntry_keeps c acc gpa _ _ base r).bind fun e z _ => ?_)
      dsimp only
      split
      · exact Keeps.same c _ _
      · exact ih _ _ _ _ _ z

theorem eptTranslate_keeps (c : Cfg) (acc : GAccess) (gpa : Word) (x : Ctx) : Keeps c x (eptTranslate c acc gpa x) :=
  eptTranslateFrom_keeps c acc gpa _ _ _ _ _ _ x

theorem sppEntry_keeps (c : Cfg) (acc : GAccess) (gpa : Word) (x : Ctx) (table : Word) (level : Nat) :
    Keeps c x (sppEntry c acc gpa x table level) := by
  refine (physRead64_keeps c x _).bind fun e y _ => ?_
  split
  · exact Keeps.raised c _ _
  · split
    · exact Keeps.raised c _ _
    · exact Keeps.same c _ _

theorem sppTables_keeps (c : Cfg) (acc : GAccess) (gpa : Word) (n level : Nat) (t : Word) (x : Ctx) :
    Keeps c x (sppTables c acc gpa n level t x) := by
  induction n generalizing level t x with
  | zero => exact Keeps.same c x _
  | succ n ih => exact (sppEntry_keeps c acc gpa x t level).bind fun _ y _ => ih _ _ y

theorem sppVectorAddr_keeps (c : Cfg) (acc : GAccess) (gpa : Word) (x : Ctx) : Keeps c x (sppVectorAddr c acc gpa x) :=
  (sppTables_keeps c acc gpa 3 4 _ x).bind fun _ _ _ => Keeps.same c _ _

theorem sppVector_keeps (c : Cfg) (acc : GAccess) (gpa : Word) (x : Ctx) : Keeps c x (sppVector c acc gpa x) := by
  have hk := kept_pick c x (x.st.cache.filterMap fun m => (sppHeld c x.st acc gpa m).map fun h => (m, h))
  unfold sppVector
  split
  · next h => rw [h] at hk; exact Keeps.ok _ (hk.trans (kept_use c _ _))
  · next h =>
    rw [h] at hk
    exact Keeps.from (hk.trans (kept_use c _ _)) ((sppTables_keeps c acc gpa _ _ _ _).bind fun _ _ _ => physRead64_keeps c _ _)
  · next h => rw [h] at hk; exact Keeps.from hk ((sppVectorAddr_keeps c acc gpa _).bind fun _ _ _ => physRead64_keeps c _ _)

theorem sppCheck_keeps (c : Cfg) (acc : GAccess) (gpa : Word) (w : Walk) (x : Ctx) : Keeps c x (sppCheck c acc gpa w x) := by
  refine (sppVector_keeps c acc gpa x).bind fun v y _ => ?_
  dsimp only
  split
  · exact Keeps.raised c _ _
  · split
    · exact Keeps.same c _ _
    · exact Keeps.raised c _ _

theorem pmlLog_keeps (c : Cfg) (gpa : Word) (x : Ctx) : Keeps c x (pmlLog c gpa x) :=
  (physWrite_keeps c x _ _).bind fun _ _ _ => Keeps.ok _ ⟨⟨_, _, _, 0, rfl, by simp⟩, id, id, id⟩

theorem entryFlag_keeps (c : Cfg) (cached recorded : Bool) (ea : Word) (bit : Nat) (x : Ctx) :
    Keeps c x (entryFlag c cached recorded ea bit x) := by
  unfold entryFlag
  split
  · exact Keeps.same c x _
  · exact (physRead64_keeps c x ea).bind fun _ _ _ => Keeps.same c _ _

theorem needAccessed_keeps (c : Cfg) (us : List WalkEntry) (x : Ctx) : Keeps c x (needAccessed c us x) := by
  induction us generalizing x with
  | nil => exact Keeps.same c x _
  | cons u us ih => exact (entryFlag_keeps c _ _ _ _ x).bind fun _ y _ => (ih y).bind fun _ _ _ => Keeps.same c _ _

theorem needDirty_keeps (c : Cfg) (w : Walk) (acc : GAccess) (x : Ctx) : Keeps c x (needDirty c w acc x) := by
  unfold needDirty
  split
  · exact (entryFlag_keeps c _ _ _ _ x).bind fun _ _ _ => Keeps.same c _ _
  · exact Keeps.same c x _

theorem eptUpdateFlags_keeps (c : Cfg) (w : Walk) (gpa : Word) (needA : List Word) (needD : Bool) (x : Ctx) :
    Keeps c x (eptUpdateFlags c w gpa needA needD x) := by
  unfold eptUpdateFlags
  split
  · exact Keeps.same c _ _
  · split
    · exact Keeps.raised c _ _
    · refine (setEntryBits_keeps c 8 _ x).bind fun _ y _ => (setEntryBits_keeps c 9 _ y).bind fun _ z _ => ?_
      split
      · exact pmlLog_keeps c gpa z
      · exact Keeps.same c z _

theorem eptSetAccessedDirty_keeps (c : Cfg) (w : Walk) (acc : GAccess) (gpa : Word) (x : Ctx) :
    Keeps c x (eptSetAccessedDirty c w acc gpa x) :=
  (needAccessed_keeps c w.used x).bind fun _ y _ => (needDirty_keeps c w acc y).bind fun _ z _ => eptUpdateFlags_keeps c w gpa _ _ z

/-- With no other agent writing, a flag that stands in memory is the one there. -/
theorem entryFlag_nil {c : Cfg} {cached recorded : Bool} {ea : Word} {bit : Nat} {x : Ctx} (ha : x.st.agents = [])
    (hr : cached = false → inRange c ea.toNat 8 = true) :
    entryFlag c cached recorded ea bit x = .ok (if cached then recorded else (x.st.mem.read64 ea.toNat).getLsbD bit) x := by
  cases cached with
  | true => rfl
  | false =>
    have hi := Ctx.interleave_nil ha
    have h : physRead64 c x ea = .ok (x.st.mem.read64 ea.toNat) x :=
      physRead64_eq_ok.2 ⟨by rw [accessOk_nil ha]; exact hr rfl, by rw [hi], hi.symm⟩
    simp [entryFlag, h]

/-- With no other agent writing, the accessed flags to set are those of the entries whose flag is clear (R181). -/
theorem needAccessed_nil {c : Cfg} {us : List WalkEntry} {x : Ctx} (ha : x.st.agents = [])
    (hr : ∀ u ∈ us, u.cached = false → inRange c u.addr.toNat 8 = true) :
    needAccessed c us x = .ok ((us.filter fun u => !u.accessedIn x.st.mem).map (·.addr)) x := by
  induction us with
  | nil => rfl
  | cons u us ih =>
    rw [needAccessed, entryFlag_nil ha (hr u (by simp)), Res.bind_ok, ih fun v hv => hr v (by simp [hv]), Res.bind_ok]
    rw [show (if u.cached then u.accessed else (x.st.mem.read64 u.addr.toNat).getLsbD 8) = u.accessedIn x.st.mem from rfl]
    cases h : u.accessedIn x.st.mem <;> simp [h]

/-- With no other agent writing, the dirty flag is to be set by a write whose leaf entry's flag is clear (R181). -/
theorem needDirty_nil {c : Cfg} {w : Walk} {acc : GAccess} {x : Ctx} (ha : x.st.agents = [])
    (hr : w.leafCached = false → inRange c w.leafAddr.toNat 8 = true) :
    needDirty c w acc x = .ok (effKind x.st acc == .dataWrite && !w.dirtyIn x.st.mem) x := by
  unfold needDirty
  split
  · next h =>
    rw [entryFlag_nil ha hr, Res.bind_ok, h]
    rfl
  · next h => simp [h]

theorem kept_chooseBool (c : Cfg) (x : Ctx) : Kept c x (chooseBool c x).2 := kept_bump c x 1

theorem apicTest_keeps (c : Cfg) (sources : List Mapping) (pa : Word) (x : Ctx) : Keeps c x (apicTest c sources pa x) := by
  unfold apicTest
  have hk := kept_chooseBool c x
  split
  · split
    · split
      · next h => rw [h] at hk; exact Keeps.ok _ hk
      · next h => rw [h] at hk; exact Keeps.from hk (Keeps.raised c _ _)
    · exact Keeps.raised c _ _
  · exact Keeps.same c _ _

theorem kept_sppEligible (c : Cfg) (x : Ctx) (w : Walk) (acc : GAccess) : Kept c x (sppEligible c x w acc).2 := by
  unfold sppEligible
  split
  · split
    · split
      · exact Kept.refl c _
      · exact Kept.refl c _
      · exact kept_bump c x 1
    · exact Kept.refl c _
  · exact Kept.refl c _

theorem eptPerform_keeps (c : Cfg) (acc : GAccess) (gpa : Word) (w : Walk) (x : Ctx) : Keeps c x (eptPerform c acc gpa w x) := by
  unfold eptPerform
  split
  · exact (eptSetAccessedDirty_keeps c w acc gpa x).bind fun _ _ _ => Keeps.same c _ _
  · exact Keeps.same c _ _

theorem eptGrant_keeps (c : Cfg) (acc : GAccess) (gpa : Word) (w : Walk) (x : Ctx) : Keeps c x (eptGrant c acc gpa w x) := by
  unfold eptGrant
  split
  · exact (apicTest_keeps c w.sources w.pa x).bind fun _ y _ => eptPerform_keeps c acc gpa w y
  · split
    · have hk := kept_sppEligible c x w acc
      split
      · next h => rw [h] at hk; exact Keeps.from hk ((sppCheck_keeps c acc gpa w _).bind fun _ z _ => eptPerform_keeps c acc gpa w z)
      · next h => rw [h] at hk; exact Keeps.from hk (Keeps.raised c _ _)
    · exact Keeps.raised c _ _

theorem guestPhysAccess_keeps (c : Cfg) (acc : GAccess) (gpa : Word) (x : Ctx) : Keeps c x (guestPhysAccess c acc gpa x) := by
  unfold guestPhysAccess
  split
  · exact Keeps.stopped c _ _
  · exact (eptTranslate_keeps c acc gpa x).bind fun w y _ => (eptGrant_keeps c acc gpa w y).bind fun _ _ _ => Keeps.same c _ _

theorem addressAccess_keeps (c : Cfg) (acc : GAccess) (a : Word) (x : Ctx) : Keeps c x (addressAccess c acc a x) := by
  unfold addressAccess
  split
  · exact guestPhysAccess_keeps c acc a x
  · exact (apicTest_keeps c [] a x).bind fun _ _ _ => Keeps.same c _ _

theorem guestEntry_keeps (c : Cfg) (kind : AccKind) (la : Word) (es : List GuestEntry) (level : Nat) (table : Word) (o : Option CombPsc)
    (x : Ctx) : Keeps c x (guestEntry c kind la es level table o x) := by
  unfold guestEntry
  refine Keeps.bind ?_ fun g y _ => Keeps.from (kept_note c y _) ((physRead_keeps c _ _ _).bind fun bs z _ => ?_)
  · cases o with
    | some m => exact (eptGrant_keeps c _ _ _ x).bind fun _ _ _ => Keeps.same c _ _
    | none => exact addressAccess_keeps c _ _ x
  · dsimp only
    split
    · exact Keeps.raised c _ _
    · exact Keeps.same c _ _

theorem guestWalkFrom_keeps (c : Cfg) (kind : AccKind) (la : Word) (n : Nat) (table : Word) (es : List GuestEntry) (x : Ctx) :
    Keeps c x (guestWalkFrom c kind la n table es x) := by
  induction n generalizing table es x with
  | zero =>
    unfold guestWalkFrom
    exact (guestEntry_keeps c kind la es _ table none x).bind fun _ _ _ => Keeps.same c _ _
  | succ n ih =>
    unfold guestWalkFrom
    refine (guestEntry_keeps c kind la es _ table none x).bind fun ge y _ => ?_
    dsimp only
    split
    · exact ih _ _ y
    · exact Keeps.same c _ _

theorem guestFindFrom_keeps (c : Cfg) (kind : AccKind) (la : Word) (fuel level : Nat) (table : Word) (o : Option CombPsc) (es : List GuestEntry)
    (x : Ctx) : Keeps c x (guestFindFrom c kind la fuel level table o es x) := by
  induction fuel generalizing level table o es x with
  | zero => exact Keeps.stopped c _ _
  | succ fuel ih =>
    have hk := kept_pick c x (x.st.cache.filter (linearUsable c x.st la level))
    unfold guestFindFrom
    split
    · next h => rw [h] at hk; exact Keeps.ok _ (hk.trans (kept_use c _ _))
    · next h => rw [h] at hk; exact Keeps.ok _ (hk.trans (kept_use c _ _))
    · next h => rw [h] at hk; exact Keeps.from (hk.trans (kept_use c _ _)) (ih _ _ _ _ _)
    · next h => rw [h] at hk; exact Keeps.from (hk.trans (kept_use c _ _)) (ih _ _ _ _ _)
    · next h =>
      rw [h] at hk
      refine Keeps.from hk ((guestEntry_keeps c kind la es _ table o _).bind fun ge z _ => ?_)
      dsimp only
      split
      · exact ih _ _ _ _ z
      · exact Keeps.same c _ _

theorem guestSetFlags_keeps (c : Cfg) (la : Word) (es : List GuestEntry) (l : List (GuestEntry × Word)) (x : Ctx) :
    Keeps c x (guestSetFlags c la es l x) := by
  induction l generalizing es x with
  | nil => exact Keeps.same c x ()
  | cons p rest ih =>
    unfold guestSetFlags
    split
    · exact ih _ x
    · exact (addressAccess_keeps c _ _ x).bind fun g y _ =>
        Keeps.from (kept_note c y _) ((physUpdate_keeps c _ _ _ _).bind fun _ z _ => ih _ z)

theorem guestPermit_keeps (c : Cfg) (kind : AccKind) (la : Word) (es : List GuestEntry) (x : Ctx) :
    Keeps c x (guestPermit c kind la es x) := by
  unfold guestPermit
  split
  · exact Keeps.raised c _ _
  · exact guestSetFlags_keeps c la [] _ x

theorem accessAfterWalk_keeps (c : Cfg) (p : Part) (gw : GuestWalk) (x : Ctx) : Keeps c x (accessAfterWalk c p gw x) :=
  (guestPermit_keeps c p.kind p.la gw.entries x).bind fun _ y _ =>
    (addressAccess_keeps c _ gw.gpa y).bind fun _ _ _ => Keeps.same c _ _

theorem accessUnpaged_keeps (c : Cfg) (p : Part) (x : Ctx) : Keeps c x (accessUnpaged c p x) :=
  (addressAccess_keeps c _ p.la x).bind fun _ _ _ => Keeps.same c _ _

theorem accessByCombTr_keeps (c : Cfg) (p : Part) (m : CombTr) (x : Ctx) : Keeps c x (accessByCombTr c p m x) := by
  have permitted : Keeps c x (if x.st.pg then guestPermit c p.kind p.la m.guest x else .ok () x) := by
    split
    · exact guestPermit_keeps c _ _ _ x
    · exact Keeps.same c _ _
  exact permitted.bind fun _ y _ => (eptGrant_keeps c _ _ _ y).bind fun _ _ _ => Keeps.same c _ _

theorem accessByLinearTr_keeps (c : Cfg) (p : Part) (m : LinearTr) (x : Ctx) : Keeps c x (accessByLinearTr c p m x) :=
  (guestPermit_keeps c _ _ _ x).bind fun _ y _ => (apicTest_keeps c _ _ y).bind fun _ _ _ => Keeps.same c _ _

theorem accessPaged_keeps (c : Cfg) (p : Part) (x : Ctx) : Keeps c x (accessPaged c p x) := by
  refine (guestFindFrom_keeps c _ _ _ _ _ _ _ x).bind fun f y _ => ?_
  split
  · exact accessAfterWalk_keeps c p _ y
  · exact accessByCombTr_keeps c p _ y
  · exact accessByLinearTr_keeps c p _ y

theorem accessPart_keeps (c : Cfg) (p : Part) (x : Ctx) : Keeps c x (accessPart c p x) := by
  have hk := kept_pick c x (x.st.cache.filter (linearUsable c x.st p.la 1))
  unfold accessPart
  split
  · exact accessPaged_keeps c p x
  · split
    · trivial
    · split
      · next h => rw [h] at hk; exact Keeps.from (hk.trans (kept_use c _ _)) (accessByCombTr_keeps c p _ _)
      · next h => rw [h] at hk; exact Keeps.from hk (accessUnpaged_keeps c p _)

theorem accessParts_keeps (c : Cfg) (ps : List Part) (x : Ctx) : Keeps c x (accessParts c ps x) := by
  induction ps generalizing x with
  | nil => exact Keeps.same c x _
  | cons p ps ih =>
    exact Keeps.from (Kept.of_st rfl rfl)
      ((accessPart_keeps c p _).bind fun _ y _ => (ih y).bind fun _ _ _ => Keeps.same c _ _)

theorem readParts_keeps (c : Cfg) (ds : List PartDone) (x : Ctx) : Keeps c x (readParts c ds x) := by
  induction ds generalizing x with
  | nil => exact Keeps.same c x _
  | cons d ds ih => exact (physRead_keeps c x _ _).bind fun _ y _ => (ih y).bind fun _ _ _ => Keeps.same c _ _

theorem writeParts_keeps (c : Cfg) (ds : List PartDone) (bs : List Byte) (x : Ctx) : Keeps c x (writeParts c ds bs x) := by
  induction ds generalizing bs x with
  | nil => exact Keeps.same c x _
  | cons d ds ih => exact (physWrite_keeps c x _ _).bind fun _ y _ => ih _ y

/-- What an access by linear address may change. -/
theorem linearAccess_keeps (c : Cfg) (a : Access) (x : Ctx) : Keeps c x (linearAccess c a x) := by
  refine (accessParts_keeps c (a.parts c x.st) x).bind fun ds y _ => ?_
  split
  · exact (readParts_keeps c ds y).bind fun _ _ _ => Keeps.same c _ _
  · exact (readParts_keeps c ds y).bind fun _ _ _ => Keeps.same c _ _
  · exact (writeParts_keeps c ds _ y).bind fun _ _ _ => Keeps.same c _ _

/-! Where linear addresses are physical. -/

theorem State.Flat.eptInUse {s : State} (h : s.Flat) : s.eptInUse = false := by
  have := h.2.1
  unfold State.eptInUse
  cases hm : s.mode <;> simp_all

theorem State.Flat.apicHit {s : State} (h : s.Flat) (pa : Word) : Sys2Proof.Machine.apicHit s pa = false := by
  have := h.2.1
  unfold Sys2Proof.Machine.apicHit State.apicPage
  cases hm : s.mode <;> simp_all

theorem State.Flat.linearUsable {s : State} (h : s.Flat) (c : Cfg) (la : Word) (level : Nat) (m : Mapping) :
    Sys2Proof.Machine.linearUsable c s la level m = false := by
  unfold Sys2Proof.Machine.linearUsable
  simp [h.eptInUse, h.1]

/-- A part of an access where linear addresses are physical: it is performed at its linear address and nothing changes (R125). -/
theorem accessPart_flat {c : Cfg} {x : Ctx} (h : x.st.Flat) (p : Part) : accessPart c p x = .ok (plainPart p p.la none) x := by
  have hf : x.st.cache.filter (Sys2Proof.Machine.linearUsable c x.st p.la 1) = [] :=
    List.filter_eq_nil_iff.2 fun m _ => by simp [h.linearUsable c p.la 1 m]
  unfold accessPart
  rw [if_neg (by simp [h.1]), if_neg (by simp [h.eptInUse]), hf, pick_nil]
  simp [accessUnpaged, addressAccess, h.eptInUse, apicTest, h.apicHit]

theorem accessParts_flat {c : Cfg} {x : Ctx} (h : x.st.Flat) (ht : x.typed = []) (ps : List Part) :
    accessParts c ps x = .ok (ps.map fun p => plainPart p p.la none) x := by
  have hx : { x with typed := [] } = x := by rw [← ht]
  induction ps with
  | nil => rfl
  | cons p ps ih =>
    unfold accessParts
    rw [hx, accessPart_flat h, Res.bind_ok, ih, Res.bind_ok, ht]
    rfl

theorem readParts_eq {c : Cfg} {x : Ctx} (ha : x.st.agents = []) (ds : List PartDone)
    (h : ∀ d ∈ ds, inRange c d.pa.toNat d.size = true) :
    readParts c ds x = .ok (ds.flatMap fun d => x.st.mem.readBytes d.pa.toNat d.size) x := by
  induction ds with
  | nil => rfl
  | cons d ds ih =>
    have h1 : physRead c x d.pa d.size = .ok (x.st.mem.readBytes d.pa.toNat d.size) x :=
      physRead_eq_ok.2 ⟨by rw [accessOk_nil ha]; exact h d (by simp), by rw [Ctx.interleave_nil ha], (Ctx.interleave_nil ha).symm⟩
    simp [readParts, h1, ih fun d' hd => h d' (by simp [hd])]

/-! Linear addresses as wide as the guest's paging has them. -/

theorem toNat_low12 (la : Word) : (la &&& 0xFFF#64).toNat = la.toNat % 4096 := by
  rw [BitVec.toNat_and]
  exact Nat.and_two_pow_sub_one_eq_mod la.toNat 12

theorem toNat_low32 (la : Word) : (low32 la).toNat = la.toNat % 2 ^ 32 := by
  unfold low32
  rw [BitVec.toNat_and]
  exact Nat.and_two_pow_sub_one_eq_mod la.toNat 32

/-- How many linear addresses there are, as a number of bits. -/
theorem State.linWrap_toNat (c : Cfg) (s : State) : ∃ w, 12 ≤ w ∧ w ≤ 64 ∧ ∀ la : Word, (s.linWrap c la).toNat = la.toNat % 2 ^ w := by
  unfold State.linWrap
  split
  · exact ⟨64, by omega, by omega, fun la => (Nat.mod_eq_of_lt la.isLt).symm⟩
  · exact ⟨32, by omega, by omega, toNat_low32⟩

@[simp] theorem State.linWrap_linWrap (c : Cfg) (s : State) (la : Word) : s.linWrap c (s.linWrap c la) = s.linWrap c la := by
  obtain ⟨w, -, -, h⟩ := s.linWrap_toNat c
  apply BitVec.eq_of_toNat_eq
  rw [h, h, Nat.mod_mod]

@[simp] theorem State.linWrap_byteAt (c : Cfg) (s : State) (la : Word) (i : Nat) : s.linWrap c (s.byteAt c la i) = s.byteAt c la i :=
  s.linWrap_linWrap c _

theorem State.byteAt_toNat {c : Cfg} {s : State} {w : Nat} (hw : w ≤ 64) (h : ∀ la : Word, (s.linWrap c la).toNat = la.toNat % 2 ^ w) (la : Word)
    (i : Nat) : (s.byteAt c la i).toNat = (la.toNat + i) % 2 ^ w := by
  have hd : 2 ^ w ∣ 2 ^ 64 := Nat.pow_dvd_pow 2 hw
  unfold State.byteAt
  rw [h, BitVec.toNat_add, BitVec.toNat_ofNat, Nat.mod_mod_of_dvd _ hd, Nat.add_mod, Nat.mod_mod_of_dvd _ hd, ← Nat.add_mod]

/-- A byte at a distance from a byte at a distance. -/
theorem State.byteAt_byteAt (c : Cfg) (s : State) (la : Word) (i j : Nat) : s.byteAt c (s.byteAt c la i) j = s.byteAt c la (i + j) := by
  obtain ⟨w, -, hw, h⟩ := s.linWrap_toNat c
  apply BitVec.eq_of_toNat_eq
  rw [State.byteAt_toNat hw h, State.byteAt_toNat hw h, State.byteAt_toNat hw h, Nat.mod_add_mod, Nat.add_assoc]

/-- The bytes of one page follow one another. -/
theorem State.byteAt_page {c : Cfg} {s : State} {la : Word} (hl : s.linWrap c la = la) {i : Nat} (hi : la.toNat % 4096 + i < 4096) :
    (s.byteAt c la i).toNat = la.toNat + i := by
  obtain ⟨w, h12, hw, h⟩ := s.linWrap_toNat c
  have hlt : la.toNat < 2 ^ w := by
    rw [← hl, h]
    exact Nat.mod_lt _ (Nat.two_pow_pos w)
  rw [State.byteAt_toNat hw h]
  obtain ⟨k, hk⟩ : (4096 : Nat) ∣ 2 ^ w := Nat.pow_dvd_pow 2 h12
  exact Nat.mod_eq_of_lt (by omega)

theorem Memory.readBytes_eq_map (m : Memory) (a n : Nat) : m.readBytes a n = (List.range n).map fun i => m.read (a + i) := by
  induction n generalizing a with
  | zero => rfl
  | succ n ih =>
    rw [Memory.readBytes, List.range_succ_eq_map, ih]
    simp [Nat.add_assoc, Nat.add_comm 1, Function.comp_def]

/-- The bytes at a linear address in two goes. -/
theorem State.flatBytes_add (c : Cfg) (s : State) (la : Word) (n k : Nat) :
    s.flatBytes c la (n + k) = s.flatBytes c la n ++ s.flatBytes c (s.byteAt c la n) k := by
  simp [State.flatBytes, List.range_add, State.byteAt_byteAt, Function.comp_def]

/-- The bytes of one page are those in memory from its linear address on. -/
theorem State.flatBytes_page {c : Cfg} {s : State} {la : Word} (hl : s.linWrap c la = la) {n : Nat} (hn : la.toNat % 4096 + n ≤ 4096) :
    s.flatBytes c la n = s.mem.readBytes la.toNat n := by
  rw [Memory.readBytes_eq_map]
  refine List.map_congr_left fun i hi => ?_
  rw [State.byteAt_page hl (by have := List.mem_range.1 hi; omega)]

/-- The parts of an access are its bytes in order, each within one page. -/
theorem pageParts_flat (c : Cfg) (s : State) (fuel : Nat) (la : Word) (hl : s.linWrap c la = la) (size : Nat) (hf : size ≤ fuel) :
    ((pageParts c s fuel la size).flatMap fun q => s.mem.readBytes q.1.toNat q.2) = s.flatBytes c la size ∧
      ∀ q ∈ pageParts c s fuel la size, 0 < q.2 ∧ ∃ i, i + q.2 ≤ size ∧ ∀ j, j < q.2 → (s.byteAt c la (i + j)).toNat = q.1.toNat + j := by
  induction fuel generalizing la size with
  | zero =>
    obtain rfl : size = 0 := by omega
    simp [pageParts, State.flatBytes]
  | succ fuel ih =>
    unfold pageParts
    have hlow := toNat_low12 la
    have hlt := Nat.mod_lt la.toNat (show 4096 > 0 by omega)
    dsimp only
    split
    · rename_i h0
      subst h0
      simp [State.flatBytes]
    · split
      · rename_i h0 hroom
        rw [hlow] at hroom
        refine ⟨by simp [State.flatBytes_page hl (n := size) (by omega)], fun q hq => ?_⟩
        obtain rfl := List.mem_singleton.1 hq
        exact ⟨by dsimp only; omega, 0, by simp, fun j hj => by
          dsimp only at hj ⊢
          rw [Nat.zero_add, State.byteAt_page hl (by omega)]⟩
      · rename_i h0 hroom
        rw [hlow] at hroom ⊢
        obtain ⟨h1, h2⟩ := ih (s.byteAt c la (4096 - la.toNat % 4096)) (s.linWrap_byteAt c la _) (size - (4096 - la.toNat % 4096)) (by omega)
        have hsize : size = (4096 - la.toNat % 4096) + (size - (4096 - la.toNat % 4096)) := by omega
        constructor
        · rw [List.flatMap_cons]
          conv_rhs => rw [hsize, State.flatBytes_add]
          rw [State.flatBytes_page hl (by omega)]
          exact congrArg _ h1
        · intro q hq
          rcases List.mem_cons.1 hq with rfl | hq
          · exact ⟨by dsimp only; omega, 0, by dsimp only; omega, fun j hj => by
              dsimp only at hj ⊢
              rw [Nat.zero_add, State.byteAt_page hl (by omega)]⟩
          · obtain ⟨h3, i, h4, h5⟩ := h2 q hq
            refine ⟨h3, (4096 - la.toNat % 4096) + i, by omega, fun j hj => ?_⟩
            rw [← h5 j hj, State.byteAt_byteAt, Nat.add_assoc]

theorem State.byteAt_linWrap (c : Cfg) (s : State) (la : Word) (i : Nat) : s.byteAt c (s.linWrap c la) i = s.byteAt c la i := by
  obtain ⟨w, -, hw, h⟩ := s.linWrap_toNat c
  apply BitVec.eq_of_toNat_eq
  rw [State.byteAt_toNat hw h, State.byteAt_toNat hw h, h, Nat.mod_add_mod]

theorem width_lt (c : Cfg) : 2 ^ c.width ≤ 2 ^ 64 := Nat.pow_le_pow_right (by omega) (by unfold Cfg.width; omega)

/-- What is in range byte by byte is in range. -/
theorem inRange_of_bytes {c : Cfg} {a n : Nat} (hn : 0 < n) (h : inRange c (a + (n - 1)) 1 = true) : inRange c a n = true :=
  inRange_mono h (by omega)

/-- The parts of an access where linear addresses are physical exist, and are its bytes. -/
theorem flatParts {c : Cfg} {s : State} {la : Word} {n : Nat} (hr : flatInRange c s la n) (kind : AccKind) (crosses : Bool)
    (o : Origin) :
    (∀ d ∈ (pageParts c s n (s.linWrap c la) n).map (fun q => plainPart ⟨kind, q.1, q.2, crosses, o⟩ q.1 none),
        inRange c d.pa.toNat d.size = true) ∧
      (((pageParts c s n (s.linWrap c la) n).map (fun q => plainPart ⟨kind, q.1, q.2, crosses, o⟩ q.1 none)).flatMap fun d =>
        s.mem.readBytes d.pa.toNat d.size) = s.flatBytes c la n := by
  obtain ⟨h1, h2⟩ := pageParts_flat c s n (s.linWrap c la) (s.linWrap_linWrap c la) n (Nat.le_refl n)
  constructor
  · intro d hd
    obtain ⟨q, hq, rfl⟩ := List.mem_map.1 hd
    obtain ⟨h3, i, h4, h5⟩ := h2 q hq
    have := hr (i + (q.2 - 1)) (by omega)
    rw [← State.byteAt_linWrap, h5 _ (by omega)] at this
    exact inRange_of_bytes h3 this
  · rw [List.flatMap_map]
    refine h1.trans ?_
    unfold State.flatBytes
    exact List.map_congr_left fun i _ => by rw [State.byteAt_linWrap]

/-- A read or fetch where linear addresses are physical: the bytes there, and nothing changes (R52, R125). -/
theorem linearAccess_flat {c : Cfg} {s : State} (h : s.Flat) {la : Word} {n : Nat} (hr : flatInRange c s la n) (o : Origin)
    {op : AccOp} (hop : op = .read n ∨ op = .fetch n) :
    ∃ parts, linearAccess c ⟨op, la, o⟩ (Ctx.start s) = .ok (parts, s.flatBytes c la n) (Ctx.start s) := by
  obtain ⟨h1, h2⟩ := flatParts hr op.kind (decide (1 < (pageParts c s n (s.linWrap c la) n).length)) o
  refine ⟨(Access.parts c s ⟨op, la, o⟩).map fun p => plainPart p p.la none, ?_⟩
  have hsize : op.size = n := by rcases hop with rfl | rfl <;> rfl
  have hp : ((Access.parts c s ⟨op, la, o⟩).map fun p => plainPart p p.la none) =
      (pageParts c s n (s.linWrap c la) n).map fun q =>
        plainPart ⟨op.kind, q.1, q.2, decide (1 < (pageParts c s n (s.linWrap c la) n).length), o⟩ q.1 none := by
    simp [Access.parts, hsize]
  have hread := readParts_eq (c := c) (x := Ctx.start s) h.2.2 _ h1
  rw [show (Ctx.start s).st = s from rfl, h2] at hread
  unfold linearAccess
  rw [accessParts_flat (c := c) (x := Ctx.start s) h rfl, Res.bind_ok, show (Ctx.start s).st = s from rfl, hp]
  rcases hop with rfl | rfl <;> (dsimp only; rw [hread, Res.bind_ok])

/-- The bytes at an address whose successors are linear addresses too. -/
theorem State.flatBytes_eq {c : Cfg} {s : State} {la : Word} {n : Nat} (h : ∀ i, i < n → (s.byteAt c la i).toNat = la.toNat + i) :
    s.flatBytes c la n = s.mem.readBytes la.toNat n := by
  rw [Memory.readBytes_eq_map]
  exact List.map_congr_left fun i hi => by rw [h i (List.mem_range.1 hi)]

end Sys2Proof.Machine
end

