-- ==== Sys2Proof/Laws/Decode.lean ====
section
/-! SUPPORT. The decoder looks at no byte after the instruction it reads. -/

namespace Sys2Proof

/-- More bytes after what a reader has read do not change what it reads. -/
def Stable {α : Type} (p : List Byte → Parse α) : Prop :=
  ∀ bs t, match p bs with
    | .ok a r => p (bs ++ t) = .ok a (r ++ t)
    | .more => True
    | .undefined => p (bs ++ t) = .undefined
    | .unknown => p (bs ++ t) = .unknown

theorem Stable.ok {α : Type} (a : α) : Stable (fun bs => Parse.ok a bs) := fun _ _ => rfl
theorem Stable.unknown {α : Type} : Stable (fun _ => (Parse.unknown : Parse α)) := fun _ _ => rfl
theorem Stable.undefined {α : Type} : Stable (fun _ => (Parse.undefined : Parse α)) := fun _ _ => rfl

theorem Stable.bind {α β : Type} {p : List Byte → Parse α} {f : α → List Byte → Parse β} (hp : Stable p)
    (hf : ∀ a, Stable (f a)) : Stable (fun bs => (p bs).bind f) := by
  intro bs t
  have h := hp bs t
  dsimp only
  generalize p bs = q at h
  generalize p (bs ++ t) = q' at h
  cases q with
  | ok a r =>
    dsimp only at h
    subst h
    exact hf a r t
  | more => exact trivial
  | undefined =>
    dsimp only at h
    subst h
    rfl
  | unknown =>
    dsimp only at h
    subst h
    rfl

theorem Stable.ite {α : Type} {P : Prop} [Decidable P] {p q : List Byte → Parse α} (hp : Stable p) (hq : Stable q) :
    Stable (fun bs => if P then p bs else q bs) := by
  by_cases h : P
  · simpa [h] using hp
  · simpa [h] using hq

theorem stable_parseByte : Stable parseByte := by
  intro bs t
  cases bs <;> simp [parseByte]

theorem stable_parseDisp8 : Stable parseDisp8 := stable_parseByte.bind fun _ => Stable.ok _

theorem stable_parseDisp16 : Stable parseDisp16 := stable_parseByte.bind fun _ => stable_parseByte.bind fun _ => Stable.ok _

theorem stable_parseDisp32 : Stable parseDisp32 :=
  stable_parseByte.bind fun _ => stable_parseByte.bind fun _ => stable_parseByte.bind fun _ =>
    stable_parseByte.bind fun _ => Stable.ok _

theorem stable_parseDispMod (m : BitVec 2) : Stable (parseDispMod m) :=
  (Stable.ok _).ite (stable_parseDisp8.ite stable_parseDisp32)

theorem stable_parseMem16 (seg : Option Seg) (modrm : Byte) : Stable (parseMem16 seg modrm) := by
  refine Stable.ite (Stable.ite ?_ ?_) (Stable.ite ?_ ?_)
  · exact stable_parseDisp16.bind fun _ => Stable.ok _
  · exact Stable.ok _
  · exact stable_parseDisp8.bind fun _ => Stable.ok _
  · exact stable_parseDisp16.bind fun _ => Stable.ok _

theorem stable_parseSib (seg : Option Seg) (a : AddrSize) (rex : Rex) (m : BitVec 2) : Stable (parseSib seg a rex m) := by
  refine stable_parseByte.bind fun sib => Stable.ite ?_ ?_
  · exact stable_parseDisp32.bind fun _ => Stable.ok _
  · exact (stable_parseDispMod m).bind fun _ => Stable.ok _

theorem stable_parseMem32 (cs : CodeSize) (seg : Option Seg) (a : AddrSize) (rex : Rex) (modrm : Byte) :
    Stable (parseMem32 cs seg a rex modrm) := by
  refine Stable.ite (stable_parseSib seg a rex _) (Stable.ite ?_ ?_)
  · exact stable_parseDisp32.bind fun _ => Stable.ok _
  · exact (stable_parseDispMod _).bind fun _ => Stable.ok _

theorem stable_parseMem (cs : CodeSize) (p : Prefixes) (rex : Rex) (modrm : Byte) : Stable (parseMem cs p rex modrm) := by
  unfold parseMem
  cases addrSizeOf cs p.addrSize
  · exact stable_parseMem16 _ _
  · exact stable_parseMem32 _ _ _ _ _
  · exact stable_parseMem32 _ _ _ _ _

theorem stable_parse0F38 (cs : CodeSize) (p : Prefixes) (rex : Rex) : Stable (parse0F38 cs p rex) := by
  refine stable_parseByte.bind fun op => Stable.ite Stable.unknown (Stable.ite ?_ (Stable.ite ?_ Stable.unknown))
  · exact stable_parseByte.bind fun m => Stable.ite Stable.undefined ((stable_parseMem cs p rex m).bind fun _ => Stable.ok _)
  · exact stable_parseByte.bind fun m => Stable.ite Stable.undefined ((stable_parseMem cs p rex m).bind fun _ => Stable.ok _)

theorem stable_parse0F22 (rex : Rex) : Stable (parse0F22 rex) :=
  stable_parseByte.bind fun _ => (Stable.ok _).ite ((Stable.ok _).ite Stable.unknown)

theorem stable_parse0F01 (cs : CodeSize) (p : Prefixes) (rex : Rex) : Stable (parse0F01 cs p rex) :=
  stable_parseByte.bind fun m =>
    (Stable.ok _).ite (Stable.ite ((stable_parseMem cs p rex m).bind fun _ => Stable.ok _) Stable.unknown)

theorem stable_parse0FC7 (cs : CodeSize) (p : Prefixes) (rex : Rex) : Stable (parse0FC7 cs p rex) :=
  stable_parseByte.bind fun m => Stable.ite ((stable_parseMem cs p rex m).bind fun _ => Stable.ok _) Stable.unknown

theorem stable_parseOpcode (cs : CodeSize) (p : Prefixes) (rex : Rex) : Stable (parseOpcode cs p rex) := by
  refine stable_parseByte.bind fun b0 => Stable.ite (stable_parseByte.bind fun b1 => ?_) Stable.unknown
  exact Stable.ite (stable_parse0F38 cs p rex)
    (Stable.ite (stable_parse0F22 rex)
      (Stable.ite (stable_parse0F01 cs p rex) (Stable.ite (stable_parse0FC7 cs p rex) (Stable.ite (Stable.ok _) Stable.unknown))))

theorem stable_parseInstr (cs : CodeSize) (p : Prefixes) : Stable (parseInstr cs p) := by
  intro bs
  induction bs generalizing p with
  | nil =>
    intro t
    simp [parseInstr]
  | cons b bs ih =>
    intro t
    simp only [List.cons_append, parseInstr]
    cases p.add b with
    | some p' => exact ih p' t
    | none =>
      by_cases hc : cs = CodeSize.b64 ∧ b.extractLsb' 4 4 = 4#4
      · simp only [if_pos hc]
        exact stable_parseOpcode cs p _ bs t
      · simp only [if_neg hc]
        exact stable_parseOpcode cs p _ (b :: bs) t

/-- The decoder reads an instruction whatever bytes stand after it. -/
theorem decode_append {cs : CodeSize} {bs r : List Byte} {i : Instr} (h : decode cs bs = .ok i r) (t : List Byte) :
    decode cs (bs ++ t) = .ok i (r ++ t) := by
  have := stable_parseInstr cs Prefixes.empty bs t
  unfold decode at h ⊢
  rw [h] at this
  exact this

/-- The decoder asks for more bytes as long as it has a proper part of an instruction. -/
theorem decode_part {cs : CodeSize} {bs t : List Byte} {i : Instr} (h : decode cs (bs ++ t) = .ok i []) (ht : t ≠ []) :
    decode cs bs = .more := by
  have := stable_parseInstr cs Prefixes.empty bs t
  unfold decode at h ⊢
  cases hb : parseInstr cs Prefixes.empty bs with
  | more => rfl
  | ok a r =>
    rw [hb] at this
    simp only [h, Parse.ok.injEq] at this
    exact absurd (List.append_eq_nil_iff.1 this.2.symm).2 ht
  | undefined => rw [hb] at this; simp [h] at this
  | unknown => rw [hb] at this; simp [h] at this

end Sys2Proof
end

