-- ==== Sys2Proof/Laws/PerInstr.lean ====
section
/-! SUPPORT. One lemma for each instruction: its encoding is no longer than an instruction can be, and is not empty. -/

namespace Sys2Proof

theorem length_memPrefixes (cs : CodeSize) (m : MemOp) : (memPrefixes cs m).length ≤ 2 := by
  unfold memPrefixes
  cases m.seg <;> (dsimp only; split <;> simp)

theorem length_rexBytes (cs : CodeSize) (r x b : Bool) : (rexBytes cs r x b).length ≤ 1 := by
  cases cs <;> simp [rexBytes]

theorem length_memBytes (reg : BitVec 3) (m : MemOp) : (memBytes reg m).length ≤ 6 := by
  have h16 : (bytes16 m.disp).length = 2 := rfl
  have h32 : (bytes32 m.disp).length = 4 := rfl
  unfold memBytes
  cases m.size <;> cases m.base <;> dsimp only <;> split <;> simp only [List.length_cons, h16, h32] <;> omega

/-- The family: a well-formed instruction has an encoding of at least two bytes and at most fifteen (30_encoding.md R61). -/
def Laws.EncodedLength.Statement (i : Instr) : Prop :=
  ∀ cs, i.wellFormed cs = true → 2 ≤ (encode cs i).length ∧ (encode cs i).length ≤ maxLength

theorem Laws.EncodedLength.invept (r : Reg) (m : MemOp) : Laws.EncodedLength.Statement (.invept r m) := by
  intro cs _
  have h1 := length_memPrefixes cs m
  have h2 := length_rexBytes cs r.high m.indexHigh m.baseHigh
  have h3 := length_memBytes r.low m
  simp only [encode, maxLength, List.length_append, List.length_cons, List.length_nil]
  omega

theorem Laws.EncodedLength.invvpid (r : Reg) (m : MemOp) : Laws.EncodedLength.Statement (.invvpid r m) := by
  intro cs _
  have h1 := length_memPrefixes cs m
  have h2 := length_rexBytes cs r.high m.indexHigh m.baseHigh
  have h3 := length_memBytes r.low m
  simp only [encode, maxLength, List.length_append, List.length_cons, List.length_nil]
  omega

theorem Laws.EncodedLength.movCr3 (r : Reg) : Laws.EncodedLength.Statement (.movCr3 r) := by
  intro cs _
  have h2 := length_rexBytes cs false false r.high
  simp only [encode, maxLength, List.length_append, List.length_cons, List.length_nil]
  omega

theorem Laws.EncodedLength.movCr4 (r : Reg) : Laws.EncodedLength.Statement (.movCr4 r) := by
  intro cs _
  have h2 := length_rexBytes cs false false r.high
  simp only [encode, maxLength, List.length_append, List.length_cons, List.length_nil]
  omega

theorem Laws.EncodedLength.invlpg (m : MemOp) : Laws.EncodedLength.Statement (.invlpg m) := by
  intro cs _
  have h1 := length_memPrefixes cs m
  have h2 := length_rexBytes cs false m.indexHigh m.baseHigh
  have h3 := length_memBytes 7#3 m
  simp only [encode, maxLength, List.length_append, List.length_cons, List.length_nil]
  omega

theorem Laws.EncodedLength.vmxon (m : MemOp) : Laws.EncodedLength.Statement (.vmxon m) := by
  intro cs _
  have h1 := length_memPrefixes cs m
  have h2 := length_rexBytes cs false m.indexHigh m.baseHigh
  have h3 := length_memBytes 6#3 m
  simp only [encode, maxLength, List.length_append, List.length_cons, List.length_nil]
  omega

theorem Laws.EncodedLength.vmxoff : Laws.EncodedLength.Statement .vmxoff := by
  intro cs _
  simp [encode, maxLength]

theorem Laws.EncodedLength.cpuid : Laws.EncodedLength.Statement .cpuid := by
  intro cs _
  simp [encode, maxLength]

end Sys2Proof
end

