-- ==== Sys2Proof/Tests/Slice0.lean ====
section
/-! SUPPORT. Tests: ill-formed terms refused, words decoded, the spec's vectors, and for every statement with hypotheses a witness that
meets them. Expected results are those of the spec (95_test_vectors.md and the rules named), or of its encodings. -/

namespace Sys2Proof.Tests

open Sys2Proof Sys2Proof.Machine

/- Each kernel evaluation below would otherwise wait in a thread of its own. -/
set_option Elab.async false

/-! Well-formedness: one ill-formed term for each check (30_encoding.md R61, R62). -/

/-- A memory operand of a 32- or 64-bit base register alone. -/
def mem (size : AddrSize) (base : Reg) : MemOp := ⟨none, size, some base, none, 0#2, false, 0#32⟩

theorem test_refuses_high_register : (Instr.movCr3 8).wellFormed .b32 = false := by decide
theorem test_refuses_high_type_register : (Instr.invept 8 (mem .a32 1)).wellFormed .b16 = false := by decide
theorem test_refuses_address_size_16_in_64 : (Instr.invlpg (mem .a16 3)).wellFormed .b64 = false := by decide
theorem test_refuses_address_size_64_in_32 : (Instr.invlpg (mem .a64 3)).wellFormed .b32 = false := by decide
theorem test_refuses_pair_16 : (Instr.invlpg (mem .a16 1)).wellFormed .b16 = false := by decide
theorem test_refuses_scale_16 : (Instr.invlpg ⟨none, .a16, some 3, some 6, 1#2, false, 0#32⟩).wellFormed .b16 = false := by decide
theorem test_refuses_rip_relative_16 : (Instr.invlpg ⟨none, .a16, none, none, 0#2, true, 0#32⟩).wellFormed .b16 = false := by decide
theorem test_refuses_disp_16 : (Instr.invlpg ⟨none, .a16, some 3, none, 0#2, false, 0x8000#32⟩).wellFormed .b16 = false := by decide
theorem test_refuses_rip_relative_32 : (Instr.vmxon ⟨none, .a32, none, none, 0#2, true, 0#32⟩).wellFormed .b32 = false := by decide
theorem test_refuses_rip_relative_base : (Instr.vmxon ⟨none, .a64, some 0, none, 0#2, true, 0#32⟩).wellFormed .b64 = false := by decide
theorem test_refuses_rip_relative_index : (Instr.vmxon ⟨none, .a64, none, some 1, 0#2, true, 0#32⟩).wellFormed .b64 = false := by decide
theorem test_refuses_rip_relative_scale : (Instr.vmxon ⟨none, .a64, none, none, 2#2, true, 0#32⟩).wellFormed .b64 = false := by decide
theorem test_refuses_high_base : (Instr.invvpid 0 (mem .a32 9)).wellFormed .b32 = false := by decide
theorem test_refuses_high_index : (Instr.invlpg ⟨none, .a32, some 1, some 8, 0#2, false, 0#32⟩).wellFormed .b32 = false := by decide
theorem test_refuses_index_sp : (Instr.invlpg ⟨none, .a64, some 1, some 4, 0#2, false, 0#32⟩).wellFormed .b64 = false := by decide
theorem test_refuses_scale_without_index : (Instr.invlpg ⟨none, .a64, some 1, none, 3#2, false, 0#32⟩).wellFormed .b64 = false := by
  decide

/-! Decoding: words written out from 30_encoding.md R62, R63, R65. -/

/-- 66 0F 38 80, ModRM mod 00 reg 000 rm 001: `invept rax, [rcx]` (95_test_vectors.md P1). -/
theorem test_decode_invept : decode .b64 [0x66#8, 0x0F#8, 0x38#8, 0x80#8, 0x01#8] = .ok (.invept 0 (mem .a64 1)) [] := by decide +kernel
/-- 67 66 0F 38 80, ModRM mod 01 reg 010 rm 100, SIB 10 110 111, disp8 F0: 16-bit code with 32-bit addresses. -/
theorem test_decode_invept_sib : decode .b16 [0x67#8, 0x66#8, 0x0F#8, 0x38#8, 0x80#8, 0x54#8, 0xB7#8, 0xF0#8] =
    .ok (.invept 2 ⟨none, .a32, some 7, some 6, 2#2, false, 0xFFFFFFF0#32⟩) [] := by decide +kernel
/-- 64 66 REX 0100 1 1 1 0 0F 38 81, ModRM mod 00 reg 011 rm 100, SIB 01 010 101, disp32: `invvpid r11, fs:[r10 * 2 + 78563412H]`. -/
theorem test_decode_invvpid : decode .b64
    [0x64#8, 0x66#8, 0x4E#8, 0x0F#8, 0x38#8, 0x81#8, 0x1C#8, 0x55#8, 0x12#8, 0x34#8, 0x56#8, 0x78#8] =
    .ok (.invvpid 11 ⟨some .fs, .a64, none, some 10, 1#2, false, 0x78563412#32⟩) [] := by decide +kernel
/-- Without 66 the bytes are no row of the table. -/
theorem test_decode_needs_66 : decode .b64 [0x0F#8, 0x38#8, 0x81#8, 0x01#8] = .unknown := by decide +kernel
/-- REX.B, 0F 22, ModRM mod 11 reg 011 rm 001: `mov cr3, r9`; with reg 100 and mod 00, whose bits are ignored, `mov cr4, r9`. -/
theorem test_decode_mov_cr : decode .b64 [0x41#8, 0x0F#8, 0x22#8, 0xD9#8] = .ok (.movCr3 9) [] ∧
    decode .b64 [0x41#8, 0x0F#8, 0x22#8, 0x21#8] = .ok (.movCr4 9) [] := by decide +kernel
/-- 0F 01, ModRM mod 00 reg 111 rm 000: `invlpg [rax]` (95_test_vectors.md P2); rm 101 with mod 00 is relative to RIP. -/
theorem test_decode_invlpg : decode .b64 [0x0F#8, 0x01#8, 0x38#8] = .ok (.invlpg (mem .a64 0)) [] ∧
    decode .b64 [0x0F#8, 0x01#8, 0x3D#8, 1#8, 0#8, 0#8, 0#8] = .ok (.invlpg ⟨none, .a64, none, none, 0#2, true, 1#32⟩) [] := by
  decide +kernel
/-- F3 0F C7, ModRM mod 10 reg 110 rm 010, disp16 FFFE: `vmxon [bp + si - 2]` of 16-bit code. -/
theorem test_decode_vmxon : decode .b16 [0xF3#8, 0x0F#8, 0xC7#8, 0xB2#8, 0xFE#8, 0xFF#8] =
    .ok (.vmxon ⟨none, .a16, some 5, some 6, 0#2, false, 0xFFFFFFFE#32⟩) [] := by decide +kernel
theorem test_decode_vmxoff : decode .b32 [0x0F#8, 0x01#8, 0xC4#8, 0x90#8] = .ok .vmxoff [0x90#8] := by decide +kernel
theorem test_decode_cpuid : decode .b16 [0x0F#8, 0xA2#8] = .ok .cpuid [] := by decide +kernel

/-! The configuration and states of the vectors. -/

/-- A guest paging of two levels with 8-byte entries: bit 0 present, 1 writable, 2 user, 7 page, 8 global, flags in bits 5 and 6. -/
def guest : GuestPaging where
  usesPae := fun r => r.cr4.getLsbD 5
  pdptBase := fun r => r.cr3 &&& 0xFFFFFFE0#64
  startTable := fun r _ => r.cr3 &&& ~~~0xFFF#64
  levels := fun _ => 2
  entry8 := fun _ => true
  entryOffset := fun _ l la => ((la >>> (3 + 9 * l)) &&& 0x1FF#64).setWidth 12 <<< 3
  notPresentOrReserved := fun _ _ e => !e.getLsbD 0
  referencesTable := fun _ l e => l != 1 && !e.getLsbD 7
  nextTable := fun _ _ e => tableBase e
  linear64 := fun r => r.cpuMode == .long64
  regionBits := fun _ l => 3 + 9 * l
  faultCode := fun _ es k => (if es.all (fun e => e.value.getLsbD 0) then 1#32 else 0#32) ||| (if k == .dataWrite then 2#32 else 0#32)
  allowed := fun _ es k => k != .dataWrite || es.all fun e => e.value.getLsbD 1
  flagged := fun _ es k => es.map fun e => e.value ||| 0x20#64 ||| (if k == .dataWrite then 0x40#64 else 0#64)
  finalGpa := fun _ l e la => tableBase e ||| lowBits la (3 + 9 * l)
  patType := fun _ _ => .wb
  currentPcid := fun r => r.cr3.setWidth 12
  isGlobal := fun _ es => es.any fun e => e.value.getLsbD 8
  isUser := fun _ es => es.all fun e => e.value.getLsbD 2
  selected := fun _ _ _ => false

/-- The configuration of 95_test_vectors.md: N = 46, every capability, the default reserved masks. -/
def cfg : Cfg where
  vmxSupported := true
  widthOver32 := 14
  execOnlySupported := true
  eptAdSupported := true
  ept2mSupported := true
  ept1gSupported := true
  eptReserved := eptReservedDefault 46
  eptpMemTypeOk := fun v => v == 0#3 || v == 6#3
  sppTableMemType := 6#4
  sppPolicy := .apply
  combineMemType := fun t _ => t
  guest := guest
  pmlLogsOnAccessedUpdate := false
  speculativeAccessedSet := false
  invvpidTypes := 0b1111#4
  inveptTypes := 0b110#3
  free := fun _ => 0#64

/-- The image T1 of 95_test_vectors.md section 2. -/
def t1 : List (Nat × Word) :=
  [(0x100008, 0x101007#64), (0x101008, 0x102007#64), (0x102008, 0x103007#64), (0x103008, 0xABCD037#64)]

/-- Memory holding some 64-bit entries. -/
def image (l : List (Nat × Word)) : Memory := l.foldl (fun m p => m.write64 p.1 p.2) []

/-- EPT in use with T1's EPTP. -/
def vmcs : Vmcs := { (default : Vmcs) with enableEpt := true, eptp := 0x10001E#64 }

/-- T1's EPTP with bit 6, and the page-modification log of V23 with an index. -/
def vmcsPml (index : BitVec 16) : Vmcs :=
  { vmcs with eptp := 0x10005E#64, enablePml := true, pmlAddress := 0x200000#64, pmlIndex := index }

/-- Sub-page write permissions as in V9. -/
def vmcsSpp : Vmcs := { vmcs with sppControl := true, spptp := 0x300000#64 }

/-- A state of 95_test_vectors.md: non-root operation, CR0 = 0, T1 with changes. -/
def st (changes : List (Nat × Word)) (v : Vmcs) : State :=
  { State.reset with mode := .nonRoot, vmcsCurrent := true, vmcs := v, mem := image (t1 ++ changes), cr0 := 0#64, cpuMode := .long64 }

/-- V9's tables with an SPP vector. -/
def spp (v : Word) : List (Nat × Word) :=
  [(0x103008, 0x200000000ABCD035#64), (0x300008, 0x301001#64), (0x301008, 0x302001#64), (0x302008, 0x303001#64), (0x303008, v)]

/-- A state in VMX root operation at privilege level 0 in 64-bit mode without paging, with RAX, RCX = 1000H and a descriptor there. -/
def root (rax : Word) (low high : Word) (cache : List Mapping) : State :=
  { State.reset with mode := .root, cr0 := 0#64, cpuMode := .long64, gpr := (State.reset.gpr.set 0 rax).set 1 0x1000#64,
                     mem := image [(0x1000, low), (0x1008, high)], cache := cache }

/-- An access to V1's guest-physical address. -/
def gacc (k : AccKind) (size : Nat) : GAccess := ⟨k, false, false, size, none, false, .plain⟩

/-- The guest-physical address of V1. -/
def gpa : Word := 0x8040201234#64

/-- The physical address an access is performed at. -/
def paOf : Res Granted → Option Word
  | .ok g _ => some g.pa
  | _ => none

/-- The event a computation ends in. -/
def eventOf {α : Type} : Res α → Option Event
  | .raised e _ => some e
  | _ => none

/-- The state a computation that comes to a value leaves. -/
def stateOf {α : Type} : Res α → Option State
  | .ok _ x => some x.st
  | _ => none

/-- What the next state reports. -/
def reportOf : Host.Outcome State Fault Refusal → Option Report
  | .next t => some t.report
  | _ => none

/-- A next state of which something holds. -/
def nextHas (p : State → Bool) : Host.Outcome State Fault Refusal → Bool
  | .next t => p t
  | _ => false

theorem nextHas_spec {p : State → Bool} {o : Host.Outcome State Fault Refusal} (h : nextHas p o = true) : ∃ t, o = .next t ∧ p t = true := by
  cases o with
  | next t => exact ⟨t, rfl, h⟩
  | fault _ => cases h
  | refused _ => cases h

/-- A value of which something holds, with its state. -/
def okHas {α : Type} (p : α → Ctx → Bool) : Res α → Bool
  | .ok a x => p a x
  | _ => false

theorem okHas_spec {α : Type} {p : α → Ctx → Bool} {r : Res α} (h : okHas p r = true) : ∃ a x, r = .ok a x ∧ p a x = true := by
  cases r with
  | ok a x => exact ⟨a, x, rfl, h⟩
  | raised _ _ => cases h
  | stopped _ => cases h

/-- An event of which something holds. -/
def raisedHas {α : Type} (p : Event → Bool) : Res α → Bool
  | .raised e _ => p e
  | _ => false

theorem raisedHas_spec {α : Type} {p : Event → Bool} {r : Res α} (h : raisedHas p r = true) : ∃ e x, r = .raised e x ∧ p e = true := by
  cases r with
  | ok _ _ => cases h
  | raised e x => exact ⟨e, x, rfl, h⟩
  | stopped _ => cases h

/-- The cached mappings of the next state. -/
def cacheOf : Host.Outcome State Fault Refusal → Option (List Mapping)
  | .next t => some t.cache
  | _ => none

/-- An EPT violation of V1's address by an access that is no part of a linear access. -/
def violationOf (k : AccKind) (r : Rights) (notPresent : Option Nat) : Event := .eptViolation ⟨k, gpa, none, r, false, notPresent, []⟩

/-! The spec's vectors (95_test_vectors.md). -/

theorem test_V1 : paOf (guestPhysAccess cfg (gacc .dataWrite 1) gpa (Ctx.start (st [] vmcs))) = some 0xABCD234#64 := by decide +kernel
theorem test_V5w : eventOf (guestPhysAccess cfg (gacc .dataWrite 1) gpa (Ctx.start (st [(0x103008, 0xABCD035#64)] vmcs))) =
    some (violationOf .dataWrite ⟨true, false, true, false⟩ none) := by decide +kernel
theorem test_V11 : eventOf (guestPhysAccess cfg (gacc .dataRead 1) gpa
    (Ctx.start (st [(0x101008, 0#64), (0x103008, 0xABCD032#64)] vmcs))) =
    some (violationOf .dataRead ⟨false, false, false, false⟩ (some 3)) := by decide +kernel
theorem test_V13 : paOf (guestPhysAccess cfg (gacc .dataRead 1) gpa (Ctx.start (st [(0x102008, 0x400000B7#64)] vmcs))) =
    some 0x40001234#64 := by decide +kernel
theorem test_V15 : paOf (guestPhysAccess cfg (gacc .dataRead 1) gpa (Ctx.start (st [(0x101008, 0x800000B7#64)] vmcs))) =
    some 0x80201234#64 := by decide +kernel
theorem test_V18 : eventOf (guestPhysAccess cfg (gacc .fetch 1) gpa (Ctx.start (st [(0x100008, 0x400000101007#64)] vmcs))) =
    some (.eptMisconfig gpa 4) := by decide +kernel
theorem test_V23 : (stateOf (guestPhysAccess cfg (gacc .dataWrite 1) gpa (Ctx.start (st [] (vmcsPml 0x1FF#16))))).map
      (fun t => ((t.mem.read64 0x100008, t.mem.read64 0x103008), t.mem.read64 0x200FF8, t.vmcs.pmlIndex)) =
    some ((0x101107#64, 0xABCD337#64), 0x8040201000#64, 0x1FE#16) := by decide +kernel
theorem test_V24 : (stateOf (guestPhysAccess cfg (gacc .dataWrite 1) gpa (Ctx.start (st [] (vmcsPml 0#16))))).map
      (fun t => (t.mem.read64 0x200000, t.vmcs.pmlIndex)) = some (0x8040201000#64, 0xFFFF#16) := by decide +kernel
theorem test_V26r : eventOf (guestPhysAccess cfg (gacc .dataRead 1) gpa (Ctx.start (st [] (vmcsPml 0x200#16)))) =
    some (.pmlFull gpa) := by decide +kernel
theorem test_V9a : paOf (guestPhysAccess cfg (gacc .dataWrite 4) gpa (Ctx.start (st (spp 0x100#64) vmcsSpp))) =
    some 0xABCD234#64 := by decide +kernel
theorem test_V9c : eventOf (guestPhysAccess cfg (gacc .dataWrite 4) gpa (Ctx.start (st (spp 0x300#64) vmcsSpp))) =
    some (.sppMisconfig gpa none) := by decide +kernel
theorem test_V9d : (eventOf (guestPhysAccess cfg (gacc .dataWrite 8) 0x804020127C#64 (Ctx.start (st (spp 0x100#64) vmcsSpp)))).isSome ∧
    paOf (guestPhysAccess cfg (gacc .dataWrite 8) 0x804020127C#64 (Ctx.start (st (spp 0x500#64) vmcsSpp))) = some 0xABCD27C#64 := by
  decide +kernel

/-- V40's cache. -/
def v40 : List Mapping :=
  [.linearTr { (default : LinearTr) with vpid := 5#16, pcid := 1#12, page := 0x1000#64, size := 12 },
    .linearTr { (default : LinearTr) with vpid := 5#16, pcid := 2#12, page := 0x2000#64, size := 12, isGlobal := true },
    .combTr { (default : CombTr) with vpid := 6#16, ep4ta := 0x100#40, page := 0x1000#64, size := 12 },
    .gphysTr { (default : GPhysTr) with ep4ta := 0x100#40, page := 0x8040201#64, size := 12 },
    .linearTr { (default : LinearTr) with page := 0x1000#64, size := 12 }]

/-- Where free values drop nothing, the mappings kept are those V40 says may stay. -/
theorem test_V40 : (invvpidOp cfg 0#64 (0x1000ABC#64 ++ 5#64) (root 0 0 0 v40)).cache = v40.drop 1 ∧
    (invvpidOp cfg 1#64 5#128 (root 0 0 0 v40)).cache = v40.drop 2 ∧ (invvpidOp cfg 2#64 0#128 (root 0 0 0 v40)).cache = v40.drop 3 ∧
    (invvpidOp cfg 3#64 5#128 (root 0 0 0 v40)).cache = v40.drop 1 := by decide +kernel
theorem test_V40_fails : (invvpidOp cfg 1#64 0#128 (root 0 0 0 v40)).report = .vmFail 28 ∧
    (invvpidOp cfg 4#64 5#128 (root 0 0 0 v40)).report = .vmFail 28 ∧ (invvpidOp cfg 1#64 0x10005#128 (root 0 0 0 v40)).report = .vmFail 28 ∧
    (invvpidOp cfg 0#64 (0x800000000000#64 ++ 5#64) (root 0 0 0 v40)).report = .vmFail 28 := by decide +kernel

/-- V41's cache. -/
def v41 : List Mapping :=
  [.gphysTr { (default : GPhysTr) with ep4ta := 0x100#40 },
    .combTr { (default : CombTr) with vpid := 5#16, ep4ta := 0x100#40 },
    .combTr { (default : CombTr) with vpid := 7#16, pcid := 3#12, ep4ta := 0x100#40 },
    .gphysPsc { (default : GPhysPsc) with ep4ta := 0x200#40 },
    .linearTr default]

theorem test_V41 : (inveptOp cfg 1#64 0x10005E#128 (root 0 0 0 v41)).cache = v41.drop 3 ∧
    (inveptOp cfg 1#64 0x20001E#128 (root 0 0 0 v41)).cache = v41.eraseIdx 3 ∧
    (inveptOp cfg 2#64 0#128 (root 0 0 0 v41)).cache = v41.drop 4 := by decide +kernel
theorem test_V41_fails : (inveptOp cfg 0#64 0x10001E#128 (root 0 0 0 v41)).report = .vmFail 28 ∧
    (inveptOp cfg 1#64 0x100019#128 (root 0 0 0 v41)).report = .vmFail 28 ∧ (inveptOp cfg 1#64 0x100016#128 (root 0 0 0 v41)).report = .vmFail 28 ∧
    (inveptOp cfg 2#64 (1#64 ++ 0#64) (root 0 0 0 v41)).report = .vmFail 28 := by decide +kernel

/-- A cached translation of V42's page, with W. -/
def stale : GPhysTr :=
  { (default : GPhysTr) with ep4ta := 0x100#40, page := 0x8040201#64, frame := 0xABCD000#64, size := 12, rights := ⟨true, true, true, false⟩,
                             leafAddr := 0x103008#64 }

/-- V42's state: the page write-protected in memory, the stale translation cached. -/
def v42 : State := { st [(0x103008, 0xABCD035#64)] vmcs with cache := [.gphysTr stale] }

/-- V42: with the stale mapping used the write is performed, with the tables walked it is an EPT violation, after which the mapping is gone. -/
theorem test_V42 : paOf (guestPhysAccess { cfg with free := fun _ => 1#64 } (gacc .dataWrite 8) gpa (Ctx.start v42)) = some 0xABCD234#64 ∧
    eventOf (guestPhysAccess cfg (gacc .dataWrite 8) gpa (Ctx.start v42)) =
      some (violationOf .dataWrite ⟨true, false, true, false⟩ none) ∧
    (deliver cfg (violationOf .dataWrite ⟨true, false, true, false⟩ none) v42).cache = [] := by decide +kernel

/-- D12: another agent writes before the third access of the walk; its writes fall between two reads, and the walk mixes the old entry of level
4 with the new one of level 1. -/
theorem test_mixed_walk : paOf (guestPhysAccess cfg (gacc .dataRead 1) gpa (Ctx.start
    { st [] vmcs with agents := [[], [], [⟨0x100008#64, bytesOfWord 0 8⟩, ⟨0x103008#64, bytesOfWord 0xBBBB037#64 8⟩]] })) =
      some 0xBBBB234#64 := by decide +kernel
/-- D12, R322: an access that ends in an event leaves the other agents' writes that came before it. -/
theorem test_event_keeps_writes : (match runInput cfg (.access ⟨.read 1, gpa, .plain⟩)
      { st [] vmcs with agents := [[], [⟨0x101008#64, [0#8]⟩], [⟨0x6000#64, [7#8]⟩]] } with
    | .next t => some (t.mem.read64 0x101008, t.agents.length)
    | _ => none) = some (0x102000#64, 1) := by decide +kernel
/-- R309: a global combined translation of another PCID that a violating write used is gone with the violation. -/
theorem test_violation_drops_used : cacheOf (runInput { cfg with free := fun n => if n = 0 then 1#64 else 0#64 }
      (.access ⟨.write [1#8], gpa, .plain⟩) { st [] vmcs with cache := [.combTr { (default : CombTr) with
        pcid := 7#12, isGlobal := true, ep4ta := 0x100#40, page := 0x8040201#64, size := 12, rights := ⟨true, false, true, false⟩ }] }) =
    some [] := by decide +kernel
/-- R181: another agent clears the accessed flag of the PML4E after the walk has read it as set and before the flags are set: the flag is set
again. -/
theorem test_flags_read_at_update : (stateOf (guestPhysAccess cfg (gacc .dataRead 1) gpa (Ctx.start
    { st [(0x100008, 0x101107#64), (0x101008, 0x102107#64), (0x102008, 0x103107#64), (0x103008, 0xABCD137#64)] (vmcsPml 0x1FF#16) with
      agents := [[], [], [], [], [⟨0x100009#64, [0x10#8]⟩]] }))).map (fun t => t.mem.read64 0x100008) = some 0x101107#64 := by decide +kernel
/-- 95_test_vectors.md section 2, end: without EPT and paging linear address 8040201234H is physical address 8040201234H, where the guest's paging
has linear addresses of 64 bits, in whatever mode. -/
theorem test_linear_64 : reportOf (runInput { cfg with guest := { guest with linear64 := fun _ => true } }
    (.access ⟨.read 1, gpa, .plain⟩) { root 0 0 0 [] with cpuMode := .compatibility }) =
    some (.access [⟨gpa, none, gpa, 1, none, none, none, []⟩] [0#8]) := by decide +kernel
/-- R27, R44: where linear addresses have 32 bits the first comes after the last. -/
theorem test_linear_32 : pageParts cfg { root 0 0 0 [] with cpuMode := .protectedMode } 4 0xFFFFFFFE#64 4 =
    [(0xFFFFFFFE#64, 2), (0#64, 2)] := by decide +kernel
/-- R276: a descriptor beyond its segment's limit is a general-protection fault, for SS a stack fault. -/
theorem test_descriptor_segment :
    reportOf (exec (.invept 0 (mem .a32 1)) { root 1#64 0x10001E#64 0 [] with
      cpuMode := .protectedMode, segs := State.reset.segs.set 3 ⟨0#64, 0, 0x100E#32, true⟩ }) = some (.exception .gp0) ∧
    reportOf (exec (.invvpid 0 { mem .a32 1 with seg := some .ss }) { root 1#64 5#64 0 [] with
      cpuMode := .protectedMode, segs := State.reset.segs.set 2 ⟨0#64, 0, 0x100E#32, true⟩ }) = some (.exception .ss0) := by decide +kernel
/-- R228, R203: a combined translation filled with CR0.CD = 1 records the type that the paging structures give. -/
theorem test_combined_type : (match fillMapping cfg { st [] vmcs with cr0 := 0x40000000#64 } (.combTr gpa .nothing) with
    | some (.combTr m, _) => m.memType
    | _ => none) = some .wb := by decide +kernel

/-- 47_invalidation.md R306: through the stale mapping an access to the APIC-access page may miss the event; a walk does not. -/
theorem test_apic_stale : paOf (guestPhysAccess { cfg with free := fun _ => 1#64 } (gacc .dataRead 1) gpa
      (Ctx.start { v42 with vmcs := { vmcs with virtualizeApic := true, apicAccess := 0xABCD000#64 } })) = some 0xABCD234#64 ∧
    eventOf (guestPhysAccess cfg (gacc .dataRead 1) gpa
      (Ctx.start { v42 with vmcs := { vmcs with virtualizeApic := true, apicAccess := 0xABCD000#64 } })) =
      some (.apicAccess 0xABCD234#64) := by decide +kernel
/-- R306, R360 H6 (log 15): a combined paging-structure-cache entry from before the control was set is stale, one from after is not. -/
theorem test_apic_stale_table : ∀ t : State, t = { v42 with vmcs := { vmcs with virtualizeApic := true, apicAccess := 0xABCD000#64 } } →
    apicStale t (walkOfCombPsc default 0#64).sources = true ∧
      apicStale t (walkOfCombPsc { (default : CombPsc) with apicPage := some 0xABCD#64 } 0#64).sources = false := by
  rintro _ rfl; decide +kernel

/-- A memory type combined with WB is that type (45_ept_memtype.md R207): without paging the leaf 0ABCD037H gives WB, 0ABCD02FH WP. -/
theorem test_combine_wb : effectiveMemType Config.cfg (st [] vmcs) (leafBitsOf 0xABCD037#64) [] = some .wb ∧
    effectiveMemType Config.cfg (st [] vmcs) (leafBitsOf 0xABCD02F#64) [] = some .wp := by decide +kernel

/-! Instructions, one step each. -/

/-- P1 step 4: `invept rax, [rcx]` with type 1 and E = 10001EH. -/
theorem test_invept : cacheOf (exec (.invept 0 (mem .a64 1)) (root 1#64 0x10001E#64 0#64 [.gphysTr stale])) = some [] := by
  decide +kernel
/-- P2 step 2: `invvpid rax, [rcx]` with type 0, V = 5, A = 401000H; a bad descriptor fails. -/
theorem test_invvpid : reportOf (exec (.invvpid 0 (mem .a64 1)) (root 0#64 5#64 0x401000#64 [])) = some .ok ∧
    reportOf (exec (.invvpid 0 (mem .a64 1)) (root 0#64 0x10005#64 0x401000#64 [])) = some (.vmFail 28) := by decide +kernel
/-- V44: INVLPG of 1000000H under VPID 5 drops the mappings of VPID 5 of both EP4TAs, and need not drop VPID 6's. -/
theorem test_V44 : cacheOf (invlpgWith cfg (mem .a64 1)
      { st [] { vmcs with enableVpid := true, vpid := 5#16 } with
        gpr := State.reset.gpr.set 1 0x1000000#64,
        cache := [.combTr { (default : CombTr) with vpid := 5#16, ep4ta := 0x100#40, page := 0x1000#64, size := 12 },
          .combTr { (default : CombTr) with vpid := 5#16, ep4ta := 0x200#40, page := 0x1000#64, size := 12 },
          .combTr { (default : CombTr) with vpid := 6#16, ep4ta := 0x100#40, page := 0x1000#64, size := 12 }] }) =
    some [.combTr { (default : CombTr) with vpid := 6#16, ep4ta := 0x100#40, page := 0x1000#64, size := 12 }] := by decide +kernel
/-- P2 step 1: INVLPG configured to cause a VM exit does not execute. -/
theorem test_invlpg_exit : reportOf (exec (.invlpg (mem .a64 0)) (st [] { vmcs with exitOnInvlpg := true })) =
    some (.exit (.instr .invlpg)) := by decide +kernel
/-- R89: with PAE paging and EPT in use MOV to CR3 loads the PDPTE registers through EPT: CR3 = 40201220H, whose page T1 maps to
0ABCD000H once its first entry stands in slot 0. -/
theorem test_mov_cr3_pae : (match movCr3With cfg 0
      { st [(0x100000, 0x101007#64), (0xABCD220, 0x11#64), (0xABCD238, 0x44#64)] vmcs with
        gpr := State.reset.gpr.set 0 0x40201220#64, cr4 := 0x20#64 } with
      | .next t => some (t.cr3, t.pdpte.get 0, t.pdpte.get 3)
      | _ => none) = some (0x40201220#64, 0x11#64, 0x44#64) := by decide +kernel
/-- MOV to CR4 invalidates global translations too (R263), MOV to CR3 need not. -/
theorem test_mov_cr : cacheOf (movCr4With cfg 0 (root 0 0 0 [.linearTr { (default : LinearTr) with isGlobal := true }])) = some [] ∧
    cacheOf (movCr3With cfg 0 (root 0 0 0 [.linearTr { (default : LinearTr) with isGlobal := true }, .linearTr default])) =
      some [.linearTr { (default : LinearTr) with isGlobal := true }] := by decide +kernel
theorem test_vmxon_vmxoff : (match exec (.vmxon (mem .a64 0)) State.reset with
      | .next t => some t.mode
      | _ => none) = some .root ∧
    (match exec .vmxoff (root 0 0 0 []) with
      | .next t => some t.mode
      | _ => none) = some .outsideVmx := by decide +kernel
/-- Leaf 1 reports VMX in ECX bit 5 (00_scope.md R3). -/
theorem test_cpuid : ((cpuidState cfg { State.reset with gpr := State.reset.gpr.set 0 1#64 }).gpr.get 1) = 0x20#64 := by decide +kernel

/-- The placed word is the first instruction that runs (log 34). -/
theorem test_with_fetch_word : reportOf (step (State.reset.withFetchWord 24 0xC4010F)) = some .ok := by decide +kernel

/-! Witnesses: for each statement with hypotheses, a state and operands that meet them, for each clause. -/

/-- Instruction bytes, low byte first, where the next step of 64-bit code without paging fetches. -/
def atRip (w : Word) : State := { root 0 0 0 [] with rip := 0x2000#64, mem := image [(0x2000, w)] }

theorem flat_atRip (w : Word) : (atRip w).Flat := ⟨show (0#64 : Word).getLsbD 31 = false by decide, nofun, rfl⟩

/-- A byte there is fetched. -/
theorem fetch_atRip (w : Word) (k : Nat) (b : Byte) (h : inRange Config.cfg ((atRip w).byteAt Config.cfg ((atRip w).fetchAddr k) 0).toNat 1 = true)
    (hb : (atRip w).mem.read ((atRip w).byteAt Config.cfg ((atRip w).fetchAddr k) 0).toNat = b) :
    ∃ p, linearAccess Config.cfg (fetchAccess ((atRip w).fetchAddr k)) (Ctx.start (atRip w)) = .ok (p, [b]) (Ctx.start (atRip w)) := by
  obtain ⟨p, hp⟩ := linearAccess_flat (c := Config.cfg) (flat_atRip w) (la := (atRip w).fetchAddr k) (n := 1)
    (fun i hi => by obtain rfl : i = 0 := by omega
                    exact h) .plain (op := .fetch 1) (.inr rfl)
  rw [show (atRip w).flatBytes Config.cfg ((atRip w).fetchAddr k) 1 = [b] by rw [← hb]; rfl] at hp
  exact ⟨p, hp⟩

theorem witness_EncodeDecodeAgree : (Instr.invept 9 ⟨some .gs, .a32, some 12, some 13, 3#2, false, 0x80#32⟩).wellFormed .b64 = true ∧
    (Instr.invlpg ⟨none, .a16, some 5, some 6, 0#2, false, 0xFFFF8000#32⟩).wellFormed .b16 = true ∧
    (Instr.vmxon ⟨none, .a64, none, none, 0#2, true, 0xFFFFFFFF#32⟩).wellFormed .b64 = true := by decide
theorem witness_ModrmModForms : modOf 0xC0#8 = 3#2 ∧ modOf 0xFF#8 = 3#2 ∧ (0x40#8).extractLsb' 4 4 = 4#4 ∧ (0x4F#8).extractLsb' 4 4 = 4#4 ∧
    regOf 0x18#8 = 3#3 ∧ regOf 0xE7#8 = 4#3 := by decide
theorem witness_StepRunsDecoded_label :
    ({ State.reset with inputs := [.input .vmExit, .input .powerReset] } : State).inputs = [.input .vmExit, .input .powerReset] ∧
    ({ State.reset with inputs := [.instr .cpuid, .fetch] } : State).inputs = [.instr .cpuid, .fetch] := ⟨rfl, rfl⟩
theorem witness_StepRunsDecoded : (atRip 0xA20F#64).fetching (atRip 0xA20F#64) ∧
    { atRip 0xA20F#64 with inputs := [.fetch] }.fetching (atRip 0xA20F#64) ∧ [0x0F#8, 0xA2#8].length ≤ maxLength ∧
    fetchesTo Config.cfg (atRip 0xA20F#64) 0 [0x0F#8, 0xA2#8] (atRip 0xA20F#64) (atRip 0xA20F#64) ∧
    (∀ k, k < [0x0F#8, 0xA2#8].length → decode (atRip 0xA20F#64).codeSize ([0x0F#8, 0xA2#8].take k) = .more) ∧
    decode (atRip 0xA20F#64).codeSize [0x0F#8, 0xA2#8] = .ok .cpuid [] := by
  obtain ⟨p, hp⟩ := fetch_atRip 0xA20F#64 0 0x0F#8 (by decide +kernel) (by decide +kernel)
  obtain ⟨q, hq⟩ := fetch_atRip 0xA20F#64 1 0xA2#8 (by decide +kernel) (by decide +kernel)
  exact ⟨.inl ⟨rfl, rfl⟩, .inr ⟨[], rfl, rfl⟩, by decide, ⟨p, _, hp, q, _, hq, rfl⟩, by decide +kernel, by decide +kernel⟩
/-- The `#UD` clause: a fetch of the register form of INVEPT. -/
theorem witness_StepRunsDecoded_undefined :
    fetchesTo Config.cfg (atRip 0xC180380F66#64) 0 [0x66#8, 0x0F#8, 0x38#8, 0x80#8, 0xC1#8] (atRip 0xC180380F66#64) (atRip 0xC180380F66#64) ∧
    (∀ k, k < 5 → decode (atRip 0xC180380F66#64).codeSize ([0x66#8, 0x0F#8, 0x38#8, 0x80#8, 0xC1#8].take k) = .more) ∧
    decode (atRip 0xC180380F66#64).codeSize [0x66#8, 0x0F#8, 0x38#8, 0x80#8, 0xC1#8] = .undefined := by
  refine ⟨?_, by decide +kernel, by decide +kernel⟩
  obtain ⟨p0, h0⟩ := fetch_atRip 0xC180380F66#64 0 0x66#8 (by decide +kernel) (by decide +kernel)
  obtain ⟨p1, h1⟩ := fetch_atRip 0xC180380F66#64 1 0x0F#8 (by decide +kernel) (by decide +kernel)
  obtain ⟨p2, h2⟩ := fetch_atRip 0xC180380F66#64 2 0x38#8 (by decide +kernel) (by decide +kernel)
  obtain ⟨p3, h3⟩ := fetch_atRip 0xC180380F66#64 3 0x80#8 (by decide +kernel) (by decide +kernel)
  obtain ⟨p4, h4⟩ := fetch_atRip 0xC180380F66#64 4 0xC1#8 (by decide +kernel) (by decide +kernel)
  exact ⟨p0, _, h0, p1, _, h1, p2, _, h2, p3, _, h3, p4, _, h4, rfl⟩
theorem witness_StepRunsBytesAtRip : (atRip 0xA20F#64).fetching (atRip 0xA20F#64) ∧ (atRip 0xA20F#64).Flat ∧
    decode (atRip 0xA20F#64).codeSize [0x0F#8, 0xA2#8] = .ok .cpuid [] ∧
    ∀ k (h : k < [0x0F#8, 0xA2#8].length), inRange Config.cfg ((atRip 0xA20F#64).fetchAddr k).toNat 1 = true ∧
      (atRip 0xA20F#64).mem.read ((atRip 0xA20F#64).fetchAddr k).toNat = [0x0F#8, 0xA2#8][k] :=
  ⟨.inl ⟨rfl, rfl⟩, flat_atRip _, by decide +kernel, by decide +kernel⟩
theorem witness_StepKeepsInv : ∃ s t, s.Inv Config.cfg ∧ step s = .next t ∧ s.mode = .nonRoot ∧ s.cache ≠ [] ∧ s.mem ≠ [] := by
  obtain ⟨t, ht, -⟩ := nextHas_spec (p := fun _ => true) (o := step { st [] vmcs with cache := [.gphysTr stale], inputs := [.input (.tlb .all)] })
    (by decide +kernel)
  refine ⟨_, t, ⟨by decide +kernel, ?_, fun _ => by decide +kernel, by decide +kernel⟩, ht, by decide +kernel, by decide +kernel, by decide +kernel⟩
  have h : (2 : Nat) ^ 32 ≤ 2 ^ Config.cfg.width := Nat.pow_le_pow_right (by decide) (Nat.le_add_right _ _)
  refine List.all_eq_true.2 fun cell hc => ?_
  have hb : (st [] vmcs).mem.all (fun cell => cell.1 < 2 ^ 32) = true := by decide +kernel
  exact decide_eq_true (Nat.lt_of_lt_of_le (of_decide_eq_true (List.all_eq_true.1 hb cell hc)) h)
theorem witness_OnlyVmEntryEntersNonRoot :
    (∃ s t, step s = .next t ∧ t.mode = .nonRoot ∧ s.mode = .root) ∧ ∃ s t, step s = .next t ∧ t.mode = .nonRoot ∧ s.mode = .nonRoot := by
  obtain ⟨t, ht, h⟩ := nextHas_spec (p := fun t => decide (t.mode = .nonRoot))
    (o := step { root 0 0 0 [] with vmcsCurrent := true, inputs := [.input (.vmEntry [])] }) (by decide +kernel)
  obtain ⟨u, hu, h2⟩ := nextHas_spec (p := fun t => decide (t.mode = .nonRoot)) (o := step { st [] vmcs with inputs := [.input (.drop 0)] })
    (by decide +kernel)
  exact ⟨⟨_, t, ht, of_decide_eq_true h, rfl⟩, _, u, hu, of_decide_eq_true h2, rfl⟩
theorem witness_ControlsConstantInNonRoot : ∃ s t, s.mode = .nonRoot ∧ step s = .next t ∧ t.mode = .nonRoot := by
  obtain ⟨t, ht, h⟩ := nextHas_spec (p := fun t => decide (t.mode = .nonRoot)) (o := step { st [] vmcs with inputs := [.input (.tlb .all)] })
    (by decide +kernel)
  exact ⟨_, t, rfl, ht, of_decide_eq_true h⟩
theorem witness_ControlsWrittenInRoot : (root 0 0 0 []).mode = .root ∧ (st [] vmcs).mode ≠ .root ∧ State.reset.mode ≠ .root := by decide
theorem witness_LittleEndian : (image t1).wf = true ∧ outside 0x1FFF 0x2000 8 ∧ outside 0x2008 0x2000 8 ∧
    ({ st [] vmcs with agents := [[⟨0x100008#64, [0#8]⟩], []] } : State).agents = [⟨0x100008#64, [0#8]⟩] :: [[]] ∧
    (∀ w ∈ [AgentWrite.mk 0x100008#64 [0#8]], inRange cfg w.pa.toNat w.bytes.length = true) ∧
    inRange cfg (0x100008#64 : Word).toNat 8 = true := by
  unfold outside
  decide +kernel

/-- A cache with mappings of another VPID, PCID and EP4TA, and a linear one. -/
def unmatched : List Mapping :=
  [.combTr { (default : CombTr) with vpid := 6#16, ep4ta := 0x100#40 }, .combTr { (default : CombTr) with vpid := 5#16, pcid := 1#12, ep4ta := 0x100#40 },
    .combPsc { (default : CombPsc) with vpid := 5#16, ep4ta := 0x200#40 }, .linearTr { (default : LinearTr) with vpid := 5#16 }]

/-- A state with VPID 5 and that cache, and T1's. -/
def tagged : State := { st [] { vmcs with enableVpid := true, vpid := 5#16 } with cache := unmatched }

theorem witness_CachedMappingsUsed :
    (∀ m ∈ tagged.cache, m.hasVpid tagged.currentVpid = false ∨ (m.hasPcid (tagged.currentPcid cfg) = false ∧ m.isGlobal = false) ∨
      m.coversLa gpa = false ∨
      (tagged.eptInUse = true ∧ (m.isLinear = true ∨ m.hasEp4ta tagged.ep4ta = false)) ∨ (tagged.eptInUse = false ∧ m.isLinear = false)) ∧
    (∀ m ∈ [Mapping.gphysPsc default], (root 0 0 0 [.gphysPsc default]).eptInUse = false ∧ m.isLinear = false) ∧
    ∀ m ∈ [Mapping.gphysTr { stale with ep4ta := 0x200#40 }, .gphysTr { stale with page := 0x8040202#64 }, .linearTr default],
      m.isGPhys = false ∨ m.hasEp4ta tagged.ep4ta = false ∨ m.coversGpa gpa = false := by decide +kernel
/-- Beside mappings that match, those that do not are filtered out. -/
theorem witness_CachedMappingsUsed_filter :
    (∀ m ∈ (unmatched ++ [.gphysTr stale, .gphysTr { stale with ep4ta := 0x200#40 }]),
      (decide (m = .gphysTr stale)) = false → m.unmatched cfg tagged gpa) ∧ tagged.eptInUse = true ∧
    ∀ m ∈ [Mapping.gphysTr stale, .gphysTr { stale with page := 0x8040202#64 }, .linearTr default],
      (decide (m = .gphysTr stale)) = false → m.isGPhys = false ∨ m.hasEp4ta tagged.ep4ta = false ∨ m.coversGpa gpa = false := by
  unfold Mapping.unmatched
  decide +kernel

/-- A guest with paging without EPT: a table of two entries at 5000H, of which the first maps linear address 0 at 7000H through 6000H. -/
def plainPaged : State :=
  { root 0 0 0 [] with cr0 := 0x80000000#64, cr3 := 0x5000#64, mem := image [(0x5000, 0x6003#64), (0x6000, 0x7003#64)] }

/-- The same tables with EPT in use: T1's second-level table maps the low 2 MBytes. -/
def eptPaged : State :=
  { st [(0x100000, 0x101007#64), (0x101000, 0x102007#64), (0x102000, 0xB7#64), (0x5000, 0x6003#64), (0x6000, 0x7003#64)] vmcs with
    cr0 := 0x80000000#64, cr3 := 0x5000#64 }

/-- A guest entry with its accessed flag set, and one that does not allow a write. -/
def usedEntry : GuestEntry := ⟨0x5000#64, 0x6023#64⟩
def readOnlyEntry : GuestEntry := ⟨0x5000#64, 0x6021#64⟩
/-- An access within one page. -/
def part (kind : AccKind) (la : Word) : Part := ⟨kind, la, 1, false, .plain⟩
/-- A combined translation of V1's page with the current tags. -/
def combined : CombTr :=
  { (default : CombTr) with ep4ta := 0x100#40, page := 0x8040201#64, gpa := 0x8040201000#64, frame := 0xABCD000#64, size := 12,
                            rights := ⟨true, false, true, false⟩ }
/-- Guest-physical mappings that may be used: a translation, a translation that is used, and a paging-structure-cache entry beside one that
does not match. -/
theorem witness_CachedMappingsUsed_gphys :
    (.gphysTr stale ∈ v42.cache ∧ v42.cache.length < 2 ^ 64 ∧ stale.ep4ta = v42.ep4ta ∧ pageOf gpa stale.size = stale.page) ∧
    (∃ w y, eptTranslate { cfg with free := fun _ => 1#64 } (gacc .dataRead 1) gpa (Ctx.start v42) = .ok w y ∧ .gphysTr stale ∈ w.sources) ∧
    ∀ m : GPhysPsc, m = { (default : GPhysPsc) with ep4ta := 0x100#40, level := 2, upper := pageOf gpa 21 } →
      m.ep4ta = v42.ep4ta ∧ pageOf gpa (eptRegionBits m.level) = m.upper ∧ 2 ≤ m.level ∧ m.level ≤ 4 ∧
      ∀ k ∈ [Mapping.gphysPsc m, .gphysTr { stale with page := 0#64 }],
        k = .gphysPsc m ∨ k.isGPhys = false ∨ k.hasEp4ta v42.ep4ta = false ∨ k.coversGpa gpa = false := by
  refine ⟨by decide +kernel, ?_, by rintro _ rfl; decide +kernel⟩
  obtain ⟨w, y, h, k⟩ := okHas_spec (p := fun (w : Walk) _ => decide (.gphysTr stale ∈ w.sources))
    (r := eptTranslate { cfg with free := fun _ => 1#64 } (gacc .dataRead 1) gpa (Ctx.start v42)) (by decide +kernel)
  exact ⟨w, y, h, of_decide_eq_true k⟩
/-- Combined translations that may be used, without and with paging: a guest's right missing, an EPT right missing, an access allowed without
and with the flags of EPTP bit 6. -/
theorem witness_CachedMappingsUsed_comb :
    ((st [] vmcs).eptInUse = true ∧ combined.vpid = (st [] vmcs).currentVpid ∧ combined.pcid = (st [] vmcs).currentPcid cfg ∧
      combined.ep4ta = (st [] vmcs).ep4ta ∧ pageOf gpa combined.size = combined.page ∧ gpa >>> 48 = 0#64 ∧ (st [] vmcs).pg = false) ∧
    (combined.vpid = eptPaged.currentVpid ∧ combined.pcid = eptPaged.currentPcid cfg ∧ combined.ep4ta = eptPaged.ep4ta ∧ eptPaged.pg = true ∧
      cfg.guest.allowed eptPaged.guestRegs [readOnlyEntry] .dataWrite = false ∧ guestAllows cfg eptPaged .dataRead [usedEntry]) ∧
    (eptAllowed (st [] vmcs) combined.rights ((part .dataWrite gpa).gaccess false) = false ∧
      sppCandidate (st [] vmcs) (walkOfCombTr combined gpa) ((part .dataWrite gpa).gaccess false) = false ∧
      guestAllows cfg (st [] vmcs) .dataWrite []) ∧
    (eptAllowed (st [] vmcs) combined.rights ((part .dataRead gpa).gaccess false) = true ∧ apicHit (st [] vmcs) 0xABCD234#64 = false ∧
      (st [] vmcs).eptAd = false ∧ (st [] (vmcsPml 3#16)).eptAd = true) ∧
    ∃ z, eptSetAccessedDirty cfg (walkOfCombTr combined gpa) ((part .dataRead gpa).gaccess false) gpa
      (Ctx.start (st [] (vmcsPml 3#16))) = .ok () z := by
  unfold guestAllows
  refine ⟨by decide +kernel, by decide +kernel, by decide +kernel, by decide +kernel, ?_⟩
  obtain ⟨u, z, h, -⟩ := okHas_spec (p := fun (_ : Unit) _ => true) (r := eptSetAccessedDirty cfg (walkOfCombTr combined gpa)
    ((part .dataRead gpa).gaccess false) gpa (Ctx.start (st [] (vmcsPml 3#16)))) (by decide +kernel)
  exact ⟨z, h⟩
/-- Linear mappings that may be used: a translation and a paging-structure-cache entry; and a combined paging-structure-cache entry. -/
theorem witness_CachedMappingsUsed_linear :
    (plainPaged.eptInUse = false ∧ plainPaged.pg = true ∧ (default : LinearTr).vpid = plainPaged.currentVpid ∧
      (default : LinearTr).pcid = plainPaged.currentPcid cfg ∧ pageOf 0x123#64 12 = (default : LinearTr).page ∧
      cfg.guest.allowed plainPaged.guestRegs [readOnlyEntry] .dataWrite = false ∧ guestAllows cfg plainPaged .dataRead [usedEntry] ∧
      apicHit plainPaged 0x123#64 = false) ∧
    (∀ m : LinearPsc, m = { (default : LinearPsc) with size := 21, level := 2 } →
      pageOf 0x123#64 m.size = m.upper ∧ 2 ≤ m.level ∧ m.level ≤ guestLevels cfg plainPaged ∧
      ∀ k ∈ [Mapping.linearPsc m, .gphysTr stale], k = .linearPsc m ∨ k.unmatched cfg plainPaged 0x123#64) ∧
    (∀ m : CombPsc, m = { (default : CombPsc) with ep4ta := 0x100#40, size := 21, level := 2, rights := ⟨true, true, true, true⟩ } →
      eptPaged.eptInUse = true ∧ m.ep4ta = eptPaged.ep4ta ∧ pageOf 0x123#64 m.size = m.upper ∧ 2 ≤ m.level ∧
      m.level ≤ guestLevels cfg eptPaged ∧
      (∀ k ∈ [Mapping.combPsc m, .gphysTr stale], k = .combPsc m ∨ k.isGPhys = true ∨ k.unmatched cfg eptPaged 0x123#64) ∧
      eptAllowed eptPaged m.rights (pswalkAccess .dataRead 8 0x123#64) = true ∧ eptPaged.eptAd = false ∧ eptPaged.agents = [] ∧
      apicHit eptPaged 0#64 = false ∧ inRange cfg (0#64 : Word).toNat 8 = true) ∧
    eptAllowed eptPaged ⟨false, true, true, true⟩ (pswalkAccess .dataRead 8 0x123#64) = false := by
  unfold guestAllows Mapping.unmatched
  exact ⟨by decide +kernel, by rintro _ rfl; decide +kernel, by rintro _ rfl; decide +kernel, by decide +kernel⟩

theorem witness_WalkMapsPage : 0x100000#64 = tableBase (st [] vmcs).vmcs.eptp ∧
    entryIs cfg (st [] vmcs) gpa 4 0x100000#64 0x101007#64 ∧ referencesTable cfg (st [] vmcs) 4 0x101007#64 ∧
    entryIs cfg (st [] vmcs) gpa 3 (tableBase 0x101007#64) 0x102007#64 ∧ referencesTable cfg (st [] vmcs) 3 0x102007#64 ∧
    entryIs cfg (st [] vmcs) gpa 2 (tableBase 0x102007#64) 0x103007#64 ∧ referencesTable cfg (st [] vmcs) 2 0x103007#64 ∧
    entryIs cfg (st [] vmcs) gpa 1 (tableBase 0x103007#64) 0xABCD037#64 ∧ mapsPage cfg (st [] vmcs) 1 0xABCD037#64 := by
  unfold entryIs referencesTable mapsPage
  decide +kernel
theorem witness_WalkMapsLargePage :
    (entryIs cfg (st [(0x101008, 0x800000B7#64)] vmcs) gpa 4 (tableBase vmcs.eptp) 0x101007#64 ∧
      referencesTable cfg (st [(0x101008, 0x800000B7#64)] vmcs) 4 0x101007#64 ∧
      entryIs cfg (st [(0x101008, 0x800000B7#64)] vmcs) gpa 3 (tableBase 0x101007#64) 0x800000B7#64 ∧
      mapsPage cfg (st [(0x101008, 0x800000B7#64)] vmcs) 3 0x800000B7#64) ∧
    entryIs cfg (st [(0x102008, 0x400000B7#64)] vmcs) gpa 4 (tableBase vmcs.eptp) 0x101007#64 ∧
      referencesTable cfg (st [(0x102008, 0x400000B7#64)] vmcs) 4 0x101007#64 ∧
      entryIs cfg (st [(0x102008, 0x400000B7#64)] vmcs) gpa 3 (tableBase 0x101007#64) 0x102007#64 ∧
      referencesTable cfg (st [(0x102008, 0x400000B7#64)] vmcs) 3 0x102007#64 ∧
      entryIs cfg (st [(0x102008, 0x400000B7#64)] vmcs) gpa 2 (tableBase 0x102007#64) 0x400000B7#64 ∧
      mapsPage cfg (st [(0x102008, 0x400000B7#64)] vmcs) 2 0x400000B7#64 := by
  unfold entryIs referencesTable mapsPage
  decide +kernel

/-- The last table of V1's walk is reached where the three entries before it are T1's. -/
theorem reached (s : State) (h : tableBase s.vmcs.eptp = 0x100000#64 ∧ s.mem.read64 0x100008 = 0x101007#64 ∧
    s.mem.read64 0x101008 = 0x102007#64 ∧ s.mem.read64 0x102008 = 0x103007#64 ∧ s.vmcs.modeBasedExec = false ∧ s.agents = []) :
    tableReached cfg s gpa 3 0x103000#64 := by
  obtain ⟨h0, h1, h2, h3, h4, h5⟩ := h
  have ref : ∀ (l : Nat) (e : Word), (e.extractLsb' 0 3 != 0#3) = true → eptMisconfigured cfg (st [] vmcs) e l false = false →
      isLeaf l e = false → referencesTable cfg s l e := by
    intro l e hp hm hl
    refine ⟨?_, ?_, hl⟩
    · simp only [eptPresent, hp, Bool.true_or]
    · have h : s.vmcs.modeBasedExec = (st [] vmcs).vmcs.modeBasedExec := h4
      unfold eptMisconfigured eptPresent at hm ⊢
      rw [h]
      exact hm
  have entry : ∀ (l : Nat) (base e : Word) (n : Nat), (base + 8#64 * gpaIndex gpa l).toNat = n → inRange cfg n 8 = true → s.mem.read64 n = e →
      entryIs cfg s gpa l base e := by
    rintro l base e n rfl hr h
    exact ⟨h5, hr, h⟩
  exact ⟨0x102000#64, 0x103007#64,
    ⟨0x101000#64, 0x102007#64,
      ⟨0x100000#64, 0x101007#64, h0.symm, entry 4 _ _ 0x100008 (by decide +kernel) (by decide +kernel) h1,
        ref 4 _ (by decide +kernel) (by decide +kernel) (by decide), by decide +kernel⟩,
      entry 3 _ _ 0x101008 (by decide +kernel) (by decide +kernel) h2, ref 3 _ (by decide +kernel) (by decide +kernel) (by decide +kernel),
      by decide +kernel⟩,
    entry 2 _ _ 0x102008 (by decide +kernel) (by decide +kernel) h3, ref 2 _ (by decide +kernel) (by decide +kernel) (by decide +kernel),
    by decide +kernel⟩

theorem witness_WalkStopsAtBadEntry_first :
    (tableReached cfg (st [(0x100008, 0#64)] vmcs) gpa 0 (tableBase vmcs.eptp) ∧
      entryIs cfg (st [(0x100008, 0#64)] vmcs) gpa 4 (tableBase vmcs.eptp) 0#64 ∧ eptPresent (st [] vmcs) 0#64 = false) ∧
    entryIs cfg (st [(0x100008, 0x101002#64)] vmcs) gpa 4 (tableBase vmcs.eptp) 0x101002#64 ∧
      eptPresent (st [] vmcs) 0x101002#64 = true ∧ eptMisconfigured cfg (st [] vmcs) 0x101002#64 4 (isLeaf 4 0x101002#64) = true := by
  refine ⟨⟨rfl, ?_, ?_⟩, ?_⟩ <;> (try unfold entryIs) <;> decide +kernel
theorem witness_WalkStopsAtBadEntry_last :
    (tableReached cfg (st [(0x103008, 0#64)] vmcs) gpa 3 0x103000#64 ∧ entryIs cfg (st [(0x103008, 0#64)] vmcs) gpa 1 0x103000#64 0#64 ∧
      eptPresent (st [(0x103008, 0#64)] vmcs) 0#64 = false) ∧
    tableReached cfg (st [(0x103008, 0xABCD032#64)] vmcs) gpa 3 0x103000#64 ∧
      entryIs cfg (st [(0x103008, 0xABCD032#64)] vmcs) gpa 1 0x103000#64 0xABCD032#64 ∧
      eptPresent (st [(0x103008, 0xABCD032#64)] vmcs) 0xABCD032#64 = true ∧
      eptMisconfigured cfg (st [(0x103008, 0xABCD032#64)] vmcs) 0xABCD032#64 1 (isLeaf 1 0xABCD032#64) = true := by
  refine ⟨⟨reached _ (by decide +kernel), ?_, ?_⟩, reached _ (by decide +kernel), ?_⟩ <;> (try unfold entryIs) <;> decide +kernel
theorem witness_PermissionRule : effKind (st [] vmcs) (gacc .dataRead 1) = .dataRead ∧ effKind (st [] vmcs) (gacc .dataWrite 1) = .dataWrite ∧
    effKind (st [] vmcs) (gacc .fetch 1) = .fetch ∧ effKind (st [] (vmcsPml 0#16)) { gacc .dataRead 8 with pswalk := true } = .dataWrite := by
  decide +kernel

/-- The APIC-access page is V1's page. -/
def vmcsApic : Vmcs := { vmcs with virtualizeApic := true, apicAccess := 0xABCD000#64 }

theorem witness_PermissionCheck :
    (∃ w y, gpa >>> 48 = 0#64 ∧ eptTranslate cfg (gacc .dataWrite 1) gpa (Ctx.start (st [(0x103008, 0xABCD035#64)] vmcs)) = .ok w y ∧
      (eptAllowed y.st w.rights (gacc .dataWrite 1) = false ∧ sppCandidate y.st w (gacc .dataWrite 1) = false)) ∧
    (∃ w y, eptTranslate cfg (gacc .fetch 1) gpa (Ctx.start (st [(0x103008, 0xABCD031#64)] vmcs)) = .ok w y ∧
      (eptAllowed y.st w.rights (gacc .fetch 1) = false ∧ effKind y.st (gacc .fetch 1) ≠ .dataWrite)) ∧
    (∃ w y, eptTranslate cfg (gacc .dataWrite 1) gpa (Ctx.start (st [] vmcs)) = .ok w y ∧
      (eptAllowed y.st w.rights (gacc .dataWrite 1) = true ∧ y.st.eptAd = false ∧ apicHit y.st w.pa = false)) ∧
    ∃ w y, eptTranslate cfg (gacc .dataRead 1) gpa (Ctx.start (st [] vmcsApic)) = .ok w y ∧
      (eptAllowed y.st w.rights (gacc .dataRead 1) = true ∧ apicHit y.st w.pa = true ∧ apicStale y.st w.sources = false) := by
  obtain ⟨w1, y1, h1, k1⟩ := okHas_spec
    (p := fun (w : Walk) y => decide (eptAllowed y.st w.rights (gacc .dataWrite 1) = false ∧ sppCandidate y.st w (gacc .dataWrite 1) = false))
    (r := eptTranslate cfg (gacc .dataWrite 1) gpa (Ctx.start (st [(0x103008, 0xABCD035#64)] vmcs))) (by decide +kernel)
  obtain ⟨w2, y2, h2, k2⟩ := okHas_spec
    (p := fun (w : Walk) y => decide (eptAllowed y.st w.rights (gacc .fetch 1) = false ∧ effKind y.st (gacc .fetch 1) ≠ .dataWrite))
    (r := eptTranslate cfg (gacc .fetch 1) gpa (Ctx.start (st [(0x103008, 0xABCD031#64)] vmcs))) (by decide +kernel)
  obtain ⟨w3, y3, h3, k3⟩ := okHas_spec
    (p := fun (w : Walk) y => decide (eptAllowed y.st w.rights (gacc .dataWrite 1) = true ∧ y.st.eptAd = false ∧ apicHit y.st w.pa = false))
    (r := eptTranslate cfg (gacc .dataWrite 1) gpa (Ctx.start (st [] vmcs))) (by decide +kernel)
  obtain ⟨w4, y4, h4, k4⟩ := okHas_spec
    (p := fun (w : Walk) y => decide (eptAllowed y.st w.rights (gacc .dataRead 1) = true ∧ apicHit y.st w.pa = true ∧ apicStale y.st w.sources = false))
    (r := eptTranslate cfg (gacc .dataRead 1) gpa (Ctx.start (st [] vmcsApic))) (by decide +kernel)
  exact ⟨⟨w1, y1, by decide, h1, of_decide_eq_true k1⟩, ⟨w2, y2, h2, of_decide_eq_true k2⟩, ⟨w3, y3, h3, of_decide_eq_true k3⟩,
    w4, y4, h4, of_decide_eq_true k4⟩
/-- The clause with the flags of EPTP bit 6. -/
theorem witness_PermissionCheck_flags :
    ∃ w y, eptTranslate cfg (gacc .dataWrite 1) gpa (Ctx.start (st [] (vmcsPml 3#16))) = .ok w y ∧
      (eptAllowed y.st w.rights (gacc .dataWrite 1) = true ∧ y.st.eptAd = true ∧ apicHit y.st w.pa = false) := by
  obtain ⟨w, y, h, k⟩ := okHas_spec
    (p := fun (w : Walk) y => decide (eptAllowed y.st w.rights (gacc .dataWrite 1) = true ∧ y.st.eptAd = true ∧ apicHit y.st w.pa = false))
    (r := eptTranslate cfg (gacc .dataWrite 1) gpa (Ctx.start (st [] (vmcsPml 3#16)))) (by decide +kernel)
  exact ⟨w, y, h, of_decide_eq_true k⟩
theorem witness_HighGuestPhysicalRefused : (0x1000000000000#64 : Word) >>> 48 ≠ 0#64 ∧ (st [] vmcs).eptInUse = true ∧ (st [] vmcs).pg = false := by
  decide +kernel
/-- The last two linear addresses of 32 bits and the first. -/
def wraps : State := { root 0 0 0 [] with cpuMode := .protectedMode }

theorem witness_FlatAccess : (root 0 0 0 []).Flat ∧ flatInRange cfg (root 0 0 0 []) 0x3FFFFFFFFFFF#64 1 ∧ (root 0 0 0 []).mem.wf = true ∧
    flatInRange cfg (root 0 0 0 []) 0x1FFE#64 3 ∧ (∀ i, i < 3 → 0x1FFD ≠ ((root 0 0 0 []).byteAt cfg 0x1FFE#64 i).toNat) ∧
    wraps.Flat ∧ flatInRange cfg wraps 0xFFFFFFFE#64 3 ∧ (∀ i, i < 3 → 1 ≠ (wraps.byteAt cfg 0xFFFFFFFE#64 i).toNat) := by
  refine ⟨⟨rfl, by decide, rfl⟩, ?_, ?_, ?_, ?_, ⟨rfl, by decide, rfl⟩, ?_, ?_⟩ <;> (try unfold flatInRange) <;> decide +kernel

/-- The last byte of V1's page. -/
def lastByte : Word := 0x8040201FFF#64

theorem witness_GuestAccessThroughEpt : (st [] vmcs).linWrap cfg lastByte = lastByte ∧ (st [] vmcs).eptInUse = true ∧ (st [] vmcs).pg = false ∧ (st [] vmcs).cache = [] ∧
    (st [] vmcs).eptAd = false ∧ (st [] vmcs).vmcs.virtualizeApic = false ∧ lastByte >>> 48 = 0#64 ∧ (lastByte &&& 0xFFF#64).toNat + 1 ≤ 4096 ∧
    entryIs cfg (st [] vmcs) lastByte 4 (tableBase (st [] vmcs).vmcs.eptp) 0x101007#64 ∧ referencesTable cfg (st [] vmcs) 4 0x101007#64 ∧
    entryIs cfg (st [] vmcs) lastByte 3 (tableBase 0x101007#64) 0x102007#64 ∧ referencesTable cfg (st [] vmcs) 3 0x102007#64 ∧
    entryIs cfg (st [] vmcs) lastByte 2 (tableBase 0x102007#64) 0x103007#64 ∧ referencesTable cfg (st [] vmcs) 2 0x103007#64 ∧
    entryIs cfg (st [] vmcs) lastByte 1 (tableBase 0x103007#64) 0xABCD037#64 ∧ mapsPage cfg (st [] vmcs) 1 0xABCD037#64 ∧
    ((0x101007#64 : Word).getLsbD 0 = true ∧ (0x102007#64 : Word).getLsbD 0 = true ∧ (0x103007#64 : Word).getLsbD 0 = true ∧
      (0xABCD037#64 : Word).getLsbD 0 = true) ∧
    inRange cfg (tableBase 0xABCD037#64 ||| (lastByte &&& 0xFFF#64)).toNat 1 = true := by
  unfold entryIs referencesTable mapsPage
  decide +kernel

/-- The clauses on a write: the entries allow writing, with the flags of EPTP bit 6 they are set, and the leaf entry is not written. -/
theorem witness_GuestAccessThroughEpt_write : ((0x101007#64 : Word).getLsbD 1 = true ∧ (0x102007#64 : Word).getLsbD 1 = true ∧
      (0x103007#64 : Word).getLsbD 1 = true ∧ (0xABCD037#64 : Word).getLsbD 1 = true) ∧
    (st [] { vmcsPml 0#16 with enablePml := false }).eptAd = true ∧ (st [] { vmcsPml 0#16 with enablePml := false }).pmlOn = false ∧
    (st [] vmcs).mem.wf = true ∧
    (tableBase 0x103007#64 + 8#64 * gpaIndex lastByte 1).toNat + 8 ≤ (tableBase 0xABCD037#64 ||| (lastByte &&& 0xFFF#64)).toNat ∧
    ∃ w y, eptWalk cfg ⟨.dataWrite, false, false, 1, some lastByte, false, .plain⟩ lastByte (Ctx.start (st [] (vmcsPml 0#16))) = .ok w y ∧
      ∃ u z, eptSetAccessedDirty cfg w ⟨.dataWrite, false, false, 1, some lastByte, false, .plain⟩ lastByte y = .ok u z := by
  obtain ⟨u, z, h, -⟩ := okHas_spec (p := fun (_ : Unit) _ => true)
    (r := (eptWalk cfg ⟨.dataWrite, false, false, 1, some lastByte, false, .plain⟩ lastByte (Ctx.start (st [] (vmcsPml 0#16)))).bind
      fun w y => eptSetAccessedDirty cfg w ⟨.dataWrite, false, false, 1, some lastByte, false, .plain⟩ lastByte y) (by decide +kernel)
  obtain ⟨w, y, h1, h2⟩ := Res.bind_eq_ok.1 h
  exact ⟨by decide +kernel, by decide +kernel, by decide +kernel, by decide +kernel, by decide +kernel, w, y, h1, u, z, h2⟩

/-- A guest with paging, whose only table T1 maps at V1's page: the entry of level 2 for linear address 0 is not present. -/
def paged : State := { st [] vmcs with cr0 := 0x80000000#64, cr3 := 0x8040201000#64 }

theorem witness_EventsArePrecise : cfg.speculativeAccessedSet = false ∧
    (∃ t e, runInput cfg (.access ⟨.write [1#8], gpa, .plain⟩) (st [(0x103008, 0xABCD035#64)] vmcs) = .next t ∧ t.report = .exit e) ∧
    ∃ t e, runInput cfg (.access ⟨.read 1, 0#64, .plain⟩) paged = .next t ∧ t.report = .exception e := by
  obtain ⟨t, ht, h⟩ := nextHas_spec (p := fun t => decide (t.report = .exit (.eptViolation ⟨.dataWrite, gpa, some gpa, ⟨true, false, true, false⟩, false, none, []⟩)))
    (o := runInput cfg (.access ⟨.write [1#8], gpa, .plain⟩) (st [(0x103008, 0xABCD035#64)] vmcs)) (by decide +kernel)
  obtain ⟨u, hu, h2⟩ := nextHas_spec (p := fun t => decide (t.report = .exception (.pageFault 0#64 0#32)))
    (o := runInput cfg (.access ⟨.read 1, 0#64, .plain⟩) paged) (by decide +kernel)
  exact ⟨rfl, ⟨t, _, ht, of_decide_eq_true h⟩, u, _, hu, of_decide_eq_true h2⟩
theorem witness_AccessFrame : (st [] vmcs).pg = false ∧ (st [] vmcs).eptAd = false ∧ (st [] vmcs).mem.wf = true ∧ (st [] vmcs).agents = [] ∧
    ∃ t parts bytes, runInput cfg (.access ⟨.write [1#8, 2#8], gpa, .plain⟩) (st [] vmcs) = .next t ∧ t.report = .access parts bytes ∧
      (∀ d ∈ parts, outside 0xABCD233 d.pa.toNat d.size) ∧ ∀ d ∈ parts, outside 0xABCD236 d.pa.toNat d.size := by
  obtain ⟨t, ht, h⟩ := nextHas_spec (p := fun t => decide (t.report =
      .access [⟨gpa, some gpa, 0xABCD234#64, 2, some .wb, some .wb, none, []⟩] []))
    (o := runInput cfg (.access ⟨.write [1#8, 2#8], gpa, .plain⟩) (st [] vmcs)) (by decide +kernel)
  exact ⟨by decide, by decide, by decide +kernel, rfl, t, _, _, ht, of_decide_eq_true h, by unfold outside; decide +kernel,
    by unfold outside; decide +kernel⟩
theorem witness_GuestWalkOrder :
    (∃ e y, addressAccess cfg (pswalkAccess .dataRead (guestEntrySize cfg { paged with cr3 := 0x1000#64 }) 0#64)
      (0x1000#64 + (cfg.guest.entryOffset paged.guestRegs 2 0#64).setWidth 64) (Ctx.start { paged with cr3 := 0x1000#64 }) = .raised e y) ∧
    (∃ g y, addressAccess cfg (pswalkAccess .dataRead (guestEntrySize cfg paged) 0#64)
        (0x8040201000#64 + (cfg.guest.entryOffset paged.guestRegs 2 0#64).setWidth 64) (Ctx.start paged) = .ok g y ∧
      (y.st.agents = [] ∧ inRange cfg g.pa.toNat (guestEntrySize cfg paged) = true ∧ cfg.guest.notPresentOrReserved y.st.guestRegs 2
        (wordOfBytes (y.st.mem.readBytes g.pa.toNat (guestEntrySize cfg paged))) = true)) ∧
    cfg.guest.allowed paged.guestRegs [⟨0#64, 0x5#64⟩] .dataWrite = false := by
  obtain ⟨e, y, h, -⟩ := raisedHas_spec (p := fun _ => true)
    (r := addressAccess cfg (pswalkAccess .dataRead (guestEntrySize cfg { paged with cr3 := 0x1000#64 }) 0#64)
      (0x1000#64 + (cfg.guest.entryOffset paged.guestRegs 2 0#64).setWidth 64) (Ctx.start { paged with cr3 := 0x1000#64 })) (by decide +kernel)
  obtain ⟨g, z, h2, k⟩ := okHas_spec
    (p := fun (g : Granted) y => decide (y.st.agents = [] ∧ inRange cfg g.pa.toNat (guestEntrySize cfg paged) = true ∧
      cfg.guest.notPresentOrReserved y.st.guestRegs 2 (wordOfBytes (y.st.mem.readBytes g.pa.toNat (guestEntrySize cfg paged))) = true))
    (r := addressAccess cfg (pswalkAccess .dataRead (guestEntrySize cfg paged) 0#64)
      (0x8040201000#64 + (cfg.guest.entryOffset paged.guestRegs 2 0#64).setWidth 64) (Ctx.start paged)) (by decide +kernel)
  exact ⟨⟨e, y, h⟩, ⟨g, z, h2, of_decide_eq_true k⟩, by decide +kernel⟩
theorem witness_PageFaultStaysInGuest : cfg.speculativeAccessedSet = false ∧
    ∃ t, runInput cfg (.access ⟨.read 1, 0#64, .plain⟩) paged = .next t ∧ t.report = .exception (.pageFault 0#64 0#32) := by
  obtain ⟨u, hu, h2⟩ := nextHas_spec (p := fun t => decide (t.report = .exception (.pageFault 0#64 0#32)))
    (o := runInput cfg (.access ⟨.read 1, 0#64, .plain⟩) paged) (by decide +kernel)
  exact ⟨rfl, u, hu, of_decide_eq_true h2⟩

/-- The VMM configured a VM exit for page faults, or for those whose error code is not 0. -/
theorem witness_PageFaultStaysInGuest_exit :
    (∃ t, runInput cfg (.access ⟨.read 1, 0#64, .plain⟩) { paged with vmcs := { vmcs with exceptionBitmap := 0x4000#32 } } = .next t ∧
      t.report = .exit (.pageFault 0#64 0#32)) ∧
    paged.mode = .nonRoot ∧
    ({ vmcs with pfErrorMask := 1#32, pfErrorMatch := 1#32 } : Vmcs).exceptionBitmap.getLsbD 14 = false ∧
    ¬(0#32 &&& 1#32 = 1#32) ∧ (root 0 0 0 []).mode ≠ .nonRoot ∧
    ¬(paged.vmcs.exceptionBitmap.getLsbD 14 = true ↔ 0#32 &&& paged.vmcs.pfErrorMask = paged.vmcs.pfErrorMatch) := by
  obtain ⟨t, ht, h⟩ := nextHas_spec (p := fun t => decide (t.report = .exit (.pageFault 0#64 0#32)))
    (o := runInput cfg (.access ⟨.read 1, 0#64, .plain⟩) { paged with vmcs := { vmcs with exceptionBitmap := 0x4000#32 } }) (by decide +kernel)
  exact ⟨⟨t, ht, of_decide_eq_true h⟩, by decide +kernel⟩

/-- V9's state with an SPP vector. -/
def sppState (v : Word) : State := st (spp v) vmcsSpp

/-- A 4-byte write at V1's address, and the 8-byte write of V9 (d) that two sub-pages hold. -/
def across : GAccess := gacc .dataWrite 8

theorem witness_SppVectorDecides :
    (∃ v y, sppVector cfg (gacc .dataWrite 4) gpa (Ctx.start (sppState 0x300#64)) = .ok v y ∧ v &&& 0xAAAAAAAAAAAAAAAA#64 ≠ 0#64) ∧
    (∃ v y, sppVector cfg across 0x804020127C#64 (Ctx.start (sppState 0x500#64)) = .ok v y ∧
      (v &&& 0xAAAAAAAAAAAAAAAA#64 = 0#64 ∧ v.getLsbD (2 * 4) = true ∧ v.getLsbD (2 * 5) = true)) ∧
    (∃ v y, sppVector cfg across 0x804020127C#64 (Ctx.start (sppState 0x100#64)) = .ok v y ∧
      (v &&& 0xAAAAAAAAAAAAAAAA#64 = 0#64 ∧ v.getLsbD (2 * 5) = false)) ∧
    (0x804020127C#64 &&& 0xFFF#64).toNat / 128 = 4 ∧ ((0x804020127C#64 &&& 0xFFF#64).toNat + across.size - 1) / 128 = 5 := by
  obtain ⟨v1, y1, h1, k1⟩ := okHas_spec (p := fun (v : Word) _ => decide (v &&& 0xAAAAAAAAAAAAAAAA#64 ≠ 0#64))
    (r := sppVector cfg (gacc .dataWrite 4) gpa (Ctx.start (sppState 0x300#64))) (by decide +kernel)
  obtain ⟨v2, y2, h2, k2⟩ := okHas_spec
    (p := fun (v : Word) _ => decide (v &&& 0xAAAAAAAAAAAAAAAA#64 = 0#64 ∧ v.getLsbD (2 * 4) = true ∧ v.getLsbD (2 * 5) = true))
    (r := sppVector cfg across 0x804020127C#64 (Ctx.start (sppState 0x500#64))) (by decide +kernel)
  obtain ⟨v3, y3, h3, k3⟩ := okHas_spec
    (p := fun (v : Word) _ => decide (v &&& 0xAAAAAAAAAAAAAAAA#64 = 0#64 ∧ v.getLsbD (2 * 5) = false))
    (r := sppVector cfg across 0x804020127C#64 (Ctx.start (sppState 0x100#64))) (by decide +kernel)
  exact ⟨⟨v1, y1, h1, of_decide_eq_true k1⟩, ⟨v2, y2, h2, of_decide_eq_true k2⟩, ⟨v3, y3, h3, of_decide_eq_true k3⟩, by decide +kernel,
    by decide +kernel⟩

/-- V9's state with one SPP table entry changed. -/
def sppChanged (a : Nat) (e : Word) : State := st (spp 0x100#64 ++ [(a, e)]) vmcsSpp

theorem witness_SppLookup_first :
    (entryIs cfg (sppChanged 0x300008 0#64) gpa 4 (sppBase cfg 0x300000#64) 0#64 ∧ (0#64 : Word).getLsbD 0 = false) ∧
    entryIs cfg (sppChanged 0x300008 0x301003#64) gpa 4 (sppBase cfg 0x300000#64) 0x301003#64 ∧ (0x301003#64 : Word).getLsbD 0 = true ∧
      0x301003#64 &&& sppReserved cfg ≠ 0#64 := by
  unfold entryIs
  decide +kernel
theorem witness_SppLookup_second :
    (entryIs cfg (sppChanged 0x301008 0x302000#64) gpa 4 (sppBase cfg 0x300000#64) 0x301001#64 ∧ sppEntryOk cfg 0x301001#64 ∧
      entryIs cfg (sppChanged 0x301008 0x302000#64) gpa 3 (sppBase cfg 0x301001#64) 0x302000#64 ∧ (0x302000#64 : Word).getLsbD 0 = false) ∧
    entryIs cfg (sppChanged 0x301008 0x400000302001#64) gpa 3 (sppBase cfg 0x301001#64) 0x400000302001#64 ∧
      (0x400000302001#64 : Word).getLsbD 0 = true ∧ 0x400000302001#64 &&& sppReserved cfg ≠ 0#64 := by
  unfold entryIs sppEntryOk
  decide +kernel
theorem witness_SppLookup_third :
    (entryIs cfg (sppChanged 0x302008 0#64) gpa 3 (sppBase cfg 0x301001#64) 0x302001#64 ∧ sppEntryOk cfg 0x302001#64 ∧
      entryIs cfg (sppChanged 0x302008 0#64) gpa 2 (sppBase cfg 0x302001#64) 0#64) ∧
    (entryIs cfg (sppChanged 0x302008 0x303801#64) gpa 2 (sppBase cfg 0x302001#64) 0x303801#64 ∧ (0x303801#64 : Word).getLsbD 0 = true ∧
      0x303801#64 &&& sppReserved cfg ≠ 0#64) ∧
    entryIs cfg (sppState 0x100#64) gpa 2 (sppBase cfg 0x302001#64) 0x303001#64 ∧ sppEntryOk cfg 0x303001#64 := by
  unfold entryIs sppEntryOk
  decide +kernel

/-- The translation of V1's page write-protected, at a level, with or without bit 61. -/
def protectedWalk (level : Nat) (spp : Bool) : Walk :=
  ⟨0xABCD234#64, ⟨true, false, true, false⟩, level, ⟨6#3, false, true, true, spp⟩, 0x103008#64, false, [], []⟩

theorem witness_SppNotApplied : effKind (st [] vmcs) (gacc .dataWrite 4) = .dataWrite ∧ (protectedWalk 1 true).rights.w = false ∧
    (st [] vmcs).vmcs.sppControl = false ∧ (protectedWalk 2 true).level ≠ 1 ∧ (protectedWalk 1 false).leaf.spp = false ∧
    effKind (sppState 0#64) { gacc .dataWrite 4 with pswalk := true } = .dataWrite ∧
    effKind (sppState 0#64) { gacc .dataWrite 4 with origin := .transactional } = .dataWrite ∧
    effKind (sppState 0#64) { gacc .dataWrite 4 with origin := .enclaveElrange } = .dataWrite ∧
    effKind (sppState 0#64) { gacc .dataWrite 4 with origin := .sgxEpc } = .dataWrite := by decide +kernel
theorem witness_SppDecidesEligibleWrite : effKind (sppState 0#64) (gacc .dataWrite 4) = .dataWrite ∧
    (protectedWalk 1 true).rights.w = false ∧ (sppState 0#64).vmcs.sppControl = true ∧ (protectedWalk 1 true).level = 1 ∧
    (protectedWalk 1 true).leaf.spp = true ∧
    (∃ e y, sppCheck cfg (gacc .dataWrite 4) gpa (protectedWalk 1 true) (Ctx.start (sppState 0x400#64)) = .raised e y) ∧
    ∃ u y, sppCheck cfg (gacc .dataWrite 4) gpa (protectedWalk 1 true) (Ctx.start (sppState 0x100#64)) = .ok u y ∧ y.st.eptAd = false := by
  obtain ⟨e, y, h, -⟩ := raisedHas_spec (p := fun _ => true)
    (r := sppCheck cfg (gacc .dataWrite 4) gpa (protectedWalk 1 true) (Ctx.start (sppState 0x400#64))) (by decide +kernel)
  obtain ⟨u, z, h2, k⟩ := okHas_spec (p := fun (_ : Unit) y => decide (y.st.eptAd = false))
    (r := sppCheck cfg (gacc .dataWrite 4) gpa (protectedWalk 1 true) (Ctx.start (sppState 0x100#64))) (by decide +kernel)
  exact ⟨by decide +kernel, rfl, by decide +kernel, rfl, rfl, ⟨e, y, h⟩, u, z, h2, of_decide_eq_true k⟩
/-- The other forms and policies: a write of several, a write across two pages; and an allowed write with the flags of EPTP bit 6. -/
theorem witness_SppDecidesEligibleWrite_forms :
    (effKind (sppState 0#64) { gacc .dataWrite 4 with origin := .multiWrite } = .dataWrite ∧
      effKind (sppState 0#64) { gacc .dataWrite 4 with crosses := true } = .dataWrite) ∧
    ({ cfg with sppPolicy := .applyToNeither } : Cfg).sppPolicy = .applyToNeither ∧ ({ cfg with sppPolicy := .nondet } : Cfg).sppPolicy = .nondet ∧
    cfg.sppPolicy = .apply ∧
    ∃ u y, sppCheck cfg { gacc .dataWrite 4 with crosses := true } gpa (protectedWalk 1 true)
      (Ctx.start (st (spp 0x100#64) { vmcsSpp with eptp := 0x10005E#64 })) = .ok u y ∧ y.st.eptAd = true := by
  obtain ⟨u, z, h2, k⟩ := okHas_spec (p := fun (_ : Unit) y => decide (y.st.eptAd = true))
    (r := sppCheck cfg { gacc .dataWrite 4 with crosses := true } gpa (protectedWalk 1 true)
      (Ctx.start (st (spp 0x100#64) { vmcsSpp with eptp := 0x10005E#64 }))) (by decide +kernel)
  exact ⟨by decide +kernel, rfl, rfl, rfl, u, z, h2, of_decide_eq_true k⟩

/-- The translation of T1's page as a walk finds it or a cached mapping gives it, with its flags as read or recorded. -/
def flagWalk (cached accessed dirty : Bool) : Walk :=
  ⟨0xABCD234#64, ⟨true, true, true, false⟩, 1, ⟨6#3, false, accessed, dirty, false⟩, 0x103008#64, cached,
    [⟨0x100008#64, accessed, cached⟩, ⟨0x101008#64, accessed, cached⟩, ⟨0x102008#64, accessed, cached⟩,
      ⟨0x103008#64, accessed, cached⟩], []⟩

/-- T1 with all flags set. -/
def flagged (v : Vmcs) : State :=
  st [(0x100008, 0x101107#64), (0x101008, 0x102107#64), (0x102008, 0x103107#64), (0x103008, 0xABCD337#64)] v

theorem witness_LogFullCheck : (st [] (vmcsPml 512#16)).agents = [] ∧
    ((∀ u ∈ (flagWalk false false false).used, inRange cfg u.addr.toNat 8 = true) ∧
      inRange cfg (flagWalk false false false).leafAddr.toNat 8 = true) ∧
    ((∀ u ∈ (flagWalk true true true).used, u.accessedIn (st [] vmcs).mem = true) ∧ (flagWalk true true true).dirtyIn (st [] vmcs).mem = true) ∧
    ((∀ u ∈ (flagWalk false false false).used, u.accessedIn (flagged vmcs).mem = true) ∧
      effKind (flagged (vmcsPml 0xFFFF#16)) (gacc .dataRead 1) ≠ .dataWrite) ∧
    ((∃ u ∈ (flagWalk false true true).used, u.accessedIn (st [] vmcs).mem = false) ∧ (st [] (vmcsPml 512#16)).pmlOn = true ∧
      511 < (st [] (vmcsPml 512#16)).vmcs.pmlIndex.toNat) ∧
    effKind (st [] (vmcsPml 512#16)) (gacc .dataWrite 1) = .dataWrite ∧ (flagWalk true true false).dirtyIn (st [] vmcs).mem = false ∧
    (flagWalk false true true).dirtyIn (st [] vmcs).mem = false := by decide +kernel
theorem witness_LogEntryWritten :
    (0x200FF8#64 = (st [] (vmcsPml 511#16)).vmcs.pmlAddress + 8#64 * (st [] (vmcsPml 511#16)).vmcs.pmlIndex.setWidth 64 ∧
      inRange cfg (0x200FF8#64 : Word).toNat 8 = true ∧ (st [] (vmcsPml 511#16)).pmlOn = true ∧
      (st [] (vmcsPml 511#16)).vmcs.pmlIndex.toNat ≤ 511) ∧
    (0x200000#64 = (st [] (vmcsPml 0#16)).vmcs.pmlAddress + 8#64 * (st [] (vmcsPml 0#16)).vmcs.pmlIndex.setWidth 64 ∧
      (st [] (vmcsPml 0#16)).agents = [] ∧ (st [] (vmcsPml 0#16)).mem.wf = true ∧ outside 0x1FFFFF 0x200000 8 ∧ outside 0x200008 0x200000 8) ∧
    (∀ u ∈ (flagWalk false false false).used, inRange cfg u.addr.toNat 8 = true) ∧
    inRange cfg (flagWalk false false false).leafAddr.toNat 8 = true ∧
    (effKind (st [] (vmcsPml 511#16)) (gacc .dataWrite 1) = .dataWrite ∧ (flagWalk false false false).dirtyIn (st [] vmcs).mem = false) ∧
    (effKind (st [] (vmcsPml 0#16)) (gacc .dataRead 1) ≠ .dataWrite ∧ cfg.pmlLogsOnAccessedUpdate = false) ∧
    ∀ u ∈ (flagWalk false false false).used, u.accessedIn (st [] vmcs).mem = false → outside 0x100010 u.addr.toNat 8 := by
  unfold outside
  decide +kernel
theorem witness_FlagsSetAndSticky :
    (∃ u y, eptSetAccessedDirty cfg (flagWalk false false false) (gacc .dataWrite 1) gpa (Ctx.start (st [] (vmcsPml 1#16))) = .ok u y) ∧
    (∃ u y, eptSetAccessedDirty cfg (flagWalk true true true) (gacc .dataWrite 1) gpa
      (Ctx.start (flagged { vmcsPml 1#16 with enablePml := false })) = .ok u y) ∧
    (st [] (vmcsPml 1#16)).agents = [] ∧ (∀ u ∈ (flagWalk false false false).used, outside 0x10 u.addr.toNat 8) ∧ outside 0x10 0x103008 8 ∧
    (st [] (vmcsPml 1#16)).mem.wf = true ∧ (flagged { vmcsPml 1#16 with enablePml := false }).pmlOn = false ∧
    (st [] (vmcsPml 1#16)).pmlEntry.toNat + 8 ≤ 0x200010 ∧ 0x200007 < (st [] (vmcsPml 1#16)).pmlEntry.toNat ∧
    (∀ u ∈ (flagWalk true true true).used, u.accessed = true → ((flagged vmcs).mem.read64 u.addr.toNat).getLsbD 8 = true) ∧
    ((flagWalk true true true).leaf.dirty = true → ((flagged vmcs).mem.read64 (flagWalk true true true).leafAddr.toNat).getLsbD 9 = true) ∧
    effKind (st [] (vmcsPml 1#16)) (gacc .dataWrite 1) = .dataWrite := by
  obtain ⟨u, y, h, -⟩ := okHas_spec (p := fun (_ : Unit) _ => true)
    (r := eptSetAccessedDirty cfg (flagWalk false false false) (gacc .dataWrite 1) gpa (Ctx.start (st [] (vmcsPml 1#16)))) (by decide +kernel)
  obtain ⟨v, z, h2, -⟩ := okHas_spec (p := fun (_ : Unit) _ => true)
    (r := eptSetAccessedDirty cfg (flagWalk true true true) (gacc .dataWrite 1) gpa
      (Ctx.start (flagged { vmcsPml 1#16 with enablePml := false }))) (by decide +kernel)
  exact ⟨⟨u, y, h⟩, ⟨v, z, h2⟩, by unfold outside; decide +kernel⟩
theorem witness_EffectiveMemType :
    ((0x87#64 : Word).extractLsb' 3 3, MemType.uc) ∈ [(0#3, MemType.uc), (1#3, .wc), (4#3, .wt), (5#3, .wp), (6#3, .wb)] ∧
    ((0xCF#64 : Word).extractLsb' 3 3, MemType.wc) ∈ [(0#3, MemType.uc), (1#3, .wc), (4#3, .wt), (5#3, .wp), (6#3, .wb)] ∧
    ((0x27#64 : Word).extractLsb' 3 3, MemType.wt) ∈ [(0#3, MemType.uc), (1#3, .wc), (4#3, .wt), (5#3, .wp), (6#3, .wb)] ∧
    ((0x2F#64 : Word).extractLsb' 3 3, MemType.wp) ∈ [(0#3, MemType.uc), (1#3, .wc), (4#3, .wt), (5#3, .wp), (6#3, .wb)] ∧
    ((0x77#64 : Word).extractLsb' 3 3, MemType.wb) ∈ [(0#3, MemType.uc), (1#3, .wc), (4#3, .wt), (5#3, .wp), (6#3, .wb)] := by decide
theorem witness_EffectiveMemType_combined : ∃ d y, accessByCombTr cfg ⟨.dataRead, gpa, 1, false, .plain⟩
    { (default : CombTr) with page := 0x8040201#64, size := 12, rights := ⟨true, true, true, false⟩ } (Ctx.start (st [] vmcs)) = .ok d y := by
  obtain ⟨d, y, h, -⟩ := okHas_spec (p := fun _ _ => true) (r := accessByCombTr cfg ⟨.dataRead, gpa, 1, false, .plain⟩
    { (default : CombTr) with page := 0x8040201#64, size := 12, rights := ⟨true, true, true, false⟩ } (Ctx.start (st [] vmcs))) (by decide +kernel)
  exact ⟨d, y, h⟩

/-- With the log on: a byte of the first EPT entry, which has a flag set; and with paging: a byte beside the guest's entries. -/
theorem witness_AccessFrame_flags :
    (∃ t parts bytes, runInput cfg (.access ⟨.write [1#8], gpa, .plain⟩) (st [] (vmcsPml 0x1FF#16)) = .next t ∧
      t.report = .access parts bytes ∧ (∀ d ∈ parts, outside 0x100009 d.pa.toNat d.size) ∧
      (∀ d ∈ parts, ∀ g ∈ d.walk, outside 0x100009 g.pa.toNat 8) ∧
      (∀ i : BitVec 16, i.toNat ≤ 511 → outside 0x100009 ((st [] (vmcsPml 0x1FF#16)).vmcs.pmlAddress + 8#64 * i.setWidth 64).toNat 8)) ∧
    ∃ t parts bytes, runInput cfg (.access ⟨.read 1, 0#64, .plain⟩) eptPaged = .next t ∧ t.report = .access parts bytes ∧
      (∀ d ∈ parts, d.walk.length = 4 ∧ ∀ g ∈ d.walk, outside 0x5008 g.pa.toNat 8) := by
  obtain ⟨t, ht, h⟩ := nextHas_spec (p := fun t => decide (t.report =
      .access [⟨gpa, some gpa, 0xABCD234#64, 1, some .wb, some .wb, none, []⟩] []))
    (o := runInput cfg (.access ⟨.write [1#8], gpa, .plain⟩) (st [] (vmcsPml 0x1FF#16))) (by decide +kernel)
  obtain ⟨u, hu, h2⟩ := nextHas_spec (p := fun t => decide (t.report =
      .access [⟨0#64, some 0x7000#64, 0x7000#64, 1, some .wb, some .wb, none,
        [⟨0x5000#64, 0x5000#64, some .wb⟩, ⟨0x6000#64, 0x6000#64, some .wb⟩, ⟨0x5000#64, 0x5000#64, some .wb⟩,
          ⟨0x6000#64, 0x6000#64, some .wb⟩]⟩] [0#8]))
    (o := runInput cfg (.access ⟨.read 1, 0#64, .plain⟩) eptPaged) (by decide +kernel)
  refine ⟨⟨t, _, _, ht, of_decide_eq_true h, ?_, ?_, ?_⟩, u, _, _, hu, of_decide_eq_true h2, ?_⟩
  · unfold outside
    decide +kernel
  · unfold outside
    decide +kernel
  · intro i hi
    have hp : (st [] (vmcsPml 0x1FF#16)).vmcs.pmlAddress = 0x200000#64 := rfl
    have h8 : (i.setWidth 64 : Word).toNat = i.toNat := by simp; omega
    rw [hp]
    left
    rw [BitVec.toNat_add, BitVec.toNat_mul, h8]
    simp
    omega
  · unfold outside
    decide +kernel

/-- The good path of the guest walk: two entries, then the access at the address they give, after the first's flags have changed. -/
theorem witness_GuestWalkOrder_path :
    (∃ ges ge z, guestPath cfg .dataRead 0#64 (ges ++ [ge]) (cfg.guest.levels plainPaged.guestRegs - 1)
      (cfg.guest.startTable plainPaged.guestRegs 0#64) [] (Ctx.start plainPaged) z ∧
      1 = cfg.guest.levels plainPaged.guestRegs - 1 - ges.length + 1) ∧
    (∃ u y g z, guestSetFlags cfg 0#64 [] (([⟨0x5000#64, 0x6003#64⟩, ⟨0x6000#64, 0x7003#64⟩] : List GuestEntry).zip
        (cfg.guest.flagged plainPaged.guestRegs [⟨0x5000#64, 0x6003#64⟩, ⟨0x6000#64, 0x7003#64⟩] .dataRead)) (Ctx.start plainPaged) = .ok u y ∧
      addressAccess cfg ((⟨.dataRead, 0#64, 1, false, .plain⟩ : Part).gaccess (y.st.pg && cfg.guest.isUser y.st.guestRegs
        [⟨0x5000#64, 0x6003#64⟩, ⟨0x6000#64, 0x7003#64⟩])) 0x7000#64 y = .ok g z) ∧
    cfg.guest.allowed plainPaged.guestRegs [⟨0x5000#64, 0x6003#64⟩, ⟨0x6000#64, 0x7003#64⟩] .dataRead = true ∧
    ∀ q ∈ ([(⟨0x5000#64, 0x6023#64⟩, 0x6023#64)] : List (GuestEntry × Word)), q.1.value = q.2 := by
  refine ⟨⟨[⟨0x5000#64, 0x6003#64⟩], ⟨0x6000#64, 0x7003#64⟩, ?_⟩, ?_, by decide +kernel, by decide⟩
  · obtain ⟨ge, y, h1, k1⟩ := okHas_spec
      (p := fun (ge : GuestEntry) y => decide (ge = ⟨0x5000#64, 0x6003#64⟩ ∧
        cfg.guest.referencesTable y.st.guestRegs 2 0x6003#64 = true ∧
        okHas (fun (ge : GuestEntry) _ => decide (ge = ⟨0x6000#64, 0x7003#64⟩))
          (guestEntry cfg .dataRead 0#64 [⟨0x5000#64, 0x6003#64⟩] 1 (cfg.guest.nextTable y.st.guestRegs 2 0x6003#64) none y) = true))
      (r := guestEntry cfg .dataRead 0#64 [] 2 (cfg.guest.startTable plainPaged.guestRegs 0#64) none (Ctx.start plainPaged))
      (by decide +kernel)
    obtain ⟨rfl, hr, h2⟩ := of_decide_eq_true k1
    obtain ⟨ge2, z, h2, k2⟩ := okHas_spec h2
    obtain rfl := of_decide_eq_true k2
    exact ⟨z, ⟨y, h1, .inr ⟨0, rfl, hr, z, h2, .inl ⟨rfl, .inl rfl, rfl⟩⟩⟩, rfl⟩
  · obtain ⟨u, y, h, k⟩ := okHas_spec
      (p := fun (_ : Unit) y => okHas (fun (_ : Granted) _ => true) (addressAccess cfg ((⟨.dataRead, 0#64, 1, false, .plain⟩ : Part).gaccess
        (y.st.pg && cfg.guest.isUser y.st.guestRegs [⟨0x5000#64, 0x6003#64⟩, ⟨0x6000#64, 0x7003#64⟩])) 0x7000#64 y))
      (r := guestSetFlags cfg 0#64 [] (([⟨0x5000#64, 0x6003#64⟩, ⟨0x6000#64, 0x7003#64⟩] : List GuestEntry).zip
        (cfg.guest.flagged plainPaged.guestRegs [⟨0x5000#64, 0x6003#64⟩, ⟨0x6000#64, 0x7003#64⟩] .dataRead)) (Ctx.start plainPaged))
      (by decide +kernel)
    obtain ⟨g, z, h2, -⟩ := okHas_spec k
    exact ⟨u, y, g, z, h, h2⟩

theorem some_of {α : Type} {o : Option α} (h : o.isSome = true) : ∃ a, o = some a := Option.isSome_iff_exists.1 h

theorem witness_FillsFollowTheRules :
    ((∃ m, fillMapping cfg plainPaged (.linearTr 0#64) = some m) ∧ plainPaged.eptInUse = false) ∧
    ((∃ m, fillMapping cfg (st [] vmcs) (.gphysTr gpa .nothing) = some m) ∧ (∃ m, fillMapping cfg (st [] vmcs) (.gphysPsc gpa 2) = some m) ∧
      (st [] vmcs).eptInUse = true) ∧
    ((∃ m, fillMapping cfg (st [] vmcs) (.combTr gpa .nothing) = some m ∧ m.1.isCombined = true) ∧ (st [] vmcs).pg = false) ∧
    (∃ m, fillMapping cfg eptPaged (.combTr 0#64 .nothing) = some m) ∧ ∃ m, fillMapping cfg eptPaged (.combPsc 0#64 1) = some m := by
  refine ⟨⟨some_of (by decide +kernel), by decide +kernel⟩, ⟨some_of (by decide +kernel), some_of (by decide +kernel), by decide +kernel⟩,
    ⟨⟨_, rfl, ?_⟩, by decide +kernel⟩, some_of (by decide +kernel), some_of (by decide +kernel)⟩
  decide +kernel
/-- The other kinds of fill, and a walk of memory that ends at a page. -/
theorem witness_FillsFollowTheRules_contents :
    ((∃ k, fillMapping cfg plainPaged (.linearPsc 0#64 1) = some k) ∧ (0#64 : Word) = plainPaged.linWrap cfg 0#64) ∧
    ((∃ k, fillMapping cfg (st (spp 0x5#64) vmcsSpp) (.gphysTr gpa .vector) = some k) ∧ (st (spp 0x5#64) vmcsSpp).agents = [] ∧
      plainPaged.agents = [] ∧ eptPaged.agents = []) ∧
    (st [] vmcs).eptInUse = true ∧ gpa >>> 48 = 0#64 ∧
      eptLeaf cfg (st [] vmcs) gpa [0x101007#64, 0x102007#64, 0x103007#64] 1 0x103000#64 0xABCD037#64 := by
  refine ⟨⟨some_of (by decide +kernel), by decide +kernel⟩, ⟨some_of (by decide +kernel), by decide +kernel⟩, by decide +kernel, by decide +kernel,
    rfl, ?_, ?_, ?_⟩
  · unfold eptPath eptPath eptPath eptPath entryIs referencesTable
    decide +kernel
  · unfold entryIs
    decide +kernel
  · unfold mapsPage
    decide +kernel
theorem witness_NoFillFromBadEptEntry :
    (tableReached cfg (st [(0x103008, 0#64)] vmcs) gpa 3 0x103000#64 ∧ entryIs cfg (st [(0x103008, 0#64)] vmcs) gpa 1 0x103000#64 0#64 ∧
      eptPresent (st [(0x103008, 0#64)] vmcs) 0#64 = false ∧ (st [(0x103008, 0#64)] vmcs).pg = false ∧ (st [] vmcs).linWrap cfg gpa = gpa) ∧
    entryIs cfg (st [(0x100008, 0x101002#64)] vmcs) gpa 4 (tableBase vmcs.eptp) 0x101002#64 ∧
      eptMisconfigured cfg (st [(0x100008, 0x101002#64)] vmcs) 0x101002#64 4 (isLeaf 4 0x101002#64) = true ∧ 4 ≤ 4 - 0 := by
  refine ⟨⟨reached _ (by decide +kernel), ?_, ?_, ?_⟩, ?_⟩ <;> (try unfold entryIs) <;> decide +kernel
/-- Combined mappings that a fill creates with paging. -/
theorem witness_NoFillFromBadEptEntry_paged : eptPaged.pg = true ∧
    (∃ f m t, fillMapping cfg eptPaged (.combTr 0#64 f) = some (.combTr m, t) ∧ m.guest ≠ []) ∧
    ∃ m t, fillMapping cfg eptPaged (.combPsc 0#64 1) = some (.combPsc m, t) ∧ m.guest ≠ [] := by
  have h1 : (match fillMapping cfg eptPaged (.combTr 0#64 .nothing) with
    | some (.combTr m, _) => decide (m.guest ≠ [])
    | _ => false) = true := by decide +kernel
  have h2 : (match fillMapping cfg eptPaged (.combPsc 0#64 1) with
    | some (.combPsc m, _) => decide (m.guest ≠ [])
    | _ => false) = true := by decide +kernel
  refine ⟨by decide +kernel, ?_, ?_⟩
  · split at h1
    · rename_i m t hm
      exact ⟨.nothing, m, t, hm, of_decide_eq_true h1⟩
    · cases h1
  · split at h2
    · rename_i m t hm
      exact ⟨m, t, hm, of_decide_eq_true h2⟩
    · cases h2
theorem witness_NoFillFromBadGuestEntry :
    (∃ m t, fillMapping cfg plainPaged (.linearTr 0#64) = some (.linearTr m, t) ∧ m.guest.length = 2) ∧
    ∃ f m t, fillMapping cfg eptPaged (.combTr 0#64 f) = some (.combTr m, t) ∧ m.guest.length = 2 := by
  have h1 : (match fillMapping cfg plainPaged (.linearTr 0#64) with
    | some (.linearTr m, _) => decide (m.guest.length = 2)
    | _ => false) = true := by decide +kernel
  have h2 : (match fillMapping cfg eptPaged (.combTr 0#64 .nothing) with
    | some (.combTr m, _) => decide (m.guest.length = 2)
    | _ => false) = true := by decide +kernel
  constructor
  · split at h1
    · rename_i m t hm
      exact ⟨m, t, hm, of_decide_eq_true h1⟩
    · cases h1
  · split at h2
    · rename_i m t hm
      exact ⟨.nothing, m, t, hm, of_decide_eq_true h2⟩
    · cases h2
/-- Paging-structure-cache entries that a fill creates, with a guest entry. -/
theorem witness_NoFillFromBadGuestEntry_psc :
    (∃ depth m t, fillMapping cfg plainPaged (.linearPsc 0#64 depth) = some (.linearPsc m, t) ∧ m.guest.length = 1) ∧
    ∃ depth m t, fillMapping cfg eptPaged (.combPsc 0#64 depth) = some (.combPsc m, t) ∧ m.guest.length = 1 := by
  have h1 : (match fillMapping cfg plainPaged (.linearPsc 0#64 1) with
    | some (.linearPsc m, _) => decide (m.guest.length = 1)
    | _ => false) = true := by decide +kernel
  have h2 : (match fillMapping cfg eptPaged (.combPsc 0#64 1) with
    | some (.combPsc m, _) => decide (m.guest.length = 1)
    | _ => false) = true := by decide +kernel
  constructor
  · split at h1
    · rename_i m t hm
      exact ⟨1, m, t, hm, of_decide_eq_true h1⟩
    · cases h1
  · split at h2
    · rename_i m t hm
      exact ⟨1, m, t, hm, of_decide_eq_true h2⟩
    · cases h2
theorem witness_NeedNotInvalidate : (Mapping.gphysTr stale).isGPhys = true ∧ (Mapping.gphysPsc default).isGPhys = true ∧
    (Mapping.linearTr default).isLinear = true ∧ (Mapping.linearPsc default).isLinear = true ∧ tagged.vmcs.enableVpid = true := by decide
theorem witness_InvalidationInstrTraps : (State.reset.mode = .outsideVmx ∧ State.reset.cpuMode = .realAddress) ∧
    ({ st [] vmcs with cpuMode := .compatibility } : State).cpuMode = .compatibility ∧
    ((st [] vmcs).mode = .nonRoot ∧ (st [] vmcs).cpuMode = .long64) ∧
    (({ root 0 0 0 [] with cpl := 3#2 } : State).mode = .root ∧ (root 0 0 0 []).cpuMode = .long64 ∧ (3#2 : BitVec 2) ≠ 0#2 ∧
      (1#2 : BitVec 2) ≠ 0#2) := by decide +kernel
theorem witness_DescriptorRead : (root 0 5#64 0 []).mode = .root ∧ (root 0 5#64 0 []).cpl = 0#2 ∧ (root 0 5#64 0 []).cpuMode = .long64 ∧
    (root 0 5#64 0 []).segmentAllows (mem .a64 1) 16 = true ∧
    (∃ q x, linearAccess cfg (descAccess (root 0 5#64 0 []) (mem .a64 1)) (Ctx.start (root 0 5#64 0 [])) = .ok q x) ∧
    ∃ e x, linearAccess cfg (descAccess plainPaged (mem .a64 1)) (Ctx.start plainPaged) = .raised e x := by
  obtain ⟨q, x, h, -⟩ := okHas_spec (p := fun _ _ => true)
    (r := linearAccess cfg (descAccess (root 0 5#64 0 []) (mem .a64 1)) (Ctx.start (root 0 5#64 0 []))) (by decide +kernel)
  obtain ⟨e, y, h2, -⟩ := raisedHas_spec (p := fun _ => true)
    (r := linearAccess cfg (descAccess plainPaged (mem .a64 1)) (Ctx.start plainPaged)) (by decide +kernel)
  exact ⟨rfl, rfl, rfl, by decide +kernel, ⟨q, x, h⟩, e, y, h2⟩
/-- The segment clause at its boundaries: the last byte is one beyond the limit, or beyond the last canonical address. -/
theorem witness_DescriptorRead_segment :
    ({ root 0 5#64 0 [] with cpuMode := .protectedMode, segs := State.reset.segs.set 3 ⟨0#64, 0, 0x100E#32, true⟩ } : State).segmentAllows
      (mem .a32 1) 16 = false ∧
    ({ root 0 5#64 0 [] with cpuMode := .protectedMode, segs := State.reset.segs.set 3 ⟨0#64, 0, 0x100F#32, true⟩ } : State).segmentAllows
      (mem .a32 1) 16 = true ∧
    ({ root 0 5#64 0 [] with gpr := State.reset.gpr.set 1 0x7FFFFFFFFFF1#64 } : State).segmentAllows (mem .a64 1) 16 = false ∧
    ({ root 0 5#64 0 [] with gpr := State.reset.gpr.set 1 0x7FFFFFFFFFF0#64 } : State).segmentAllows (mem .a64 1) 16 = true := by decide +kernel

/-- The descriptor that a state of `root` has in memory. -/
def descOf (s : State) : BitVec 128 := descOfBytes (s.flatBytes Config.cfg (s.linearAddr (mem .a64 1)) 16)

theorem witness_InveptCompletes : (root 1#64 0x10001E#64 0 [.gphysTr stale]).mode = .root ∧ (root 1#64 0x10001E#64 0 []).cpl = 0#2 ∧
    (root 1#64 0x10001E#64 0 []).cpuMode = .long64 ∧ (root 1#64 0x10001E#64 0 []).pg = false ∧ (root 1#64 0x10001E#64 0 []).agents = [] ∧
    (root 1#64 0x10001E#64 0 []).segmentAllows (mem .a64 1) 16 = true ∧
    flatInRange Config.cfg (root 1#64 0x10001E#64 0 []) ((root 1#64 0x10001E#64 0 []).linearAddr (mem .a64 1)) 16 ∧
    descHigh (descOf (root 1#64 0x10001E#64 0 [])) = 0#64 ∧ (root 1#64 0x10001E#64 0 []).regOperand 0 = 1#64 ∧
    eptpValid Config.cfg (descEptp (descOf (root 1#64 0x10001E#64 0 []))) = true ∧ (root 2#64 0x10001E#64 0 []).regOperand 0 = 2#64 := by
  unfold flatInRange
  decide +kernel
theorem witness_InveptFails : (root 0 0 0 []).mode = .root ∧ (root 0 0 0 []).cpl = 0#2 ∧ (root 0 0 0 []).cpuMode = .long64 ∧
    ((0#64 : Word) ≠ 1#64 ∧ (0#64 : Word) ≠ 2#64) ∧ ((3#64 : Word) ≠ 1#64 ∧ (3#64 : Word) ≠ 2#64) ∧
    ({ cfg with inveptTypes := 0b100#3 } : Cfg).inveptTypes.getLsbD 1 = false ∧
    ({ cfg with inveptTypes := 0b010#3 } : Cfg).inveptTypes.getLsbD 2 = false ∧ descHigh (1#64 ++ 0x10001E#64) ≠ 0#64 ∧
    eptpValid cfg (descEptp (0#64 ++ 0x100019#64)) = false ∧ ({ root 0 0 0 [] with vmcsCurrent := true } : State).vmcsCurrent = true ∧
    (root 0 0 0 []).vmcsCurrent = false := by decide +kernel
theorem witness_InvvpidCompletes : (root 0 5#64 0x1000#64 []).mode = .root ∧ (root 0 5#64 0x1000#64 []).cpl = 0#2 ∧
    (root 0 5#64 0x1000#64 []).cpuMode = .long64 ∧ (root 0 5#64 0x1000#64 []).pg = false ∧ (root 0 5#64 0x1000#64 []).agents = [] ∧
    (root 0 5#64 0x1000#64 []).segmentAllows (mem .a64 1) 16 = true ∧
    flatInRange Config.cfg (root 0 5#64 0x1000#64 []) ((root 0 5#64 0x1000#64 []).linearAddr (mem .a64 1)) 16 ∧
    (descOf (root 0 5#64 0x1000#64 [])).extractLsb' 16 48 = 0#48 ∧ (descOf (root 0 5#64 0x1000#64 [])).extractLsb' 0 16 ≠ 0#16 ∧
    canonical ((descOf (root 0 5#64 0x1000#64 [])).extractLsb' 64 64) = true ∧ (root 0 5#64 0x1000#64 []).regOperand 0 = 0#64 ∧
    (root 1#64 5#64 0 []).regOperand 0 = 1#64 ∧ (root 2#64 5#64 0 []).regOperand 0 = 2#64 ∧ (root 3#64 5#64 0 []).regOperand 0 = 3#64 := by
  unfold flatInRange
  decide +kernel
theorem witness_InvvpidFails : (root 0 0 0 []).mode = .root ∧ (root 0 0 0 []).cpl = 0#2 ∧ (root 0 0 0 []).cpuMode = .long64 ∧
    3 < (4#64 : Word).toNat ∧ ({ cfg with invvpidTypes := 0b0111#4 } : Cfg).invvpidTypes.getLsbD (3#64 : Word).toNat = false ∧
    (0x10005#128).extractLsb' 16 48 ≠ 0#48 ∧ ((1#64 : Word) ≠ 2#64 ∧ (0#128).extractLsb' 0 16 = 0#16) ∧
    canonical ((0x800000000000#64 ++ 5#64).extractLsb' 64 64) = false := by decide +kernel
theorem witness_InvlpgCompletes : (root 0 0 0 []).mode ≠ .nonRoot ∧ (st [] vmcs).vmcs.exitOnInvlpg = false ∧
    (Mapping.linearTr default).isLinearOrCombined = true ∧ (Mapping.linearTr default).hasVpid (root 0 0 0 []).currentVpid = true := by decide
theorem witness_MovCrCompletes : (root 0 0 0 []).mode ≠ .nonRoot ∧ (root 0 0 0 []).eptInUse = false ∧
    (st [] default).vmcs.exitOnMovCr3 = false ∧ (st [] default).vmcs.exitOnMovCr4 = false ∧ (st [] default).eptInUse = false := by decide +kernel

/-- A guest with PAE paging whose PDPTE registers are loaded from V1's page. -/
def pae : State := { st [(0x100000, 0x101007#64)] vmcs with cr3 := 0x40201220#64, cr4 := 0x20#64, gpr := State.reset.gpr.set 0 0x40201220#64 }

/-- The PDPTE load of both instructions, at a configuration that can be evaluated. -/
theorem witness_MovCrCompletes_load :
    (∃ report x, pdpteLoad cfg (Ctx.start (pae.withCr3 (pae.regOperand 0))) = .ok report x ∧ x.typed.length = 4) ∧
    (∃ report x, pdpteLoad cfg (Ctx.start (pae.withCr4 (pae.regOperand 0))) = .ok report x ∧ x.typed.length = 4) ∧
    pae.vmcs.exitOnMovCr3 = false ∧ pae.vmcs.exitOnMovCr4 = false := by
  obtain ⟨a, x, h, k⟩ := okHas_spec (p := fun (_ : Report) x => decide (x.typed.length = 4))
    (r := pdpteLoad cfg (Ctx.start (pae.withCr3 (pae.regOperand 0)))) (by decide +kernel)
  obtain ⟨b, y, h2, k2⟩ := okHas_spec (p := fun (_ : Report) x => decide (x.typed.length = 4))
    (r := pdpteLoad cfg (Ctx.start (pae.withCr4 (pae.regOperand 0)))) (by decide +kernel)
  exact ⟨⟨a, x, h, of_decide_eq_true k⟩, ⟨b, y, h2, of_decide_eq_true k2⟩, rfl, rfl⟩
theorem witness_PdpteLoad : cfg.guest.usesPae pae.guestRegs = true ∧ pae.eptInUse = true ∧
    (∃ g y, guestPhysAccess cfg ⟨.dataRead, false, false, 8, none, false, .plain⟩ (cfg.guest.pdptBase pae.guestRegs + BitVec.ofNat 64 (8 * 3))
      (Ctx.start pae) = .ok g y ∧ (y.st.agents = [] ∧ inRange cfg g.pa.toNat 8 = true)) ∧
    ∃ v0 x1 v1 x2 v2 x3 v3 x4, readPdpte cfg 0 (Ctx.start pae) = .ok v0 x1 ∧ readPdpte cfg 1 x1 = .ok v1 x2 ∧
      readPdpte cfg 2 x2 = .ok v2 x3 ∧ readPdpte cfg 3 x3 = .ok v3 x4 := by
  obtain ⟨g, y, hg, kg⟩ := okHas_spec (p := fun (g : Granted) y => decide (y.st.agents = [] ∧ inRange cfg g.pa.toNat 8 = true))
    (r := guestPhysAccess cfg ⟨.dataRead, false, false, 8, none, false, .plain⟩ (cfg.guest.pdptBase pae.guestRegs + BitVec.ofNat 64 (8 * 3))
      (Ctx.start pae)) (by decide +kernel)
  obtain ⟨u, x, h, -⟩ := okHas_spec (p := fun (_ : Unit) _ => true) (r := loadPdptes cfg (Ctx.start pae)) (by decide +kernel)
  obtain ⟨v0, x1, h1, h⟩ := Res.bind_eq_ok.1 h
  obtain ⟨v1, x2, h2, h⟩ := Res.bind_eq_ok.1 h
  obtain ⟨v2, x3, h3, h⟩ := Res.bind_eq_ok.1 h
  obtain ⟨v3, x4, h4, h⟩ := Res.bind_eq_ok.1 h
  exact ⟨by decide +kernel, by decide +kernel, ⟨g, y, hg, of_decide_eq_true kg⟩, v0, x1, v1, x2, v2, x3, v3, x4, h1, h2, h3, h4⟩
theorem witness_MovCrExitKeepsRegisters :
    (∃ t, movCr3With cfg 0 (st [] { vmcs with exitOnMovCr3 := true }) = .next t ∧ t.report = .exit (.instr .movCr3)) ∧
    ∃ t, movCr4With cfg 0 (st [] { vmcs with exitOnMovCr4 := true }) = .next t ∧ t.report = .exit (.instr .movCr4) := by
  obtain ⟨t, ht, h⟩ := nextHas_spec (p := fun t => decide (t.report = .exit (.instr .movCr3)))
    (o := movCr3With cfg 0 (st [] { vmcs with exitOnMovCr3 := true })) (by decide +kernel)
  obtain ⟨u, hu, h2⟩ := nextHas_spec (p := fun t => decide (t.report = .exit (.instr .movCr4)))
    (o := movCr4With cfg 0 (st [] { vmcs with exitOnMovCr4 := true })) (by decide +kernel)
  exact ⟨⟨t, ht, of_decide_eq_true h⟩, u, hu, of_decide_eq_true h2⟩

/-- An event of the PDPTE load: without T1's first entry the base that CR3 gives is not mapped. -/
theorem witness_MovCrExitKeepsRegisters_load : cfg.speculativeAccessedSet = false ∧
    (∃ t v, movCr3With cfg 0 { pae with mem := [] } = .next t ∧ t.report = .exit (.eptViolation v)) ∧
    ∃ t v, movCr4With cfg 0 { pae with mem := [], cr4 := 0#64, gpr := State.reset.gpr.set 0 0x20#64 } = .next t ∧
      t.report = .exit (.eptViolation v) := by
  obtain ⟨t, ht, h⟩ := nextHas_spec (p := fun t => decide (t.report =
      .exit (.eptViolation ⟨.dataRead, 0x40201220#64, none, ⟨false, false, false, false⟩, false, some 4, []⟩)))
    (o := movCr3With cfg 0 { pae with mem := [] }) (by decide +kernel)
  obtain ⟨u, hu, h2⟩ := nextHas_spec (p := fun t => decide (t.report =
      .exit (.eptViolation ⟨.dataRead, 0x40201220#64, none, ⟨false, false, false, false⟩, false, some 4, []⟩)))
    (o := movCr4With cfg 0 { pae with mem := [], cr4 := 0#64, gpr := State.reset.gpr.set 0 0x20#64 }) (by decide +kernel)
  exact ⟨rfl, ⟨t, _, ht, of_decide_eq_true h⟩, u, _, hu, of_decide_eq_true h2⟩
theorem witness_ConfiguredExits : (st [] { vmcs with exitOnInvlpg := true }).mode = .nonRoot ∧
    (st [] { vmcs with exitOnInvlpg := true }).vmcs.exitOnInvlpg = true ∧ (st [] { vmcs with exitOnMovCr3 := true }).vmcs.exitOnMovCr3 = true ∧
    (st [] { vmcs with exitOnMovCr4 := true }).vmcs.exitOnMovCr4 = true := by decide +kernel

/-- The EPT violation of a write by linear address to V1's page. -/
def writeViolation : EptViolation := ⟨.dataWrite, gpa, some gpa, ⟨true, false, true, false⟩, false, none, []⟩

theorem witness_EptViolationInvalidates : ∃ t, t = deliver cfg (.eptViolation writeViolation) v42 ∧ writeViolation.la = some gpa ∧
    writeViolation.pswalk = false ∧ v42.cache ≠ [] ∧ t.cache = [] := ⟨_, rfl, rfl, rfl, by decide +kernel, by decide +kernel⟩
theorem witness_RetryWalksTables : ∃ t u, t = deliver cfg (.eptViolation { writeViolation with mappings := [.gphysTr stale] }) v42 ∧
    u = vmEnter cfg t ∧ (v42.cache.any fun m => gphysUsable v42 writeViolation.gpa 4 m) = true ∧ u.mode = .nonRoot ∧ v42.mode = .nonRoot ∧
    v42.vmcs.enableEpt = true ∧ writeViolation.la = some gpa := ⟨_, _, rfl, rfl, by decide +kernel⟩
theorem witness_EptViolationFields : ∃ t, t = deliver cfg (.eptViolation writeViolation) v42 ∧ writeViolation.la.isSome = true ∧
    t.vmcs.exitReason = 48#16 := ⟨_, rfl, rfl, by decide +kernel⟩
theorem witness_VmExitEffect : (st [] vmcs).mode = .nonRoot ∧ (st [] vmcs).vmcs.enableVpid = false ∧ (root 0 0 0 []).mode ≠ .nonRoot ∧
    (Event.sppMiss gpa none).exits (st [] vmcs) = true ∧
    Event.ud.exits (st [] { vmcs with exceptionBitmap := 0x40#32 }) = true := by
  decide +kernel

/-- A state in root operation with a current VMCS. -/
def vmm (v : Vmcs) : State := { root 0 0 0 [] with vmcsCurrent := true, vmcs := v }

theorem witness_VmEntryEffect : ((vmm vmcs).mode = .root ∧ (vmm vmcs).vmcsCurrent = true ∧ (vmm vmcs).vmcs.wellFormed cfg = true) ∧
    (vmm (vmcsPml 0#16)).vmcs.wellFormed cfg = true ∧ (vmm { vmcs with enableVpid := true }).vmcs.wellFormed cfg = false ∧
    (st [] vmcs).mode ≠ .root ∧ (root 0 0 0 []).vmcsCurrent = false := by decide +kernel
/-- The clauses on injected accesses: one is performed, one ends in an event. -/
theorem witness_VmEntryEffect_inject :
    (∃ q x, linearAccess cfg ⟨.write [1#8], gpa, .plain⟩ (Ctx.start (vmEnter cfg { vmm vmcs with mem := image t1 })) = .ok q x) ∧
    (∃ e x, linearAccess cfg ⟨.read 1, 0#64, .plain⟩ (Ctx.start (vmEnter cfg { vmm vmcs with mem := image t1 })) = .raised e x) ∧
    ∃ t, runInput cfg (.vmEntry [⟨.write [1#8], gpa, .plain⟩, ⟨.read 1, gpa, .plain⟩]) { vmm vmcs with mem := image t1 } = .next t ∧
      t.report = .ok := by
  obtain ⟨q, x, h, -⟩ := okHas_spec (p := fun _ _ => true)
    (r := linearAccess cfg ⟨.write [1#8], gpa, .plain⟩ (Ctx.start (vmEnter cfg { vmm vmcs with mem := image t1 }))) (by decide +kernel)
  obtain ⟨e, y, h2, -⟩ := raisedHas_spec (p := fun _ => true)
    (r := linearAccess cfg ⟨.read 1, 0#64, .plain⟩ (Ctx.start (vmEnter cfg { vmm vmcs with mem := image t1 }))) (by decide +kernel)
  obtain ⟨t, h3, k⟩ := nextHas_spec (p := fun t => decide (t.report = .ok))
    (o := runInput cfg (.vmEntry [⟨.write [1#8], gpa, .plain⟩, ⟨.read 1, gpa, .plain⟩]) { vmm vmcs with mem := image t1 }) (by decide +kernel)
  exact ⟨⟨q, x, h⟩, ⟨e, y, h2⟩, t, h3, of_decide_eq_true k⟩
theorem witness_CpuidCompletes : ((root 1#64 0 0 []).gpr.get 0).extractLsb' 0 32 = 1#32 := by decide +kernel

end Sys2Proof.Tests
end

section
/-! PROOFS. CPUID completes and reports VMX (00_scope.md R3, 10_state.md R23, 30_encoding.md R65). -/

namespace Sys2Proof.Machine

open Sys2Proof

/-! Bits of the word operations. -/

theorem getLsbD_low32 (w : Word) (i : Nat) : (low32 w).getLsbD i = (decide (i < 32) && w.getLsbD i) := by
  simp only [BitVec.getLsbD, toNat_low32, Nat.testBit_mod_two_pow]

theorem getLsbD_bitIf (b : Bool) (j i : Nat) : (bitIf b j).getLsbD i = (b && decide (i < 64) && decide (i = j)) := by
  cases b
  · simp [bitIf]
  · have hbit : (decide (i < 64) && !decide (i < j) && decide (i - j = 0)) = (decide (i < 64) && decide (i = j)) := by
      rw [Bool.eq_iff_iff]
      simp only [Bool.and_eq_true, Bool.not_eq_true', decide_eq_true_eq, decide_eq_false_iff_not]
      omega
    simpa [bitIf, BitVec.getLsbD_shiftLeft, BitVec.getLsbD_one] using hbit

/-- A bit of `putBits` is the value's where the mask has a 1, and the free word's elsewhere. -/
theorem getLsbD_putBits (free mask value : Word) (i : Nat) :
    (putBits free mask value).getLsbD i = if mask.getLsbD i then value.getLsbD i else free.getLsbD i := by
  have hfree : free.getLsbD i = true → i < 64 := BitVec.lt_of_getLsbD
  cases hm : mask.getLsbD i
  case true => simp [putBits, hm]
  case false => simpa [putBits, hm] using hfree

theorem low32_upperHalf (w : Word) : (low32 w).extractLsb' 32 32 = 0#32 :=
  BitVec.eq_of_getLsbD_eq fun i _ => by simp [getLsbD_low32]

/-- `low32` sees the lower half alone: where that is 1, as for leaf 1 in EAX, the word is 1. -/
theorem low32_eq_one_of_lowerHalf {w : Word} (h : w.extractLsb' 0 32 = 1#32) : low32 w = 1#64 := by
  have hlow : w.toNat % 2 ^ 32 = 1 := by simpa using congrArg BitVec.toNat h
  exact BitVec.eq_of_toNat_eq ((toNat_low32 w).trans hlow)

/-! The VMX bit of ECX. -/

/-- Bit 5 says whether the configuration supports VMX (R3). -/
theorem vmxBit_bit5 (c : Cfg) (ecx : Word) : (vmxBit c ecx).getLsbD 5 = c.vmxSupported := by
  have hmask : (0x20#64).getLsbD 5 = true := by decide
  rw [vmxBit, getLsbD_putBits, hmask, if_pos rfl, getLsbD_bitIf]
  simp

/-- Bit 5 is in the lower half. -/
theorem vmxBit_upperHalf (c : Cfg) (ecx : Word) : (vmxBit c ecx).extractLsb' 32 32 = ecx.extractLsb' 32 32 := by
  have hmask (i : Nat) : (0x20#64).getLsbD (32 + i) = false := by
    have hi : ¬32 + i = 5 := by omega
    rw [show 0x20#64 = bitIf true 5 from rfl, getLsbD_bitIf]
    simp [hi]
  refine BitVec.eq_of_getLsbD_eq fun i _ => ?_
  simp only [BitVec.getLsbD_extractLsb', vmxBit, getLsbD_putBits, hmask, Bool.false_eq_true, if_false]

/-! The state after CPUID. -/

/-- A register read after a register write. -/
theorem gpr_get_set (v : Vector Word 16) (k : Nat) (hk : k < 16) (w : Word) (r : Reg) :
    (v.set k w hk).get r = if k = r.val then w else v.get r :=
  Vector.getElem_set ..

/-- The configuration decides the general registers alone: the rest is kept, but for the four free values taken and the report. -/
theorem cpuidState_frame (c : Cfg) (s : State) :
    cpuidState c s = { s with gpr := (cpuidState c s).gpr, freeCtr := s.freeCtr + 4, report := .ok } := rfl

/-- The registers after CPUID, one by one. -/
theorem cpuidState_gpr_get (c : Cfg) (s : State) (r : Reg) :
    (cpuidState c s).gpr.get r =
      if 3 = r.val then low32 (c.free (s.freeCtr + 3))
      else if 2 = r.val then low32 (c.free (s.freeCtr + 2))
      else if 1 = r.val then
        if s.cpuidLeaf = 1#64 then vmxBit c (low32 (c.free (s.freeCtr + 1))) else low32 (c.free (s.freeCtr + 1))
      else if 0 = r.val then low32 (c.free s.freeCtr)
      else s.gpr.get r := by
  simp only [cpuidState, State.withReport_gpr, State.bump_gpr, State.withGpr_gpr, gpr_get_set]

/-- EAX, ECX, EDX and EBX are the registers 0 to 3 (R65). -/
theorem cpuidState_gpr_of_four_le (c : Cfg) (s : State) (r : Reg) (h : 4 ≤ r.val) : (cpuidState c s).gpr.get r = s.gpr.get r := by
  rw [cpuidState_gpr_get, if_neg (by omega), if_neg (by omega), if_neg (by omega), if_neg (by omega)]

theorem cpuidState_gpr_upperHalf (c : Cfg) (s : State) (r : Reg) (h : r.val < 4) :
    ((cpuidState c s).gpr.get r).extractLsb' 32 32 = 0#32 := by
  rw [cpuidState_gpr_get]
  split_ifs with hebx hedx hecx hleaf heax
  · exact low32_upperHalf _
  · exact low32_upperHalf _
  · rw [vmxBit_upperHalf, low32_upperHalf]
  · exact low32_upperHalf _
  · exact low32_upperHalf _
  · omega

theorem cpuidState_ecx_bit5 (c : Cfg) (s : State) (h : s.cpuidLeaf = 1#64) :
    ((cpuidState c s).gpr.get 1).getLsbD 5 = c.vmxSupported := by
  have hecx : (cpuidState c s).gpr.get 1 = vmxBit c (low32 (c.free (s.freeCtr + 1))) := by
    simp [cpuidState_gpr_get, h]
  rw [hecx, vmxBit_bit5]

theorem exec_cpuid (s : State) : exec .cpuid s = .next (cpuidState Config.cfg s) := rfl

/-- Settles O54: the state is `cpuidState`, and the machine's configuration supports VMX. -/
theorem cpuidCompletes : Obligations.CpuidCompletes := by
  intro s
  have hnext : exec .cpuid s =
      .next { s with gpr := (cpuidState Config.cfg s).gpr, freeCtr := s.freeCtr + 4, report := .ok } :=
    (exec_cpuid s).trans (congrArg _ (cpuidState_frame Config.cfg s))
  refine ⟨_, _, hnext, cpuidState_gpr_of_four_le Config.cfg s, cpuidState_gpr_upperHalf Config.cfg s, fun hleaf => ?_⟩
  exact cpuidState_ecx_bit5 Config.cfg s (low32_eq_one_of_lowerHalf hleaf)

end Sys2Proof.Machine
end

section
/-! PROOFS. Reset and the VMM's write of the controls (10_state.md R18, R30, R31, 92_eei_decisions.md D19). -/

namespace Sys2Proof.Machine

open Sys2Proof

theorem runInput_powerReset (c : Cfg) (s : State) : runInput c .powerReset s = .next (powerReset s) := rfl

/-- Of the state before it a reset keeps memory, the labels and writes to come, and the count of free values (log 38). -/
theorem powerReset_frame (s : State) :
    powerReset s = { State.reset with mem := s.mem, inputs := s.inputs, agents := s.agents, freeCtr := s.freeCtr } := rfl

/-- Settles O6: the state after the label is `powerReset`, which has the cache of `State.reset`. -/
theorem resetEmptiesCache : Obligations.ResetEmptiesCache := by
  refine ⟨rfl, fun c s => ⟨powerReset s, runInput_powerReset c s, ?_⟩⟩
  rw [powerReset_frame]
  rfl

/-- EPT is in use in VMX non-root operation only (41_ept_translation.md R81). -/
theorem State.eptInUse_of_outsideVmx {s : State} (h : s.mode = .outsideVmx) : s.eptInUse = false := by
  rw [State.eptInUse, h]
  rfl

/-- The current VPID outside VMX operation (40_vpid.md R73). -/
theorem State.currentVpid_of_outsideVmx {s : State} (h : s.mode = .outsideVmx) : s.currentVpid = 0#16 := by
  rw [State.currentVpid, h]

/-- Settles O7: `powerReset` has the mode of `State.reset`, which decides EPT's use and the VPID. -/
theorem resetLeavesVmx : Obligations.ResetLeavesVmx := by
  intro c s
  have hmode : (powerReset s).mode = .outsideVmx := by
    rw [powerReset_frame]
    rfl
  refine ⟨powerReset s, runInput_powerReset c s, hmode, State.eptInUse_of_outsideVmx hmode,
    State.currentVpid_of_outsideVmx hmode, ?_⟩
  rw [powerReset_frame]

/-- A write of the VMCS in root operation replaces it, and nothing else but the report (log 50). -/
theorem runVmcsWrite_root {s : State} (h : s.mode = .root) (current : Bool) (v : Vmcs) :
    runVmcsWrite current v s = .next { s with vmcs := v, vmcsCurrent := current, report := .ok } := by
  rw [runVmcsWrite, if_pos (by simp [h])]
  rfl

/-- Elsewhere it is refused (10_state.md R18). -/
theorem runVmcsWrite_notRoot {s : State} (h : s.mode ≠ .root) (current : Bool) (v : Vmcs) :
    runVmcsWrite current v s = .refused .controlsWriteOutsideRoot := by
  rw [runVmcsWrite, if_neg (by simpa using h)]

/-- Settles O12, by the two cases of the mode. -/
theorem controlsWrittenInRoot : Obligations.ControlsWrittenInRoot :=
  fun _ _ current v => ⟨fun h => runVmcsWrite_root h current v, fun h => runVmcsWrite_notRoot h current v⟩

end Sys2Proof.Machine
end

section
/-! PROOFS. What a step may change of what the invariant and 10_state.md R18 speak of. -/

namespace Sys2Proof.Machine

open Sys2Proof

/-! The relation. -/

/-- From `s` to `t` memory keeps its form and its bound; VMX non-root operation is not entered, and where it is not left either the VMCS is the
same one with the same controls (10_state.md R18); a new cached mapping has a level that can reference a table. -/
structure Evolves (c : Cfg) (s t : State) : Prop where
  wf : s.mem.wf = true → t.mem.wf = true
  below : s.mem.below (2 ^ c.width) = true → t.mem.below (2 ^ c.width) = true
  nonRoot : t.mode = .nonRoot → s.mode = .nonRoot ∧ t.vmcsCurrent = s.vmcsCurrent ∧ t.vmcs.controls = s.vmcs.controls
  cache : ∀ m ∈ t.cache, m ∈ s.cache ∨ m.levelOk = true

/-- A change of neither memory, mode, controls nor cache. -/
theorem Evolves.of_same {c : Cfg} {s t : State} (hmem : t.mem = s.mem) (hmode : t.mode = s.mode) (hcurrent : t.vmcsCurrent = s.vmcsCurrent)
    (hcontrols : t.vmcs.controls = s.vmcs.controls) (hcache : t.cache = s.cache) : Evolves c s t where
  wf := by rw [hmem]; exact id
  below := by rw [hmem]; exact id
  nonRoot h := ⟨hmode ▸ h, hcurrent, hcontrols⟩
  cache m hm := .inl (hcache ▸ hm)

/-- A change that ends outside VMX non-root operation, with memory kept and no mapping added. -/
theorem Evolves.of_mode_ne {c : Cfg} {s t : State} (hmem : t.mem = s.mem) (hmode : t.mode ≠ .nonRoot) (hcache : t.cache ⊆ s.cache) :
    Evolves c s t where
  wf := by rw [hmem]; exact id
  below := by rw [hmem]; exact id
  nonRoot h := absurd h hmode
  cache m hm := .inl (hcache hm)

theorem Evolves.refl (c : Cfg) (s : State) : Evolves c s s := .of_same rfl rfl rfl rfl rfl

theorem Evolves.trans {c : Cfg} {s t u : State} (h1 : Evolves c s t) (h2 : Evolves c t u) : Evolves c s u where
  wf := h2.wf ∘ h1.wf
  below := h2.below ∘ h1.below
  nonRoot h := by
    obtain ⟨hmode, hcurrent, hcontrols⟩ := h2.nonRoot h
    obtain ⟨hmode', hcurrent', hcontrols'⟩ := h1.nonRoot hmode
    exact ⟨hmode', hcurrent.trans hcurrent', hcontrols.trans hcontrols'⟩
  cache m hm := (h2.cache m hm).elim (h1.cache m) .inr

/-- Whether controls are well formed is decided by the controls alone. -/
theorem Vmcs.wellFormed_controls (c : Cfg) (v : Vmcs) : v.controls.wellFormed c = v.wellFormed c := rfl

theorem Vmcs.wellFormed_congr {c : Cfg} {v w : Vmcs} (h : v.controls = w.controls) : v.wellFormed c = w.wellFormed c := by
  rw [← v.wellFormed_controls, h, w.wellFormed_controls]

theorem Evolves.inv {c : Cfg} {s t : State} (h : Evolves c s t) (hs : s.Inv c) : t.Inv c := by
  obtain ⟨hwf, hbelow, hnonRoot, hcache⟩ := hs
  refine ⟨h.wf hwf, h.below hbelow, fun ht => ?_, fun m hm => (h.cache m hm).elim (hcache m) id⟩
  obtain ⟨hmode, hcurrent, hcontrols⟩ := h.nonRoot ht
  obtain ⟨hscurrent, hswf⟩ := hnonRoot hmode
  exact ⟨hcurrent.trans hscurrent, (Vmcs.wellFormed_congr hcontrols).trans hswf⟩

/-! The shared operations. -/

/-- What an access has come to. -/
theorem Kept.evolves {c : Cfg} {x y : Ctx} (h : Kept c x y) : Evolves c x.st y.st := by
  obtain ⟨⟨mem, i, n, k, hst, -⟩, hwf, hbelow, -⟩ := h
  refine ⟨hwf, hbelow, ?_, ?_⟩ <;> rw [hst]
  · exact fun hmode => ⟨hmode, rfl, rfl⟩
  · exact fun m hm => .inl hm

/-- The state before an access, with what other agents have written meanwhile; the access may have started from a state `s1` with the same
memory. -/
theorem Kept.meanwhile_evolves {c : Cfg} {s s1 : State} {y : Ctx} (h : Kept c (Ctx.start s1) y) (hmem : s1.mem = s.mem) :
    Evolves c s (s.meanwhile y) := by
  obtain ⟨-, hwf, hbelow⟩ := h.meanwhile
  simp only [State.meanwhile_mem, hmem] at hwf hbelow
  exact ⟨hwf, hbelow, fun hmode => ⟨hmode, rfl, rfl⟩, fun m hm => .inl hm⟩

theorem invalidate_evolves (c : Cfg) (required : Mapping → Bool) (s : State) : Evolves c s (invalidate c required s) := by
  obtain ⟨kept, n, hsub, -, heq⟩ := invalidate_spec c required s
  rw [heq]
  exact ⟨id, id, fun hmode => ⟨hmode, rfl, rfl⟩, fun m hm => .inl (hsub.subset hm)⟩

/-- An event is an exception, which changes RIP, or a VM exit, which leaves VMX non-root operation. -/
theorem deliver_evolves (c : Cfg) (e : Event) (s : State) : Evolves c s (deliver c e s) := by
  cases hexits : e.exits s with
  | false =>
    rw [deliver_exception hexits]
    exact .of_same rfl rfl rfl rfl rfl
  | true =>
    obtain ⟨kept, n, rip, hsub, -, -, heq⟩ := deliver_exit hexits c
    rw [heq]
    exact .of_mode_ne rfl nofun hsub.subset

/-- Without `SpeculativeAccessedSet` (92_eei_decisions.md D10) an event leaves nothing of the access it ends but what other agents wrote and
the free values drawn. -/
theorem rollback_eq_meanwhile {c : Cfg} (hc : c.speculativeAccessedSet = false) (s : State) (e : Event) (x : Ctx) :
    rollback c s e x = s.meanwhile x := by
  unfold rollback
  split
  · rfl
  · rw [hc]
    rfl

/-- An event of an access, taken in the state before it. -/
theorem Kept.deliver_evolves {c : Cfg} (hc : c.speculativeAccessedSet = false) {s s1 : State} {x : Ctx} (h : Kept c (Ctx.start s1) x)
    (hmem : s1.mem = s.mem) (e : Event) : Evolves c s (deliver c e (rollback c s e x)) := by
  rw [rollback_eq_meanwhile hc]
  exact (h.meanwhile_evolves hmem).trans (Machine.deliver_evolves c e _)

theorem Keeps.kept_of_ok {α : Type} {c : Cfg} {x y : Ctx} {r : Res α} {a : α} (h : Keeps c x r) (hr : r = .ok a y) : Kept c x y := by
  rw [hr] at h
  exact h

theorem Keeps.kept_of_raised {α : Type} {c : Cfg} {x y : Ctx} {r : Res α} {e : Event} (h : Keeps c x r) (hr : r = .raised e y) :
    Kept c x y := by
  rw [hr] at h
  exact h

/-- A step made of an access and what comes after it. -/
theorem Keeps.outcome_evolves {α : Type} {c : Cfg} (hc : c.speculativeAccessedSet = false) {s t : State} {r : Res α}
    {f : α → State → Host.Outcome State Fault Refusal} (hr : Keeps c (Ctx.start s) r)
    (hf : ∀ a u, f a u = .next t → Evolves c u t) (h : r.outcome c s f = .next t) : Evolves c s t := by
  rcases Res.outcome_eq_next.1 h with ⟨a, x, hok, ht⟩ | ⟨e, x, hraised, rfl⟩
  · exact (hr.kept_of_ok hok).evolves.trans (hf a x.st ht)
  · exact (hr.kept_of_raised hraised).deliver_evolves hc rfl e

/-! The instructions. -/

theorem vmSucceed_evolves (c : Cfg) (s : State) : Evolves c s (vmSucceed s) := .of_same rfl rfl rfl rfl rfl

/-- The VM-instruction error is no control. -/
theorem vmFail_evolves (c : Cfg) (n : Nat) (s : State) : Evolves c s (vmFail n s) := by
  unfold vmFail
  split <;> exact .of_same rfl rfl rfl rfl rfl

/-- The end of INVVPID and INVEPT once the tests (1) to (3) have passed (47_invalidation.md R277, R285). -/
theorem invalidateOrFail_evolves (c : Cfg) (valid : Bool) (required : Mapping → Bool) (n : Nat) (s : State) :
    Evolves c s (if valid then vmSucceed (invalidate c required s) else vmFail n s) := by
  split
  · exact (invalidate_evolves c required s).trans (vmSucceed_evolves c _)
  · exact vmFail_evolves c n s

theorem invvpidOp_evolves (c : Cfg) (type : Word) (d : BitVec 128) (s : State) : Evolves c s (invvpidOp c type d s) := by
  unfold invvpidOp
  split
  · exact deliver_evolves c _ s
  · exact invalidateOrFail_evolves c _ _ 28 s

theorem inveptOp_evolves (c : Cfg) (type : Word) (d : BitVec 128) (s : State) : Evolves c s (inveptOp c type d s) := by
  unfold inveptOp
  split
  · exact deliver_evolves c _ s
  · exact invalidateOrFail_evolves c _ _ 28 s

theorem descInstr_evolves {c : Cfg} (hc : c.speculativeAccessedSet = false) {op : Word → BitVec 128 → State → State}
    (hop : ∀ type d u, Evolves c u (op type d u)) {i : ExitInstr} {r : Reg} {m : MemOp} {s t : State}
    (h : descInstr c i op r m s = .next t) : Evolves c s t := by
  unfold descInstr at h
  split at h
  · cases h
    exact deliver_evolves c _ s
  · split at h
    · refine (linearAccess_keeps c (descAccess s m) (Ctx.start s)).outcome_evolves hc (fun q u hu => ?_) h
      cases hu
      exact hop _ _ u
    · cases h
      exact deliver_evolves c _ s

theorem withReport_evolves (c : Cfg) (s : State) (v : Report) : Evolves c s (s.withReport v) := .of_same rfl rfl rfl rfl rfl

theorem tlbOp_evolves (c : Cfg) (op : TlbOp) (s : State) : Evolves c s (tlbOp c op s) :=
  (invalidate_evolves c _ s).trans (withReport_evolves c _ _)

theorem invlpgWith_evolves {c : Cfg} {m : MemOp} {s t : State} (h : invlpgWith c m s = .next t) : Evolves c s t := by
  unfold invlpgWith at h
  split at h
  · cases h
    exact deliver_evolves c _ s
  · cases h
    exact tlbOp_evolves c _ s

theorem Res.bind_assoc {α β γ : Type} (r : Res α) (f : α → Ctx → Res β) (g : β → Ctx → Res γ) :
    (r.bind f).bind g = r.bind fun a x => (f a x).bind g := by
  cases r <;> rfl

/-- The four reads of the PDPTE load (41_ept_translation.md R89). -/
def readPdptes (c : Cfg) (x : Ctx) : Res (Vector Word 4) :=
  (readPdpte c 0 x).bind fun v0 x0 => (readPdpte c 1 x0).bind fun v1 x1 =>
    (readPdpte c 2 x1).bind fun v2 x2 => (readPdpte c 3 x2).bind fun v3 x3 => .ok #v[v0, v1, v2, v3] x3

/-- The PDPTE load is its reads, and then the registers written. -/
theorem loadPdptes_eq (c : Cfg) (x : Ctx) :
    loadPdptes c x = (readPdptes c x).bind fun v y => .ok () (y.mapSt fun s => s.withPdpte v) := by
  simp only [loadPdptes, readPdptes, Res.bind_assoc, Res.bind_ok]

theorem readPdpte_keeps (c : Cfg) (i : Nat) (x : Ctx) : Keeps c x (readPdpte c i x) :=
  (guestPhysAccess_keeps c pdpteAccess _ x).bind fun _ y _ => Keeps.from (kept_note c y _) (physRead64_keeps c _ _)

theorem readPdptes_keeps (c : Cfg) (x : Ctx) : Keeps c x (readPdptes c x) :=
  (readPdpte_keeps c 0 x).bind fun _ x0 _ => (readPdpte_keeps c 1 x0).bind fun _ x1 _ =>
    (readPdpte_keeps c 2 x1).bind fun _ x2 _ => (readPdpte_keeps c 3 x2).bind fun _ x3 _ => Keeps.same c x3 _

/-- A PDPTE load that comes to its end. -/
theorem pdpteLoad_ok_evolves {c : Cfg} {x y : Ctx} {report : Report} (h : pdpteLoad c x = .ok report y) : Evolves c x.st y.st := by
  unfold pdpteLoad at h
  split at h
  · rw [loadPdptes_eq, Res.bind_assoc] at h
    obtain ⟨v, z, hread, hz⟩ := Res.bind_eq_ok.1 h
    cases hz
    exact ((readPdptes_keeps c x).kept_of_ok hread).evolves.trans (.of_same rfl rfl rfl rfl rfl)
  · cases h
    exact .refl c _

/-- A PDPTE load that ends in an event: no register is written. -/
theorem pdpteLoad_raised_kept {c : Cfg} {x y : Ctx} {e : Event} (h : pdpteLoad c x = .raised e y) : Kept c x y := by
  unfold pdpteLoad at h
  split at h
  · rw [loadPdptes_eq, Res.bind_assoc] at h
    rcases Res.bind_eq_raised.1 h with hread | ⟨v, z, -, hz⟩
    · exact (readPdptes_keeps c x).kept_of_raised hread
    · cases hz
  · cases h

/-- MOV to a control register, the register being written in `s1`. -/
theorem movCr_evolves {c : Cfg} (hc : c.speculativeAccessedSet = false) {op : TlbOp} {s s1 t : State} (hs : Evolves c s s1)
    (hmem : s1.mem = s.mem) (h : movCr c op s s1 = .next t) : Evolves c s t := by
  rcases Res.outcome_eq_next.1 h with ⟨report, x, hload, ht⟩ | ⟨e, x, hload, rfl⟩
  · cases ht
    have hload : Evolves c s1 x.st := pdpteLoad_ok_evolves hload
    exact (hs.trans hload).trans ((tlbOp_evolves c op x.st).trans (withReport_evolves c _ _))
  · exact (pdpteLoad_raised_kept hload).deliver_evolves hc hmem e

theorem movCr3With_evolves {c : Cfg} (hc : c.speculativeAccessedSet = false) {r : Reg} {s t : State} (h : movCr3With c r s = .next t) :
    Evolves c s t := by
  unfold movCr3With at h
  split at h
  · cases h
    exact deliver_evolves c _ s
  · exact movCr_evolves (s1 := s.withCr3 (s.regOperand r)) hc (.of_same rfl rfl rfl rfl rfl) rfl h

theorem movCr4With_evolves {c : Cfg} (hc : c.speculativeAccessedSet = false) {r : Reg} {s t : State} (h : movCr4With c r s = .next t) :
    Evolves c s t := by
  unfold movCr4With at h
  split at h
  · cases h
    exact deliver_evolves c _ s
  · exact movCr_evolves (s1 := s.withCr4 (s.regOperand r)) hc (.of_same rfl rfl rfl rfl rfl) rfl h

/-- VMXON and VMXOFF enter no VMX non-root operation (47_invalidation.md R297). -/
theorem vmxSwitch_evolves (c : Cfg) {m : Mode} (hm : m ≠ .nonRoot) (s : State) : Evolves c s (vmxSwitch c m s) := by
  obtain ⟨kept, n, hsub, -, heq⟩ := invalidate_spec c (fun _ => false) s
  rw [vmxSwitch, heq]
  exact .of_mode_ne rfl hm hsub.subset

theorem Config.cfg_speculativeAccessedSet : Config.cfg.speculativeAccessedSet = false := rfl

theorem exec_evolves {i : Instr} {s t : State} (h : exec i s = .next t) : Evolves Config.cfg s t := by
  cases i with
  | invept r m => exact descInstr_evolves Config.cfg_speculativeAccessedSet (inveptOp_evolves Config.cfg) h
  | invvpid r m => exact descInstr_evolves Config.cfg_speculativeAccessedSet (invvpidOp_evolves Config.cfg) h
  | movCr3 r => exact movCr3With_evolves Config.cfg_speculativeAccessedSet h
  | movCr4 r => exact movCr4With_evolves Config.cfg_speculativeAccessedSet h
  | invlpg m => exact invlpgWith_evolves h
  | vmxon m =>
    cases h
    exact vmxSwitch_evolves Config.cfg (m := .root) nofun s
  | vmxoff =>
    cases h
    exact vmxSwitch_evolves Config.cfg (m := .outsideVmx) nofun s
  | cpuid =>
    cases h
    exact .of_same rfl rfl rfl rfl rfl

theorem advance_evolves (c : Cfg) (s : State) (len : Nat) : Evolves c s (s.advance len) := .of_same rfl rfl rfl rfl rfl

/-- A fetch, byte by byte, and the instruction run. -/
theorem fetchThen_evolves {c : Cfg} (hc : c.speculativeAccessedSet = false) {run : Instr → State → Host.Outcome State Fault Refusal}
    {t : State} (hrun : ∀ i u, run i u = .next t → Evolves c u t) (s0 : State) (fuel : Nat) (bs : List Byte) {s : State}
    (h : fetchThen c run s0 fuel bs s = .next t) : Evolves c s t := by
  induction fuel generalizing bs s with
  | zero => cases h
  | succ fuel ih =>
    refine (linearAccess_keeps c _ (Ctx.start s)).outcome_evolves hc (fun q u hu => ?_) h
    split at hu
    · exact (advance_evolves c u _).trans (hrun _ _ hu)
    · exact ih _ hu
    · cases hu
      exact deliver_evolves c .ud u
    · cases hu

end Sys2Proof.Machine
end

section
/-! PROOFS. Fills (46_caching.md section 2): what they leave of the state, and the level of a mapping they add. -/

namespace Sys2Proof.Machine

open Sys2Proof

/-- What a fill finds satisfies `P`, and the state has evolved. -/
def FoundMeets {α : Type} (c : Cfg) (s : State) (P : α → Prop) (f : Found α) : Prop :=
  ∀ a t, f = some (a, t) → P a ∧ Evolves c s t

theorem FoundMeets.of_none {α : Type} (c : Cfg) (s : State) (P : α → Prop) : FoundMeets c s P none := by
  intro a t h
  cases h

theorem FoundMeets.map {α β : Type} {c : Cfg} {s : State} {P : α → Prop} {Q : β → Prop} {f : Found α} {g : α × State → β × State}
    (hf : FoundMeets c s P f) (hg : ∀ a t, P a → Q (g (a, t)).1 ∧ Evolves c t (g (a, t)).2) : FoundMeets c s Q (f.map g) := by
  intro b u h
  obtain ⟨⟨a, t⟩, hfound, hgat⟩ := Option.map_eq_some_iff.1 h
  obtain ⟨ha, hst⟩ := hf a t hfound
  obtain ⟨hb, htu⟩ := hg a t ha
  rw [hgat] at hb htu
  exact ⟨hb, hst.trans htu⟩

theorem FoundMeets.bind {α β : Type} {c : Cfg} {s : State} {P : α → Prop} {Q : β → Prop} {f : Found α} {g : α × State → Found β}
    (hf : FoundMeets c s P f) (hg : ∀ a t, P a → FoundMeets c t Q (g (a, t))) : FoundMeets c s Q (f.bind g) := by
  intro b u h
  obtain ⟨⟨a, t⟩, hfound, hgat⟩ := Option.bind_eq_some_iff.1 h
  obtain ⟨ha, hst⟩ := hf a t hfound
  obtain ⟨hb, htu⟩ := hg a t ha b u hgat
  exact ⟨hb, hst.trans htu⟩

/-- A fill that is made under a condition only. -/
theorem FoundMeets.ite {α : Type} {c : Cfg} {s : State} {P : α → Prop} {f g : Found α} {b : Prop} [Decidable b]
    (hf : FoundMeets c s P f) (hg : FoundMeets c s P g) : FoundMeets c s P (if b then f else g) := by
  split
  · exact hf
  · exact hg

/-- A walk of a fill comes to what it comes to in `State.forFill`, whose memory is the state's. -/
theorem fillRun_meets {α : Type} {c : Cfg} {s : State} {P : α → Prop} {walk : Ctx → Res α} (hkeeps : ∀ x, Keeps c x (walk x))
    (hP : ∀ a x y, walk x = .ok a y → P a) : FoundMeets c s P (fillRun s walk) := by
  intro a t h
  unfold fillRun at h
  split at h
  · rename_i b y hwalk
    cases h
    exact ⟨hP a _ y hwalk, ((hkeeps _).kept_of_ok hwalk).meanwhile_evolves rfl⟩
  · cases h

theorem fillFind_meets {α : Type} {c : Cfg} {s : State} {P : α → Prop} {walk : Ctx → Res (Option α)} (hkeeps : ∀ x, Keeps c x (walk x))
    (hP : ∀ a x y, walk x = .ok (some a) y → P a) : FoundMeets c s P (fillFind s walk) := by
  have hrun : FoundMeets c s (fun o => ∀ a, o = some a → P a) (fillRun s walk) :=
    fillRun_meets hkeeps fun o x y hwalk a ho => hP a x y (ho ▸ hwalk)
  intro a t h
  unfold fillFind at h
  split at h
  · rename_i b u hfound
    cases h
    obtain ⟨hb, hst⟩ := hrun _ _ hfound
    exact ⟨hb _ rfl, hst⟩
  · cases h

/-! The parts of a fill. -/

theorem fillSpp_evolves (c : Cfg) (gpa : Word) (w : Walk) (f : SppFill) (s : State) : Evolves c s (fillSpp c gpa w f s).2 := by
  unfold fillSpp
  extract_lets found
  have hfound : FoundMeets c s (fun _ => True) found := by
    refine FoundMeets.ite ?_ (.of_none c s _)
    cases f with
    | nothing => exact .of_none c s _
    | vector => exact fillRun_meets (fun x => (sppVector_keeps c _ gpa x).bind fun _ _ _ => Keeps.same c _ _) fun _ _ _ _ => trivial
    | table above =>
      refine FoundMeets.ite (fillRun_meets (fun x => ?_) fun _ _ _ _ => trivial) (.of_none c s _)
      exact (sppTables_keeps c _ gpa _ _ _ x).bind fun _ _ _ => Keeps.same c _ _
  clear_value found
  cases found with
  | none => exact .refl c s
  | some p =>
    obtain ⟨-, hst⟩ := hfound p.1 p.2 rfl
    exact hst

theorem fillEpt_meets (c : Cfg) (gpa : Word) (s : State) : FoundMeets c s (fun _ => True) (fillEpt c gpa s) :=
  FoundMeets.ite (fillRun_meets (fun x => eptWalkFrom_keeps c _ gpa _ _ _ _ x) fun _ _ _ _ => trivial) (.of_none c s _)

theorem fillGuest_meets (c : Cfg) (la : Word) (s : State) : FoundMeets c s (fun _ => True) (fillGuest c la s) :=
  FoundMeets.ite (fillRun_meets (fun x => guestWalkFrom_keeps c _ la _ _ _ x) fun _ _ _ _ => trivial) (.of_none c s _)

theorem eptTableAt_keeps (c : Cfg) (gpa : Word) (fuel level : Nat) (base : Word) (r : Rights) (used : List WalkEntry) (x : Ctx) :
    Keeps c x (eptTableAt c gpa fuel level base r used x) := by
  induction fuel generalizing base r used x with
  | zero => exact Keeps.same c x _
  | succ fuel ih =>
    unfold eptTableAt
    refine (eptEntry_keeps c fillAccess gpa x _ base r).bind fun e y _ => ?_
    dsimp only
    split
    · exact Keeps.same c y _
    · split
      · exact Keeps.same c y _
      · exact ih _ _ _ y

/-- An entry of level 1 maps a page, so a table is found at level 2 or above (41_ept_translation.md R97). -/
theorem eptTableAt_level {c : Cfg} {gpa : Word} {fuel level : Nat} {base : Word} {r : Rights} {used : List WalkEntry} {x y : Ctx}
    {q : Word × Rights × List WalkEntry} (h : eptTableAt c gpa fuel level base r used x = .ok (some q) y) : 2 ≤ level ∧ level ≤ fuel := by
  induction fuel generalizing base r used x with
  | zero => cases h
  | succ fuel ih =>
    obtain ⟨e, z, -, h⟩ := Res.bind_eq_ok.1 h
    dsimp only at h
    split at h
    · cases h
    · rename_i hleaf
      split at h
      · rename_i hlevel
        have hne : fuel + 1 ≠ 1 := fun h1 => hleaf (by simp [isLeaf, h1])
        omega
      · have := ih h
        omega

theorem guestTableAt_keeps (c : Cfg) (la : Word) (depth n : Nat) (table : Word) (es : List GuestEntry) (x : Ctx) :
    Keeps c x (guestTableAt c la depth n table es x) := by
  induction depth generalizing n table es x with
  | zero => exact Keeps.same c x _
  | succ depth ih =>
    cases n with
    | zero => exact Keeps.same c x _
    | succ n =>
      unfold guestTableAt
      refine (guestEntry_keeps c .dataRead la es _ table none x).bind fun ge y _ => ?_
      dsimp only
      split
      · split
        · exact Keeps.same c y _
        · exact ih _ _ _ y
      · exact Keeps.same c y _

/-- No table is taken from the last level's entry, which maps a page (log 16). -/
theorem guestTableAt_level {c : Cfg} {la : Word} {depth n : Nat} {table : Word} {es : List GuestEntry} {x y : Ctx}
    {q : Word × Nat × List GuestEntry} (h : guestTableAt c la depth n table es x = .ok (some q) y) : 2 ≤ q.2.1 := by
  induction depth generalizing n table es x with
  | zero => cases h
  | succ depth ih =>
    cases n with
    | zero => cases h
    | succ n =>
      obtain ⟨ge, z, -, h⟩ := Res.bind_eq_ok.1 h
      dsimp only at h
      split at h
      · split at h
        · cases h
          exact Nat.le_add_left 2 n
        · exact ih h
      · cases h

theorem fillGuestTable_meets (c : Cfg) (la : Word) (depth : Nat) (s : State) :
    FoundMeets c s (fun q => 2 ≤ q.2.1) (fillGuestTable c la depth s) :=
  FoundMeets.ite (fillFind_meets (fun x => guestTableAt_keeps c la _ _ _ _ x) fun _ _ _ h => guestTableAt_level h) (.of_none c s _)

/-! The six fills. -/

theorem fillGPhysTr_meets (c : Cfg) (s : State) (gpa : Word) (f : SppFill) :
    FoundMeets c s (fun m => m.levelOk = true) (fillGPhysTr c s gpa f) :=
  (fillEpt_meets c gpa s).map fun w t _ => ⟨rfl, fillSpp_evolves c gpa w f t⟩

theorem fillGPhysPsc_meets (c : Cfg) (s : State) (gpa : Word) (level : Nat) :
    FoundMeets c s (fun m => m.levelOk = true) (fillGPhysPsc c s gpa level) := by
  refine FoundMeets.ite (FoundMeets.map (P := fun _ => 2 ≤ level ∧ level ≤ 4) ?_ fun q t hlevel => ⟨?_, .refl c t⟩) (.of_none c s _)
  · exact fillFind_meets (fun x => eptTableAt_keeps c gpa 4 level _ _ _ x) fun _ _ _ h => eptTableAt_level h
  · simpa [Mapping.levelOk] using hlevel

theorem fillLinearTr_meets (c : Cfg) (s : State) (la : Word) : FoundMeets c s (fun m => m.levelOk = true) (fillLinearTr c s la) :=
  FoundMeets.ite (.of_none c s _) ((fillGuest_meets c la s).map fun _ t _ => ⟨rfl, .refl c t⟩)

theorem fillLinearPsc_meets (c : Cfg) (s : State) (la : Word) (depth : Nat) :
    FoundMeets c s (fun m => m.levelOk = true) (fillLinearPsc c s la depth) :=
  FoundMeets.ite (.of_none c s _) ((fillGuestTable_meets c la depth s).map fun _ t hlevel => ⟨decide_eq_true hlevel, .refl c t⟩)

theorem fillCombTr_meets (c : Cfg) (s : State) (la : Word) (f : SppFill) :
    FoundMeets c s (fun m => m.levelOk = true) (fillCombTr c s la f) := by
  refine FoundMeets.ite ((fillGuest_meets c la s).bind fun g t _ => ?_) ?_
  · exact (fillEpt_meets c g.gpa t).map fun w u _ => ⟨rfl, fillSpp_evolves c g.gpa w f u⟩
  · exact (fillEpt_meets c la s).map fun w t _ => ⟨rfl, fillSpp_evolves c la w f t⟩

theorem fillCombPsc_meets (c : Cfg) (s : State) (la : Word) (depth : Nat) :
    FoundMeets c s (fun m => m.levelOk = true) (fillCombPsc c s la depth) := by
  refine FoundMeets.ite ((fillGuestTable_meets c la depth s).bind fun q t hlevel => ?_) (.of_none c s _)
  exact (fillEpt_meets c q.1 t).map fun _ u _ => ⟨decide_eq_true hlevel, .refl c u⟩

/-- A mapping that a fill adds has a level that can reference a table (46_caching.md R225, R227). -/
theorem fillMapping_meets (c : Cfg) (s : State) (f : FillReq) : FoundMeets c s (fun m => m.levelOk = true) (fillMapping c s f) := by
  cases f with
  | linearTr la => exact fillLinearTr_meets c s _
  | linearPsc la depth => exact fillLinearPsc_meets c s _ depth
  | gphysTr gpa f => exact fillGPhysTr_meets c s gpa f
  | gphysPsc gpa level => exact fillGPhysPsc_meets c s gpa level
  | combTr la f => exact fillCombTr_meets c s _ f
  | combPsc la depth => exact fillCombPsc_meets c s _ depth

theorem fillCache_evolves (c : Cfg) (f : FillReq) (s : State) : Evolves c s (fillCache c f s) := by
  unfold fillCache
  split
  · rename_i m t hfound
    obtain ⟨hlevel, hst⟩ := fillMapping_meets c s f m t hfound
    refine hst.trans ⟨id, id, fun hmode => ⟨hmode, rfl, rfl⟩, fun m' hm => ?_⟩
    rcases List.mem_append.1 hm with hold | hnew
    · exact .inl hold
    · obtain rfl := List.mem_singleton.1 hnew
      exact .inr hlevel
  · exact .refl c s

end Sys2Proof.Machine
end

section
/-! PROOFS. Every step: the invariant is kept, and in VMX non-root operation the controls stay (10_state.md R18, R330). -/

namespace Sys2Proof.Machine

open Sys2Proof

theorem withInputs_evolves (c : Cfg) (s : State) (l : List Label) : Evolves c s (s.withInputs l) := .of_same rfl rfl rfl rfl rfl

/-- A software access. -/
theorem runAccess_evolves {c : Cfg} (hc : c.speculativeAccessedSet = false) {a : Access} {s t : State}
    (h : runAccess c a s = .next t) : Evolves c s t := by
  refine (linearAccess_keeps c a (Ctx.start s)).outcome_evolves hc (fun q u hu => ?_) h
  cases hu
  exact withReport_evolves c u _

/-- The write of another agent to addresses that exist. -/
theorem runAgentWrite_evolves {c : Cfg} {pa : Word} {bytes : List Byte} {s t : State} (h : runAgentWrite c pa bytes s = .next t) :
    Evolves c s t := by
  unfold runAgentWrite at h
  split at h
  · rename_i hrange
    cases h
    exact (kept_write (x := Ctx.start s) hrange).evolves.trans (withReport_evolves c _ _)
  · cases h

/-- The VMM writes the controls in root operation only, so VMX non-root operation is not where this ends. -/
theorem runVmcsWrite_evolves {c : Cfg} {current : Bool} {v : Vmcs} {s t : State} (h : runVmcsWrite current v s = .next t) :
    Evolves c s t := by
  by_cases hroot : s.mode = .root
  · rw [runVmcsWrite_root hroot] at h
    cases h
    exact .of_mode_ne rfl (by simp [hroot]) (List.Subset.refl _)
  · rw [runVmcsWrite_notRoot hroot] at h
    cases h

theorem runVmExit_evolves {c : Cfg} {s t : State} (h : runVmExit c s = .next t) : Evolves c s t := by
  unfold runVmExit at h
  split at h
  · cases h
    exact deliver_evolves c _ s
  · cases h

/-- Reset leaves VMX operation, and the cache is empty. -/
theorem powerReset_evolves (c : Cfg) (s : State) : Evolves c s (powerReset s) := by
  rw [powerReset_frame]
  exact .of_mode_ne rfl nofun (List.nil_subset _)

/-- The accesses of a VM entry, made with the mode already `nonRoot`. -/
theorem runInjected_evolves {c : Cfg} (hc : c.speculativeAccessedSet = false) {inject : List Access} {s t : State}
    (h : runInjected c inject s = .next t) : Evolves c s t := by
  induction inject generalizing s with
  | nil =>
    cases h
    exact withReport_evolves c s _
  | cons a rest ih => exact (linearAccess_keeps c a (Ctx.start s)).outcome_evolves hc (fun _ _ hu => ih hu) h

/-- What a VM entry that is made requires, and what it comes to (60_exceptions.md R323, R330). -/
theorem runVmEntry_next {c : Cfg} {inject : List Access} {s t : State} (h : runVmEntry c inject s = .next t) :
    s.mode = .root ∧ s.vmcsCurrent = true ∧ s.vmcs.wellFormed c = true ∧ runInjected c inject (vmEnter c s) = .next t := by
  unfold runVmEntry at h
  split at h
  · rename_i hpossible
    obtain ⟨hmode, hcurrent⟩ := Bool.and_eq_true_iff.1 hpossible
    split at h
    · exact ⟨eq_of_beq hmode, hcurrent, ‹_›, h⟩
    · cases h
  · cases h

/-- The return to the guest: some of the cached mappings are kept, the mode is `nonRoot`, and RIP is a free value. -/
theorem vmEnter_frame (c : Cfg) (s : State) :
    ∃ kept n rip, kept.Sublist s.cache ∧ vmEnter c s = { s with cache := kept, mode := .nonRoot, rip := rip, freeCtr := n } := by
  obtain ⟨kept, n, hsub, -, heq⟩ := invalidate_spec c (transitionRequired s) s
  exact ⟨kept, n + 1, c.free n, hsub, by rw [vmEnter, heq]; rfl⟩

/-- A VM entry with a current VMCS and well-formed controls makes the invariant's claim on VMX non-root operation true. -/
theorem vmEnter_inv {c : Cfg} {s : State} (hs : s.Inv c) (hcurrent : s.vmcsCurrent = true) (hcontrols : s.vmcs.wellFormed c = true) :
    (vmEnter c s).Inv c := by
  obtain ⟨hwf, hbelow, -, hcache⟩ := hs
  obtain ⟨kept, n, rip, hsub, heq⟩ := vmEnter_frame c s
  rw [heq]
  exact ⟨hwf, hbelow, fun _ => ⟨hcurrent, hcontrols⟩, fun m hm => hcache m (hsub.subset hm)⟩

/-- The inputs, but for a VM entry. -/
theorem runInput_evolves {c : Cfg} (hc : c.speculativeAccessedSet = false) {i : Input} {s t : State}
    (hi : ∀ inject, i ≠ .vmEntry inject) (h : runInput c i s = .next t) : Evolves c s t := by
  cases i with
  | access a => exact runAccess_evolves hc h
  | invvpid type desc =>
    cases h
    exact invvpidOp_evolves c type desc s
  | invept type desc =>
    cases h
    exact inveptOp_evolves c type desc s
  | tlb op =>
    cases h
    exact tlbOp_evolves c op s
  | vmEntry inject => exact absurd rfl (hi inject)
  | vmExit => exact runVmExit_evolves h
  | vmcsWrite current v => exact runVmcsWrite_evolves h
  | fill f =>
    cases h
    exact (fillCache_evolves c f s).trans (withReport_evolves c _ _)
  | drop i =>
    cases h
    exact ⟨id, id, fun hmode => ⟨hmode, rfl, rfl⟩, fun m hm => .inl (List.mem_of_mem_eraseIdx hm)⟩
  | agentWrite pa bytes => exact runAgentWrite_evolves h
  | surroundings x =>
    cases h
    exact .of_same rfl rfl rfl rfl rfl
  | agents l =>
    cases h
    exact .of_same rfl rfl rfl rfl rfl
  | powerReset =>
    cases h
    exact powerReset_evolves c s

/-- What a step can do: it evolves the state, or it is a VM entry from root operation with a current VMCS and well-formed controls, which
evolves the state in VMX non-root operation. -/
theorem step_next_cases {s t : State} (h : step s = .next t) :
    Evolves Config.cfg s t ∨
      ∃ rest, s.mode = .root ∧ s.vmcsCurrent = true ∧ s.vmcs.wellFormed Config.cfg = true ∧
        Evolves Config.cfg (vmEnter Config.cfg (s.withInputs rest)) t := by
  have hc := Config.cfg_speculativeAccessedSet
  have hfetch {u : State} (hu : fetchNext Config.cfg exec u = .next t) : Evolves Config.cfg u t :=
    fetchThen_evolves hc (fun _ _ => exec_evolves) u maxLength [] hu
  unfold step at h
  split at h
  · rename_i i rest _
    by_cases hentry : ∃ inject, i = .vmEntry inject
    · obtain ⟨inject, rfl⟩ := hentry
      obtain ⟨hmode, hcurrent, hcontrols, hinjected⟩ := runVmEntry_next h
      exact .inr ⟨rest, hmode, hcurrent, hcontrols, runInjected_evolves hc hinjected⟩
    · have hi (inject : List Access) : i ≠ .vmEntry inject := fun heq => hentry ⟨inject, heq⟩
      exact .inl ((withInputs_evolves _ s rest).trans (runInput_evolves hc hi h))
  · exact .inl ((withInputs_evolves _ s _).trans (exec_evolves h))
  · exact .inl ((withInputs_evolves _ s _).trans (hfetch h))
  · exact .inl (hfetch h)

/-- Settles O9: what evolves keeps the invariant, and a VM entry establishes it. -/
theorem stepKeepsInv : Obligations.StepKeepsInv := by
  intro s t hinv h
  rcases step_next_cases h with hevolves | ⟨rest, -, hcurrent, hcontrols, hevolves⟩
  · exact hevolves.inv hinv
  · exact hevolves.inv (vmEnter_inv ((withInputs_evolves _ s rest).inv hinv) hcurrent hcontrols)

/-- Settles O11: a step from VMX non-root operation is no VM entry. -/
theorem controlsConstantInNonRoot : Obligations.ControlsConstantInNonRoot := by
  intro s t hs h ht
  rcases step_next_cases h with hevolves | ⟨rest, hroot, -⟩
  · obtain ⟨-, -, hcontrols⟩ := hevolves.nonRoot ht
    exact hcontrols
  · rw [hs] at hroot
    cases hroot

end Sys2Proof.Machine
end

section
/-! PROOFS. A step that fetches where linear addresses are physical (20_memory.md R52, 42_ept_vmexits.md R125). -/

namespace Sys2Proof.Machine

open Sys2Proof

/-- A step that fetches is the fetch from that state (log 2). -/
theorem step_of_fetching {s s0 : State} (h : s.fetching s0) : step s = fetchNext Config.cfg exec s0 := by
  rcases h with ⟨hnil, rfl⟩ | ⟨rest, hfetch, rfl⟩
  · simp [step, hnil]
  · simp [step, hfetch]

/-- The machine's linear addresses have 64 bits in 64-bit mode (log 23), and an address as wide as the mode has it is never narrowed further. -/
theorem linWrap_modeWrap (s : State) (w : Word) : s.linWrap Config.cfg (s.modeWrap w) = s.modeWrap w := by
  by_cases hlong : s.cpuMode = .long64
  · have h64 : Config.cfg.guest.linear64 s.guestRegs = true := by simp [Config.cfg, State.guestRegs, hlong]
    rw [State.linWrap, if_pos h64]
  · have hwrap : s.modeWrap w = low32 w := by simp [State.modeWrap, hlong]
    have hlow : low32 (low32 w) = low32 w := BitVec.eq_of_toNat_eq (by simp only [toNat_low32, Nat.mod_mod])
    rw [hwrap, State.linWrap, hlow, ite_self]

/-- The address of an instruction byte is as wide as the guest's paging has linear addresses. -/
theorem byteAt_fetchAddr_zero (s : State) (k : Nat) : s.byteAt Config.cfg (s.fetchAddr k) 0 = s.fetchAddr k := by
  rw [State.byteAt, show BitVec.ofNat 64 0 = 0#64 from rfl, BitVec.add_zero]
  exact linWrap_modeWrap s _

/-- Where linear addresses are physical an instruction byte is fetched from the address the model gives it, and nothing changes. -/
theorem fetchByte_flat {s : State} (h : s.Flat) {k : Nat} (hr : inRange Config.cfg (s.fetchAddr k).toNat 1 = true) :
    ∃ parts, linearAccess Config.cfg (fetchAccess (s.fetchAddr k)) (Ctx.start s) =
      .ok (parts, [s.mem.read (s.fetchAddr k).toNat]) (Ctx.start s) := by
  have hrange : flatInRange Config.cfg s (s.fetchAddr k) 1 := fun i hi => by
    obtain rfl : i = 0 := by omega
    rwa [byteAt_fetchAddr_zero]
  have hbytes : s.flatBytes Config.cfg (s.fetchAddr k) 1 = [s.mem.read (s.fetchAddr k).toNat] := by
    simp [State.flatBytes, byteAt_fetchAddr_zero]
  rw [← hbytes]
  exact linearAccess_flat h hrange .plain (.inr rfl)

/-- The rest `todo` of an instruction's bytes is fetched one by one: the decoder asks for more until the last, and then it is run. -/
theorem fetchThen_flat {run : Instr → State → Host.Outcome State Fault Refusal} {s : State} (h : s.Flat) {i : Instr}
    (todo : List Byte) (hne : todo ≠ []) (done : List Byte) (fuel : Nat) (hfuel : todo.length ≤ fuel)
    (hdec : decode s.codeSize (done ++ todo) = .ok i [])
    (hmem : ∀ k (hk : k < todo.length), inRange Config.cfg (s.fetchAddr (done.length + k)).toNat 1 = true ∧
      s.mem.read (s.fetchAddr (done.length + k)).toNat = todo[k]) :
    fetchThen Config.cfg run s fuel done s = run i (s.advance (done ++ todo).length) := by
  induction todo generalizing done fuel with
  | nil => exact absurd rfl hne
  | cons b rest ih =>
    obtain ⟨fuel, rfl⟩ : ∃ n, fuel = n + 1 := ⟨fuel - 1, by rw [List.length_cons] at hfuel; omega⟩
    obtain ⟨hr, hb⟩ := hmem 0 (by simp)
    obtain ⟨parts, hfetch⟩ := fetchByte_flat h hr
    rw [Nat.add_zero] at hfetch hb
    rw [hb] at hfetch
    have hsplit : done ++ b :: rest = (done ++ [b]) ++ rest := by simp
    rw [fetchThen, hfetch]
    simp only [Res.outcome, List.getElem_cons_zero, Ctx.start_st]
    by_cases hrest : rest = []
    · subst hrest
      rw [hdec]
    · have hmore : decode s.codeSize (done ++ [b]) = .more := decode_part (hsplit ▸ hdec) hrest
      rw [hmore, hsplit]
      refine ih hrest (done ++ [b]) fuel (by simpa using hfuel) (hsplit ▸ hdec) fun k hk => ?_
      have hnext := hmem (k + 1) (by simpa using hk)
      rw [List.getElem_cons_succ] at hnext
      rw [List.length_append, List.length_singleton, Nat.add_assoc, Nat.add_comm 1 k]
      exact hnext

/-- Settles O5: the step is a fetch, and the bytes at RIP are fetched until they decode; no bytes at all do not. -/
theorem stepRunsBytesAtRip : Obligations.StepRunsBytesAtRip := by
  intro s s0 bs i hfetching hflat hlen hdec hmem
  have hne : bs ≠ [] := by
    rintro rfl
    cases hdec
  rw [step_of_fetching hfetching, fetchNext]
  exact fetchThen_flat hflat bs hne [] maxLength hlen hdec (by simpa using hmem)

end Sys2Proof.Machine
end

section
/-! PROOFS. Memory: byte order, and entries read and updated in one access (20_memory.md R41, R45, 92_eei_decisions.md D4, D12). -/

namespace Sys2Proof.Machine

open Sys2Proof

/-- The bytes of a word, the least significant first (R41). -/
theorem getElem_bytesOfWord (w : Word) (n i : Nat) (h : i < (bytesOfWord w n).length) :
    (bytesOfWord w n)[i] = w.extractLsb' (8 * i) 8 := by
  induction n generalizing w i with
  | zero => cases h
  | succ n ih =>
    cases i with
    | zero => exact BitVec.setWidth_eq_extractLsb' (show 8 ≤ 64 by omega)
    | succ i =>
      have htail : i < (bytesOfWord (w >>> 8) n).length := by simpa [bytesOfWord] using h
      have hshift : (w >>> 8).extractLsb' (8 * i) 8 = w.extractLsb' (8 * (i + 1)) 8 :=
        BitVec.eq_of_getLsbD_eq fun j _ => by
          simp only [BitVec.getLsbD_extractLsb', BitVec.getLsbD_ushiftRight]
          congr 2
          omega
      exact (ih (w >>> 8) i htail).trans hshift

/-- A byte of a 64-bit entry that was written. -/
theorem Memory.read_write64_inside {m : Memory} (hm : m.wf = true) (a : Nat) (w : Word) {i : Nat} (hi : i < 8) :
    (m.write64 a w).read (a + i) = w.extractLsb' (8 * i) 8 := by
  have hlen : i < (bytesOfWord w 8).length := by simpa using hi
  rw [Memory.write64, Memory.read_writeBytes_inside hm hlen, getElem_bytesOfWord]

/-- A byte outside it reads as before. -/
theorem Memory.read_write64_outside {m : Memory} (hm : m.wf = true) {a b : Nat} (w : Word) (hb : outside b a 8) :
    (m.write64 a w).read b = m.read b :=
  Memory.read_writeBytes_outside hm (by simpa [outside] using hb)

/-- An access may take place where its bytes exist, and those that other agents write before it (D12). -/
theorem accessOk_cons {c : Cfg} {x : Ctx} {ws : List AgentWrite} {rest : List (List AgentWrite)} (h : x.st.agents = ws :: rest)
    (hws : ∀ w ∈ ws, inRange c w.pa.toNat w.bytes.length = true) {a n : Nat} (ha : inRange c a n = true) :
    accessOk c x a n = true := by
  simpa [accessOk, h, writesOk, ha] using hws

/-- The state in which such an access is made: the first list of other agents' writes is done, and it is no longer to come. -/
theorem Ctx.interleave_cons {x : Ctx} {ws : List AgentWrite} {rest : List (List AgentWrite)} (h : x.st.agents = ws :: rest) :
    x.interleave.st = { x.st with mem := x.st.mem.writeAll ws, agents := rest } := by
  obtain ⟨hst, -⟩ := x.interleave_spec
  rw [hst, h]
  rfl

/-- Settles O13: a word's bytes in memory are those of `bytesOfWord`, and what an access does starts from `Ctx.interleave`. -/
theorem littleEndian : Obligations.LittleEndian := by
  refine ⟨fun m a w hm => ⟨fun i hi => Memory.read_write64_inside hm a w hi, Memory.read64_write64 hm a w,
    fun b hb => Memory.read_write64_outside hm w hb⟩, ?_⟩
  rintro c x pa ws rest m hagents hws hpa rfl
  have hok : accessOk c x pa.toNat 8 = true := accessOk_cons hagents hws hpa
  have hst := Ctx.interleave_cons hagents
  have hmem : x.interleave.st.mem = x.st.mem.writeAll ws := by rw [hst]
  refine ⟨⟨x.interleave, physRead64_eq_ok.2 ⟨hok, by rw [hmem], rfl⟩, hst⟩, fun bit _ => ?_⟩
  refine ⟨_, setEntryBit_eq_ok.2 ⟨hok, rfl⟩, ?_⟩
  rw [Ctx.mapSt_st, hst]
  rfl

end Sys2Proof.Machine
end

section
/-! PROOFS. A step by its label, and a fetch byte by byte from any state (20_memory.md R52, 92_eei_decisions.md D1, D3). -/

namespace Sys2Proof.Machine

open Sys2Proof

theorem step_input {s : State} {i : Input} {rest : List Label} (h : s.inputs = .input i :: rest) :
    step s = runInput Config.cfg i (s.withInputs rest) := by
  simp [step, h]

theorem step_instr {s : State} {i : Instr} {rest : List Label} (h : s.inputs = .instr i :: rest) :
    step s = exec i (s.withInputs rest) := by
  simp [step, h]

/-! One more byte `b` fetched, in the access that ends in `x`. -/

section
variable {c : Cfg} {run : Instr → State → Host.Outcome State Fault Refusal} {s0 s : State} {done : List Byte} {b : Byte}
  {parts : List PartDone} {x : Ctx}

/-- The fetch goes on where the decoder asks for more. -/
theorem fetchThen_more
    (hfetch : linearAccess c (fetchAccess (s0.fetchAddr done.length)) (Ctx.start s) = .ok (parts, [b]) x)
    (hdec : decode s0.codeSize (done ++ [b]) = .more) (fuel : Nat) :
    fetchThen c run s0 (fuel + 1) done s = fetchThen c run s0 fuel (done ++ [b]) x.st := by
  simp [fetchThen, hfetch, Res.outcome, hdec]

/-- The instruction that the bytes decode to is run with RIP past them. -/
theorem fetchThen_ok
    (hfetch : linearAccess c (fetchAccess (s0.fetchAddr done.length)) (Ctx.start s) = .ok (parts, [b]) x)
    {i : Instr} {rest : List Byte} (hdec : decode s0.codeSize (done ++ [b]) = .ok i rest) (fuel : Nat) :
    fetchThen c run s0 (fuel + 1) done s = run i (x.st.advance (done ++ [b]).length) := by
  simp [fetchThen, hfetch, Res.outcome, hdec]

/-- An undefined encoding is `#UD` (log 30). -/
theorem fetchThen_undefined
    (hfetch : linearAccess c (fetchAccess (s0.fetchAddr done.length)) (Ctx.start s) = .ok (parts, [b]) x)
    (hdec : decode s0.codeSize (done ++ [b]) = .undefined) (fuel : Nat) :
    fetchThen c run s0 (fuel + 1) done s = .next (deliver c .ud x.st) := by
  simp [fetchThen, hfetch, Res.outcome, hdec]

end

/-- The rest `todo` of an instruction's bytes is fetched one by one, up to the last, `b`: all that comes before it has brought the fetch
to the state `u` of its last access. -/
theorem fetchThen_fetchesTo {c : Cfg} {run : Instr → State → Host.Outcome State Fault Refusal} {s0 s t : State} {b : Byte}
    (todo done : List Byte) (fuel : Nat) (hfetches : fetchesTo c s0 done.length (todo ++ [b]) s t)
    (hmore : ∀ k, k < todo.length → decode s0.codeSize (done ++ todo.take (k + 1)) = .more) :
    ∃ u parts x, linearAccess c (fetchAccess (s0.fetchAddr (done ++ todo).length)) (Ctx.start u) = .ok (parts, [b]) x ∧ x.st = t ∧
      fetchThen c run s0 (todo.length + fuel) done s = fetchThen c run s0 fuel (done ++ todo) u := by
  induction todo generalizing done s with
  | nil =>
    obtain ⟨parts, x, hfetch, hx⟩ := hfetches
    exact ⟨s, parts, x, by simpa using hfetch, hx, by simp⟩
  | cons d todo ih =>
    obtain ⟨parts, x, hfetch, hrest⟩ := hfetches
    have hdec : decode s0.codeSize (done ++ [d]) = .more := hmore 0 (by simp)
    have hsplit : done ++ d :: todo = (done ++ [d]) ++ todo := by simp
    have hfuel : (d :: todo).length + fuel = (todo.length + fuel) + 1 := by
      rw [List.length_cons]
      omega
    rw [hsplit, hfuel, fetchThen_more hfetch hdec]
    refine ih (done ++ [d]) (by simpa using hrest) fun k hk => ?_
    simpa using hmore (k + 1) (by simpa using hk)

/-- Settles O4: the first label decides the step; a fetch takes every byte but the last without decoding, and the last decides what is
run. -/
theorem stepRunsDecoded : Obligations.StepRunsDecoded := by
  refine ⟨fun _ _ _ => step_input, fun _ _ _ => step_instr, ?_⟩
  intro s s0 t bs hfetching hne hlen hfetches hmore
  obtain ⟨todo, b, rfl⟩ : ∃ todo b, bs = todo ++ [b] := ⟨_, _, (List.dropLast_append_getLast hne).symm⟩
  rw [List.length_append, List.length_singleton] at hlen hmore
  have hproper (k : Nat) (hk : k < todo.length) : decode s0.codeSize ([] ++ todo.take (k + 1)) = .more := by
    have htake : (todo ++ [b]).take (k + 1) = todo.take (k + 1) := List.take_append_of_le_length (by omega)
    simpa [htake] using hmore (k + 1) (by omega)
  obtain ⟨fuel, hfuel⟩ : ∃ fuel, maxLength = todo.length + (fuel + 1) := ⟨maxLength - todo.length - 1, by omega⟩
  obtain ⟨u, parts, x, hlast, rfl, hrun⟩ := fetchThen_fetchesTo (run := exec) todo [] (fuel + 1) hfetches hproper
  rw [step_of_fetching hfetching, fetchNext, hfuel, hrun]
  exact ⟨fun i rest hdec => fetchThen_ok hlast hdec fuel, fun hdec => fetchThen_undefined hlast hdec fuel⟩

end Sys2Proof.Machine
end

section
/-! PROOFS. The invariant after reset (92_eei_decisions.md D19, D29, 46_caching.md R225). -/

namespace Sys2Proof.Machine

open Sys2Proof

/-- A state with nothing in memory and in the cache, outside VMX non-root operation, meets the invariant. -/
theorem State.inv_of_empty {s : State} (c : Cfg) (hmem : s.mem = []) (hmode : s.mode ≠ .nonRoot) (hcache : s.cache = []) : s.Inv c := by
  refine ⟨?_, ?_, fun h => absurd h hmode, ?_⟩
  · rw [hmem]
    rfl
  · rw [hmem]
    rfl
  · rw [hcache]
    exact List.forall_mem_nil _

/-- Settles O8: reset lists no byte of memory and no cached mapping, and leaves VMX operation. -/
theorem resetInv : Obligations.ResetInv :=
  State.inv_of_empty Config.cfg rfl nofun rfl

end Sys2Proof.Machine
end

section
/-! PROOFS. What the decoder reads of an encoding (30_encoding.md R61, R62, R63, R65). -/

namespace Sys2Proof

/-! The fields of a byte, the displacements and the registers. -/

@[simp] theorem parseByte_cons (b : Byte) (bs : List Byte) : parseByte (b :: bs) = .ok b bs := rfl

@[simp] theorem Parse.bind_ok {α β : Type} (a : α) (bs : List Byte) (f : α → List Byte → Parse β) : (Parse.ok a bs).bind f = f a bs :=
  rfl

@[simp] theorem modOf_fields (m : BitVec 2) (r k : BitVec 3) : modOf (m ++ r ++ k) = m := by
  rw [modOf, BitVec.append_assoc]
  exact BitVec.extractLsb'_append_eq_left

@[simp] theorem regOf_fields (m : BitVec 2) (r k : BitVec 3) : regOf (m ++ r ++ k) = r :=
  (BitVec.extractLsb'_append_eq_of_le (by decide)).trans BitVec.extractLsb'_append_eq_right

@[simp] theorem rmOf_fields (m : BitVec 2) (r k : BitVec 3) : rmOf (m ++ r ++ k) = k :=
  BitVec.extractLsb'_append_eq_right

theorem parseDisp16_bytes16 {d : BitVec 32} (h : (d.truncate 16).signExtend 32 = d) (rest : List Byte) :
    parseDisp16 (bytes16 d ++ rest) = .ok d rest := by
  have hd : d.extractLsb' 8 8 ++ d.extractLsb' 0 8 = d.truncate 16 :=
    (BitVec.extractLsb'_append_extractLsb'_eq_extractLsb' rfl).trans (BitVec.setWidth_eq_extractLsb' (by decide)).symm
  simp [parseDisp16, bytes16, hd, h]

theorem parseDisp32_bytes32 (d : BitVec 32) (rest : List Byte) : parseDisp32 (bytes32 d ++ rest) = .ok d rest := by
  have hd : d.extractLsb' 24 8 ++ d.extractLsb' 16 8 ++ d.extractLsb' 8 8 ++ d.extractLsb' 0 8 = d := by
    rw [BitVec.extractLsb'_append_extractLsb'_eq_extractLsb' (start₂ := 24) (by decide),
      BitVec.extractLsb'_append_extractLsb'_eq_extractLsb' (by decide),
      BitVec.extractLsb'_append_extractLsb'_eq_extractLsb' (by decide)]
    exact BitVec.extractLsb'_eq_self
  simp [parseDisp32, bytes32, hd]

@[simp] theorem regNum_high_low : ∀ r : Reg, regNum r.high r.low = r := by decide

theorem Reg.high_of_lt : ∀ r : Reg, r.val < 8 → r.high = false := by decide

/-- Outside 64-bit code there are no registers 8 to 15 (R61). -/
theorem Reg.high_of_ok {cs : CodeSize} {r : Reg} (h : r.ok cs = true) (hcs : cs ≠ .b64) : r.high = false := by
  cases cs with
  | b64 => exact absurd rfl hcs
  | b32 => exact r.high_of_lt (of_decide_eq_true h)
  | b16 => exact r.high_of_lt (of_decide_eq_true h)

/-! The parts of a well-formed memory operand. -/

theorem MemOp.size_ok {cs : CodeSize} {m : MemOp} (h : m.ok cs = true) : m.size.ok cs = true :=
  (Bool.and_eq_true_iff.1 h).1

theorem MemOp.ok_a16 {cs : CodeSize} {m : MemOp} (h : m.ok cs = true) (hsize : m.size = .a16) :
    (m.base, m.index) ∈ MemOp.pairs16 ∧ m.scale = 0#2 ∧ m.ripRel = false ∧ (m.disp.truncate 16).signExtend 32 = m.disp := by
  simpa [MemOp.ok, hsize, and_assoc] using (Bool.and_eq_true_iff.1 h).2

theorem MemOp.ok_ripRel {cs : CodeSize} {m : MemOp} (h : m.ok cs = true) (hsize : m.size ≠ .a16) (hrip : m.ripRel = true) :
    cs = .b64 ∧ m.base = none ∧ m.index = none ∧ m.scale = 0#2 := by
  have hparts := (Bool.and_eq_true_iff.1 h).2
  cases hs : m.size with
  | a16 => exact absurd hs hsize
  | a32 => simpa [hs, hrip, and_assoc] using hparts
  | a64 => simpa [hs, hrip, and_assoc] using hparts

theorem MemOp.ok_sib {cs : CodeSize} {m : MemOp} (h : m.ok cs = true) (hsize : m.size ≠ .a16) (hrip : m.ripRel = false) :
    (∀ b, m.base = some b → b.ok cs = true) ∧ (∀ i, m.index = some i → i.ok cs = true ∧ i ≠ 4) ∧ (m.index = none → m.scale = 0#2) := by
  have hparts := (Bool.and_eq_true_iff.1 h).2
  cases hs : m.size
  case a16 => exact absurd hs hsize
  all_goals
    simp only [hs, hrip, Bool.false_eq_true, if_false, Bool.and_eq_true] at hparts
    obtain ⟨hbase, hindex⟩ := hparts
    refine ⟨fun b h => ?_, fun i h => ?_, fun h => ?_⟩
    · simpa [h] using hbase
    · simpa [h] using hindex
    · simpa [h] using hindex

theorem MemOp.indexHigh_eq_any (m : MemOp) : m.indexHigh = m.index.any Reg.high := by
  unfold MemOp.indexHigh
  cases m.index <;> rfl

theorem MemOp.baseHigh_eq_any (m : MemOp) : m.baseHigh = m.base.any Reg.high := by
  unfold MemOp.baseHigh
  cases m.base <;> rfl

/-- Outside 64-bit code an operand names no register 8 to 15 (R61). -/
theorem MemOp.high_of_ok {cs : CodeSize} {m : MemOp} (h : m.ok cs = true) (hcs : cs ≠ .b64) :
    m.indexHigh = false ∧ m.baseHigh = false := by
  rw [indexHigh_eq_any, baseHigh_eq_any]
  by_cases hsize : m.size = .a16
  · have hpairs : ∀ q ∈ pairs16, q.2.any Reg.high = false ∧ q.1.any Reg.high = false := by
      simp [pairs16, Reg.high_of_lt]
    exact hpairs _ (m.ok_a16 h hsize).1
  · cases hrip : m.ripRel with
    | true => exact absurd (m.ok_ripRel h hsize hrip).1 hcs
    | false =>
      obtain ⟨hbase, hindex, -⟩ := m.ok_sib h hsize hrip
      rw [Option.any_eq_false, Option.any_eq_false]
      exact ⟨fun i hi => by simp [Reg.high_of_ok (hindex i hi).1 hcs], fun b hb => by simp [Reg.high_of_ok (hbase b hb) hcs]⟩

theorem MemOp.eq_mk {m : MemOp} {seg : Option Seg} {base index : Option Reg} {scale : BitVec 2} {rip : Bool} (hseg : m.seg = seg)
    (hbase : m.base = base) (hindex : m.index = index) (hscale : m.scale = scale) (hrip : m.ripRel = rip) :
    m = ⟨seg, m.size, base, index, scale, rip, m.disp⟩ := by
  subst hseg hbase hindex hscale hrip
  rfl

/-! The operand after ModRM. -/

theorem memBytes_none16 {m : MemOp} (hsize : m.size = .a16) (hbase : m.base = none) (hindex : m.index = none) (reg : BitVec 3) :
    memBytes reg m = (0#2 ++ reg ++ 6#3) :: bytes16 m.disp := by
  simp [memBytes, hsize, hbase, hindex]

theorem memBytes_pair16 {m : MemOp} (hsize : m.size = .a16) (hpair : ¬(m.base = none ∧ m.index = none)) (reg : BitVec 3) :
    memBytes reg m = (2#2 ++ reg ++ rm16 m) :: bytes16 m.disp := by
  simp [memBytes, hsize, hpair]

theorem memBytes_ripRel {m : MemOp} (hsize : m.size ≠ .a16) (hrip : m.ripRel = true) (reg : BitVec 3) :
    memBytes reg m = (0#2 ++ reg ++ 5#3) :: bytes32 m.disp := by
  simp [memBytes, hrip]

theorem memBytes_noBase {m : MemOp} (hsize : m.size ≠ .a16) (hrip : m.ripRel = false) (hbase : m.base = none) (reg : BitVec 3) :
    memBytes reg m = (0#2 ++ reg ++ 4#3) :: (m.scale ++ m.indexLow ++ 5#3) :: bytes32 m.disp := by
  simp [memBytes, hrip, hbase]

theorem memBytes_base {m : MemOp} {b : Reg} (hsize : m.size ≠ .a16) (hrip : m.ripRel = false) (hbase : m.base = some b)
    (reg : BitVec 3) : memBytes reg m = (2#2 ++ reg ++ 4#3) :: (m.scale ++ m.indexLow ++ b.low) :: bytes32 m.disp := by
  simp [memBytes, hrip, hbase]

theorem parseMem_a16 {cs : CodeSize} {p : Prefixes} (h : addrSizeOf cs p.addrSize = .a16) (rex : Rex) (modrm : Byte) (bs : List Byte) :
    parseMem cs p rex modrm bs = parseMem16 p.seg modrm bs := by
  simp [parseMem, h]

theorem parseMem_wide {cs : CodeSize} {p : Prefixes} {a : AddrSize} (h : addrSizeOf cs p.addrSize = a) (ha : a ≠ .a16) (rex : Rex)
    (modrm : Byte) (bs : List Byte) : parseMem cs p rex modrm bs = parseMem32 cs p.seg a rex modrm bs := by
  unfold parseMem
  cases a with
  | a16 => exact absurd rfl ha
  | a32 => rw [h]
  | a64 => rw [h]

/-- ModRM.rm names the base and index pair that `rm16` wrote for. -/
theorem pair16_rm16 {m : MemOp} (h : (m.base, m.index) ∈ MemOp.pairs16) (hpair : ¬(m.base = none ∧ m.index = none)) :
    pair16 (rm16 m) = (m.base, m.index) := by
  obtain ⟨seg, size, base, index, scale, ripRel, disp⟩ := m
  simp only [MemOp.pairs16, List.mem_cons, Prod.mk.injEq, List.not_mem_nil, or_false] at h
  rcases h with ⟨rfl, rfl⟩ | ⟨rfl, rfl⟩ | ⟨rfl, rfl⟩ | ⟨rfl, rfl⟩ | ⟨rfl, rfl⟩ | ⟨rfl, rfl⟩ | ⟨rfl, rfl⟩ | ⟨rfl, rfl⟩ | hnone
  case inr.inr.inr.inr.inr.inr.inr.inr => exact absurd hnone hpair
  all_goals rfl

/-- 4 stands for no index. -/
theorem regNum_index (m : MemOp) : regNum m.indexHigh m.indexLow = m.index.getD 4 := by
  unfold MemOp.indexHigh MemOp.indexLow
  cases m.index with
  | none => rfl
  | some i => exact regNum_high_low i

theorem parseMem16_none (seg : Option Seg) (reg : BitVec 3) {d : BitVec 32} (hd : (d.truncate 16).signExtend 32 = d) (rest : List Byte) :
    parseMem16 seg (0#2 ++ reg ++ 6#3) (bytes16 d ++ rest) = .ok ⟨seg, .a16, none, none, 0#2, false, d⟩ rest := by
  simp only [parseMem16, modOf_fields, rmOf_fields, if_true, parseDisp16_bytes16 hd, Parse.bind_ok]

theorem parseMem16_pair (seg : Option Seg) (reg rm : BitVec 3) {d : BitVec 32} (hd : (d.truncate 16).signExtend 32 = d)
    (rest : List Byte) : parseMem16 seg (2#2 ++ reg ++ rm) (bytes16 d ++ rest) =
      .ok ⟨seg, .a16, (pair16 rm).1, (pair16 rm).2, 0#2, false, d⟩ rest := by
  have h0 : 2#2 ≠ 0#2 := by decide
  have h1 : 2#2 ≠ 1#2 := by decide
  simp only [parseMem16, modOf_fields, rmOf_fields, if_neg h0, if_neg h1, parseDisp16_bytes16 hd, Parse.bind_ok]

theorem parseMem32_disp (cs : CodeSize) (seg : Option Seg) (a : AddrSize) (rex : Rex) (reg : BitVec 3) (d : BitVec 32)
    (rest : List Byte) : parseMem32 cs seg a rex (0#2 ++ reg ++ 5#3) (bytes32 d ++ rest) =
      .ok ⟨seg, a, none, none, 0#2, cs == .b64, d⟩ rest := by
  have h4 : 5#3 ≠ 4#3 := by decide
  simp only [parseMem32, modOf_fields, rmOf_fields, if_neg h4, and_self, if_true, parseDisp32_bytes32, Parse.bind_ok]

theorem parseMem32_sib (cs : CodeSize) (seg : Option Seg) (a : AddrSize) (rex : Rex) (m : BitVec 2) (reg : BitVec 3) (bs : List Byte) :
    parseMem32 cs seg a rex (m ++ reg ++ 4#3) bs = parseSib seg a rex m bs := by
  simp only [parseMem32, modOf_fields, rmOf_fields, if_true]

/-- The index and the scale that the SIB byte of an operand gives. -/
theorem sib_index {m : MemOp} (hindex : ∀ i, m.index = some i → i ≠ 4) :
    (if regNum m.indexHigh m.indexLow = 4 then none else some (regNum m.indexHigh m.indexLow)) = m.index := by
  rw [regNum_index]
  cases h : m.index with
  | none => rfl
  | some i => exact if_neg (hindex i h)

theorem sib_scale {m : MemOp} (hindex : ∀ i, m.index = some i → i ≠ 4) (hscale : m.index = none → m.scale = 0#2) :
    (if regNum m.indexHigh m.indexLow = 4 then 0#2 else m.scale) = m.scale := by
  rw [regNum_index]
  cases h : m.index with
  | none => exact (hscale h).symm
  | some i => exact if_neg (hindex i h)

theorem parseSib_noBase {m : MemOp} (hindex : ∀ i, m.index = some i → i ≠ 4) (hscale : m.index = none → m.scale = 0#2)
    (seg : Option Seg) (a : AddrSize) {rex : Rex} (hx : rex.x = m.indexHigh) (rest : List Byte) :
    parseSib seg a rex 0#2 ((m.scale ++ m.indexLow ++ 5#3) :: (bytes32 m.disp ++ rest)) =
      .ok ⟨seg, a, none, m.index, m.scale, false, m.disp⟩ rest := by
  simp only [parseSib, parseByte_cons, Parse.bind_ok, modOf_fields, regOf_fields, rmOf_fields, hx, sib_index hindex,
    sib_scale hindex hscale, and_self, if_true, parseDisp32_bytes32]

theorem parseSib_base {m : MemOp} (hindex : ∀ i, m.index = some i → i ≠ 4) (hscale : m.index = none → m.scale = 0#2)
    (seg : Option Seg) (a : AddrSize) {rex : Rex} (hx : rex.x = m.indexHigh) {b : Reg} (hb : rex.b = b.high) (rest : List Byte) :
    parseSib seg a rex 2#2 ((m.scale ++ m.indexLow ++ b.low) :: (bytes32 m.disp ++ rest)) =
      .ok ⟨seg, a, some b, m.index, m.scale, false, m.disp⟩ rest := by
  have h0 : 2#2 ≠ 0#2 := by decide
  have h1 : 2#2 ≠ 1#2 := by decide
  simp only [parseSib, parseByte_cons, Parse.bind_ok, modOf_fields, regOf_fields, rmOf_fields, hx, hb, regNum_high_low,
    sib_index hindex, sib_scale hindex hscale, h0, and_false, if_false, parseDispMod, if_neg h1, parseDisp32_bytes32]

/-- The bytes are a ModRM byte of a memory form with a given reg field, and after it the bytes that the operand is read from, whatever
follows them. -/
def ReadsMem (cs : CodeSize) (p : Prefixes) (rex : Rex) (reg : BitVec 3) (m : MemOp) (bs : List Byte) : Prop :=
  ∃ modrm tail, bs = modrm :: tail ∧ modOf modrm ≠ 3#2 ∧ regOf modrm = reg ∧
    ∀ rest, parseMem cs p rex modrm (tail ++ rest) = .ok m rest

theorem ReadsMem.of_fields {cs : CodeSize} {p : Prefixes} {rex : Rex} {mod : BitVec 2} {reg rm : BitVec 3} {m : MemOp} {tail : List Byte}
    (hmod : mod ≠ 3#2) (hread : ∀ rest, parseMem cs p rex (mod ++ reg ++ rm) (tail ++ rest) = .ok m rest) :
    ReadsMem cs p rex reg m ((mod ++ reg ++ rm) :: tail) :=
  ⟨_, _, rfl, by simpa using hmod, by simp, hread⟩

theorem readsMem_memBytes {cs : CodeSize} {p : Prefixes} {rex : Rex} {m : MemOp} (h : m.ok cs = true) (hseg : p.seg = m.seg)
    (ha : addrSizeOf cs p.addrSize = m.size) (hx : rex.x = m.indexHigh) (hb : rex.b = m.baseHigh) (reg : BitVec 3) :
    ReadsMem cs p rex reg m (memBytes reg m) := by
  by_cases hsize : m.size = .a16
  · obtain ⟨hpairs, hscale, hrip, hdisp⟩ := m.ok_a16 h hsize
    have hm : m = ⟨p.seg, m.size, m.base, m.index, 0#2, false, m.disp⟩ := MemOp.eq_mk hseg.symm rfl rfl hscale hrip
    rw [hsize] at hm
    by_cases hpair : m.base = none ∧ m.index = none
    · rw [memBytes_none16 hsize hpair.1 hpair.2]
      refine .of_fields (by decide) fun rest => ?_
      rw [hpair.1, hpair.2] at hm
      rw [parseMem_a16 (ha.trans hsize), parseMem16_none _ _ hdisp, ← hm]
    · rw [memBytes_pair16 hsize hpair]
      refine .of_fields (by decide) fun rest => ?_
      rw [parseMem_a16 (ha.trans hsize), parseMem16_pair _ _ _ hdisp, pair16_rm16 hpairs hpair, ← hm]
  · cases hrip : m.ripRel with
    | true =>
      obtain ⟨rfl, hbase, hindex, hscale⟩ := m.ok_ripRel h hsize hrip
      have hm : m = ⟨p.seg, m.size, none, none, 0#2, true, m.disp⟩ := MemOp.eq_mk hseg.symm hbase hindex hscale hrip
      rw [memBytes_ripRel hsize hrip]
      refine .of_fields (by decide) fun rest => ?_
      rw [parseMem_wide ha hsize, parseMem32_disp, beq_self_eq_true, ← hm]
    | false =>
      obtain ⟨-, hindex, hscale⟩ := m.ok_sib h hsize hrip
      have hm : m = ⟨p.seg, m.size, m.base, m.index, m.scale, false, m.disp⟩ := MemOp.eq_mk hseg.symm rfl rfl rfl hrip
      cases hbase : m.base with
      | none =>
        rw [memBytes_noBase hsize hrip hbase]
        refine .of_fields (by decide) fun rest => ?_
        rw [hbase] at hm
        rw [parseMem_wide ha hsize, parseMem32_sib, List.cons_append, parseSib_noBase (fun i hi => (hindex i hi).2) hscale _ _ hx, ← hm]
      | some b =>
        rw [memBytes_base hsize hrip hbase]
        refine .of_fields (by decide) fun rest => ?_
        have hhigh : rex.b = b.high := by rw [hb, MemOp.baseHigh_eq_any, hbase, Option.any_some]
        rw [hbase] at hm
        rw [parseMem_wide ha hsize, parseMem32_sib, List.cons_append, parseSib_base (fun i hi => (hindex i hi).2) hscale _ _ hx hhigh, ← hm]

/-! The prefixes. -/

theorem parseInstr_of_add {p q : Prefixes} {b : Byte} (h : p.add b = some q) (cs : CodeSize) (bs : List Byte) :
    parseInstr cs p (b :: bs) = parseInstr cs q bs := by
  rw [parseInstr, h]

@[simp] theorem Prefixes.add_66 (p : Prefixes) : p.add 0x66#8 = some { p with opSize := true } := rfl
@[simp] theorem Prefixes.add_67 (p : Prefixes) : p.add 0x67#8 = some { p with addrSize := true } := rfl
@[simp] theorem Prefixes.add_F3 (p : Prefixes) : p.add 0xF3#8 = some { p with rep := true } := rfl

@[simp] theorem Prefixes.add_segByte (p : Prefixes) (g : Seg) : p.add g.byte = some { p with seg := some g } := by
  cases g <;> rfl

/-- A REX byte is none of the legacy ones. -/
theorem Prefixes.add_rex (p : Prefixes) {b : Byte} (h : b.extractLsb' 4 4 = 4#4) : p.add b = none := by
  have hne {c : Byte} (hc : c.extractLsb' 4 4 ≠ 4#4) : b ≠ c := fun hbc => hc (hbc ▸ h)
  unfold Prefixes.add
  repeat rw [if_neg (hne (by decide))]

theorem parseInstr_rex {b : Byte} (h : b.extractLsb' 4 4 = 4#4) (p : Prefixes) (bs : List Byte) :
    parseInstr .b64 p (b :: bs) = parseOpcode .b64 p (Rex.ofByte b) bs := by
  rw [parseInstr, p.add_rex h]
  exact if_pos ⟨rfl, h⟩

/-- Every opcode begins with 0F, which is neither a legacy byte nor a REX byte. -/
theorem parseInstr_0F (cs : CodeSize) (p : Prefixes) (bs : List Byte) :
    parseInstr cs p (0x0F#8 :: bs) = parseOpcode cs p Rex.absent (0x0F#8 :: bs) := by
  have hnoRex : ¬(cs = .b64 ∧ (0x0F#8).extractLsb' 4 4 = 4#4) := fun h => absurd h.2 (by decide)
  rw [parseInstr, show p.add 0x0F#8 = none from rfl]
  exact if_neg hnoRex

/-- Outside 64-bit code there is no REX byte, and its bits are to be 0. -/
theorem parseInstr_rexBytes {cs : CodeSize} {r x b : Bool} (h : cs ≠ .b64 → Rex.mk r x b = Rex.absent) (p : Prefixes) (bs : List Byte) :
    parseInstr cs p (rexBytes cs r x b ++ 0x0F#8 :: bs) = parseOpcode cs p ⟨r, x, b⟩ (0x0F#8 :: bs) := by
  cases cs with
  | b64 =>
    have hbyte : ∀ r x b : Bool, (4#4 ++ (0#1 ++ BitVec.ofBool r ++ BitVec.ofBool x ++ BitVec.ofBool b) : Byte).extractLsb' 4 4 = 4#4 ∧
        Rex.ofByte (4#4 ++ (0#1 ++ BitVec.ofBool r ++ BitVec.ofBool x ++ BitVec.ofBool b)) = ⟨r, x, b⟩ := by decide
    obtain ⟨hrex, hbits⟩ := hbyte r x b
    rw [rexBytes, List.singleton_append, parseInstr_rex hrex, hbits]
  | b32 => exact (parseInstr_0F _ _ _).trans (by rw [h nofun])
  | b16 => exact (parseInstr_0F _ _ _).trans (by rw [h nofun])

/-- The prefixes that a memory operand takes. -/
def MemOp.prefixes (cs : CodeSize) (m : MemOp) : Prefixes :=
  { Prefixes.empty with addrSize := m.size != addrSizeOf cs false, seg := m.seg }

theorem parseInstr_memPrefixes (cs : CodeSize) (m : MemOp) (bs : List Byte) :
    parseInstr cs Prefixes.empty (memPrefixes cs m ++ bs) = parseInstr cs (m.prefixes cs) bs := by
  have hseg : parseInstr cs Prefixes.empty (memPrefixes cs m ++ bs) = parseInstr cs { Prefixes.empty with seg := m.seg }
      ((if m.size = addrSizeOf cs false then [] else [0x67#8]) ++ bs) := by
    unfold memPrefixes
    cases m.seg with
    | none => rfl
    | some g => exact parseInstr_of_add (Prefixes.add_segByte _ g) _ _
  by_cases hsize : m.size = addrSizeOf cs false
  · rw [hseg, if_pos hsize, MemOp.prefixes, hsize, bne_self_eq_false]; rfl
  · rw [hseg, if_neg hsize, MemOp.prefixes, bne_iff_ne.2 hsize]
    exact parseInstr_of_add (Prefixes.add_67 _) _ _

/-- The prefixes give the operand's address size back. -/
theorem addrSizeOf_prefixes {cs : CodeSize} {m : MemOp} (h : m.size.ok cs = true) : addrSizeOf cs (m.prefixes cs).addrSize = m.size := by
  have hall (a : AddrSize) : a.ok cs = true → addrSizeOf cs (a != addrSizeOf cs false) = a := by
    cases cs <;> cases a <;> decide
  exact hall _ h

/-! The rows of the opcode table. -/

theorem parseOpcode_0F38 (cs : CodeSize) (p : Prefixes) (rex : Rex) (bs : List Byte) :
    parseOpcode cs p rex (0x0F#8 :: 0x38#8 :: bs) = parse0F38 cs p rex bs := rfl

theorem parseOpcode_0F22 (cs : CodeSize) (p : Prefixes) (rex : Rex) (bs : List Byte) :
    parseOpcode cs p rex (0x0F#8 :: 0x22#8 :: bs) = parse0F22 rex bs := rfl

theorem parseOpcode_0F01 (cs : CodeSize) (p : Prefixes) (rex : Rex) (bs : List Byte) :
    parseOpcode cs p rex (0x0F#8 :: 0x01#8 :: bs) = parse0F01 cs p rex bs := rfl

theorem parseOpcode_0FC7 (cs : CodeSize) (p : Prefixes) (rex : Rex) (bs : List Byte) :
    parseOpcode cs p rex (0x0F#8 :: 0xC7#8 :: bs) = parse0FC7 cs p rex bs := rfl

/-- What INVEPT and INVVPID ask of the prefixes: 66, and neither F3 nor F2 (R62, R63). -/
def Prefixes.only66 (p : Prefixes) : Prop := p.opSize = true ∧ p.rep = false ∧ p.repne = false

theorem parse0F38_of_only66 {p : Prefixes} (h : p.only66) (cs : CodeSize) (rex : Rex) (modrm : Byte) (bs : List Byte) :
    parse0F38 cs p rex (0x80#8 :: modrm :: bs) = (if modOf modrm = 3#2 then .undefined
        else (parseMem cs p rex modrm bs).bind fun mem r => .ok (.invept (regNum rex.r (regOf modrm)) mem) r) ∧
      parse0F38 cs p rex (0x81#8 :: modrm :: bs) = (if modOf modrm = 3#2 then .undefined
        else (parseMem cs p rex modrm bs).bind fun mem r => .ok (.invvpid (regNum rex.r (regOf modrm)) mem) r) := by
  obtain ⟨hop, hrep, hrepne⟩ := h
  simp [parse0F38, hop, hrep, hrepne]

theorem parse0F38_invept {cs : CodeSize} {p : Prefixes} {rex : Rex} {r : Reg} {m : MemOp} {bs : List Byte} (hp : p.only66)
    (hr : rex.r = r.high) (hm : ReadsMem cs p rex r.low m bs) (rest : List Byte) :
    parse0F38 cs p rex (0x80#8 :: (bs ++ rest)) = .ok (.invept r m) rest := by
  obtain ⟨modrm, tail, rfl, hmod, hreg, hread⟩ := hm
  rw [List.cons_append, (parse0F38_of_only66 hp ..).1, if_neg hmod, hread, Parse.bind_ok, hr, hreg, regNum_high_low]

theorem parse0F38_invvpid {cs : CodeSize} {p : Prefixes} {rex : Rex} {r : Reg} {m : MemOp} {bs : List Byte} (hp : p.only66)
    (hr : rex.r = r.high) (hm : ReadsMem cs p rex r.low m bs) (rest : List Byte) :
    parse0F38 cs p rex (0x81#8 :: (bs ++ rest)) = .ok (.invvpid r m) rest := by
  obtain ⟨modrm, tail, rfl, hmod, hreg, hread⟩ := hm
  rw [List.cons_append, (parse0F38_of_only66 hp ..).2, if_neg hmod, hread, Parse.bind_ok, hr, hreg, regNum_high_low]

/-- ModRM.mod is not looked at (R65). -/
theorem parse0F22_movCr3 {rex : Rex} {modrm : Byte} (hr : rex.r = false) (hreg : regOf modrm = 3#3) (rest : List Byte) :
    parse0F22 rex (modrm :: rest) = .ok (.movCr3 (regNum rex.b (rmOf modrm))) rest := by
  have h3 : regNum false 3#3 = 3 := by decide
  rw [parse0F22, parseByte_cons, Parse.bind_ok, hr, hreg, if_pos h3]

theorem parse0F22_movCr4 {rex : Rex} {modrm : Byte} (hr : rex.r = false) (hreg : regOf modrm = 4#3) (rest : List Byte) :
    parse0F22 rex (modrm :: rest) = .ok (.movCr4 (regNum rex.b (rmOf modrm))) rest := by
  have h3 : regNum false 4#3 ≠ 3 := by decide
  have h4 : regNum false 4#3 = 4 := by decide
  rw [parse0F22, parseByte_cons, Parse.bind_ok, hr, hreg, if_neg h3, if_pos h4]

theorem parse0F01_invlpg {cs : CodeSize} {p : Prefixes} {rex : Rex} {m : MemOp} {bs : List Byte} (hm : ReadsMem cs p rex 7#3 m bs)
    (rest : List Byte) : parse0F01 cs p rex (bs ++ rest) = .ok (.invlpg m) rest := by
  obtain ⟨modrm, tail, rfl, hmod, hreg, hread⟩ := hm
  have hne : modrm ≠ 0xC4#8 := fun h => absurd (h ▸ hreg) (by decide)
  rw [List.cons_append, parse0F01, parseByte_cons, Parse.bind_ok, if_neg hne, if_pos ⟨hreg, hmod⟩, hread, Parse.bind_ok]

theorem parse0FC7_vmxon {cs : CodeSize} {p : Prefixes} {rex : Rex} {m : MemOp} {bs : List Byte} (hrep : p.rep = true)
    (hrepne : p.repne = false) (hm : ReadsMem cs p rex 6#3 m bs) (rest : List Byte) :
    parse0FC7 cs p rex (bs ++ rest) = .ok (.vmxon m) rest := by
  obtain ⟨modrm, tail, rfl, hmod, hreg, hread⟩ := hm
  rw [List.cons_append, parse0FC7, parseByte_cons, Parse.bind_ok, if_pos ⟨hrep, by simp [hrepne], hreg, hmod⟩, hread, Parse.bind_ok]

/-! Decoding what is encoded. -/

/-- The REX bits that an operand takes, with the bit R of the other one. -/
def MemOp.rex (r : Bool) (m : MemOp) : Rex := ⟨r, m.indexHigh, m.baseHigh⟩

theorem MemOp.rex_eq_absent {cs : CodeSize} {m : MemOp} {r : Bool} (h : m.ok cs = true) (hr : cs ≠ .b64 → r = false) (hcs : cs ≠ .b64) :
    m.rex r = Rex.absent := by
  obtain ⟨hx, hb⟩ := m.high_of_ok h hcs
  rw [MemOp.rex, hr hcs, hx, hb, Rex.absent]

/-- The operand is read back where its own prefixes stand, whatever mandatory byte is among them. -/
theorem MemOp.reads {cs : CodeSize} {m : MemOp} {p : Prefixes} (h : m.ok cs = true) (hseg : p.seg = (m.prefixes cs).seg)
    (ha : p.addrSize = (m.prefixes cs).addrSize) (r : Bool) (reg : BitVec 3) : ReadsMem cs p (m.rex r) reg m (memBytes reg m) :=
  readsMem_memBytes h hseg (ha ▸ addrSizeOf_prefixes (MemOp.size_ok h)) rfl rfl reg

/-- Up to 0F 38 the encodings of INVEPT and INVVPID are read alike. -/
theorem decode_memPrefixes_66 {cs : CodeSize} {r : Reg} {m : MemOp} (hr : r.ok cs = true) (hm : m.ok cs = true) (bs : List Byte) :
    decode cs (memPrefixes cs m ++ 0x66#8 :: (rexBytes cs r.high m.indexHigh m.baseHigh ++ 0x0F#8 :: 0x38#8 :: bs)) =
      parse0F38 cs { m.prefixes cs with opSize := true } (m.rex r.high) bs := by
  rw [decode, parseInstr_memPrefixes, parseInstr_of_add (Prefixes.add_66 _),
    parseInstr_rexBytes (m.rex_eq_absent hm (Reg.high_of_ok hr)), parseOpcode_0F38, MemOp.rex]

theorem decode_encode_invept {cs : CodeSize} {r : Reg} {m : MemOp} (hr : r.ok cs = true) (hm : m.ok cs = true) (rest : List Byte) :
    decode cs (encode cs (.invept r m) ++ rest) = .ok (.invept r m) rest := by
  simp only [encode, List.append_assoc, List.cons_append, List.nil_append, decode_memPrefixes_66 hr hm]
  refine parse0F38_invept ⟨rfl, rfl, rfl⟩ rfl ?_ rest
  exact m.reads hm rfl rfl _ _

theorem decode_encode_invvpid {cs : CodeSize} {r : Reg} {m : MemOp} (hr : r.ok cs = true) (hm : m.ok cs = true) (rest : List Byte) :
    decode cs (encode cs (.invvpid r m) ++ rest) = .ok (.invvpid r m) rest := by
  simp only [encode, List.append_assoc, List.cons_append, List.nil_append, decode_memPrefixes_66 hr hm]
  refine parse0F38_invvpid ⟨rfl, rfl, rfl⟩ rfl ?_ rest
  exact m.reads hm rfl rfl _ _

/-- So are those of MOV to CR3 and to CR4, up to 0F 22. -/
theorem decode_rexBytes_0F22 {cs : CodeSize} {r : Reg} (hr : r.ok cs = true) (bs : List Byte) :
    decode cs (rexBytes cs false false r.high ++ 0x0F#8 :: 0x22#8 :: bs) = parse0F22 ⟨false, false, r.high⟩ bs := by
  have hrex (hcs : cs ≠ .b64) : Rex.mk false false r.high = Rex.absent := by rw [Reg.high_of_ok hr hcs, Rex.absent]
  rw [decode, parseInstr_rexBytes hrex, parseOpcode_0F22]

theorem decode_encode_movCr3 {cs : CodeSize} {r : Reg} (hr : r.ok cs = true) (rest : List Byte) :
    decode cs (encode cs (.movCr3 r) ++ rest) = .ok (.movCr3 r) rest := by
  simp only [encode, List.append_assoc, List.cons_append, List.nil_append, decode_rexBytes_0F22 hr]
  rw [parse0F22_movCr3 rfl (regOf_fields ..), rmOf_fields, regNum_high_low]

theorem decode_encode_movCr4 {cs : CodeSize} {r : Reg} (hr : r.ok cs = true) (rest : List Byte) :
    decode cs (encode cs (.movCr4 r) ++ rest) = .ok (.movCr4 r) rest := by
  simp only [encode, List.append_assoc, List.cons_append, List.nil_append, decode_rexBytes_0F22 hr]
  rw [parse0F22_movCr4 rfl (regOf_fields ..), rmOf_fields, regNum_high_low]

theorem decode_encode_invlpg {cs : CodeSize} {m : MemOp} (hm : m.ok cs = true) (rest : List Byte) :
    decode cs (encode cs (.invlpg m) ++ rest) = .ok (.invlpg m) rest := by
  simp only [encode, List.append_assoc, List.cons_append, List.nil_append]
  rw [decode, parseInstr_memPrefixes, parseInstr_rexBytes (m.rex_eq_absent hm fun _ => rfl), parseOpcode_0F01]
  exact parse0F01_invlpg (m.reads hm rfl rfl _ _) rest

theorem decode_encode_vmxon {cs : CodeSize} {m : MemOp} (hm : m.ok cs = true) (rest : List Byte) :
    decode cs (encode cs (.vmxon m) ++ rest) = .ok (.vmxon m) rest := by
  simp only [encode, List.append_assoc, List.cons_append, List.nil_append]
  rw [decode, parseInstr_memPrefixes, parseInstr_of_add (Prefixes.add_F3 _), parseInstr_rexBytes (m.rex_eq_absent hm fun _ => rfl),
    parseOpcode_0FC7]
  refine parse0FC7_vmxon rfl rfl ?_ rest
  exact m.reads hm rfl rfl _ _

theorem decode_encode_vmxoff (cs : CodeSize) (rest : List Byte) : decode cs (encode cs .vmxoff ++ rest) = .ok .vmxoff rest :=
  parseInstr_0F _ _ _

theorem decode_encode_cpuid (cs : CodeSize) (rest : List Byte) : decode cs (encode cs .cpuid ++ rest) = .ok .cpuid rest :=
  parseInstr_0F _ _ _

/-- Settles O2, row by row of the opcode table. -/
theorem encodeDecodeAgree : Obligations.EncodeDecodeAgree := by
  intro cs i rest h
  cases i with
  | invept r m =>
    obtain ⟨hr, hm⟩ := Bool.and_eq_true_iff.1 h
    exact decode_encode_invept hr hm rest
  | invvpid r m =>
    obtain ⟨hr, hm⟩ := Bool.and_eq_true_iff.1 h
    exact decode_encode_invvpid hr hm rest
  | movCr3 r => exact decode_encode_movCr3 h rest
  | movCr4 r => exact decode_encode_movCr4 h rest
  | invlpg m => exact decode_encode_invlpg h rest
  | vmxon m => exact decode_encode_vmxon h rest
  | vmxoff => exact decode_encode_vmxoff cs rest
  | cpuid => exact decode_encode_cpuid cs rest

end Sys2Proof
end

section
/-! PROOFS. The ModRM forms of the rows, and words written out (30_encoding.md R62, R63, R65, log 30). -/

namespace Sys2Proof

/-- The register form of 80 /r and 81 /r is no instruction (R62, R63). -/
theorem parse0F38_registerForm {p : Prefixes} {op modrm : Byte} (hp : p.only66) (hop : op = 0x80#8 ∨ op = 0x81#8)
    (hmod : modOf modrm = 3#2) (cs : CodeSize) (rex : Rex) (rest : List Byte) :
    parse0F38 cs p rex (op :: modrm :: rest) = .undefined := by
  obtain ⟨hinvept, hinvvpid⟩ := parse0F38_of_only66 hp cs rex modrm rest
  rcases hop with rfl | rfl
  · rw [hinvept, if_pos hmod]
  · rw [hinvvpid, if_pos hmod]

/-- Settles O3: the prefixes read are 66 alone, with or without REX; without REX a register number is that of ModRM. -/
theorem modrmModForms : Obligations.ModrmModForms := by
  constructor
  · intro op m rex rest hop hmod hrex
    have h66 : { Prefixes.empty with opSize := true }.only66 := ⟨rfl, rfl, rfl⟩
    constructor
    · intro cs
      rw [decode, parseInstr_of_add (Prefixes.add_66 _), parseInstr_0F, parseOpcode_0F38, parse0F38_registerForm h66 hop hmod]
    · rw [decode, parseInstr_of_add (Prefixes.add_66 _), parseInstr_rex hrex, parseOpcode_0F38, parse0F38_registerForm h66 hop hmod]
  · intro cs m rest
    rw [decode, parseInstr_0F, parseOpcode_0F22]
    exact ⟨fun hreg => parse0F22_movCr3 rfl hreg rest, fun hreg => parse0F22_movCr4 rfl hreg rest⟩

/-- Settles O1: each word is decoded as it stands. -/
theorem wordsDecode : Obligations.WordsDecode := by
  refine ⟨?_, ?_, ?_, ?_, ?_, ?_, ?_, ?_, ?_⟩
  all_goals decide

end Sys2Proof
end

section
/-! PROOFS. The descriptor of INVEPT and INVVPID (30_encoding.md R64, 47_invalidation.md R276, R284). -/

namespace Sys2Proof.Machine

open Sys2Proof

/-- Tests (1) to (3) are passed in root operation at privilege level 0, in protected and in 64-bit mode. -/
theorem vmxCheck_eq_none {s : State} (hmode : s.mode = .root) (hcpl : s.cpl = 0#2)
    (hcpu : s.cpuMode = .protectedMode ∨ s.cpuMode = .long64) (i : ExitInstr) : vmxCheck i s = none := by
  rcases hcpu with hcpu | hcpu <;> simp [vmxCheck, hmode, hcpl, hcpu]

section
variable {c : Cfg} {i : ExitInstr} {s : State} {m : MemOp} (hcheck : vmxCheck i s = none) (op : Word → BitVec 128 → State → State)
  (r : Reg)
include hcheck

/-- The segment's fault comes before the read (log 33). -/
theorem descInstr_not_allowed (hseg : s.segmentAllows m 16 = false) :
    descInstr c i op r m s = .next (deliver c (segmentFault m) s) := by
  simp [descInstr, hcheck, hseg]

/-- Where the tests are passed and the segment allows the operand, the read decides (log 37). -/
theorem descInstr_allowed (hseg : s.segmentAllows m 16 = true) :
    descInstr c i op r m s = (linearAccess c (descAccess s m) (Ctx.start s)).outcome c s fun q t =>
      .next (op (s.regOperand r) (descOfBytes q.2) t) := by
  simp [descInstr, hcheck, hseg]

theorem descInstr_read (hseg : s.segmentAllows m 16 = true) {parts : List PartDone} {bs : List Byte} {x : Ctx}
    (hread : linearAccess c (descAccess s m) (Ctx.start s) = .ok (parts, bs) x) :
    descInstr c i op r m s = .next (op (s.regOperand r) (descOfBytes bs) x.st) := by
  rw [descInstr_allowed hcheck op r hseg, hread, Res.outcome]

theorem descInstr_raised (hseg : s.segmentAllows m 16 = true) {e : Event} {x : Ctx}
    (hread : linearAccess c (descAccess s m) (Ctx.start s) = .raised e x) :
    descInstr c i op r m s = .next (deliver c e (rollback c s e x)) := by
  rw [descInstr_allowed hcheck op r hseg, hread, Res.outcome]

end

/-- Settles O43: both instructions are `descInstr`, which past the tests is decided by the segment and then by the read. -/
theorem descriptorRead : Obligations.DescriptorRead := by
  refine ⟨fun _ _ _ => ⟨rfl, rfl⟩, fun c s r m hmode hcpl hcpu => ?_⟩
  have hcheck (i : ExitInstr) : vmxCheck i s = none := vmxCheck_eq_none hmode hcpl hcpu i
  refine ⟨fun hseg => ?_, fun hseg => ⟨fun parts bs x hread => ?_, fun e x hread => ?_⟩⟩
  · exact ⟨descInstr_not_allowed (hcheck _) _ r hseg, descInstr_not_allowed (hcheck _) _ r hseg⟩
  · exact ⟨descInstr_read (hcheck _) _ r hseg hread, descInstr_read (hcheck _) _ r hseg hread⟩
  · exact ⟨descInstr_raised (hcheck _) _ r hseg hread, descInstr_raised (hcheck _) _ r hseg hread⟩

end Sys2Proof.Machine
end

section
/-! PROOFS. The current VPID, and which cached mappings can be used (40_vpid.md R73, R74, 46_caching.md R240 to R243). -/

namespace Sys2Proof.Machine

open Sys2Proof

/-- Settles O14, by the mode. -/
theorem currentVpid : Obligations.CurrentVpid := by
  intro s
  cases h : s.mode with
  | outsideVmx => simp [State.currentVpid, h]
  | root => simp [State.currentVpid, h]
  | nonRoot => simp [State.currentVpid, h]

/-! What an access has changed decides nothing of what it can use. -/

section
variable {c : Cfg} {x y : Ctx} (h : Kept c x y)
include h

theorem Kept.cache : y.st.cache = x.st.cache := by
  obtain ⟨⟨_, _, _, _, hst, -⟩, -⟩ := h
  rw [hst]

theorem Kept.guestRegs : y.st.guestRegs = x.st.guestRegs := by
  obtain ⟨⟨_, _, _, _, hst, -⟩, -⟩ := h
  rw [hst]
  rfl

theorem Kept.gphysUsable : gphysUsable y.st = gphysUsable x.st := by
  obtain ⟨⟨_, _, _, _, hst, -⟩, -⟩ := h
  rw [hst]
  rfl

theorem Kept.linearUsable (c' : Cfg) : linearUsable c' y.st = linearUsable c' x.st := by
  obtain ⟨⟨_, _, _, _, hst, -⟩, -⟩ := h
  rw [hst]
  rfl

theorem Kept.unmatched (c' : Cfg) (la : Word) (m : Mapping) : m.unmatched c' y.st la ↔ m.unmatched c' x.st la := by
  obtain ⟨⟨_, _, _, _, hst, -⟩, -⟩ := h
  rw [hst]
  rfl

theorem Kept.eptInUse : y.st.eptInUse = x.st.eptInUse := by
  obtain ⟨⟨_, _, _, _, hst, -⟩, -⟩ := h
  rw [hst]
  rfl

end

/-! Mappings that cannot be used. -/

theorem gphysUsable_eq_false {s : State} {gpa : Word} {m : Mapping}
    (h : m.isGPhys = false ∨ m.hasEp4ta s.ep4ta = false ∨ m.coversGpa gpa = false) (level : Nat) :
    gphysUsable s gpa level m = false := by
  rcases h with h | h | h <;> simp [gphysUsable, h]

theorem Mapping.isCombined_of_isLinear {m : Mapping} (h : m.isLinear = true) : m.isCombined = false := by
  cases m with
  | linearTr | linearPsc => rfl
  | gphysTr | gphysPsc | combTr | combPsc => cases h

/-- R240 to R243: of the tags one does not match, the address is not covered, or the kind is another. -/
theorem linearUsable_eq_false {c : Cfg} {s : State} {la : Word} {m : Mapping}
    (h : m.hasVpid s.currentVpid = false ∨ (m.hasPcid (s.currentPcid c) = false ∧ m.isGlobal = false) ∨ m.coversLa la = false ∨
      (s.eptInUse = true ∧ (m.isLinear = true ∨ m.hasEp4ta s.ep4ta = false)) ∨ (s.eptInUse = false ∧ m.isLinear = false))
    (level : Nat) : linearUsable c s la level m = false := by
  rcases h with h | ⟨hpcid, hglobal⟩ | h | ⟨hept, hlin | htag⟩ | ⟨hept, hlin⟩
  · simp [linearUsable, Mapping.tagsMatch, h]
  · simp [linearUsable, Mapping.tagsMatch, hpcid, hglobal]
  · simp [linearUsable, h]
  · simp [linearUsable, hept, Mapping.isCombined_of_isLinear hlin]
  · simp [linearUsable, hept, htag]
  · simp [linearUsable, hept, hlin]

theorem Mapping.coversLa_of_isGPhys {m : Mapping} (h : m.isGPhys = true) (la : Word) : m.coversLa la = false := by
  cases m with
  | gphysTr | gphysPsc => rfl
  | linearTr | linearPsc | combTr | combPsc => cases h

theorem linearUsable_of_isGPhys {m : Mapping} (h : m.isGPhys = true) (c : Cfg) (s : State) (la : Word) (level : Nat) :
    linearUsable c s la level m = false :=
  linearUsable_eq_false (.inr (.inr (.inl (Mapping.coversLa_of_isGPhys h la)))) level

theorem Mapping.unmatched.linearUsable {c : Cfg} {s : State} {la : Word} {m : Mapping} (h : m.unmatched c s la) (level : Nat) :
    linearUsable c s la level m = false := by
  rcases h with ⟨hg, -⟩ | ⟨-, h⟩
  · exact linearUsable_of_isGPhys hg c s la level
  · exact linearUsable_eq_false h level

theorem Mapping.unmatched.gphysUsable {c : Cfg} {s : State} {la : Word} {m : Mapping} (h : m.unmatched c s la) (hept : s.eptInUse = true)
    (gpa : Word) (level : Nat) : gphysUsable s gpa level m = false := by
  rcases h with ⟨-, h | h⟩ | ⟨hg, -⟩
  · simp [hept] at h
  · exact gphysUsable_eq_false (.inr (.inl h)) level
  · exact gphysUsable_eq_false (.inl hg) level

/-- With EPT in use only combined mappings are used, without it only linear ones. -/
theorem linearUsable_kind {c : Cfg} {s : State} {la : Word} {level : Nat} {m : Mapping} (h : linearUsable c s la level m = true) :
    if s.eptInUse then m.isCombined = true else m.isLinear = true := by
  unfold Machine.linearUsable at h
  cases hept : s.eptInUse <;> simp_all

/-! Computations in sequence. -/

theorem Res.bind_congr {α β : Type} {r : Res α} {f g : α → Ctx → Res β} (h : ∀ a x, r = .ok a x → f a x = g a x) :
    r.bind f = r.bind g := by
  cases r with
  | ok a x => exact h a x rfl
  | raised | stopped => rfl

/-! A pick among the cached mappings. -/

/-- With no candidate the cache is not used, and no free value is drawn. -/
theorem pick_filter_nil {c : Cfg} {x : Ctx} {l : List Mapping} {p : Mapping → Bool} (h : ∀ m ∈ l, p m = false) :
    pick c x (l.filter p) = (none, x) := by
  rw [List.filter_eq_nil_iff.2 fun m hm => by simp [h m hm], pick_nil]

/-- What can be picked: nothing, or a candidate; only the count of free values changes. -/
theorem pick_filter_cases (c : Cfg) (x : Ctx) (l : List Mapping) (p : Mapping → Bool) :
    ∃ y, Kept c x y ∧ (pick c x (l.filter p) = (none, y) ∨ ∃ m ∈ l, p m = true ∧ pick c x (l.filter p) = (some m, y)) := by
  refine ⟨_, kept_pick c x (l.filter p), ?_⟩
  rcases (pick_spec c x (l.filter p)).1 with h | ⟨m, hm, h⟩
  · exact .inl (Prod.ext h rfl)
  · obtain ⟨hmem, hp⟩ := List.mem_filter.1 hm
    exact .inr ⟨m, hmem, hp, Prod.ext h rfl⟩

/-- A candidate is picked for some free value, whatever else the configuration is. -/
theorem pick_filter_mem {x : Ctx} {l : List Mapping} {p : Mapping → Bool} {m : Mapping} (hm : m ∈ l) (hp : p m = true)
    (hl : l.length < 2 ^ 64) :
    ∃ v, ∀ c : Cfg, c.free x.st.freeCtr = v → pick c x (l.filter p) = (some m, x.mapSt fun s => s.bump 1) := by
  obtain ⟨i, hi⟩ := List.mem_iff_getElem?.1 (List.mem_filter.2 ⟨hm, hp⟩)
  exact ⟨_, fun c hc => pick_index hi ((List.length_filter_le p l).trans_lt hl) hc⟩

/-- The free value 1 picks the first candidate, here the only one but for copies of it. -/
theorem pick_filter_only {c : Cfg} {x : Ctx} {l : List Mapping} {p : Mapping → Bool} {m : Mapping} (hm : m ∈ l) (hp : p m = true)
    (hothers : ∀ k ∈ l, k = m ∨ p k = false) (hfree : c.free x.st.freeCtr = 1#64) :
    pick c x (l.filter p) = (some m, x.mapSt fun s => s.bump 1) := by
  have hall : ∀ k ∈ l.filter p, k = m := fun k hk => by
    obtain ⟨hkl, hkp⟩ := List.mem_filter.1 hk
    exact (hothers k hkl).resolve_right (by simp [hkp])
  have hmem : m ∈ l.filter p := List.mem_filter.2 ⟨hm, hp⟩
  generalize l.filter p = candidates at hall hmem
  cases candidates with
  | nil => cases hmem
  | cons k ks =>
    simp [pick, hfree, hall k (by simp)]

end Sys2Proof.Machine
end

section
/-! PROOFS. What a used guest-physical mapping gives, and the EPT walk where none can be used (46_caching.md R242, R244). -/

namespace Sys2Proof.Machine

open Sys2Proof

/-! One entry of a translation of a guest-physical address. -/

section
variable {c : Cfg} {acc : GAccess} {gpa base : Word} {fuel level : Nat} {r : Rights} {used : List WalkEntry} {sources : List Mapping}
  {x y : Ctx}

/-- What comes after an entry that a translation reads. -/
def eptTranslateNext (c : Cfg) (acc : GAccess) (gpa : Word) (fuel level : Nat) (base : Word) (r : Rights) (used : List WalkEntry)
    (sources : List Mapping) (e : Word) (z : Ctx) : Res Walk :=
  let ea := base + 8#64 * gpaIndex gpa level
  let used' := used ++ [⟨ea, e.getLsbD 8, false⟩]
  if isLeaf level e then .ok { walkLeaf gpa level ea e (r.meet e) used' with sources := sources } z
  else eptTranslateFrom c acc gpa fuel (level - 1) (tableBase e) (r.meet e) used' sources z

theorem eptTranslateFrom_gphysTr {m : GPhysTr}
    (h : pick c x (x.st.cache.filter (gphysUsable x.st gpa level)) = (some (.gphysTr m), y)) :
    eptTranslateFrom c acc gpa (fuel + 1) level base r used sources x = .ok (walkOfGPhysTr m gpa sources) (y.use (.gphysTr m)) := by
  rw [eptTranslateFrom, h]

theorem eptTranslateFrom_gphysPsc {m : GPhysPsc}
    (h : pick c x (x.st.cache.filter (gphysUsable x.st gpa level)) = (some (.gphysPsc m), y)) :
    eptTranslateFrom c acc gpa (fuel + 1) level base r used sources x =
      eptTranslateFrom c acc gpa fuel (m.level - 1) m.table m.rights (recordedEntries m.used) (sources ++ [.gphysPsc m])
        (y.use (.gphysPsc m)) := by
  rw [eptTranslateFrom, h]

theorem eptTranslateFrom_none (h : pick c x (x.st.cache.filter (gphysUsable x.st gpa level)) = (none, y)) :
    eptTranslateFrom c acc gpa (fuel + 1) level base r used sources x =
      (eptEntry c acc gpa y level base r).bind (eptTranslateNext c acc gpa fuel level base r used sources) := by
  rw [eptTranslateFrom, h]
  rfl

/-- What a translation may take from the cache at an entry: nothing, or a usable guest-physical mapping. -/
theorem pick_gphysUsable (c : Cfg) (gpa : Word) (level : Nat) (x : Ctx) :
    ∃ y, Kept c x y ∧
      (pick c x (x.st.cache.filter (gphysUsable x.st gpa level)) = (none, y) ∨
        (∃ m, pick c x (x.st.cache.filter (gphysUsable x.st gpa level)) = (some (.gphysTr m), y) ∧ .gphysTr m ∈ x.st.cache ∧
          gphysUsable x.st gpa level (.gphysTr m) = true) ∨
        ∃ m, pick c x (x.st.cache.filter (gphysUsable x.st gpa level)) = (some (.gphysPsc m), y) ∧ .gphysPsc m ∈ x.st.cache ∧
          gphysUsable x.st gpa level (.gphysPsc m) = true) := by
  obtain ⟨y, hk, h | ⟨m, hm, hp, h⟩⟩ := pick_filter_cases c x x.st.cache (gphysUsable x.st gpa level)
  · exact ⟨y, hk, .inl h⟩
  · cases m with
    | gphysTr m => exact ⟨y, hk, .inr (.inl ⟨m, h, hm, hp⟩)⟩
    | gphysPsc m => exact ⟨y, hk, .inr (.inr ⟨m, h, hm, hp⟩)⟩
    | linearTr | linearPsc | combTr | combPsc => simp [gphysUsable, Mapping.isGPhys] at hp

end

/-! No mapping that can be used. -/

/-- R244: with no mapping usable from a level on, a translation from there is the walk of memory, from the mappings it came from before. -/
theorem eptTranslateFrom_eq_walk {c : Cfg} {acc : GAccess} {gpa base : Word} {n fuel : Nat} {r : Rights} {used : List WalkEntry}
    {x : Ctx} (sources : List Mapping) (hfuel : n < fuel)
    (hnone : ∀ m ∈ x.st.cache, ∀ level, level ≤ n + 1 → gphysUsable x.st gpa level m = false) :
    eptTranslateFrom c acc gpa fuel (n + 1) base r used sources x =
      (eptWalkFrom c acc gpa n base r used x).bind fun w z => .ok { w with sources := sources } z := by
  induction n generalizing fuel base r used x with
  | zero =>
    obtain ⟨fuel, rfl⟩ := Nat.exists_eq_add_of_lt hfuel
    rw [eptTranslateFrom_none (pick_filter_nil fun m hm => hnone m hm _ le_rfl), eptWalkFrom, Res.bind_assoc]
    rfl
  | succ n ih =>
    obtain ⟨fuel, rfl⟩ := Nat.exists_eq_add_of_lt hfuel
    rw [eptTranslateFrom_none (pick_filter_nil fun m hm => hnone m hm _ le_rfl), eptWalkFrom, Res.bind_assoc]
    refine Res.bind_congr fun e y hy => ?_
    have hk : Kept c x y := (eptEntry_keeps c acc gpa x _ base r).kept_of_ok hy
    unfold eptTranslateNext
    dsimp only
    split
    · rfl
    · refine ih (by omega) fun m hm level hl => ?_
      rw [hk.gphysUsable]
      exact hnone m (hk.cache ▸ hm) level (by omega)

/-- A walk of memory comes from no cached mapping. -/
theorem eptWalkFrom_sources {c : Cfg} {acc : GAccess} {gpa base : Word} {n : Nat} {r : Rights} {used : List WalkEntry} {x z : Ctx}
    {w : Walk} (h : eptWalkFrom c acc gpa n base r used x = .ok w z) : w.sources = [] := by
  induction n generalizing base r used x with
  | zero =>
    obtain ⟨e, y, -, h⟩ := Res.bind_eq_ok.1 h
    dsimp only at h
    split at h <;> cases h <;> rfl
  | succ n ih =>
    obtain ⟨e, y, -, h⟩ := Res.bind_eq_ok.1 h
    dsimp only at h
    split at h
    · cases h
      rfl
    · exact ih h

/-- R242: with no guest-physical mapping that matches, an access to a guest-physical address goes by the EPT walk. -/
theorem eptTranslate_eq_walk {c : Cfg} {acc : GAccess} {gpa : Word} {x : Ctx}
    (hnone : ∀ m ∈ x.st.cache, m.isGPhys = false ∨ m.hasEp4ta x.st.ep4ta = false ∨ m.coversGpa gpa = false) :
    eptTranslate c acc gpa x = eptWalk c acc gpa x := by
  have h := eptTranslateFrom_eq_walk (c := c) (acc := acc) (base := tableBase x.st.vmcs.eptp) (r := .full) (used := []) []
    (show 3 < 4 by decide) fun m hm level _ => gphysUsable_eq_false (hnone m hm) level
  unfold eptTranslate eptWalk
  rw [h]
  cases hw : eptWalkFrom c acc gpa 3 (tableBase x.st.vmcs.eptp) .full [] x with
  | ok w z =>
    have hs := eptWalkFrom_sources hw
    rw [Res.bind_ok, ← hs]
  | raised | stopped => rfl

/-! A mapping that is used. -/

/-- R242, R244: a translation that matches is used for some free value, and gives what it recorded. -/
theorem eptTranslate_gphysTr {gpa : Word} {x : Ctx} {m : GPhysTr} (acc : GAccess) (hm : .gphysTr m ∈ x.st.cache)
    (hlen : x.st.cache.length < 2 ^ 64) (hep : m.ep4ta = x.st.ep4ta) (hpage : pageOf gpa m.size = m.page) :
    ∃ v, ∀ c : Cfg, c.free x.st.freeCtr = v →
      eptTranslate c acc gpa x = .ok (walkOfGPhysTr m gpa []) ((x.mapSt fun s => s.bump 1).use (.gphysTr m)) := by
  have husable : gphysUsable x.st gpa 4 (.gphysTr m) = true := by
    simp [gphysUsable, Mapping.isGPhys, Mapping.hasEp4ta, Mapping.coversGpa, Mapping.levelOk, Mapping.standsBelow, hep, hpage]
  obtain ⟨v, hv⟩ := pick_filter_mem hm husable hlen
  exact ⟨v, fun c hc => eptTranslateFrom_gphysTr (hv c hc)⟩

/-- A guest-physical mapping that matches (R242). -/
def Mapping.gphysMatched (s : State) (gpa : Word) (k : Mapping) : Prop :=
  k ∈ s.cache ∧ k.isGPhys = true ∧ k.hasEp4ta s.ep4ta = true ∧ k.coversGpa gpa = true

theorem gphysMatched_of_usable {s : State} {gpa : Word} {level : Nat} {k : Mapping} (hmem : k ∈ s.cache)
    (h : gphysUsable s gpa level k = true) : k.gphysMatched s gpa := by
  simp only [gphysUsable, Bool.and_eq_true] at h
  obtain ⟨⟨⟨⟨hkind, htag⟩, hcovers⟩, -⟩, -⟩ := h
  exact ⟨hmem, hkind, htag, hcovers⟩

theorem Kept.gphysMatched {c : Cfg} {x y : Ctx} (h : Kept c x y) (gpa : Word) (k : Mapping) :
    k.gphysMatched y.st gpa ↔ k.gphysMatched x.st gpa := by
  obtain ⟨⟨_, _, _, _, hst, -⟩, -⟩ := h
  rw [hst]
  rfl

/-- The mappings that a translation has come from while no cached translation ended it: paging-structure-cache entries that match. -/
def PscSources (s : State) (gpa : Word) (sources : List Mapping) : Prop := ∀ k ∈ sources, k.gphysMatched s gpa ∧ k.isPsc = true

theorem PscSources.append {s : State} {gpa : Word} {sources : List Mapping} {m : GPhysPsc} (h : PscSources s gpa sources)
    (hm : (Mapping.gphysPsc m).gphysMatched s gpa) : PscSources s gpa (sources ++ [.gphysPsc m]) := by
  intro k hk
  rcases List.mem_append.1 hk with hk | hk
  · exact h k hk
  · rw [List.mem_singleton.1 hk]
    exact ⟨hm, rfl⟩

/-- The mappings that a translation names as its sources match, and one of them that is a translation gave its result. -/
def Walk.SourcesUsed (s : State) (gpa : Word) (w : Walk) : Prop :=
  (∀ k ∈ w.sources, k.gphysMatched s gpa) ∧
    ∀ m, .gphysTr m ∈ w.sources → w.pa = m.frame + lowBits gpa m.size ∧ w.rights = m.rights ∧ w.leaf = m.leaf

/-- A translation that entries in memory end. -/
theorem PscSources.used {s : State} {gpa : Word} {w : Walk} (h : PscSources s gpa w.sources) : w.SourcesUsed s gpa :=
  ⟨fun k hk => (h k hk).1, fun m hm => by cases (h _ hm).2⟩

/-- A translation that a cached one ends. -/
theorem PscSources.used_gphysTr {s : State} {gpa : Word} {sources : List Mapping} {m : GPhysTr} (h : PscSources s gpa sources)
    (hm : (Mapping.gphysTr m).gphysMatched s gpa) : (walkOfGPhysTr m gpa sources).SourcesUsed s gpa := by
  refine ⟨fun k hk => ?_, fun k hk => ?_⟩ <;> rcases List.mem_append.1 hk with hk | hk
  · exact (h k hk).1
  · rw [List.mem_singleton.1 hk]
    exact hm
  · cases (h _ hk).2
  · cases List.mem_singleton.1 hk
    exact ⟨rfl, rfl, rfl⟩

theorem eptTranslateFrom_sourcesUsed {c : Cfg} {acc : GAccess} {gpa base : Word} {fuel level : Nat} {r : Rights} {used : List WalkEntry}
    {sources : List Mapping} {x0 x y : Ctx} {w : Walk} (hk : Kept c x0 x) (hs : PscSources x0.st gpa sources)
    (h : eptTranslateFrom c acc gpa fuel level base r used sources x = .ok w y) : w.SourcesUsed x0.st gpa := by
  induction fuel generalizing level base r used sources x with
  | zero => cases h
  | succ fuel ih =>
    have matched {k : Mapping} (hmem : k ∈ x.st.cache) (husable : gphysUsable x.st gpa level k = true) : k.gphysMatched x0.st gpa :=
      (hk.gphysMatched gpa k).1 (gphysMatched_of_usable hmem husable)
    obtain ⟨z, hkz, hpick | ⟨m, hpick, hmem, husable⟩ | ⟨m, hpick, hmem, husable⟩⟩ := pick_gphysUsable c gpa level x
    · rw [eptTranslateFrom_none hpick] at h
      obtain ⟨e, u, hentry, h⟩ := Res.bind_eq_ok.1 h
      have hku : Kept c z u := (eptEntry_keeps c acc gpa z level base r).kept_of_ok hentry
      unfold eptTranslateNext at h
      dsimp only at h
      split at h
      · cases h
        exact hs.used
      · exact ih ((hk.trans hkz).trans hku) hs h
    · rw [eptTranslateFrom_gphysTr hpick] at h
      cases h
      exact hs.used_gphysTr (matched hmem husable)
    · rw [eptTranslateFrom_gphysPsc hpick] at h
      exact ih ((hk.trans hkz).trans (kept_use c z _)) (hs.append (matched hmem husable)) h

/-- R242: what a translation of a guest-physical address names as its sources. -/
theorem eptTranslate_sourcesUsed {c : Cfg} {acc : GAccess} {gpa : Word} {x y : Ctx} {w : Walk}
    (h : eptTranslate c acc gpa x = .ok w y) : w.SourcesUsed x.st gpa :=
  eptTranslateFrom_sourcesUsed (Kept.refl c x) (fun _ hk => by cases hk) h

/-- R242, R244: the only guest-physical mapping that matches is a paging-structure-cache entry, and the free value 1 has it used: the walk of
memory goes on from the table it holds. -/
theorem eptTranslate_gphysPsc {c : Cfg} {acc : GAccess} {gpa : Word} {x : Ctx} {m : GPhysPsc} (hm : .gphysPsc m ∈ x.st.cache)
    (hep : m.ep4ta = x.st.ep4ta) (hupper : pageOf gpa (eptRegionBits m.level) = m.upper) (hlow : 2 ≤ m.level) (hhigh : m.level ≤ 4)
    (hfree : c.free x.st.freeCtr = 1#64)
    (hothers : ∀ k ∈ x.st.cache, k = .gphysPsc m ∨ k.isGPhys = false ∨ k.hasEp4ta x.st.ep4ta = false ∨ k.coversGpa gpa = false) :
    eptTranslate c acc gpa x =
      (eptWalkFrom c acc gpa (m.level - 2) m.table m.rights (recordedEntries m.used)
        ((x.mapSt fun s => s.bump 1).use (.gphysPsc m))).bind fun w z => .ok { w with sources := [.gphysPsc m] } z := by
  have husable : gphysUsable x.st gpa 4 (.gphysPsc m) = true := by
    simp [gphysUsable, Mapping.isGPhys, Mapping.hasEp4ta, Mapping.coversGpa, Mapping.levelOk, Mapping.standsBelow, hep, hupper, hlow, hhigh]
  have hpick := pick_filter_only hm husable (fun k hk => (hothers k hk).imp_right fun h => gphysUsable_eq_false h 4) hfree
  have hnone : ∀ k ∈ x.st.cache, ∀ level, level ≤ m.level - 2 + 1 → gphysUsable x.st gpa level k = false := fun k hk level hl => by
    rcases hothers k hk with rfl | h
    · have hbelow : ¬ m.level ≤ level := by omega
      simp [gphysUsable, Mapping.standsBelow, hbelow]
    · exact gphysUsable_eq_false h level
  rw [eptTranslate, eptTranslateFrom_gphysPsc hpick, show m.level - 1 = m.level - 2 + 1 by omega]
  exact eptTranslateFrom_eq_walk [.gphysPsc m] (by omega) hnone

end Sys2Proof.Machine
end

section
/-! PROOFS. What a used linear or combined mapping gives, and the guest walk where none can be used (46_caching.md R236, R240, R241, R243,
R244, 42_ept_vmexits.md R124). -/

namespace Sys2Proof.Machine

open Sys2Proof

/-! One entry of a translation of a linear address. -/

section
variable {c : Cfg} {kind : AccKind} {la table : Word} {fuel level : Nat} {o : Option CombPsc} {es : List GuestEntry} {x y : Ctx}

/-- What comes after a guest entry that a translation reads. -/
def guestFindNext (c : Cfg) (kind : AccKind) (la : Word) (fuel level : Nat) (es : List GuestEntry) (ge : GuestEntry) (z : Ctx) :
    Res GuestFound :=
  if level ≠ 1 ∧ c.guest.referencesTable z.st.guestRegs level ge.value = true then
    guestFindFrom c kind la fuel (level - 1) (c.guest.nextTable z.st.guestRegs level ge.value) none (es ++ [ge]) z
  else
    .ok (.walk ⟨es ++ [ge], c.guest.finalGpa z.st.guestRegs level ge.value la, c.guest.regionBits z.st.guestRegs level⟩) z

theorem guestFindFrom_combTr {m : CombTr} (h : pick c x (x.st.cache.filter (linearUsable c x.st la level)) = (some (.combTr m), y)) :
    guestFindFrom c kind la (fuel + 1) level table o es x = .ok (.comb m) (y.use (.combTr m)) := by
  rw [guestFindFrom, h]

theorem guestFindFrom_linearTr {m : LinearTr}
    (h : pick c x (x.st.cache.filter (linearUsable c x.st la level)) = (some (.linearTr m), y)) :
    guestFindFrom c kind la (fuel + 1) level table o es x = .ok (.linear m) (y.use (.linearTr m)) := by
  rw [guestFindFrom, h]

theorem guestFindFrom_linearPsc {m : LinearPsc}
    (h : pick c x (x.st.cache.filter (linearUsable c x.st la level)) = (some (.linearPsc m), y)) :
    guestFindFrom c kind la (fuel + 1) level table o es x =
      guestFindFrom c kind la fuel (m.level - 1) m.table none m.guest (y.use (.linearPsc m)) := by
  rw [guestFindFrom, h]

theorem guestFindFrom_combPsc {m : CombPsc} (h : pick c x (x.st.cache.filter (linearUsable c x.st la level)) = (some (.combPsc m), y)) :
    guestFindFrom c kind la (fuel + 1) level table o es x =
      guestFindFrom c kind la fuel (m.level - 1) m.tableGpa (some m) m.guest (y.use (.combPsc m)) := by
  rw [guestFindFrom, h]

theorem guestFindFrom_none (h : pick c x (x.st.cache.filter (linearUsable c x.st la level)) = (none, y)) :
    guestFindFrom c kind la (fuel + 1) level table o es x =
      (guestEntry c kind la es level table o y).bind (guestFindNext c kind la fuel level es) := by
  rw [guestFindFrom, h]
  rfl

end

/-! No mapping that can be used. -/

/-- R244: with no mapping usable from a level on, a translation from there is the walk of memory. -/
theorem guestFindFrom_eq_walk {c : Cfg} {kind : AccKind} {la table : Word} {n fuel : Nat} {es : List GuestEntry} {x : Ctx}
    (hfuel : n < fuel) (hnone : ∀ m ∈ x.st.cache, ∀ level, level ≤ n + 1 → linearUsable c x.st la level m = false) :
    guestFindFrom c kind la fuel (n + 1) table none es x =
      (guestWalkFrom c kind la n table es x).bind fun gw z => .ok (.walk gw) z := by
  induction n generalizing fuel table es x with
  | zero =>
    obtain ⟨fuel, rfl⟩ := Nat.exists_eq_add_of_lt hfuel
    rw [guestFindFrom_none (pick_filter_nil fun m hm => hnone m hm _ le_rfl), guestWalkFrom, Res.bind_assoc]
    exact Res.bind_congr fun ge y _ => if_neg fun h => h.1 rfl
  | succ n ih =>
    obtain ⟨fuel, rfl⟩ := Nat.exists_eq_add_of_lt hfuel
    rw [guestFindFrom_none (pick_filter_nil fun m hm => hnone m hm _ le_rfl), guestWalkFrom, Res.bind_assoc]
    refine Res.bind_congr fun ge y hy => ?_
    have hk : Kept c x y := (guestEntry_keeps c kind la es _ table none x).kept_of_ok hy
    cases href : c.guest.referencesTable y.st.guestRegs (n + 1 + 1) ge.value with
    | false => simp [guestFindNext, href]
    | true =>
      rw [guestFindNext, if_pos ⟨by omega, href⟩]
      dsimp only
      rw [if_pos href]
      refine ih (by omega) fun m hm level hl => ?_
      rw [hk.linearUsable]
      exact hnone m (hk.cache ▸ hm) level (by omega)

/-- The end of a part whose translation has come to a walk or to a cached translation. -/
def accessFound (c : Cfg) (p : Part) (f : GuestFound) (y : Ctx) : Res PartDone :=
  match f with
  | .walk gw => accessAfterWalk c p gw y
  | .comb m => accessByCombTr c p m y
  | .linear m => accessByLinearTr c p m y

theorem accessPart_paged {c : Cfg} {p : Part} {x : Ctx} (hpg : x.st.pg = true) :
    accessPart c p x = (guestFind c p.kind p.la x).bind (accessFound c p) := by
  rw [accessPart, if_pos hpg]
  rfl

/-- A translation that goes on as a walk of memory is followed by the end of a part after its walk. -/
theorem guestFindFrom_bind_found {c : Cfg} {p : Part} {table : Word} {n fuel : Nat} {es : List GuestEntry} {x : Ctx}
    (hfuel : n < fuel) (hnone : ∀ m ∈ x.st.cache, ∀ level, level ≤ n + 1 → linearUsable c x.st p.la level m = false) :
    (guestFindFrom c p.kind p.la fuel (n + 1) table none es x).bind (accessFound c p) =
      (guestWalkFrom c p.kind p.la n table es x).bind fun gw z => accessAfterWalk c p gw z := by
  rw [guestFindFrom_eq_walk hfuel hnone, Res.bind_assoc]
  rfl

theorem guestLevels_eq (c : Cfg) (s : State) : guestLevels c s = c.guest.levels s.guestRegs - 1 + 1 := by
  unfold guestLevels
  omega

/-- R240, R241: with no mapping that matches, an access to a linear address goes by the walks of memory. -/
theorem accessPart_eq_walk {c : Cfg} {p : Part} {x : Ctx} (hnone : ∀ m ∈ x.st.cache, ∀ level, linearUsable c x.st p.la level m = false) :
    accessPart c p x =
      if x.st.pg = true then (guestWalk c p.kind p.la x).bind fun gw y => accessAfterWalk c p gw y else accessUnpaged c p x := by
  by_cases hpg : x.st.pg = true
  · rw [if_pos hpg, accessPart_paged hpg, guestFind, guestLevels_eq]
    exact guestFindFrom_bind_found (Nat.lt_succ_self _) fun m hm level _ => hnone m hm level
  · rw [if_neg hpg, accessPart, if_neg hpg]
    split
    · next h =>
      obtain ⟨hept, hgpa⟩ := Bool.and_eq_true_iff.1 h
      simp [accessUnpaged, addressAccess, guestPhysAccess, hept, hgpa]
    · rw [pick_filter_nil fun m hm => hnone m hm 1]

/-- With no other agent's write to come, bytes that exist are read from memory as it stands. -/
theorem physRead_nil {c : Cfg} {x : Ctx} {pa : Word} {n : Nat} (hagents : x.st.agents = []) (hrange : inRange c pa.toNat n = true) :
    physRead c x pa n = .ok (x.st.mem.readBytes pa.toNat n) x := by
  rw [physRead, if_pos (by rw [accessOk_nil hagents]; exact hrange), Ctx.interleave_nil hagents]

/-! The guest's part of an access through a cached translation. -/

theorem guestPermit_denied {c : Cfg} {kind : AccKind} {la : Word} {es : List GuestEntry} {x : Ctx}
    (h : c.guest.allowed x.st.guestRegs es kind = false) :
    guestPermit c kind la es x = .raised (.pageFault la (c.guest.faultCode x.st.guestRegs es kind)) x := by
  simp [guestPermit, h]

/-- Guest entries that have the flags an access needs are not updated. -/
theorem guestSetFlags_same (c : Cfg) (la : Word) (es rest : List GuestEntry) (x : Ctx) :
    guestSetFlags c la es (rest.zip (rest.map fun ge => ge.value)) x = .ok () x := by
  induction rest generalizing es with
  | nil => rfl
  | cons ge rest ih => simpa [guestSetFlags] using ih (es ++ [ge])

theorem guestPermit_allowed {c : Cfg} {kind : AccKind} {la : Word} {es : List GuestEntry} {x : Ctx}
    (hallowed : c.guest.allowed x.st.guestRegs es kind = true)
    (hflags : c.guest.flagged x.st.guestRegs es kind = es.map fun ge => ge.value) : guestPermit c kind la es x = .ok () x := by
  simp [guestPermit, hallowed, hflags, guestSetFlags_same]

/-! The part of an access that EPT decides. -/

section
variable {c : Cfg} {acc : GAccess} {gpa : Word} {w : Walk} {x : Ctx}

/-- R116, R127: an access that the rights do not allow, and that sub-page permissions do not decide, ends in an EPT violation. -/
theorem eptGrant_denied (hallowed : eptAllowed x.st w.rights acc = false)
    (hspp : effKind x.st acc ≠ .dataWrite ∨ sppCandidate x.st w acc = false) :
    eptGrant c acc gpa w x = .raised (violation x acc gpa w.rights none) x := by
  rw [eptGrant, if_neg (by simp [hallowed])]
  split
  · next hkind =>
    have hcandidate : sppCandidate x.st w acc = false := hspp.resolve_left (absurd hkind)
    simp [sppEligible, hcandidate]
  · rfl

/-- R120: an access that the rights allow, away from the APIC-access page. -/
theorem eptGrant_allowed (hallowed : eptAllowed x.st w.rights acc = true) (hapic : apicHit x.st w.pa = false) :
    eptGrant c acc gpa w x = eptPerform c acc gpa w x := by
  simp [eptGrant, hallowed, apicTest, hapic]

theorem eptPerform_noFlags (had : x.st.eptAd = false) : eptPerform c acc gpa w x = .ok w.pa x := by
  simp [eptPerform, had]

theorem eptPerform_flags {z : Ctx} (had : x.st.eptAd = true) (hz : eptSetAccessedDirty c w acc gpa x = .ok () z) :
    eptPerform c acc gpa w x = .ok w.pa z := by
  simp [eptPerform, had, hz]

end

/-! A combined translation that is used. -/

/-- The guest-physical address that an access through a combined translation reports (log 28). -/
abbrev CombTr.gpaOf (m : CombTr) (la : Word) : Word := m.gpa ||| lowBits la m.size

section
variable {c : Cfg} {p : Part} {m : CombTr} {x : Ctx} {acc : GAccess}

theorem linearUsable_combTr {s : State} {la : Word} (hept : s.eptInUse = true) (hvpid : m.vpid = s.currentVpid)
    (hpcid : m.pcid = s.currentPcid c ∨ m.isGlobal = true) (hep : m.ep4ta = s.ep4ta) (hpage : pageOf la m.size = m.page) (level : Nat) :
    linearUsable c s la level (.combTr m) = true := by
  simp [linearUsable, Mapping.coversLa, Mapping.tagsMatch, Mapping.hasVpid, Mapping.hasPcid, Mapping.isGlobal, Mapping.levelOk,
    Mapping.standsBelow, Mapping.isCombined, Mapping.hasEp4ta, Mapping.isPsc, hept, hvpid, hpcid, hep, hpage]

/-- R236, R241, R244: a combined translation that matches is used for some free value, with paging and without. -/
theorem accessPart_combTr (hm : .combTr m ∈ x.st.cache) (hlen : x.st.cache.length < 2 ^ 64)
    (husable : ∀ level, linearUsable c x.st p.la level (.combTr m) = true) (hla : x.st.pg = false → p.la >>> 48 = 0#64) :
    ∃ v, ∀ f : Nat → Word, f x.st.freeCtr = v →
      accessPart { c with free := f } p x =
        accessByCombTr { c with free := f } p m ((x.mapSt fun s => s.bump 1).use (.combTr m)) := by
  cases hpg : x.st.pg with
  | true =>
    obtain ⟨v, hv⟩ := pick_filter_mem hm (husable (guestLevels c x.st)) hlen
    refine ⟨v, fun f hf => ?_⟩
    rw [accessPart_paged hpg, guestFind]
    conv_lhs => rw [guestLevels_eq]
    rw [guestFindFrom_combTr (by rw [← guestLevels_eq]; exact hv { c with free := f } hf)]
    rfl
  | false =>
    obtain ⟨v, hv⟩ := pick_filter_mem hm (husable 1) hlen
    refine ⟨v, fun f hf => ?_⟩
    have hgpa : gpaOk p.la = true := by simp [gpaOk, hla hpg]
    have hpick : pick { c with free := f } x (x.st.cache.filter (linearUsable { c with free := f } x.st p.la 1)) = _ :=
      hv { c with free := f } hf
    simp [accessPart, hpg, hgpa, hpick]

theorem accessByCombTr_denied {y : Ctx} (hpg : y.st.pg = true) (h : c.guest.allowed y.st.guestRegs m.guest p.kind = false) :
    accessByCombTr c p m y = .raised (.pageFault p.la (c.guest.faultCode y.st.guestRegs m.guest p.kind)) y := by
  simp [accessByCombTr, hpg, guestPermit_denied h]

/-- Where the guest allows the access, EPT decides it. -/
theorem accessByCombTr_allowed {y : Ctx} (h : guestAllows c y.st p.kind m.guest) :
    accessByCombTr c p m y =
      (eptGrant c (p.gaccess (userAddress c y.st m.guest)) (m.gpaOf p.la) (walkOfCombTr m p.la) y).bind fun pa z =>
        .ok { eptPart c z.st p (m.gpaOf p.la) pa m.leaf m.guest with memType := if z.st.cd then some .uc else m.memType } z := by
  have hpermitted : (if y.st.pg then guestPermit c p.kind p.la m.guest y else .ok () y) = .ok () y := by
    rcases h with hpg | ⟨hallowed, hflags⟩
    · simp [hpg]
    · simp [guestPermit_allowed hallowed hflags]
  simp [accessByCombTr, hpermitted]

section
variable {y : Ctx} (hguest : guestAllows c y.st p.kind m.guest) (hacc : acc = p.gaccess (userAddress c y.st m.guest))
include hguest hacc

theorem accessByCombTr_violation (hallowed : eptAllowed y.st m.rights acc = false)
    (hspp : effKind y.st acc ≠ .dataWrite ∨ sppCandidate y.st (walkOfCombTr m p.la) acc = false) :
    accessByCombTr c p m y =
      .raised (.eptViolation ⟨effKind y.st acc, m.gpaOf p.la, some p.la, m.rights, false, none, y.mappings⟩) y := by
  subst hacc
  rw [accessByCombTr_allowed hguest, eptGrant_denied (w := walkOfCombTr m p.la) hallowed hspp]
  rfl

theorem accessByCombTr_noFlags (hallowed : eptAllowed y.st m.rights acc = true)
    (hapic : apicHit y.st (m.frame + lowBits p.la m.size) = false) (had : y.st.eptAd = false) :
    ∃ d, accessByCombTr c p m y = .ok d y ∧ d.pa = m.frame + lowBits p.la m.size ∧ d.gpa = some (m.gpaOf p.la) := by
  subst hacc
  rw [accessByCombTr_allowed hguest, eptGrant_allowed (w := walkOfCombTr m p.la) hallowed hapic, eptPerform_noFlags had]
  exact ⟨_, rfl, rfl, rfl⟩

/-- With the flags of EPTP bit 6 the access ends where they have been set. -/
theorem accessByCombTr_flags {z : Ctx} (hallowed : eptAllowed y.st m.rights acc = true)
    (hapic : apicHit y.st (m.frame + lowBits p.la m.size) = false) (had : y.st.eptAd = true)
    (hz : eptSetAccessedDirty c (walkOfCombTr m p.la) acc (m.gpaOf p.la) y = .ok () z) :
    ∃ d, accessByCombTr c p m y = .ok d z ∧ d.pa = m.frame + lowBits p.la m.size ∧ d.gpa = some (m.gpaOf p.la) := by
  subst hacc
  rw [accessByCombTr_allowed hguest, eptGrant_allowed (w := walkOfCombTr m p.la) hallowed hapic, eptPerform_flags had hz]
  exact ⟨_, rfl, rfl, rfl⟩

end

end

/-! A linear translation that is used. -/

section
variable {c : Cfg} {p : Part} {m : LinearTr} {x : Ctx}

theorem linearUsable_linearTr {s : State} {la : Word} (hept : s.eptInUse = false) (hpg : s.pg = true) (hvpid : m.vpid = s.currentVpid)
    (hpcid : m.pcid = s.currentPcid c ∨ m.isGlobal = true) (hpage : pageOf la m.size = m.page) (level : Nat) :
    linearUsable c s la level (.linearTr m) = true := by
  simp [linearUsable, Mapping.coversLa, Mapping.tagsMatch, Mapping.hasVpid, Mapping.hasPcid, Mapping.isGlobal, Mapping.levelOk,
    Mapping.standsBelow, Mapping.isLinear, hept, hpg, hvpid, hpcid, hpage]

/-- R240, R244: a linear translation that matches is used for some free value. -/
theorem accessPart_linearTr (hm : .linearTr m ∈ x.st.cache) (hlen : x.st.cache.length < 2 ^ 64) (hpg : x.st.pg = true)
    (husable : linearUsable c x.st p.la (guestLevels c x.st) (.linearTr m) = true) :
    ∃ v, ∀ f : Nat → Word, f x.st.freeCtr = v →
      accessPart { c with free := f } p x =
        accessByLinearTr { c with free := f } p m ((x.mapSt fun s => s.bump 1).use (.linearTr m)) := by
  obtain ⟨v, hv⟩ := pick_filter_mem hm husable hlen
  refine ⟨v, fun f hf => ?_⟩
  rw [accessPart_paged hpg, guestFind]
  conv_lhs => rw [guestLevels_eq]
  rw [guestFindFrom_linearTr (by rw [← guestLevels_eq]; exact hv { c with free := f } hf)]
  rfl

theorem accessByLinearTr_denied {y : Ctx} (h : c.guest.allowed y.st.guestRegs m.guest p.kind = false) :
    accessByLinearTr c p m y = .raised (.pageFault p.la (c.guest.faultCode y.st.guestRegs m.guest p.kind)) y := by
  simp [accessByLinearTr, guestPermit_denied h]

theorem accessByLinearTr_allowed {y : Ctx} (hpg : y.st.pg = true) (h : guestAllows c y.st p.kind m.guest)
    (hapic : apicHit y.st (m.frame + lowBits p.la m.size) = false) :
    accessByLinearTr c p m y = .ok (plainPart p (m.frame + lowBits p.la m.size) (some m.memType)) y := by
  obtain ⟨hallowed, hflags⟩ := h.resolve_left (by simp [hpg])
  simp [accessByLinearTr, guestPermit_allowed hallowed hflags, apicTest, hapic]

end

/-! A paging-structure-cache entry that is used. -/

section
variable {c : Cfg} {p : Part} {x : Ctx}

/-- A paging-structure-cache entry stands for no entry below the one it holds. -/
theorem linearUsable_eq_false_of_standsBelow {s : State} {la : Word} {level : Nat} {m : Mapping} (h : m.standsBelow level = false) :
    linearUsable c s la level m = false := by
  simp [linearUsable, h]

/-- R240, R244: the only mapping that matches is a linear paging-structure-cache entry, and the free value 1 has it used: the walk of memory
goes on from the table it holds. -/
theorem accessPart_linearPsc {m : LinearPsc} (hm : .linearPsc m ∈ x.st.cache) (hept : x.st.eptInUse = false) (hpg : x.st.pg = true)
    (hvpid : m.vpid = x.st.currentVpid) (hpcid : m.pcid = x.st.currentPcid c) (hupper : pageOf p.la m.size = m.upper)
    (hlow : 2 ≤ m.level) (hhigh : m.level ≤ guestLevels c x.st) (hfree : c.free x.st.freeCtr = 1#64)
    (hothers : ∀ k ∈ x.st.cache, k = .linearPsc m ∨ k.unmatched c x.st p.la) :
    accessPart c p x =
      (guestWalkFrom c p.kind p.la (m.level - 2) m.table m.guest ((x.mapSt fun s => s.bump 1).use (.linearPsc m))).bind
        fun gw z => accessAfterWalk c p gw z := by
  have husable : linearUsable c x.st p.la (guestLevels c x.st) (.linearPsc m) = true := by
    simp [linearUsable, Mapping.coversLa, Mapping.tagsMatch, Mapping.hasVpid, Mapping.hasPcid, Mapping.levelOk, Mapping.standsBelow,
      Mapping.isLinear, hept, hpg, hvpid, hpcid, hupper, hlow, hhigh]
  have hpick := pick_filter_only hm husable (fun k hk => (hothers k hk).imp_right fun h => h.linearUsable _) hfree
  have hnone : ∀ k ∈ x.st.cache, ∀ level, level ≤ m.level - 2 + 1 → linearUsable c x.st p.la level k = false := fun k hk level hl => by
    rcases hothers k hk with rfl | h
    · exact linearUsable_eq_false_of_standsBelow (decide_eq_false (show ¬ m.level ≤ level by omega))
    · exact h.linearUsable level
  rw [guestLevels_eq] at hpick hhigh
  rw [accessPart_paged hpg, guestFind, guestLevels_eq, guestFindFrom_linearPsc hpick, show m.level - 1 = m.level - 2 + 1 by omega]
  exact guestFindFrom_bind_found (by omega) hnone

/-- R243, R244: the only mapping that matches is a combined paging-structure-cache entry, and the free value 1 has it used: the next guest
entry is read through it, and the walk of memory goes on from there. -/
theorem accessPart_combPsc {m : CombPsc} (hm : .combPsc m ∈ x.st.cache) (hept : x.st.eptInUse = true) (hpg : x.st.pg = true)
    (hvpid : m.vpid = x.st.currentVpid) (hpcid : m.pcid = x.st.currentPcid c) (hep : m.ep4ta = x.st.ep4ta)
    (hupper : pageOf p.la m.size = m.upper) (hlow : 2 ≤ m.level) (hhigh : m.level ≤ guestLevels c x.st)
    (hfree : c.free x.st.freeCtr = 1#64)
    (hothers : ∀ k ∈ x.st.cache, k = .combPsc m ∨ k.isGPhys = true ∨ k.unmatched c x.st p.la) :
    accessPart c p x =
      (guestEntry c p.kind p.la m.guest (m.level - 1) m.tableGpa (some m) ((x.mapSt fun s => s.bump 1).use (.combPsc m))).bind fun ge z =>
        if m.level - 1 ≠ 1 ∧ c.guest.referencesTable z.st.guestRegs (m.level - 1) ge.value = true then
          (guestWalkFrom c p.kind p.la (m.level - 3) (c.guest.nextTable z.st.guestRegs (m.level - 1) ge.value) (m.guest ++ [ge]) z).bind
            fun gw u => accessAfterWalk c p gw u
        else
          accessAfterWalk c p ⟨m.guest ++ [ge], c.guest.finalGpa z.st.guestRegs (m.level - 1) ge.value p.la,
            c.guest.regionBits z.st.guestRegs (m.level - 1)⟩ z := by
  have husable : linearUsable c x.st p.la (guestLevels c x.st) (.combPsc m) = true := by
    simp [linearUsable, Mapping.coversLa, Mapping.tagsMatch, Mapping.hasVpid, Mapping.hasPcid, Mapping.levelOk, Mapping.standsBelow,
      Mapping.isCombined, Mapping.hasEp4ta, hept, hpg, hvpid, hpcid, hep, hupper, hlow, hhigh]
  have others {k : Mapping} (h : k.isGPhys = true ∨ k.unmatched c x.st p.la) (level : Nat) : linearUsable c x.st p.la level k = false :=
    h.elim (fun h => linearUsable_of_isGPhys h c _ _ level) fun h => h.linearUsable level
  have hpick := pick_filter_only hm husable (fun k hk => (hothers k hk).imp_right fun h => others h _) hfree
  have hnone : ∀ k ∈ x.st.cache, ∀ level, level ≤ m.level - 1 → linearUsable c x.st p.la level k = false := fun k hk level hl => by
    rcases hothers k hk with rfl | h
    · exact linearUsable_eq_false_of_standsBelow (decide_eq_false (show ¬ m.level ≤ level by omega))
    · exact others h level
  rw [guestLevels_eq] at hpick hhigh
  obtain ⟨fuel, hfuel⟩ : ∃ fuel, c.guest.levels x.st.guestRegs - 1 = fuel + 1 := Nat.exists_eq_add_one.2 (by omega)
  rw [hfuel] at hpick
  rw [accessPart_paged hpg, guestFind, guestLevels_eq, hfuel, guestFindFrom_combPsc hpick,
    guestFindFrom_none (x := (x.mapSt fun s => s.bump 1).use (.combPsc m)) (pick_filter_nil fun k hk => hnone k hk _ le_rfl),
    Res.bind_assoc]
  refine Res.bind_congr fun ge z hz => ?_
  have hk : Kept c x z := ((kept_bump c x 1).trans (kept_use c _ _)).trans ((guestEntry_keeps c _ _ _ _ _ _ _).kept_of_ok hz)
  unfold guestFindNext
  split
  · next href =>
    rw [show m.level - 1 - 1 = m.level - 3 + 1 by omega]
    refine guestFindFrom_bind_found (by omega) fun k hkz level hl => ?_
    rw [hk.linearUsable]
    exact hnone k (hk.cache ▸ hkz) level (by omega)
  · rfl

end

/-! A guest entry in a table that a combined paging-structure-cache entry holds. -/

section
variable {c : Cfg} {kind : AccKind} {la : Word} {es : List GuestEntry} {level : Nat} {m : CombPsc} {x : Ctx} {off : Word} {acc : GAccess}
  (hoff : off = (c.guest.entryOffset x.st.guestRegs level la).setWidth 64)
  (hacc : acc = pswalkAccess .dataRead (guestEntrySize c x.st) la)
include hoff hacc

/-- R243: the rights that the mapping recorded do not allow the access; sub-page permissions never decide it (43_spp.md R145). -/
theorem guestEntry_combPsc_denied (h : eptAllowed x.st m.rights acc = false) :
    guestEntry c kind la es level m.tableGpa (some m) x =
      .raised (.eptViolation ⟨effKind x.st acc, m.tableGpa + off, some la, m.rights, true, none, x.mappings⟩) x := by
  have hspp (w : Walk) : sppCandidate x.st w acc = false := by simp [sppCandidate, sppNever, hacc, pswalkAccess]
  unfold guestEntry
  dsimp only
  rw [← hoff, ← hacc, eptGrant_denied h (.inr (hspp _)), hacc]
  rfl

/-- R243: the entry is read where the mapping has its table, and tested. -/
theorem guestEntry_combPsc_allowed (h : eptAllowed x.st m.rights acc = true) (had : x.st.eptAd = false)
    (hapic : apicHit x.st (m.table + off) = false) (hagents : x.st.agents = [])
    (hrange : inRange c (m.table + off).toNat (guestEntrySize c x.st) = true) {value : Word}
    (hvalue : value = wordOfBytes (x.st.mem.readBytes (m.table + off).toNat (guestEntrySize c x.st))) :
    ∃ z, z.st = x.st ∧ guestEntry c kind la es level m.tableGpa (some m) x =
      if c.guest.notPresentOrReserved x.st.guestRegs level value = true then
        .raised (.pageFault la (c.guest.faultCode x.st.guestRegs (es ++ [⟨m.tableGpa + off, value⟩]) kind)) z
      else .ok ⟨m.tableGpa + off, value⟩ z := by
  refine ⟨x.note (typedAccess c x.st (m.tableGpa + off) ⟨m.table + off, some m.leaf⟩ es), rfl, ?_⟩
  unfold guestEntry
  dsimp only
  rw [← hoff, ← hacc, eptGrant_allowed (w := walkOfCombPsc m off) h hapic, eptPerform_noFlags had, Res.bind_ok, Res.bind_ok]
  have hread := physRead_nil (x := x.note (typedAccess c x.st (m.tableGpa + off) ⟨m.table + off, some m.leaf⟩ es)) hagents hrange
  rw [show (walkOfCombPsc m off).pa = m.table + off from rfl, hread, Res.bind_ok, Ctx.note_st, ← hvalue]

end

end Sys2Proof.Machine
end

section
/-! PROOFS. Mappings taken out of the cache, and the computations that do not look at the cache (46_caching.md R240 to R243). -/

namespace Sys2Proof.Machine

open Sys2Proof

/-! The state with mappings taken out. -/

/-- The cached mappings that `keep` does not hold of are taken out. Only the cache differs, so that what mode, controls, registers and memory
give is the same by definition. -/
def State.prune (keep : Mapping → Bool) (s : State) : State := s.withCache (s.cache.filter keep)

/-- The access goes on in the state with those mappings taken out; what is noted of the access stays. -/
def Ctx.prune (keep : Mapping → Bool) (x : Ctx) : Ctx := x.mapSt (State.prune keep)

/-- The same result, in the state with those mappings taken out. -/
def Res.prune {α : Type} (keep : Mapping → Bool) (r : Res α) : Res α := r.onState (State.prune keep)

section
variable (keep : Mapping → Bool) (s : State) (c : Cfg)

@[simp] theorem State.prune_agents : (s.prune keep).agents = s.agents := rfl
@[simp] theorem sppCandidate_prune : sppCandidate (s.prune keep) = sppCandidate s := rfl
@[simp] theorem sppHeld_prune : sppHeld c (s.prune keep) = sppHeld c s := rfl
@[simp] theorem linearUsable_prune : linearUsable c (s.prune keep) = linearUsable c s := rfl

end

/-- Candidates that are all kept stay the same, in the same order. -/
theorem State.filter_prune_cache {keep p : Mapping → Bool} {s : State} (h : ∀ m ∈ s.cache, keep m = false → p m = false) :
    (s.prune keep).cache.filter p = s.cache.filter p := by
  rw [State.prune, State.withCache_cache, List.filter_filter]
  refine List.filter_congr fun m hm => ?_
  cases hkeep : keep m with
  | true => simp
  | false => simp [h m hm hkeep]

theorem State.filterMap_prune_cache {α : Type} {keep : Mapping → Bool} {g : Mapping → Option α} {s : State}
    (h : ∀ m ∈ s.cache, keep m = false → g m = none) : (s.prune keep).cache.filterMap g = s.cache.filterMap g := by
  rw [State.prune, State.withCache_cache, List.filterMap_filter]
  refine List.filterMap_congr fun m hm => ?_
  cases hkeep : keep m with
  | true => simp
  | false => simp [h m hm hkeep]

section
variable {α β : Type} {keep : Mapping → Bool}

@[simp] theorem Ctx.prune_st (x : Ctx) : (x.prune keep).st = x.st.prune keep := rfl

/-- A case distinction comes to the same where its cases do. -/
theorem Res.ite_prune {b : Prop} [Decidable b] {r r' t t' : Res α} (hr : b → r' = r.prune keep) (ht : ¬ b → t' = t.prune keep) :
    (if b then r' else t') = (if b then r else t).prune keep := by
  split
  · next h => exact hr h
  · next h => exact ht h

/-- A sequence comes to the same where its parts do. -/
theorem Res.bind_prune {r r' : Res α} {f f' : α → Ctx → Res β} (hr : r' = r.prune keep)
    (hf : ∀ a y, r = .ok a y → f' a (y.prune keep) = (f a y).prune keep) : r'.bind f' = (r.bind f).prune keep := by
  subst hr
  cases r with
  | ok a y => exact hf a y rfl
  | raised | stopped => rfl

theorem pick_prune (c : Cfg) (x : Ctx) (l : List α) : pick c (x.prune keep) l = ((pick c x l).1, (pick c x l).2.prune keep) := by
  cases l <;> rfl

end

/-! Computations that do not look at the cache. -/

section
variable {keep : Mapping → Bool} (c : Cfg) (acc : GAccess) (gpa : Word) (x : Ctx)

theorem Ctx.interleave_prune : (x.prune keep).interleave = x.interleave.prune keep := by
  unfold Ctx.interleave
  rw [Ctx.prune_st, State.prune_agents]
  cases x.st.agents <;> rfl

theorem physRead_prune (pa : Word) (n : Nat) : physRead c (x.prune keep) pa n = (physRead c x pa n).prune keep := by
  unfold physRead
  rw [Ctx.interleave_prune]
  exact Res.ite_prune (fun _ => rfl) fun _ => rfl

theorem physRead64_prune (pa : Word) : physRead64 c (x.prune keep) pa = (physRead64 c x pa).prune keep :=
  Res.bind_prune (physRead_prune c x pa 8) fun _ _ _ => rfl

theorem physWrite_prune (pa : Word) (bs : List Byte) : physWrite c (x.prune keep) pa bs = (physWrite c x pa bs).prune keep := by
  unfold physWrite
  rw [Ctx.interleave_prune]
  exact Res.ite_prune (fun _ => rfl) fun _ => rfl

theorem physUpdate_prune (pa : Word) (n : Nat) (f : Word → Word) :
    physUpdate c (x.prune keep) pa n f = (physUpdate c x pa n f).prune keep := by
  unfold physUpdate
  rw [Ctx.interleave_prune]
  exact Res.ite_prune (fun _ => rfl) fun _ => rfl

theorem setEntryBits_prune (bit : Nat) (l : List Word) : setEntryBits c (x.prune keep) bit l = (setEntryBits c x bit l).prune keep := by
  induction l generalizing x with
  | nil => rfl
  | cons ea rest ih => exact Res.bind_prune (physUpdate_prune c x ea 8 _) fun _ y _ => ih y

theorem eptEntry_prune (level : Nat) (base : Word) (r : Rights) :
    eptEntry c acc gpa (x.prune keep) level base r = (eptEntry c acc gpa x level base r).prune keep :=
  Res.bind_prune (physRead64_prune c x _) fun _ _ _ =>
    Res.ite_prune (fun _ => rfl) fun _ => Res.ite_prune (fun _ => rfl) fun _ => rfl

theorem sppTables_prune (n level : Nat) (t : Word) :
    sppTables c acc gpa n level t (x.prune keep) = (sppTables c acc gpa n level t x).prune keep := by
  induction n generalizing level t x with
  | zero => rfl
  | succ n ih =>
    have hentry : sppEntry c acc gpa (x.prune keep) t level = (sppEntry c acc gpa x t level).prune keep :=
      Res.bind_prune (physRead64_prune c x _) fun _ _ _ =>
        Res.ite_prune (fun _ => rfl) fun _ => Res.ite_prune (fun _ => rfl) fun _ => rfl
    exact Res.bind_prune hentry fun t' y _ => ih y (level - 1) t'

theorem sppVectorAddr_prune : sppVectorAddr c acc gpa (x.prune keep) = (sppVectorAddr c acc gpa x).prune keep :=
  Res.bind_prune (sppTables_prune c acc gpa x 3 4 _) fun _ _ _ => rfl

theorem pmlLog_prune : pmlLog c gpa (x.prune keep) = (pmlLog c gpa x).prune keep :=
  Res.bind_prune (physWrite_prune c x _ _) fun _ _ _ => rfl

theorem entryFlag_prune (cached recorded : Bool) (ea : Word) (bit : Nat) :
    entryFlag c cached recorded ea bit (x.prune keep) = (entryFlag c cached recorded ea bit x).prune keep := by
  cases cached with
  | true => rfl
  | false => exact Res.bind_prune (physRead64_prune c x ea) fun _ _ _ => rfl

theorem needAccessed_prune (us : List WalkEntry) : needAccessed c us (x.prune keep) = (needAccessed c us x).prune keep := by
  induction us generalizing x with
  | nil => rfl
  | cons u us ih =>
    exact Res.bind_prune (entryFlag_prune c x _ _ _ _) fun _ y _ => Res.bind_prune (ih y) fun _ _ _ => rfl

theorem needDirty_prune (w : Walk) : needDirty c w acc (x.prune keep) = (needDirty c w acc x).prune keep :=
  Res.ite_prune (fun _ => Res.bind_prune (entryFlag_prune c x _ _ _ _) fun _ _ _ => rfl) fun _ => rfl

theorem eptUpdateFlags_prune (w : Walk) (needA : List Word) (needD : Bool) :
    eptUpdateFlags c w gpa needA needD (x.prune keep) = (eptUpdateFlags c w gpa needA needD x).prune keep :=
  Res.ite_prune (fun _ => rfl) fun _ => Res.ite_prune (fun _ => rfl) fun _ =>
    Res.bind_prune (setEntryBits_prune c x 8 needA) fun _ y _ => Res.bind_prune (setEntryBits_prune c y 9 _) fun _ z _ =>
      Res.ite_prune (fun _ => pmlLog_prune c gpa z) fun _ => rfl

theorem eptSetAccessedDirty_prune (w : Walk) :
    eptSetAccessedDirty c w acc gpa (x.prune keep) = (eptSetAccessedDirty c w acc gpa x).prune keep :=
  Res.bind_prune (needAccessed_prune c x w.used) fun _ y _ =>
    Res.bind_prune (needDirty_prune c acc y w) fun _ z _ => eptUpdateFlags_prune c gpa z w _ _

theorem chooseBool_prune : chooseBool c (x.prune keep) = ((chooseBool c x).1, (chooseBool c x).2.prune keep) := rfl

theorem apicTest_prune (sources : List Mapping) (pa : Word) :
    apicTest c sources pa (x.prune keep) = (apicTest c sources pa x).prune keep := by
  refine Res.ite_prune (fun _ => Res.ite_prune (fun _ => ?_) fun _ => rfl) fun _ => rfl
  rw [chooseBool_prune]
  cases chooseBool c x with
  | mk b y => cases b <;> rfl

theorem sppEligible_prune (w : Walk) :
    sppEligible c (x.prune keep) w acc = ((sppEligible c x w acc).1, (sppEligible c x w acc).2.prune keep) := by
  unfold sppEligible
  rw [Ctx.prune_st, sppCandidate_prune]
  split
  · split
    · cases c.sppPolicy <;> rfl
    · rfl
  · rfl

theorem eptPerform_prune (w : Walk) : eptPerform c acc gpa w (x.prune keep) = (eptPerform c acc gpa w x).prune keep :=
  Res.ite_prune (fun _ => Res.bind_prune (eptSetAccessedDirty_prune c acc gpa x w) fun _ _ _ => rfl) fun _ => rfl

end

end Sys2Proof.Machine
end

section
/-! PROOFS. Mappings that cannot be used change nothing when they are taken out (40_vpid.md R74, 46_caching.md R240 to R243). -/

namespace Sys2Proof.Machine

open Sys2Proof

/-! The mappings taken out. -/

/-- The mappings that `keep` takes out are not used in place of an entry of the EPT walk for a guest-physical address. -/
def SparesGphys (keep : Mapping → Bool) (gpa : Word) (s : State) : Prop :=
  ∀ m ∈ s.cache, keep m = false → ∀ level, gphysUsable s gpa level m = false

/-- The mappings that `keep` takes out are not used by an access to a linear address. -/
def Spares (c : Cfg) (keep : Mapping → Bool) (la : Word) (s : State) : Prop := ∀ m ∈ s.cache, keep m = false → m.unmatched c s la

section
variable {c : Cfg} {keep : Mapping → Bool} {la gpa : Word} {s : State} {x y : Ctx}

theorem Kept.sparesGphys (h : Kept c x y) (hs : SparesGphys keep gpa x.st) : SparesGphys keep gpa y.st := by
  unfold SparesGphys
  rw [h.cache, h.gphysUsable]
  exact hs

theorem Kept.spares (h : Kept c x y) (hs : Spares c keep la x.st) : Spares c keep la y.st := by
  unfold Spares
  rw [h.cache]
  exact fun m hm hkeep => (h.unmatched c la m).2 (hs m hm hkeep)

theorem Spares.gphys (hs : Spares c keep la s) (hept : s.eptInUse = true) (gpa : Word) : SparesGphys keep gpa s :=
  fun m hm hkeep level => (hs m hm hkeep).gphysUsable hept gpa level

/-- Of a mapping that cannot be used no sub-page permissions are. -/
theorem Mapping.unmatched.sppHeld {acc : GAccess} {m : Mapping} (h : m.unmatched c s la) (hept : s.eptInUse = true)
    (hla : acc.la = some la) : sppHeld c s acc gpa m = none := by
  cases m with
  | gphysTr m => simp [Machine.sppHeld, h.gphysUsable hept]
  | combTr m => simp [Machine.sppHeld, hla, h.linearUsable]
  | linearTr | linearPsc | gphysPsc | combPsc => rfl

/-- The same pick, where the candidates are all kept. -/
theorem pick_filter_prune {p : Mapping → Bool} {o : Option Mapping} (hs : ∀ m ∈ x.st.cache, keep m = false → p m = false)
    (h : pick c x (x.st.cache.filter p) = (o, y)) :
    pick c (x.prune keep) ((x.prune keep).st.cache.filter p) = (o, y.prune keep) := by
  rw [Ctx.prune_st, State.filter_prune_cache hs, pick_prune, h]

end

/-! Accesses to guest-physical addresses. -/

theorem eptTranslateFrom_prune {c : Cfg} {acc : GAccess} {gpa base : Word} {keep : Mapping → Bool} {fuel level : Nat} {r : Rights}
    {used : List WalkEntry} {sources : List Mapping} {x : Ctx} (hs : SparesGphys keep gpa x.st) :
    eptTranslateFrom c acc gpa fuel level base r used sources (x.prune keep) =
      (eptTranslateFrom c acc gpa fuel level base r used sources x).prune keep := by
  induction fuel generalizing level base r used sources x with
  | zero => rfl
  | succ fuel ih =>
    have hlevel : ∀ m ∈ x.st.cache, keep m = false → gphysUsable x.st gpa level m = false := fun m hm hkeep => hs m hm hkeep level
    obtain ⟨y, hk, hpick | ⟨m, hpick, -⟩ | ⟨m, hpick, -⟩⟩ := pick_gphysUsable c gpa level x
    · rw [eptTranslateFrom_none hpick, eptTranslateFrom_none (pick_filter_prune hlevel hpick)]
      refine Res.bind_prune (eptEntry_prune c acc gpa y level base r) fun e z hz => ?_
      have hkz : Kept c x z := hk.trans ((eptEntry_keeps c acc gpa y level base r).kept_of_ok hz)
      exact Res.ite_prune (fun _ => rfl) fun _ => ih (hkz.sparesGphys hs)
    · rw [eptTranslateFrom_gphysTr hpick, eptTranslateFrom_gphysTr (pick_filter_prune hlevel hpick)]
      rfl
    · rw [eptTranslateFrom_gphysPsc hpick, eptTranslateFrom_gphysPsc (pick_filter_prune hlevel hpick)]
      exact ih ((hk.trans (kept_use c y _)).sparesGphys hs)

/-- R242: guest-physical mappings that do not match, taken out, change nothing else. -/
theorem eptTranslate_prune {c : Cfg} {acc : GAccess} {gpa : Word} {keep : Mapping → Bool} {x : Ctx} (hs : SparesGphys keep gpa x.st) :
    eptTranslate c acc gpa (x.prune keep) = (eptTranslate c acc gpa x).prune keep :=
  eptTranslateFrom_prune hs

section
variable {c : Cfg} {keep : Mapping → Bool} {la : Word} {acc : GAccess} {x : Ctx} (hs : Spares c keep la x.st)
include hs

section
variable (hept : x.st.eptInUse = true) (hla : acc.la = some la)
include hept hla

theorem sppVector_prune (gpa : Word) : sppVector c acc gpa (x.prune keep) = (sppVector c acc gpa x).prune keep := by
  have hcandidates : (x.prune keep).st.cache.filterMap (fun m => (sppHeld c (x.prune keep).st acc gpa m).map fun h => (m, h)) =
      x.st.cache.filterMap fun m => (sppHeld c x.st acc gpa m).map fun h => (m, h) := by
    rw [Ctx.prune_st, sppHeld_prune]
    exact State.filterMap_prune_cache fun m hm hkeep => by rw [(hs m hm hkeep).sppHeld hept hla, Option.map_none]
  unfold sppVector
  rw [hcandidates, pick_prune]
  obtain ⟨o, y⟩ := pick c x (x.st.cache.filterMap fun m => (sppHeld c x.st acc gpa m).map fun h => (m, h))
  match o with
  | none => exact Res.bind_prune (sppVectorAddr_prune c acc gpa y) fun a z _ => physRead64_prune c z a
  | some (m, .vector v) => rfl
  | some (m, .table above t) =>
    exact Res.bind_prune (sppTables_prune c acc gpa (y.use m) above (above + 1) t) fun t' z _ => physRead64_prune c z _

theorem sppCheck_prune (gpa : Word) (w : Walk) : sppCheck c acc gpa w (x.prune keep) = (sppCheck c acc gpa w x).prune keep :=
  Res.bind_prune (sppVector_prune hs hept hla gpa) fun _ _ _ =>
    Res.ite_prune (fun _ => rfl) fun _ => Res.ite_prune (fun _ => rfl) fun _ => rfl

theorem eptGrant_prune (gpa : Word) (w : Walk) : eptGrant c acc gpa w (x.prune keep) = (eptGrant c acc gpa w x).prune keep := by
  refine Res.ite_prune (fun _ => ?_) fun _ => Res.ite_prune (fun _ => ?_) fun _ => rfl
  · exact Res.bind_prune (apicTest_prune c x w.sources w.pa) fun _ y _ => eptPerform_prune c acc gpa y w
  · rw [sppEligible_prune]
    have hk := kept_sppEligible c x w acc
    generalize sppEligible c x w acc = eligible at hk
    obtain ⟨b, y⟩ := eligible
    cases b with
    | false => rfl
    | true =>
      exact Res.bind_prune (sppCheck_prune (hk.spares hs) (hk.eptInUse.trans hept) hla gpa w) fun _ z _ => eptPerform_prune c acc gpa z w

theorem guestPhysAccess_prune (gpa : Word) :
    guestPhysAccess c acc gpa (x.prune keep) = (guestPhysAccess c acc gpa x).prune keep := by
  refine Res.ite_prune (fun _ => rfl) fun _ => Res.bind_prune (eptTranslate_prune (hs.gphys hept gpa)) fun w y hy => ?_
  have hk : Kept c x y := (eptTranslate_keeps c acc gpa x).kept_of_ok hy
  exact Res.bind_prune (eptGrant_prune (hk.spares hs) (hk.eptInUse.trans hept) hla gpa w) fun _ _ _ => rfl

end

theorem addressAccess_prune (hla : acc.la = some la) (a : Word) :
    addressAccess c acc a (x.prune keep) = (addressAccess c acc a x).prune keep :=
  Res.ite_prune (fun hept => guestPhysAccess_prune hs hept hla a) fun _ =>
    Res.bind_prune (apicTest_prune c x [] a) fun _ _ _ => rfl

end

/-! Accesses to linear addresses. -/

/-- What a translation may take from the cache at a guest entry: nothing, or a usable linear or combined mapping, the latter with EPT in
use. -/
theorem pick_linearUsable (c : Cfg) (la : Word) (level : Nat) (x : Ctx) :
    ∃ y, Kept c x y ∧
      (pick c x (x.st.cache.filter (linearUsable c x.st la level)) = (none, y) ∨
        (∃ m, pick c x (x.st.cache.filter (linearUsable c x.st la level)) = (some (.linearTr m), y)) ∨
        (∃ m, pick c x (x.st.cache.filter (linearUsable c x.st la level)) = (some (.linearPsc m), y)) ∨
        (∃ m, pick c x (x.st.cache.filter (linearUsable c x.st la level)) = (some (.combTr m), y) ∧ x.st.eptInUse = true) ∨
        ∃ m, pick c x (x.st.cache.filter (linearUsable c x.st la level)) = (some (.combPsc m), y) ∧ x.st.eptInUse = true) := by
  obtain ⟨y, hk, h | ⟨m, -, hp, h⟩⟩ := pick_filter_cases c x x.st.cache (linearUsable c x.st la level)
  · exact ⟨y, hk, .inl h⟩
  · have hept : m.isLinear = false → x.st.eptInUse = true := fun hlin => by
      have hkind := linearUsable_kind hp
      by_contra hept
      simp [hept, hlin] at hkind
    cases m with
    | linearTr m => exact ⟨y, hk, .inr (.inl ⟨m, h⟩)⟩
    | linearPsc m => exact ⟨y, hk, .inr (.inr (.inl ⟨m, h⟩))⟩
    | combTr m => exact ⟨y, hk, .inr (.inr (.inr (.inl ⟨m, h, hept rfl⟩)))⟩
    | combPsc m => exact ⟨y, hk, .inr (.inr (.inr (.inr ⟨m, h, hept rfl⟩)))⟩
    | gphysTr m | gphysPsc m => rw [linearUsable_of_isGPhys rfl] at hp; cases hp

/-- A combined translation is found with EPT in use only. -/
theorem guestFindFrom_comb_eptInUse {c : Cfg} {kind : AccKind} {la table : Word} {fuel level : Nat} {o : Option CombPsc}
    {es : List GuestEntry} {x z : Ctx} {m : CombTr} (h : guestFindFrom c kind la fuel level table o es x = .ok (.comb m) z) :
    x.st.eptInUse = true := by
  induction fuel generalizing level table o es x with
  | zero => cases h
  | succ fuel ih =>
    obtain ⟨y, hk, hpick | ⟨m', hpick⟩ | ⟨m', hpick⟩ | ⟨m', hpick, hept⟩ | ⟨m', hpick, hept⟩⟩ :=
      pick_linearUsable c la level x
    · rw [guestFindFrom_none hpick] at h
      obtain ⟨ge, u, hentry, h⟩ := Res.bind_eq_ok.1 h
      have hku : Kept c x u := hk.trans ((guestEntry_keeps c kind la es level table o y).kept_of_ok hentry)
      unfold guestFindNext at h
      split at h
      · exact hku.eptInUse.symm.trans (ih h)
      · cases h
    · rw [guestFindFrom_linearTr hpick] at h
      cases h
    · rw [guestFindFrom_linearPsc hpick] at h
      exact (hk.trans (kept_use c y _)).eptInUse.symm.trans (ih h)
    · exact hept
    · exact hept

section
variable {c : Cfg} {keep : Mapping → Bool} {la : Word} {x : Ctx} (hs : Spares c keep la x.st)
include hs

theorem guestEntry_prune {o : Option CombPsc} (ho : ∀ m, o = some m → x.st.eptInUse = true) (kind : AccKind) (es : List GuestEntry)
    (level : Nat) (table : Word) :
    guestEntry c kind la es level table o (x.prune keep) = (guestEntry c kind la es level table o x).prune keep := by
  refine Res.bind_prune ?_ fun g y _ => Res.bind_prune (physRead_prune c (y.note _) g.pa _) fun bs z _ =>
    Res.ite_prune (fun _ => rfl) fun _ => rfl
  cases o with
  | none => exact addressAccess_prune hs rfl _
  | some m => exact Res.bind_prune (eptGrant_prune hs (ho m rfl) rfl _ _) fun _ _ _ => rfl

theorem guestFindFrom_prune {o : Option CombPsc} (ho : ∀ m, o = some m → x.st.eptInUse = true) (kind : AccKind) (fuel level : Nat)
    (table : Word) (es : List GuestEntry) :
    guestFindFrom c kind la fuel level table o es (x.prune keep) = (guestFindFrom c kind la fuel level table o es x).prune keep := by
  induction fuel generalizing level table o es x with
  | zero => rfl
  | succ fuel ih =>
    have hlevel : ∀ m ∈ x.st.cache, keep m = false → linearUsable c x.st la level m = false :=
      fun m hm hkeep => (hs m hm hkeep).linearUsable level
    obtain ⟨y, hk, hpick | ⟨m, hpick⟩ | ⟨m, hpick⟩ | ⟨m, hpick, -⟩ | ⟨m, hpick, hept⟩⟩ :=
      pick_linearUsable c la level x
    · rw [guestFindFrom_none hpick, guestFindFrom_none (pick_filter_prune hlevel hpick)]
      refine Res.bind_prune (guestEntry_prune (hk.spares hs) (fun m h => hk.eptInUse.trans (ho m h)) kind es level table) fun ge z hz => ?_
      have hkz : Kept c x z := hk.trans ((guestEntry_keeps c kind la es level table o y).kept_of_ok hz)
      exact Res.ite_prune (fun _ => ih (hkz.spares hs) (fun _ h => by cases h) _ _ _) fun _ => rfl
    · rw [guestFindFrom_linearTr hpick, guestFindFrom_linearTr (pick_filter_prune hlevel hpick)]
      rfl
    · rw [guestFindFrom_linearPsc hpick, guestFindFrom_linearPsc (pick_filter_prune hlevel hpick)]
      exact ih ((hk.trans (kept_use c y _)).spares hs) (fun _ h => by cases h) _ _ _
    · rw [guestFindFrom_combTr hpick, guestFindFrom_combTr (pick_filter_prune hlevel hpick)]
      rfl
    · rw [guestFindFrom_combPsc hpick, guestFindFrom_combPsc (pick_filter_prune hlevel hpick)]
      have hky : Kept c x (y.use (.combPsc m)) := hk.trans (kept_use c y _)
      exact ih (hky.spares hs) (fun _ _ => hky.eptInUse.trans hept) _ _ _

theorem guestSetFlags_prune (es : List GuestEntry) (l : List (GuestEntry × Word)) :
    guestSetFlags c la es l (x.prune keep) = (guestSetFlags c la es l x).prune keep := by
  induction l generalizing es x with
  | nil => rfl
  | cons p rest ih =>
    refine Res.ite_prune (fun _ => ih hs _) fun _ => Res.bind_prune (addressAccess_prune hs rfl _) fun g y hy => ?_
    refine Res.bind_prune (physUpdate_prune c (y.note _) g.pa _ _) fun _ z hz => ih ?_ _
    have hky : Kept c x y := (addressAccess_keeps c _ _ x).kept_of_ok hy
    exact ((hky.trans (kept_note c y _)).trans ((physUpdate_keeps c _ _ _ _).kept_of_ok hz)).spares hs

theorem guestPermit_prune (kind : AccKind) (es : List GuestEntry) :
    guestPermit c kind la es (x.prune keep) = (guestPermit c kind la es x).prune keep :=
  Res.ite_prune (fun _ => rfl) fun _ => guestSetFlags_prune hs [] _

end

section
variable {c : Cfg} {keep : Mapping → Bool} {p : Part} {x : Ctx} (hs : Spares c keep p.la x.st)
include hs

theorem accessAfterWalk_prune (gw : GuestWalk) : accessAfterWalk c p gw (x.prune keep) = (accessAfterWalk c p gw x).prune keep := by
  refine Res.bind_prune (guestPermit_prune hs p.kind gw.entries) fun _ y hy => ?_
  have hk : Kept c x y := (guestPermit_keeps c p.kind p.la gw.entries x).kept_of_ok hy
  exact Res.bind_prune (addressAccess_prune (hk.spares hs) rfl gw.gpa) fun _ _ _ => rfl

theorem accessUnpaged_prune : accessUnpaged c p (x.prune keep) = (accessUnpaged c p x).prune keep :=
  Res.bind_prune (addressAccess_prune hs rfl p.la) fun _ _ _ => rfl

theorem accessByCombTr_prune (hept : x.st.eptInUse = true) (m : CombTr) :
    accessByCombTr c p m (x.prune keep) = (accessByCombTr c p m x).prune keep := by
  refine Res.bind_prune (Res.ite_prune (fun _ => guestPermit_prune hs p.kind m.guest) fun _ => rfl) fun _ y hy => ?_
  have hk : Kept c x y := by
    split at hy
    · exact (guestPermit_keeps c p.kind p.la m.guest x).kept_of_ok hy
    · cases hy
      exact Kept.refl c x
  exact Res.bind_prune (eptGrant_prune (hk.spares hs) (hk.eptInUse.trans hept) rfl _ _) fun _ _ _ => rfl

theorem accessByLinearTr_prune (m : LinearTr) : accessByLinearTr c p m (x.prune keep) = (accessByLinearTr c p m x).prune keep :=
  Res.bind_prune (guestPermit_prune hs p.kind m.guest) fun _ y _ => Res.bind_prune (apicTest_prune c y _ _) fun _ _ _ => rfl

theorem accessPaged_prune : accessPaged c p (x.prune keep) = (accessPaged c p x).prune keep := by
  refine Res.bind_prune (guestFindFrom_prune hs (fun _ h => by cases h) p.kind _ _ _ []) fun f y hy => ?_
  have hk : Kept c x y := (guestFindFrom_keeps c _ _ _ _ _ _ _ x).kept_of_ok hy
  cases f with
  | walk gw => exact accessAfterWalk_prune (hk.spares hs) gw
  | comb m => exact accessByCombTr_prune (hk.spares hs) (hk.eptInUse.trans (guestFindFrom_comb_eptInUse hy)) m
  | linear m => exact accessByLinearTr_prune (hk.spares hs) m

/-- R74, R240 to R243: mappings that do not match, taken out, change nothing else of an access to a linear address. -/
theorem accessPart_prune : accessPart c p (x.prune keep) = (accessPart c p x).prune keep := by
  refine Res.ite_prune (fun _ => accessPaged_prune hs) fun _ => Res.ite_prune (fun _ => rfl) fun _ => ?_
  have hlevel : ∀ m ∈ x.st.cache, keep m = false → linearUsable c x.st p.la 1 m = false :=
    fun m hm hkeep => (hs m hm hkeep).linearUsable 1
  rw [Ctx.prune_st, linearUsable_prune, State.filter_prune_cache hlevel, pick_prune]
  obtain ⟨y, hk, hpick | ⟨m, hpick⟩ | ⟨m, hpick⟩ | ⟨m, hpick, hept⟩ | ⟨m, hpick, -⟩⟩ :=
    pick_linearUsable c p.la 1 x <;> rw [hpick]
  · exact accessUnpaged_prune (hk.spares hs)
  · exact accessUnpaged_prune (hk.spares hs)
  · exact accessUnpaged_prune (hk.spares hs)
  · have hky : Kept c x (y.use (.combTr m)) := hk.trans (kept_use c y _)
    exact accessByCombTr_prune (hky.spares hs) (hky.eptInUse.trans hept) m
  · exact accessUnpaged_prune (hk.spares hs)

end

end Sys2Proof.Machine
end

section
/-! PROOFS. The cached mappings that are used, and what a used one gives (40_vpid.md R74, 46_caching.md R236, R240 to R244). -/

namespace Sys2Proof.Machine

open Sys2Proof

/-- Settles O15: `Spares` and `SparesGphys` say that a mapping is no candidate of `pick` at any entry of a translation; a mapping that matches is
one, and where it is the only one the walk of memory goes on below it. -/
theorem cachedMappingsUsed : Obligations.CachedMappingsUsed := by
  refine ⟨?_, ?_, ?_, ?_, ?_, ?_, ?_, ?_, ?_, ?_, ?_, ?_⟩
  · exact fun c p x hnone => accessPart_eq_walk fun m hm level => linearUsable_eq_false (hnone m hm) level
  · exact fun c acc gpa x hnone => eptTranslate_eq_walk hnone
  · exact fun c p x keep hs => accessPart_prune hs
  · exact fun c acc gpa x keep hs => eptTranslate_prune fun m hm hkeep level => gphysUsable_eq_false (hs m hm hkeep) level
  · intro acc gpa x m hm hlen hep hpage
    obtain ⟨v, hv⟩ := eptTranslate_gphysTr acc hm hlen hep hpage
    exact ⟨v, fun c hc => ⟨_, _, hv c hc, rfl, rfl, rfl, rfl, rfl, rfl, rfl, rfl⟩⟩
  · exact fun c acc gpa x y w h => eptTranslate_sourcesUsed h
  · exact fun c acc gpa x m hm hep hupper hlow hhigh hfree hothers =>
      ⟨_, rfl, rfl, eptTranslate_gphysPsc hm hep hupper hlow hhigh hfree hothers⟩
  · rintro c p x m acc _ _ hm hlen hept hvpid hpcid hep hpage hla hacc rfl rfl
    obtain ⟨v, hv⟩ := accessPart_combTr hm hlen (linearUsable_combTr hept hvpid hpcid hep hpage) hla
    refine ⟨v, fun f hf => ?_⟩
    rw [hv f hf]
    refine ⟨fun hpg hdenied => ⟨_, accessByCombTr_denied hpg hdenied⟩,
      fun hguest hallowed hspp => ⟨_, accessByCombTr_violation hguest hacc hallowed hspp⟩,
      fun hguest hallowed hapic => ⟨fun had => ?_, fun had => ⟨(x.mapSt fun s => s.bump 1).use (.combTr m), rfl, fun z hz => ?_⟩⟩⟩
    · obtain ⟨d, hd, hpa, hgpa⟩ := accessByCombTr_noFlags (c := { c with free := f })
        (y := (x.mapSt fun s => s.bump 1).use (.combTr m)) hguest hacc hallowed hapic had
      exact ⟨d, _, hd, hpa, hgpa, rfl⟩
    · exact accessByCombTr_flags (c := { c with free := f }) (y := (x.mapSt fun s => s.bump 1).use (.combTr m)) hguest hacc hallowed
        hapic had hz
  · rintro c p x m _ hm hlen hept hpg hvpid hpcid hpage rfl
    obtain ⟨v, hv⟩ := accessPart_linearTr hm hlen hpg (linearUsable_linearTr hept hpg hvpid hpcid hpage _)
    refine ⟨v, fun f hf => ?_⟩
    rw [hv f hf]
    exact ⟨fun hdenied => ⟨_, accessByLinearTr_denied hdenied⟩,
      fun hguest hapic => ⟨_, _, accessByLinearTr_allowed hpg hguest hapic, rfl, rfl, rfl⟩⟩
  · exact fun c p x m hm hept hpg hvpid hpcid hupper hlow hhigh hfree hothers =>
      ⟨_, rfl, rfl, accessPart_linearPsc hm hept hpg hvpid hpcid hupper hlow hhigh hfree hothers⟩
  · exact fun c p x m hm hept hpg hvpid hpcid hep hupper hlow hhigh hfree hothers =>
      ⟨_, rfl, rfl, accessPart_combPsc hm hept hpg hvpid hpcid hep hupper hlow hhigh hfree hothers⟩
  · rintro c kind la es level size m x off value acc hoff rfl hacc hvalue
    exact ⟨fun h => guestEntry_combPsc_denied hoff hacc h, fun h had hapic hagents hrange =>
      guestEntry_combPsc_allowed hoff hacc h had hapic hagents hrange hvalue⟩

end Sys2Proof.Machine
end

section
/-! PROOFS. The EPT walk of memory, entry by entry (41_ept_translation.md R91 to R102, 42_ept_vmexits.md R116). -/

namespace Sys2Proof.Machine

open Sys2Proof

/-- Settles O19: of the three bits some is 1 where they are not all 0. -/
theorem presentTest : Obligations.PresentTest := by
  intro s e
  simp only [eptPresent, Bool.or_eq_true, bne_iff_ne, Bool.and_eq_true]

/-! Addresses with a bit above 47 set (92_eei_decisions.md D25). -/

theorem gpaOk_eq_false {gpa : Word} (h : gpa >>> 48 ≠ 0#64) : gpaOk gpa = false := beq_false_of_ne h

theorem guestPhysAccess_high {gpa : Word} (h : gpa >>> 48 ≠ 0#64) (c : Cfg) (acc : GAccess) (x : Ctx) :
    guestPhysAccess c acc gpa x = .stopped (.refused .guestPhysicalAbove47) := by
  rw [guestPhysAccess, gpaOk_eq_false h]
  rfl

/-- The refusal comes before any cached mapping is looked for. -/
theorem accessPart_unpaged_high {p : Part} {x : Ctx} (hept : x.st.eptInUse = true) (hpg : x.st.pg = false) (h : p.la >>> 48 ≠ 0#64)
    (c : Cfg) : accessPart c p x = .stopped (.refused .guestPhysicalAbove47) := by
  simp [accessPart, hpg, hept, gpaOk_eq_false h]

/-- Settles O22: both kinds of access test the address first. -/
theorem highGuestPhysicalRefused : Obligations.HighGuestPhysicalRefused :=
  ⟨fun c acc _ x h => guestPhysAccess_high h c acc x, fun c _ _ hept hpg h => accessPart_unpaged_high hept hpg h c⟩

/-! The frame of a leaf entry and the offset in its page, by the level (R98). -/

theorem leafFrame_one (e : Word) : leafFrame e 1 = tableBase e := by
  rw [leafFrame, tableBase, BitVec.and_assoc]
  rfl

theorem leafFrame_two (e : Word) : leafFrame e 2 = e &&& 0x000FFFFFFFE00000#64 := by
  rw [leafFrame, tableBase, BitVec.and_assoc]
  rfl

theorem leafFrame_three (e : Word) : leafFrame e 3 = e &&& 0x000FFFFFC0000000#64 := by
  rw [leafFrame, tableBase, BitVec.and_assoc]
  rfl

/-! One entry of the walk. -/

/-- An entry of a level, read from a table, as a translation notes it. -/
def readEntry (gpa : Word) (level : Nat) (base e : Word) : WalkEntry := ⟨base + 8#64 * gpaIndex gpa level, e.getLsbD 8, false⟩

/-- The context after an entry has been gone through. -/
def Ctx.read (x : Ctx) (gpa : Word) (level : Nat) (base : Word) : Ctx := x.touch (base + 8#64 * gpaIndex gpa level)

section
variable {c : Cfg} {acc : GAccess} {gpa base e : Word} {n : Nat} {r : Rights} {used : List WalkEntry} {x : Ctx}

theorem eptWalkFrom_ref (hentry : entryIs c x.st gpa (n + 2) base e) (href : referencesTable c x.st (n + 2) e) :
    eptWalkFrom c acc gpa (n + 1) base r used x =
      eptWalkFrom c acc gpa n (tableBase e) (r.meet e) (used ++ [readEntry gpa (n + 2) base e]) (x.read gpa (n + 2) base) := by
  obtain ⟨-, -, hleaf⟩ := id href
  rw [eptWalkFrom, eptEntry_ref hentry href, Res.bind_ok, hleaf]
  rfl

theorem eptWalkFrom_maps (hentry : entryIs c x.st gpa (n + 1) base e) (hmaps : mapsPage c x.st (n + 1) e) :
    eptWalkFrom c acc gpa n base r used x =
      .ok (walkLeaf gpa (n + 1) (base + 8#64 * gpaIndex gpa (n + 1)) e (r.meet e) (used ++ [readEntry gpa (n + 1) base e]))
        (x.read gpa (n + 1) base) := by
  obtain ⟨-, -, hleaf⟩ := id hmaps
  rw [eptWalkFrom, eptEntry_maps hentry hmaps, Res.bind_ok, hleaf]
  rfl

theorem eptWalkFrom_notPresent (hentry : entryIs c x.st gpa (n + 1) base e) (hpresent : eptPresent x.st e = false) :
    eptWalkFrom c acc gpa n base r used x = .raised (violation x acc gpa (r.meet e) (some (n + 1))) x := by
  rw [eptWalkFrom, eptEntry_of hentry, hpresent]
  rfl

theorem eptWalkFrom_misconfigured (hentry : entryIs c x.st gpa (n + 1) base e) (hpresent : eptPresent x.st e = true)
    (hmis : eptMisconfigured c x.st e (n + 1) (isLeaf (n + 1) e) = true) :
    eptWalkFrom c acc gpa n base r used x = .raised (.eptMisconfig gpa (n + 1)) x := by
  rw [eptWalkFrom, eptEntry_of hentry, hpresent, hmis]
  rfl

end

/-! The entries that reference a table, in turn. -/

/-- The entries of a walk from the table of a level on, as a translation notes them. -/
def readEntries (gpa : Word) : Nat → Word → List Word → List WalkEntry
  | _, _, [] => []
  | level, base, e :: es => readEntry gpa level base e :: readEntries gpa (level - 1) (tableBase e) es

/-- The walk goes through the entries of a path with nothing changed, and on from the table that the last references. -/
theorem eptWalkFrom_eptPath {c : Cfg} {acc : GAccess} {gpa t : Word} {es : List Word} {n : Nat} {base : Word} {r : Rights}
    {used : List WalkEntry} {x : Ctx} (h : eptPath c x.st gpa (n + es.length + 1) base es t) :
    ∃ y : Ctx, y.st = x.st ∧ y.mappings = x.mappings ∧
      eptWalkFrom c acc gpa (n + es.length) base r used x =
        eptWalkFrom c acc gpa n t (es.foldl Rights.meet r) (used ++ readEntries gpa (n + es.length + 1) base es) y := by
  induction es generalizing base r used x with
  | nil =>
    cases h
    exact ⟨x, rfl, rfl, by simp [readEntries]⟩
  | cons e es ih =>
    obtain ⟨hentry, href, hrest⟩ := h
    obtain ⟨y, hst, hmappings, hwalk⟩ := ih (r := r.meet e) (used := used ++ [readEntry gpa (n + es.length + 2) base e])
      (x := x.read gpa (n + es.length + 2) base) hrest
    refine ⟨y, hst, hmappings, (eptWalkFrom_ref hentry href).trans (hwalk.trans ?_)⟩
    rw [List.append_assoc]
    rfl

/-- One entry more at the end of a path. -/
theorem eptPath_append {c : Cfg} {s : State} {gpa : Word} {es : List Word} {level : Nat} {base b e : Word}
    (h : eptPath c s gpa level base es b) (hentry : entryIs c s gpa (level - es.length) b e)
    (href : referencesTable c s (level - es.length) e) : eptPath c s gpa level base (es ++ [e]) (tableBase e) := by
  induction es generalizing level base with
  | nil =>
    cases h
    exact ⟨hentry, href, rfl⟩
  | cons e' es ih =>
    obtain ⟨hentry', href', hrest⟩ := h
    rw [show level - (e' :: es).length = level - 1 - es.length by rw [List.length_cons]; omega] at hentry href
    exact ⟨hentry', href', ih hrest hentry href⟩

/-- A table that a walk reaches, by the entries on the way to it. -/
theorem eptPath_of_tableReached {c : Cfg} {s : State} {gpa : Word} {k : Nat} {base : Word} (h : tableReached c s gpa k base) :
    ∃ es, es.length = k ∧ eptPath c s gpa 4 (tableBase s.vmcs.eptp) es base := by
  induction k generalizing base with
  | zero => exact ⟨[], rfl, h⟩
  | succ k ih =>
    obtain ⟨b, e, hreached, hentry, href, rfl⟩ := h
    obtain ⟨es, rfl, hpath⟩ := ih hreached
    exact ⟨es ++ [e], by simp, eptPath_append hpath hentry href⟩

/-! The walk from the EPT PML4 table (R91). -/

section
variable {c : Cfg} {gpa base : Word} {es : List Word} {n : Nat} {x : Ctx} (acc : GAccess)

/-- A walk whose entries reference tables down to a level goes on from the table of that level. -/
theorem eptWalk_eptPath (hlen : n + es.length = 3) (h : eptPath c x.st gpa 4 (tableBase x.st.vmcs.eptp) es base) :
    ∃ y : Ctx, y.st = x.st ∧ y.mappings = x.mappings ∧
      eptWalk c acc gpa x =
        eptWalkFrom c acc gpa n base (es.foldl Rights.meet .full) (readEntries gpa 4 (tableBase x.st.vmcs.eptp) es) y := by
  have hlevel : n + es.length + 1 = 4 := by omega
  rw [← hlevel] at h ⊢
  rw [eptWalk, ← hlen]
  exact eptWalkFrom_eptPath h

/-- R98, R102: a walk that ends at an entry that maps a page, and what it comes to. -/
theorem eptWalk_eptLeaf {e : Word} (h : eptLeaf c x.st gpa es (n + 1) base e) :
    ∃ y : Ctx, y.st = x.st ∧
      eptWalk c acc gpa x =
        .ok (walkLeaf gpa (n + 1) (base + 8#64 * gpaIndex gpa (n + 1)) e ((es.foldl Rights.meet .full).meet e)
          (readEntries gpa 4 (tableBase x.st.vmcs.eptp) es ++ [readEntry gpa (n + 1) base e])) y := by
  obtain ⟨hlen, hpath, hentry, hmaps⟩ := h
  obtain ⟨y, hst, -, hwalk⟩ := eptWalk_eptPath acc (n := n) (by omega) hpath
  rw [← hst] at hentry hmaps
  exact ⟨y.read gpa (n + 1) base, hst, hwalk.trans (eptWalkFrom_maps hentry hmaps)⟩

end

/-- Settles O16: the path to the leaf has three entries. -/
theorem walkMapsPage : Obligations.WalkMapsPage := by
  rintro c acc gpa x _ e4 e3 e2 e rfl h4 ref4 h3 ref3 h2 ref2 h1 maps1
  obtain ⟨y, hst, hwalk⟩ := eptWalk_eptLeaf acc (n := 0) (es := [e4, e3, e2])
    ⟨rfl, ⟨h4, ref4, h3, ref3, h2, ref2, rfl⟩, h1, maps1⟩
  refine ⟨_, y, hwalk, hst, ?_, rfl, rfl, rfl, rfl, rfl, rfl⟩
  rw [walkLeaf, leafFrame_one]
  rfl

/-- Settles O17: the path to the leaf has one entry for a 1-GByte page, two for a 2-MByte page. -/
theorem walkMapsLargePage : Obligations.WalkMapsLargePage := by
  rintro c acc gpa x _ e4 e3 e2 rfl h4 ref4 h3
  refine ⟨fun maps3 => ?_, fun ref3 h2 maps2 => ?_⟩
  · obtain ⟨y, hst, hwalk⟩ := eptWalk_eptLeaf acc (n := 2) (es := [e4]) ⟨rfl, ⟨h4, ref4, rfl⟩, h3, maps3⟩
    refine ⟨_, y, hwalk, hst, rfl, ?_, rfl, rfl, rfl, rfl, rfl⟩
    rw [walkLeaf, leafFrame_three]
    rfl
  · obtain ⟨y, hst, hwalk⟩ := eptWalk_eptLeaf acc (n := 1) (es := [e4, e3]) ⟨rfl, ⟨h4, ref4, h3, ref3, rfl⟩, h2, maps2⟩
    refine ⟨_, y, hwalk, hst, rfl, ?_, rfl, rfl, rfl, rfl, rfl⟩
    rw [walkLeaf, leafFrame_two]
    rfl

/-- Settles O18: the walk goes on at the table reached as one from there, whose first entry is the bad one. -/
theorem walkStopsAtBadEntry : Obligations.WalkStopsAtBadEntry := by
  intro c acc gpa x k base e hk hreached hentry
  obtain ⟨es, rfl, hpath⟩ := eptPath_of_tableReached hreached
  obtain ⟨n, hn⟩ : ∃ n, 4 - es.length = n + 1 := ⟨3 - es.length, by omega⟩
  obtain ⟨y, hst, hmappings, hwalk⟩ := eptWalk_eptPath acc (n := n) (by omega) hpath
  rw [hn, ← hst] at hentry ⊢
  rw [hwalk, ← hmappings]
  exact ⟨fun hpresent => ⟨_, y, eptWalkFrom_notPresent hentry hpresent, rfl⟩,
    fun hpresent hmis => ⟨y, eptWalkFrom_misconfigured hentry hpresent hmis, rfl⟩⟩

end Sys2Proof.Machine
end

section
/-! PROOFS. The PDPTE load, and MOV to CR3 and MOV to CR4 where they complete and where they end in a VM exit (41_ept_translation.md R88,
R89, 47_invalidation.md R262, R263, 60_exceptions.md R316, 92_eei_decisions.md D28). -/

namespace Sys2Proof.Machine

open Sys2Proof

/-! The PDPTE load. -/

/-- With no other agent's write to come, an entry that exists is read from memory as it stands. -/
theorem physRead64_nil {c : Cfg} {x : Ctx} {pa : Word} (hagents : x.st.agents = []) (hrange : inRange c pa.toNat 8 = true) :
    physRead64 c x pa = .ok (x.st.mem.read64 pa.toNat) x := by
  rw [physRead64, physRead_nil hagents hrange]
  rfl

theorem pdpteLoaded_eq_false_iff {c : Cfg} {s : State} :
    pdpteLoaded c s = false ↔ s.eptInUse = false ∨ c.guest.usesPae s.guestRegs = false := Bool.and_eq_false_iff

/-- R88: where the load does not take place nothing is done. -/
theorem pdpteLoad_of_not_loaded {c : Cfg} {x : Ctx} (h : pdpteLoaded c x.st = false) : pdpteLoad c x = .ok .ok x := by
  rw [pdpteLoad, h]
  rfl

/-- R89: where it takes place it is the four reads, and then the registers written. -/
theorem pdpteLoad_of_loaded {c : Cfg} {x : Ctx} (h : pdpteLoaded c x.st = true) :
    pdpteLoad c x = (readPdptes c x).bind fun v y => .ok (.loaded y.typed) (y.mapSt fun s => s.withPdpte v) := by
  rw [pdpteLoad, h, if_pos rfl, loadPdptes_eq, Res.bind_assoc]
  rfl

/-- What a load that comes to its end does: it is not made and changes nothing, or the reads come to values, which the
registers then hold. -/
theorem pdpteLoad_eq_ok {c : Cfg} {x z : Ctx} {report : Report} (h : pdpteLoad c x = .ok report z) :
    (report = .ok ∧ z = x) ∨
      ∃ v y, readPdptes c x = .ok v y ∧ report = .loaded y.typed ∧ z = y.mapSt fun s => s.withPdpte v := by
  cases hloaded : pdpteLoaded c x.st with
  | false =>
    rw [pdpteLoad_of_not_loaded hloaded] at h
    cases h
    exact .inl ⟨rfl, rfl⟩
  | true =>
    rw [pdpteLoad_of_loaded hloaded] at h
    obtain ⟨v, y, hread, h⟩ := Res.bind_eq_ok.1 h
    cases h
    exact .inr ⟨v, y, hread, rfl, rfl⟩

/-- Settles O50: a PDPTE is the access to its address and then the read; the load is the four of them in order. -/
theorem pdpteLoad_spec : Obligations.PdpteLoad := by
  refine ⟨fun c i x y g haccess hagents hrange => ?_, fun c x0 x1 x2 x3 x4 v0 v1 v2 v3 hpae hept h0 h1 h2 h3 => ?_⟩
  · refine ⟨y.note (typedAccess c y.st (c.guest.pdptBase x.st.guestRegs + BitVec.ofNat 64 (8 * i)) g []), ?_, rfl, List.length_append⟩
    rw [readPdpte, pdpteAccess, haccess, Res.bind_ok]
    exact physRead64_nil hagents hrange
  · have hloaded : pdpteLoaded c x0.st = true := by rw [pdpteLoaded, hept, hpae]; rfl
    have hread : readPdptes c x0 = .ok #v[v0, v1, v2, v3] x4 := by simp only [readPdptes, h0, h1, h2, h3, Res.bind_ok]
    exact ⟨_, by rw [pdpteLoad_of_loaded hloaded, hread, Res.bind_ok], rfl⟩

/-! The instructions where they complete. -/

/-- A load that comes to its end changes what an access may change, and the PDPTE registers. -/
theorem pdpteLoad_ok_frame {c : Cfg} {x z : Ctx} {report : Report} (h : pdpteLoad c x = .ok report z) :
    ∃ mem agents n i v, z.st =
      { x.st with mem := mem, agents := agents, freeCtr := n, vmcs := { x.st.vmcs with pmlIndex := i }, pdpte := v } := by
  rcases pdpteLoad_eq_ok h with ⟨-, rfl⟩ | ⟨v, y, hread, -, rfl⟩
  · exact ⟨_, _, _, _, _, rfl⟩
  · obtain ⟨⟨mem, i, n, k, hst, -⟩, -⟩ := (readPdptes_keeps c x).kept_of_ok hread
    exact ⟨mem, _, n, i, v, by rw [Ctx.mapSt_st, hst]; rfl⟩

/-- A TLB-invalidating operation and the report after it: some mappings stay, none that the operation requires to go (R261, R262). -/
theorem tlbOp_withReport (c : Cfg) (op : TlbOp) (s : State) (report : Report) :
    ∃ kept n, (tlbOp c op s).withReport report = { s with cache := kept, freeCtr := n, report := report } ∧ kept.Sublist s.cache ∧
      ∀ k ∈ kept, tlbRequired c s op k = false := by
  obtain ⟨kept, n, hsub, hgone, heq⟩ := invalidate_spec c (tlbRequired c s op) s
  exact ⟨kept, n, by rw [tlbOp, heq]; rfl, hsub, hgone⟩

/-- MOV to a control register, the register being written in `s1`, where the PDPTE load comes to its end: linear and combined mappings of
the current VPID that the operation selects are gone (R262). -/
theorem movCr_of_load {c : Cfg} {s1 : State} {report : Report} {x : Ctx} (h : pdpteLoad c (Ctx.start s1) = .ok report x) (op : TlbOp)
    (s : State) :
    ∃ kept n, movCr c op s s1 = .next { x.st with cache := kept, freeCtr := n, report := report } ∧ kept.Sublist s1.cache ∧
      ∀ k ∈ kept, k.isLinearOrCombined = true → k.hasVpid s1.currentVpid = true → tlbSelected c x.st op k = false := by
  obtain ⟨kept, n, heq, hsub, hgone⟩ := tlbOp_withReport c op x.st report
  obtain ⟨_, _, _, _, _, hst⟩ := pdpteLoad_ok_frame h
  have hcache : x.st.cache = s1.cache := by rw [hst]; rfl
  have hcurrent : x.st.currentVpid = s1.currentVpid := by rw [hst]; rfl
  refine ⟨kept, n, by rw [movCr, h, Res.outcome, heq], hcache ▸ hsub, fun k hk hkind hvpid => ?_⟩
  simpa [tlbRequired, hkind, hcurrent, hvpid] using hgone k hk

/-- The condition of a configured VM exit does not hold (R301). -/
theorem not_configured {s : State} {configured : Bool} (h : s.mode ≠ .nonRoot ∨ configured = false) :
    ¬ (s.mode == .nonRoot && configured) = true := by
  rcases h with h | h <;> simp [h]

section
variable {c : Cfg} {s : State} {r : Reg} {report : Report} {x : Ctx}

/-- R263: of the class that keeps global translations. -/
theorem movCr3With_completes (h : s.mode ≠ .nonRoot ∨ s.vmcs.exitOnMovCr3 = false)
    (hload : pdpteLoad c (Ctx.start (s.withCr3 (s.regOperand r))) = .ok report x) :
    ∃ kept n, movCr3With c r s = .next { x.st with cache := kept, freeCtr := n, report := report } ∧ kept.Sublist s.cache ∧
      ∀ k ∈ kept, k.isLinearOrCombined = true → k.hasVpid s.currentVpid = true → k.isGlobal = true := by
  obtain ⟨kept, n, heq, hsub, hgone⟩ := movCr_of_load hload .allButGlobal s
  refine ⟨kept, n, (if_neg (not_configured h)).trans heq, hsub, fun k hk hkind hvpid => ?_⟩
  simpa [tlbSelected] using hgone k hk hkind hvpid

/-- R263: of the class that does not. -/
theorem movCr4With_completes (h : s.mode ≠ .nonRoot ∨ s.vmcs.exitOnMovCr4 = false)
    (hload : pdpteLoad c (Ctx.start (s.withCr4 (s.regOperand r))) = .ok report x) :
    ∃ kept n, movCr4With c r s = .next { x.st with cache := kept, freeCtr := n, report := report } ∧ kept.Sublist s.cache ∧
      ∀ k ∈ kept, k.isLinearOrCombined = true → k.hasVpid s.currentVpid = false := by
  obtain ⟨kept, n, heq, hsub, hgone⟩ := movCr_of_load hload .all s
  refine ⟨kept, n, (if_neg (not_configured h)).trans heq, hsub, fun k hk hkind => ?_⟩
  simpa [tlbSelected] using hgone k hk hkind

end

theorem exec_movCr3 (s : State) (r : Reg) : exec (.movCr3 r) s = movCr3With Config.cfg r s := rfl
theorem exec_movCr4 (s : State) (r : Reg) : exec (.movCr4 r) s = movCr4With Config.cfg r s := rfl

/-- Settles O49: without the load `pdpteLoad` comes to the state with the register written, and the instruction completes with that. -/
theorem movCrCompletes : Obligations.MovCrCompletes := by
  refine ⟨fun s r => ⟨fun h hload => ?_, fun h hload => ?_⟩, fun s r => ⟨exec_movCr3 s r, exec_movCr4 s r⟩,
    fun c s r report x => ⟨fun h hload => ?_, fun h hload => ?_⟩⟩
  · exact movCr3With_completes h (pdpteLoad_of_not_loaded (pdpteLoaded_eq_false_iff.2 hload))
  · exact movCr4With_completes h (pdpteLoad_of_not_loaded (pdpteLoaded_eq_false_iff.2 hload))
  · obtain ⟨kept, n, heq, hsub, hgone⟩ := movCr3With_completes h hload
    obtain ⟨_, _, _, _, _, hst⟩ := pdpteLoad_ok_frame hload
    refine ⟨kept, n, heq, hsub, hgone, ?_⟩
    rw [hst]
    exact ⟨rfl, rfl, rfl, rfl, rfl⟩
  · obtain ⟨kept, n, heq, hsub, hgone⟩ := movCr4With_completes h hload
    obtain ⟨_, _, _, _, _, hst⟩ := pdpteLoad_ok_frame hload
    refine ⟨kept, n, heq, hsub, hgone, ?_⟩
    rw [hst]
    exact ⟨rfl, rfl, rfl, rfl, rfl⟩

/-! The instructions where they end in a VM exit. -/

/-- A VM exit for an event has led from `s` to `t`: mappings may go, the mode is root, RIP is a free value and the VM-exit fields are
written; memory and the writes to come may be as other agents have left them, and nothing else changes but the report and the count of free
values (R316, 92_eei_decisions.md D16). -/
def ExitedFrom (s t : State) (e : Event) : Prop :=
  ∃ kept n rip vmcs mem agents, kept.Sublist s.cache ∧ vmcs.controls = s.vmcs.controls ∧ vmcs.pmlIndex = s.vmcs.pmlIndex ∧
    (s.agents = [] → mem = s.mem) ∧
    t = { s with cache := kept, mode := .root, rip := rip, vmcs := vmcs, mem := mem, agents := agents, freeCtr := n, report := .exit e }

/-- The VM-exit fields are no controls. -/
theorem recordExit_controls (c : Cfg) (e : Event) (s : State) : (recordExit c e s).vmcs.controls = s.vmcs.controls := rfl

theorem recordExit_pmlIndex (c : Cfg) (e : Event) (s : State) : (recordExit c e s).vmcs.pmlIndex = s.vmcs.pmlIndex := rfl

/-- What is taken and then reported as a VM exit is one, of the same event. -/
theorem exits_of_deliver_report {c : Cfg} {s : State} {e e' : Event} (h : (deliver c e s).report = .exit e') :
    e.exits s = true ∧ e = e' := by
  cases hexits : e.exits s with
  | false =>
    rw [deliver_exception hexits] at h
    cases h
  | true =>
    obtain ⟨_, _, _, -, -, -, heq⟩ := deliver_exit hexits c
    rw [heq] at h
    cases h
    exact ⟨rfl, rfl⟩

/-- An event taken as a VM exit in the state before an access, with what other agents have written meanwhile (D12, D28). -/
theorem exitedFrom_deliver_meanwhile {c : Cfg} {s : State} {x : Ctx} {e e' : Event} (hforeign : s.agents = [] → x.foreign = [])
    (h : (deliver c e (s.meanwhile x)).report = .exit e') : ExitedFrom s (deliver c e (s.meanwhile x)) e' := by
  obtain ⟨hexits, rfl⟩ := exits_of_deliver_report h
  obtain ⟨kept, n, rip, hsub, -, -, heq⟩ := deliver_exit hexits c
  refine ⟨kept, n, rip, (recordExit c e (s.meanwhile x)).vmcs, s.mem.writeAll x.foreign, x.st.agents, hsub, recordExit_controls c e _,
    recordExit_pmlIndex c e _, fun hagents => ?_, heq⟩
  rw [hforeign hagents]
  rfl

/-- An event taken as a VM exit in a state: nothing has been accessed before. -/
theorem exitedFrom_deliver {c : Cfg} {s : State} {e e' : Event} (h : (deliver c e s).report = .exit e') :
    ExitedFrom s (deliver c e s) e' :=
  exitedFrom_deliver_meanwhile (x := Ctx.start s) (fun _ => rfl) h

/-- A load that comes to its end reports no VM exit. -/
theorem pdpteLoad_ok_report {c : Cfg} {x z : Ctx} {report : Report} (h : pdpteLoad c x = .ok report z) (e : Event) :
    report ≠ .exit e := by
  rcases pdpteLoad_eq_ok h with ⟨rfl, -⟩ | ⟨_, _, -, rfl, -⟩ <;> exact nofun

/-- R89, D28: the only VM exit of the shared part is that of an event of the PDPTE load, taken with the register not written. -/
theorem movCr_exitedFrom {c : Cfg} (hc : c.speculativeAccessedSet = false) {op : TlbOp} {s s1 t : State} {e : Event}
    (hagents : s1.agents = s.agents) (h : movCr c op s s1 = .next t) (hreport : t.report = .exit e) : ExitedFrom s t e := by
  rcases Res.outcome_eq_next.1 h with ⟨report, x, hload, ht⟩ | ⟨e', x, hload, rfl⟩
  · cases ht
    exact absurd hreport (pdpteLoad_ok_report hload e)
  · rw [rollback_eq_meanwhile hc] at hreport ⊢
    obtain ⟨⟨k, -, hforeign⟩, -⟩ := (pdpteLoad_raised_kept hload).meanwhile
    exact exitedFrom_deliver_meanwhile (fun h0 => by rw [hforeign, hagents, h0, List.take_nil, List.flatten_nil]) hreport

/-- MOV to a control register, or the VM exit that takes its place where the VMM configured one (R301). -/
theorem movCr_or_exit_exitedFrom {c : Cfg} (hc : c.speculativeAccessedSet = false) {op : TlbOp} {s s1 t : State} {configured : Bool}
    {i : ExitInstr} {e : Event} (hagents : s1.agents = s.agents)
    (h : (if configured then .next (deliver c (.instr i) s) else movCr c op s s1) = .next t) (hreport : t.report = .exit e) :
    ExitedFrom s t e := by
  split at h
  · cases h
    exact exitedFrom_deliver hreport
  · exact movCr_exitedFrom hc hagents h hreport

/-- Settles O51: the state after either VM exit is one that `ExitedFrom` says. -/
theorem movCrExitKeepsRegisters : Obligations.MovCrExitKeepsRegisters := by
  refine ⟨fun s r => ⟨exec_movCr3 s r, exec_movCr4 s r⟩, Config.cfg_speculativeAccessedSet, fun c s t r e hc h hreport => ?_⟩
  obtain ⟨kept, n, rip, vmcs, mem, agents, hsub, hcontrols, hpml, hmem, rfl⟩ : ExitedFrom s t e :=
    h.elim (fun h => movCr_or_exit_exitedFrom (s1 := s.withCr3 (s.regOperand r)) hc rfl h hreport)
      fun h => movCr_or_exit_exitedFrom (s1 := s.withCr4 (s.regOperand r)) hc rfl h hreport
  exact ⟨rfl, rfl, rfl, rfl, rfl, rfl, rfl, rfl, rfl, rfl, rfl, rfl, hcontrols, hpml, hmem, hsub, rfl⟩

end Sys2Proof.Machine
end

section
/-! PROOFS. Which right an access needs, and the permission check (42_ept_vmexits.md R112 to R120, 44_ept_ad_pml.md R172, 60_exceptions.md
R312). -/

namespace Sys2Proof.Machine

open Sys2Proof

/-- R114: mode-based execute control has bit 10 decide for a user-mode address. -/
theorem fetchAllowed_eq (s : State) (r : Rights) (user : Bool) :
    fetchAllowed s r user = if s.vmcs.modeBasedExec = true ∧ user = true then r.xu else r.x := by
  cases hmode : s.vmcs.modeBasedExec <;> cases user <;> simp [fetchAllowed, hmode]

/-- Settles O20: `eptAllowed` goes by the kind that an access is checked as. -/
theorem permissionRule : Obligations.PermissionRule := by
  intro s r acc
  refine ⟨?_, fun hread => ?_, fun hwrite => ?_, fun hfetch => ?_⟩
  · simp [effKind, State.eptAd]
  · simp [eptAllowed, hread]
  · simp [eptAllowed, hwrite]
  · simp [eptAllowed, hfetch, fetchAllowed_eq]

/-! The check after a translation (R116 step 2). -/

theorem gpaOk_eq_true {gpa : Word} (h : gpa >>> 48 = 0#64) : gpaOk gpa = true := beq_iff_eq.2 h

/-- R120: what comes after the translation of a guest-physical address. -/
theorem guestPhysAccess_of_translate {c : Cfg} {acc : GAccess} {gpa : Word} {x y : Ctx} {w : Walk} (hgpa : gpa >>> 48 = 0#64)
    (h : eptTranslate c acc gpa x = .ok w y) :
    guestPhysAccess c acc gpa x = (eptGrant c acc gpa w y).bind fun pa z => .ok ⟨pa, some w.leaf⟩ z := by
  rw [guestPhysAccess, gpaOk_eq_true hgpa, h]
  rfl

/-- R312: a translation to the APIC-access page that is not stale raises the event. -/
theorem apicTest_hit {c : Cfg} {sources : List Mapping} {pa : Word} {x : Ctx} (hhit : apicHit x.st pa = true)
    (hstale : apicStale x.st sources = false) : apicTest c sources pa x = .raised (.apicAccess pa) x := by
  simp [apicTest, hhit, hstale]

/-- The APIC-access event of an allowed access comes before the flags (log 15). -/
theorem eptGrant_apicHit {c : Cfg} {acc : GAccess} {gpa : Word} {w : Walk} {x : Ctx} (hallowed : eptAllowed x.st w.rights acc = true)
    (hhit : apicHit x.st w.pa = true) (hstale : apicStale x.st w.sources = false) :
    eptGrant c acc gpa w x = .raised (.apicAccess w.pa) x := by
  simp [eptGrant, hallowed, apicTest_hit hhit hstale]

/-- Settles O21: past the translation an access is `eptGrant`, case by case. -/
theorem permissionCheck : Obligations.PermissionCheck := by
  intro c acc gpa x y w hgpa htranslate
  rw [guestPhysAccess_of_translate hgpa htranslate]
  refine ⟨fun hallowed hspp => ?_, fun hallowed had hapic => ?_, fun hallowed had hapic => ?_, fun hallowed hhit hstale => ?_⟩
  · rw [eptGrant_denied hallowed hspp]
    rfl
  · rw [eptGrant_allowed hallowed hapic, eptPerform_noFlags had]
    rfl
  · rw [eptGrant_allowed hallowed hapic, eptPerform, if_pos had, Res.bind_assoc]
    rfl
  · rw [eptGrant_apicHit hallowed hhit hstale]
    rfl

end Sys2Proof.Machine
end

section
/-! PROOFS. The guest walk: the order of its events, and where it comes to (42_ept_vmexits.md R124, 45_ept_memtype.md R202). -/

namespace Sys2Proof.Machine

open Sys2Proof

/-! One guest entry. -/

section
variable {c : Cfg} {kind : AccKind} {la table : Word} {es : List GuestEntry} {level : Nat} {x y : Ctx}

/-- The event of the access to an entry comes before what the entry holds. -/
theorem guestEntry_raised {e : Event}
    (h : addressAccess c (pswalkAccess .dataRead (guestEntrySize c x.st) la)
      (table + (c.guest.entryOffset x.st.guestRegs level la).setWidth 64) x = .raised e y) :
    guestEntry c kind la es level table none x = .raised e y := by
  rw [guestEntry, h]
  rfl

/-- An entry that is accessed is read from memory as it stands where no other agent writes, and then tested. -/
theorem guestEntry_accessed {g : Granted} {entry : Word}
    (hentry : entry = table + (c.guest.entryOffset x.st.guestRegs level la).setWidth 64)
    (h : addressAccess c (pswalkAccess .dataRead (guestEntrySize c x.st) la) entry x = .ok g y) (hagents : y.st.agents = [])
    (hrange : inRange c g.pa.toNat (guestEntrySize c x.st) = true) {value : Word}
    (hvalue : value = wordOfBytes (y.st.mem.readBytes g.pa.toNat (guestEntrySize c x.st))) :
    guestEntry c kind la es level table none x =
      if c.guest.notPresentOrReserved y.st.guestRegs level value = true then
        .raised (.pageFault la (c.guest.faultCode y.st.guestRegs (es ++ [⟨entry, value⟩]) kind)) (y.note (typedAccess c y.st entry g es))
      else .ok ⟨entry, value⟩ (y.note (typedAccess c y.st entry g es)) := by
  subst hentry hvalue
  rw [guestEntry]
  dsimp only
  rw [h, Res.bind_ok, physRead_nil (x := y.note _) hagents hrange, Res.bind_ok]
  rfl

end

/-! A walk through entries of which all but the last reference a table. -/

/-- A walk that reads the entries of a path comes to what `GuestPaging` gives for the last, `ge`; the guest's registers stay as they are. -/
theorem guestWalkFrom_guestPath {c : Cfg} {kind : AccKind} {la : Word} {ge : GuestEntry} {ges es : List GuestEntry} {n level : Nat}
    {table : Word} {x z : Ctx} (hpath : guestPath c kind la (ges ++ [ge]) n table es x z) (hlevel : level = n - ges.length + 1) :
    guestWalkFrom c kind la n table es x =
      .ok ⟨es ++ (ges ++ [ge]), c.guest.finalGpa x.st.guestRegs level ge.value la, c.guest.regionBits x.st.guestRegs level⟩ z := by
  induction ges generalizing n table es x with
  | nil =>
    obtain ⟨y, hentry, ⟨-, hlast, rfl⟩ | ⟨k, -, -, hnone⟩⟩ := hpath
    · have hregs : z.st.guestRegs = x.st.guestRegs := ((guestEntry_keeps ..).kept_of_ok hentry).guestRegs
      subst hlevel
      rw [guestWalkFrom, hentry, Res.bind_ok, hregs]
      cases n with
      | zero => rfl
      | succ k => simp [← hregs, hlast.resolve_left (Nat.succ_ne_zero k)]
    · exact hnone.elim
  | cons g ges ih =>
    obtain ⟨y, hentry, ⟨hnil, -⟩ | ⟨k, rfl, href, hrest⟩⟩ := hpath
    · simp at hnil
    · have hregs : y.st.guestRegs = x.st.guestRegs := ((guestEntry_keeps ..).kept_of_ok hentry).guestRegs
      rw [guestWalkFrom, hentry, Res.bind_ok]
      dsimp only
      rw [if_pos href, ih hrest (by rw [hlevel, List.length_cons, Nat.add_sub_add_right]), hregs]
      simp

/-! The guest's rights and flags, and the access to the final address. -/

/-- Entries of which no value changes are not updated. -/
theorem guestSetFlags_of_same {c : Cfg} {la : Word} {l : List (GuestEntry × Word)} (h : ∀ q ∈ l, q.1.value = q.2) (es : List GuestEntry)
    (x : Ctx) : guestSetFlags c la es l x = .ok () x := by
  induction l generalizing es with
  | nil => rfl
  | cons q l ih =>
    rw [guestSetFlags, if_pos (h q (by simp))]
    exact ih (fun q hq => h q (by simp [hq])) _

/-- An access that the guest's entries allow is, after they are set, performed at what the final address translates to. -/
theorem accessAfterWalk_performed {c : Cfg} {p : Part} {gw : GuestWalk} {x y z : Ctx} {g : Granted}
    (hallowed : c.guest.allowed x.st.guestRegs gw.entries p.kind = true)
    (hset : guestSetFlags c p.la [] (gw.entries.zip (c.guest.flagged x.st.guestRegs gw.entries p.kind)) x = .ok () y)
    (haccess : addressAccess c (p.gaccess (userAddress c y.st gw.entries)) gw.gpa y = .ok g z) :
    ∃ d, accessAfterWalk c p gw x = .ok d z ∧ d.la = p.la ∧ d.pa = g.pa ∧ d.size = p.size ∧
      (g.leaf.isSome = true → d.gpa = some gw.gpa) := by
  rw [accessAfterWalk, guestPermit, if_neg (by simp [hallowed]), hset, Res.bind_ok, haccess, Res.bind_ok]
  refine ⟨_, rfl, ?_⟩
  cases g.leaf <;> simp [eptPart, plainPart]

/-- Settles O27: each clause is what one stage of the walk does. -/
theorem guestWalkOrder : Obligations.GuestWalkOrder := by
  refine ⟨fun c kind la table es level x y e h => guestEntry_raised h, ?_, ?_, ?_, fun c la es l x h => guestSetFlags_of_same h es x, ?_⟩
  · intro c kind la table entry es level x y g value hentry haccess hagents hrange hvalue
    exact ⟨y.note (typedAccess c y.st entry g es), rfl, rfl, guestEntry_accessed hentry haccess hagents hrange hvalue⟩
  · intro c p gw x hdenied
    rw [accessAfterWalk, guestPermit_denied hdenied]
    rfl
  · intro c kind la x z ges ge level hpath hlevel
    exact guestWalkFrom_guestPath hpath hlevel
  · intro c p gw x y z g hallowed hset haccess
    exact accessAfterWalk_performed hallowed hset haccess

end Sys2Proof.Machine
end

section
/-! PROOFS. Accesses where linear addresses are physical (42_ept_vmexits.md R125, 20_memory.md R44, 10_state.md R27). -/

namespace Sys2Proof.Machine

open Sys2Proof

/-- An access that comes to its end: the state it has come to, with what is reported. -/
theorem runInput_access_ok {c : Cfg} {a : Access} {s : State} {parts : List PartDone} {bytes : List Byte} {x : Ctx}
    (h : linearAccess c a (Ctx.start s) = .ok (parts, bytes) x) :
    runInput c (.access a) s = .next (x.st.withReport (.access parts bytes)) := by
  rw [runInput, runAccess, h, Res.outcome]

/-- The parts of a write, checked and then performed. -/
theorem linearAccess_write {c : Cfg} {bs : List Byte} {la : Word} {o : Origin} {x y z : Ctx} {ds : List PartDone}
    (hparts : accessParts c (Access.parts c x.st ⟨.write bs, la, o⟩) x = .ok ds y) (hwrite : writeParts c ds bs y = .ok () z) :
    linearAccess c ⟨.write bs, la, o⟩ x = .ok (ds, []) z := by
  simp [linearAccess, hparts, hwrite]

/-- The parts of a read, checked and then performed. -/
theorem linearAccess_read {c : Cfg} {n : Nat} {la : Word} {o : Origin} {x y z : Ctx} {ds : List PartDone} {bs : List Byte}
    (hparts : accessParts c (Access.parts c x.st ⟨.read n, la, o⟩) x = .ok ds y) (hread : readParts c ds y = .ok bs z) :
    linearAccess c ⟨.read n, la, o⟩ x = .ok (ds, bs) z := by
  simp [linearAccess, hparts, hread]

/-- With no other agent's write to come, bytes that exist are written to memory as it stands. -/
theorem physWrite_nil {c : Cfg} {x : Ctx} {pa : Word} {bs : List Byte} (hagents : x.st.agents = [])
    (hrange : inRange c pa.toNat bs.length = true) :
    physWrite c x pa bs = .ok () (x.mapSt fun s => s.withMem (s.mem.writeBytes pa.toNat bs)) :=
  physWrite_eq_ok.2 ⟨by rw [accessOk_nil hagents]; exact hrange, by rw [Ctx.interleave_nil hagents]⟩

/-! The parts of an access, one for each page (R44). -/

section
variable {c : Cfg} {s : State} {fuel size : Nat} {la : Word}

/-- Bytes within one page are one part. -/
theorem pageParts_page (hfuel : 0 < fuel) (hpos : 0 < size) (hpage : la.toNat % 4096 + size ≤ 4096) :
    pageParts c s fuel la size = [(la, size)] := by
  obtain ⟨fuel, rfl⟩ := Nat.exists_eq_succ_of_ne_zero (Nat.ne_of_gt hfuel)
  have hroom : size ≤ 4096 - la.toNat % 4096 := by omega
  rw [pageParts, toNat_low12]
  simp [hroom, Nat.ne_of_gt hpos]

/-- Bytes that go past the page: those up to its end, and then the parts of the rest. -/
theorem pageParts_past (hpage : 4096 < la.toNat % 4096 + size) :
    pageParts c s (fuel + 1) la size =
      (la, 4096 - la.toNat % 4096) ::
        pageParts c s fuel (s.byteAt c la (4096 - la.toNat % 4096)) (size - (4096 - la.toNat % 4096)) := by
  have hlt := Nat.mod_lt la.toNat (show 4096 > 0 by omega)
  rw [pageParts, toNat_low12, if_neg (by omega), if_neg (by omega), State.byteAt]

end

/-! The bytes at a linear address in memory. -/

/-- Linear addresses are at least 32 bits wide (R27), so the low 32 bits of a sum are not lost. -/
theorem State.byteAt_toNat_low (c : Cfg) (s : State) (la : Word) (i : Nat) :
    (s.byteAt c la i).toNat % 2 ^ 32 = (la.toNat + i) % 2 ^ 32 := by
  have hsum : (la + BitVec.ofNat 64 i).toNat % 2 ^ 32 = (la.toNat + i) % 2 ^ 32 := by
    rw [BitVec.toNat_add, BitVec.toNat_ofNat]
    omega
  rw [State.byteAt, State.linWrap]
  split
  · exact hsum
  · rw [toNat_low32, Nat.mod_mod, hsum]

/-- Bytes less than 2^32 apart stand at different addresses, also where the last linear address is followed by the first (log 13). -/
theorem State.byteAt_inj {c : Cfg} {s : State} {la : Word} {i j : Nat} (hi : i < 2 ^ 32) (hj : j < 2 ^ 32)
    (h : (s.byteAt c la i).toNat = (s.byteAt c la j).toNat) : i = j := by
  have hlow := s.byteAt_toNat_low c la i
  rw [h, s.byteAt_toNat_low c la j] at hlow
  omega

/-- From `m` to `m'` the bytes at a linear address have been replaced, and no other byte has. -/
def State.Replaced (c : Cfg) (s : State) (la : Word) (bs : List Byte) (m m' : Memory) : Prop :=
  (∀ i (h : i < bs.length), m'.read (s.byteAt c la i).toNat = bs[i]) ∧
    ∀ b, (∀ i, i < bs.length → b ≠ (s.byteAt c la i).toNat) → m'.read b = m.read b

section
variable {c : Cfg} {s : State} {la : Word} {m m' m'' : Memory}

theorem State.Replaced.nil : s.Replaced c la [] m m :=
  ⟨fun _ h => absurd h (Nat.not_lt_zero _), fun _ _ => rfl⟩

/-- Bytes within one page are written to memory from their linear address on. -/
theorem State.Replaced.page {bs : List Byte} (hm : m.wf = true) (hl : s.linWrap c la = la) (hpage : la.toNat % 4096 + bs.length ≤ 4096) :
    s.Replaced c la bs m (m.writeBytes la.toNat bs) := by
  have haddr : ∀ i, i < bs.length → (s.byteAt c la i).toNat = la.toNat + i := fun i hi => State.byteAt_page hl (by omega)
  refine ⟨fun i hi => ?_, fun b hb => Memory.read_writeBytes_outside hm ?_⟩
  · rw [haddr i hi, Memory.read_writeBytes_inside hm hi]
  · by_contra hinside
    have hi : b - la.toNat < bs.length := by omega
    exact hb _ hi (by rw [haddr _ hi]; omega)

/-- Bytes replaced in two goes. -/
theorem State.Replaced.append {bs bs' : List Byte} (h : s.Replaced c la bs m m')
    (h' : s.Replaced c (s.byteAt c la bs.length) bs' m' m'') (hlen : (bs ++ bs').length ≤ 2 ^ 32) :
    s.Replaced c la (bs ++ bs') m m'' := by
  obtain ⟨hin, hout⟩ := h
  obtain ⟨hin', hout'⟩ := h'
  simp only [State.byteAt_byteAt] at hin' hout'
  rw [List.length_append] at hlen
  refine ⟨fun i hi => ?_, fun b hb => ?_⟩
  · rw [List.length_append] at hi
    by_cases hfirst : i < bs.length
    · have hapart : ∀ j, j < bs'.length → (s.byteAt c la i).toNat ≠ (s.byteAt c la (bs.length + j)).toNat := fun j hj heq => by
        have := State.byteAt_inj (by omega) (by omega) heq
        omega
      rw [List.getElem_append_left hfirst, hout' _ hapart, hin i hfirst]
    · have hsecond := hin' (i - bs.length) (by omega)
      rw [Nat.add_sub_cancel' (by omega)] at hsecond
      rw [List.getElem_append_right (by omega), hsecond]
  · rw [List.length_append] at hb
    rw [hout' b fun j hj => hb _ (by omega), hout b fun j hj => hb j (by omega)]

end

/-- The bytes of a page exist where each of them does. -/
theorem inRange_of_flatInRange {c : Cfg} {s : State} {la : Word} {n k : Nat} (hr : flatInRange c s la n) (hl : s.linWrap c la = la)
    (hk : k ≤ n) (hpos : 0 < k) (hpage : la.toNat % 4096 + k ≤ 4096) : inRange c la.toNat k = true := by
  have hlast := hr (k - 1) (by omega)
  rw [State.byteAt_page hl (by omega)] at hlast
  exact inRange_of_bytes hpos hlast

/-- The parts of a write are written page by page; `mk` says what else is reported of a part. -/
theorem writeParts_flat {c : Cfg} {s : State} {mk : Word × Nat → PartDone} (hmk : ∀ q, (mk q).pa = q.1 ∧ (mk q).size = q.2)
    {fuel : Nat} {la : Word} {bs : List Byte} {x : Ctx} (hagents : x.st.agents = []) (hm : x.st.mem.wf = true)
    (hl : s.linWrap c la = la) (hfuel : bs.length ≤ fuel) (hlen : bs.length ≤ 2 ^ 32) (hr : flatInRange c s la bs.length) :
    ∃ mem, writeParts c ((pageParts c s fuel la bs.length).map mk) bs x = .ok () (x.mapSt fun t => t.withMem mem) ∧
      s.Replaced c la bs x.st.mem mem := by
  induction fuel generalizing la bs x with
  | zero =>
    obtain rfl := List.eq_nil_of_length_eq_zero (Nat.le_zero.1 hfuel)
    exact ⟨x.st.mem, rfl, .nil⟩
  | succ fuel ih =>
    rcases Nat.eq_zero_or_pos bs.length with hzero | hpos
    · obtain rfl := List.eq_nil_of_length_eq_zero hzero
      exact ⟨x.st.mem, rfl, .nil⟩
    by_cases hpage : la.toNat % 4096 + bs.length ≤ 4096
    · obtain ⟨hpa, hsize⟩ := hmk (la, bs.length)
      have hwrite := physWrite_nil hagents (inRange_of_flatInRange hr hl le_rfl hpos hpage)
      refine ⟨_, ?_, .page hm hl hpage⟩
      rw [pageParts_page (Nat.succ_pos fuel) hpos hpage, List.map_singleton, writeParts, hpa, hsize, List.take_length, hwrite]
      rfl
    · rw [pageParts_past (by omega)]
      have hlt := Nat.mod_lt la.toNat (show 4096 > 0 by omega)
      generalize hroom : 4096 - la.toNat % 4096 = room
      obtain ⟨hpa, hsize⟩ := hmk (la, room)
      have htake : (bs.take room).length = room := List.length_take_of_le (by omega)
      have hpage' : la.toNat % 4096 + (bs.take room).length ≤ 4096 := by omega
      have hwrite := physWrite_nil (bs := bs.take room) hagents
        (inRange_of_flatInRange hr hl (by omega) (by omega) hpage')
      have hr' : flatInRange c s (s.byteAt c la room) (bs.drop room).length := fun i hi => by
        rw [List.length_drop] at hi
        rw [State.byteAt_byteAt]
        exact hr _ (by omega)
      have hlen' : (bs.drop room).length ≤ bs.length := by simp
      obtain ⟨mem, hrest, hreplaced⟩ := ih (x := x.mapSt fun t => t.withMem (t.mem.writeBytes la.toNat (bs.take room))) hagents
        (Memory.wf_writeBytes hm _ _) (s.linWrap_byteAt c la room) (by rw [List.length_drop]; omega) (hlen'.trans hlen) hr'
      refine ⟨mem, ?_, ?_⟩
      · rw [List.length_drop] at hrest
        rw [List.map_cons, writeParts, hpa, hsize, hwrite, Res.bind_ok, hrest]
        rfl
      · have h := (State.Replaced.page hm hl hpage').append (by rw [htake]; exact hreplaced) (by rwa [List.take_append_drop])
        rwa [List.take_append_drop] at h

/-- A write where linear addresses are physical (R125). -/
theorem linearAccess_flat_write {c : Cfg} {s : State} (h : s.Flat) {la : Word} {bs : List Byte} (hr : flatInRange c s la bs.length)
    (hlen : bs.length ≤ 2 ^ 32) (hm : s.mem.wf = true) (o : Origin) :
    ∃ mem parts, linearAccess c ⟨.write bs, la, o⟩ (Ctx.start s) = .ok (parts, []) (Ctx.start (s.withMem mem)) ∧
      s.Replaced c la bs s.mem mem := by
  obtain ⟨-, -, hagents⟩ := id h
  have hr' : flatInRange c s (s.linWrap c la) bs.length := fun i hi => by
    rw [State.byteAt_linWrap]
    exact hr i hi
  obtain ⟨mem, hwrite, hreplaced⟩ :=
    writeParts_flat (x := Ctx.start s)
      (mk := fun q => plainPart ⟨.dataWrite, q.1, q.2, decide (1 < (pageParts c s bs.length (s.linWrap c la) bs.length).length), o⟩ q.1 none)
      (fun _ => ⟨rfl, rfl⟩) hagents hm (s.linWrap_linWrap c la) le_rfl hlen hr'
  refine ⟨mem, _, linearAccess_write (accessParts_flat (x := Ctx.start s) h rfl _) ?_, ?_⟩
  · rw [Access.parts, List.map_map]
    exact hwrite
  · simpa [State.Replaced, State.byteAt_linWrap] using hreplaced

/-- Settles O23: what the access comes to is `linearAccess_flat` and `linearAccess_flat_write`. -/
theorem flatAccess : Obligations.FlatAccess := by
  intro c s la o hflat
  refine ⟨fun n hr => ⟨?_, ?_⟩, fun bs hr hlen hm => ?_⟩
  · obtain ⟨parts, hread⟩ := linearAccess_flat hflat hr o (.inl rfl)
    exact ⟨parts, runInput_access_ok hread⟩
  · obtain ⟨parts, hread⟩ := linearAccess_flat hflat hr o (.inr rfl)
    exact ⟨parts, runInput_access_ok hread⟩
  · obtain ⟨mem, parts, hwrite, hreplaced⟩ := linearAccess_flat_write hflat hr hlen hm o
    exact ⟨mem, parts, runInput_access_ok hwrite, hreplaced⟩

end Sys2Proof.Machine
end

section
/-! PROOFS. Accessed and dirty flags in memory, byte by byte and bit by bit (20_memory.md R41, R45, 44_ept_ad_pml.md R173, R174). -/

namespace Sys2Proof.Machine

open Sys2Proof

/-- A bit of a word read from memory is a bit of one of its bytes (R41). -/
theorem getLsbD_wordOfBytes_readBytes (m : Memory) (a n j : Nat) :
    (wordOfBytes (m.readBytes a n)).getLsbD j =
      (decide (j < 8 * n) && decide (j < 64) && (m.read (a + j / 8)).getLsbD (j % 8)) := by
  induction n generalizing a j with
  | zero => simp [Memory.readBytes, wordOfBytes]
  | succ n ih =>
    rw [Memory.readBytes, wordOfBytes, BitVec.getLsbD_or, BitVec.getLsbD_shiftLeft, BitVec.getLsbD_setWidth]
    by_cases hbyte : j < 8
    · have hlow : j / 8 = 0 ∧ j % 8 = j ∧ j < 8 * (n + 1) := by omega
      obtain ⟨hdiv, hmod, hlt⟩ := hlow
      simp [hbyte, hdiv, hmod, hlt]
    · have hnext : a + 1 + (j - 8) / 8 = a + j / 8 ∧ (j - 8) % 8 = j % 8 := by omega
      have hlt : (j - 8 < 8 * n) = (j < 8 * (n + 1)) := propext (by omega)
      have hhigh : (m.read a).getLsbD j = false := BitVec.getLsbD_of_ge _ j (by omega)
      obtain ⟨haddr, hmod⟩ := hnext
      simp only [ih, haddr, hmod, hlt, hhigh]
      by_cases h64 : j < 64
      · have : j - 8 < 64 := by omega
        simp [hbyte, h64, this]
      · simp [h64]

theorem Memory.getLsbD_read64 (m : Memory) (a : Nat) {j : Nat} (hj : j < 64) :
    (m.read64 a).getLsbD j = (m.read (a + j / 8)).getLsbD (j % 8) := by
  rw [Memory.read64, getLsbD_wordOfBytes_readBytes]
  simp [hj]

/-- A byte of an entry that is read. -/
theorem Memory.extractLsb'_read64 (m : Memory) (a : Nat) {i : Nat} (hi : i < 8) : (m.read64 a).extractLsb' (8 * i) 8 = m.read (a + i) := by
  refine BitVec.eq_of_getLsbD_eq fun j hj => ?_
  have hbyte : (8 * i + j) / 8 = i ∧ (8 * i + j) % 8 = j := by omega
  obtain ⟨hdiv, hmod⟩ := hbyte
  rw [BitVec.getLsbD_extractLsb', m.getLsbD_read64 a (by omega), hdiv, hmod]
  simp [hj]

/-- Bits set in an entry are set in its bytes, and in no other byte of memory. -/
theorem Memory.read_write64_or {m : Memory} (hm : m.wf = true) (a : Nat) (v : Word) (b : Nat) :
    (m.write64 a (m.read64 a ||| v)).read b = m.read b ||| if a ≤ b ∧ b < a + 8 then v.extractLsb' (8 * (b - a)) 8 else 0#8 := by
  split
  · next h =>
    obtain ⟨i, rfl⟩ := Nat.exists_eq_add_of_le h.1
    rw [Memory.read_write64_inside hm a _ (show i < 8 by omega), BitVec.extractLsb'_or, m.extractLsb'_read64 a (by omega),
      Nat.add_sub_cancel_left]
  · next h =>
    rw [Memory.read_write64_outside hm _ (by unfold outside; omega), BitVec.or_zero]

/-! What updates of flags keep set. -/

/-- Every bit of memory that is set stays so from `m` to `m'`. -/
def Memory.KeepsSet (m m' : Memory) : Prop := ∀ b j, (m.read b).getLsbD j = true → (m'.read b).getLsbD j = true

theorem Memory.KeepsSet.refl (m : Memory) : m.KeepsSet m := fun _ _ => id

theorem Memory.KeepsSet.trans {m m' m'' : Memory} (h : m.KeepsSet m') (h' : m'.KeepsSet m'') : m.KeepsSet m'' :=
  fun b j hset => h' b j (h b j hset)

theorem Memory.KeepsSet.read64 {m m' : Memory} (h : m.KeepsSet m') {a j : Nat} (hj : j < 64) (hset : (m.read64 a).getLsbD j = true) :
    (m'.read64 a).getLsbD j = true := by
  rw [Memory.getLsbD_read64 _ a hj] at hset ⊢
  exact h _ _ hset

theorem Memory.keepsSet_write64_or {m : Memory} (hm : m.wf = true) (a : Nat) (v : Word) :
    m.KeepsSet (m.write64 a (m.read64 a ||| v)) := by
  intro b j hset
  rw [Memory.read_write64_or hm, BitVec.getLsbD_or, hset, Bool.true_or]

/-- With no other agent writing, a bit of an entry that exists is set in memory as it stands. -/
theorem setEntryBit_nil {c : Cfg} {x : Ctx} {ea : Word} (bit : Nat) (hagents : x.st.agents = []) (hrange : inRange c ea.toNat 8 = true) :
    setEntryBit c x ea bit =
      .ok () (x.mapSt fun s => s.withMem (x.st.mem.write64 ea.toNat (x.st.mem.read64 ea.toNat ||| (1#64 <<< bit)))) := by
  refine setEntryBit_eq_ok.2 ⟨by rw [accessOk_nil hagents]; exact hrange, ?_⟩
  simp only [Ctx.interleave_nil hagents, Ctx.mapSt]

/-- With no other agent writing, a bit of entries that exist is set in all of them, and no bit is cleared. -/
theorem setEntryBits_nil {c : Cfg} {bit : Nat} (hbit : bit < 64) {l : List Word} {x : Ctx} (hagents : x.st.agents = [])
    (hm : x.st.mem.wf = true) (hrange : ∀ ea ∈ l, inRange c ea.toNat 8 = true) :
    ∃ mem, setEntryBits c x bit l = .ok () (x.mapSt fun s => s.withMem mem) ∧ mem.wf = true ∧ x.st.mem.KeepsSet mem ∧
      ∀ ea ∈ l, (mem.read64 ea.toNat).getLsbD bit = true := by
  induction l generalizing x with
  | nil => exact ⟨x.st.mem, rfl, hm, .refl _, by simp⟩
  | cons ea l ih =>
    obtain ⟨hea, hl⟩ := List.forall_mem_cons.1 hrange
    generalize hm1 : x.st.mem.write64 ea.toNat (x.st.mem.read64 ea.toNat ||| (1#64 <<< bit)) = m1
    have hwf1 : m1.wf = true := hm1 ▸ Memory.wf_write64 hm _ _
    have hset : setEntryBit c x ea bit = .ok () (x.mapSt fun s => s.withMem m1) := hm1 ▸ setEntryBit_nil bit hagents hea
    have hbit1 : (m1.read64 ea.toNat).getLsbD bit = true := by
      rw [← hm1, Memory.read64_write64 hm]
      simp [hbit]
    obtain ⟨mem, hrest, hwf, hkeeps, hall⟩ := ih (x := x.mapSt fun s => s.withMem m1) hagents hwf1 hl
    refine ⟨mem, ?_, hwf, (hm1 ▸ Memory.keepsSet_write64_or hm _ _ : x.st.mem.KeepsSet m1).trans hkeeps, ?_⟩
    · rw [setEntryBits, hset, Res.bind_ok, hrest]
      rfl
    · exact List.forall_mem_cons.2 ⟨hkeeps.read64 hbit hbit1, hall⟩

/-- R181: with no other agent writing and the log off, the flags that must be set are set, and no bit of memory is cleared. -/
theorem eptUpdateFlags_noLog {c : Cfg} {w : Walk} {needA : List Word} {needD : Bool} {x : Ctx} (gpa : Word) (hagents : x.st.agents = [])
    (hm : x.st.mem.wf = true) (hlog : x.st.pmlOn = false) (hA : ∀ ea ∈ needA, inRange c ea.toNat 8 = true)
    (hD : inRange c w.leafAddr.toNat 8 = true) :
    ∃ mem, eptUpdateFlags c w gpa needA needD x = .ok () (x.mapSt fun s => s.withMem mem) ∧ mem.wf = true ∧ x.st.mem.KeepsSet mem ∧
      (∀ ea ∈ needA, (mem.read64 ea.toNat).getLsbD 8 = true) ∧ (needD = true → (mem.read64 w.leafAddr.toNat).getLsbD 9 = true) := by
  by_cases hnone : needA = [] ∧ ¬ needD = true
  · obtain ⟨rfl, hclean⟩ := id hnone
    exact ⟨x.st.mem, if_pos hnone, hm, .refl _, by simp, fun h => absurd h hclean⟩
  · have hdirty : ∀ ea ∈ (if needD then [w.leafAddr] else []), inRange c ea.toNat 8 = true := by
      cases needD <;> simp [hD]
    obtain ⟨m1, hset1, hwf1, hkeeps1, hall1⟩ := setEntryBits_nil (bit := 8) (by omega) hagents hm hA
    obtain ⟨m2, hset2, hwf2, hkeeps2, hall2⟩ :=
      setEntryBits_nil (bit := 9) (by omega) (x := x.mapSt fun s => s.withMem m1) hagents hwf1 hdirty
    refine ⟨m2, ?_, hwf2, hkeeps1.trans hkeeps2, fun ea hea => hkeeps2.read64 (by omega) (hall1 ea hea), fun h => hall2 _ (by simp [h])⟩
    rw [eptUpdateFlags, if_neg hnone, hlog, Bool.false_and, if_neg Bool.false_ne_true, hset1, Res.bind_ok, hset2, Res.bind_ok]
    exact if_neg (by simp)

theorem WalkEntry.accessedIn_of_not_cached {u : WalkEntry} (h : u.cached = false) (m : Memory) :
    u.accessedIn m = (m.read64 u.addr.toNat).getLsbD 8 := by
  rw [WalkEntry.accessedIn, h, if_neg Bool.false_ne_true]

theorem Walk.dirtyIn_of_not_cached {w : Walk} (h : w.leafCached = false) (m : Memory) :
    w.dirtyIn m = (m.read64 w.leafAddr.toNat).getLsbD 9 := by
  rw [Walk.dirtyIn, h, if_neg Bool.false_ne_true]

/-- The entries of a translation whose accessed flag is to be set (R181 `needA`). -/
def Walk.toAccess (m : Memory) (w : Walk) : List Word := (w.used.filter fun u => !u.accessedIn m).map (·.addr)

theorem Walk.mem_toAccess {m : Memory} {w : Walk} {ea : Word} :
    ea ∈ w.toAccess m ↔ ∃ u ∈ w.used, u.accessedIn m = false ∧ u.addr = ea := by
  simp [Walk.toAccess, and_assoc]

/-- An entry as a walk notes it, with no other agent writing: it stands in memory, where its accessed flag is as noted. -/
def WalkEntry.inMemory (c : Cfg) (s : State) (u : WalkEntry) : Prop :=
  u.cached = false ∧ inRange c u.addr.toNat 8 = true ∧ u.accessedIn s.mem = u.accessed

/-- R173, R174, R181: with no other agent writing and the log off, a write through a walk of memory leaves the accessed flags of its
entries and the dirty flag of the leaf entry set. -/
theorem eptSetAccessedDirty_write {c : Cfg} {w : Walk} {acc : GAccess} {x : Ctx} (gpa : Word) (hagents : x.st.agents = [])
    (hm : x.st.mem.wf = true) (hlog : x.st.pmlOn = false) (hkind : effKind x.st acc = .dataWrite)
    (hused : ∀ u ∈ w.used, u.inMemory c x.st) (hleaf : w.leafCached = false)
    (hleafRange : inRange c w.leafAddr.toNat 8 = true) :
    ∃ mem, eptSetAccessedDirty c w acc gpa x = .ok () (x.mapSt fun s => s.withMem mem) ∧ mem.wf = true ∧
      (∀ u ∈ w.used, (mem.read64 u.addr.toNat).getLsbD 8 = true) ∧ (mem.read64 w.leafAddr.toNat).getLsbD 9 = true := by
  have hrange : ∀ u ∈ w.used, inRange c u.addr.toNat 8 = true := fun u hu => by
    obtain ⟨-, hrange, -⟩ := hused u hu
    exact hrange
  have hneedA : needAccessed c w.used x = .ok (w.toAccess x.st.mem) x := needAccessed_nil hagents fun u hu _ => hrange u hu
  have hneedD := needDirty_nil (acc := acc) hagents fun _ => hleafRange
  rw [hkind] at hneedD
  have hrangeA : ∀ ea ∈ w.toAccess x.st.mem, inRange c ea.toNat 8 = true := fun ea hea => by
    obtain ⟨u, hu, -, rfl⟩ := Walk.mem_toAccess.1 hea
    exact hrange u hu
  obtain ⟨mem, hupdate, hwf, hkeeps, hA, hD⟩ :=
    eptUpdateFlags_noLog (needD := !w.dirtyIn x.st.mem) gpa hagents hm hlog hrangeA hleafRange
  refine ⟨mem, ?_, hwf, fun u hu => ?_, ?_⟩
  · rw [eptSetAccessedDirty, hneedA, Res.bind_ok, hneedD, Res.bind_ok]
    exact hupdate
  · cases hset : u.accessedIn x.st.mem with
    | true =>
      obtain ⟨hcached, -, -⟩ := hused u hu
      rw [WalkEntry.accessedIn_of_not_cached hcached] at hset
      exact hkeeps.read64 (by omega) hset
    | false => exact hA _ (Walk.mem_toAccess.2 ⟨u, hu, hset, rfl⟩)
  · cases hset : w.dirtyIn x.st.mem with
    | true =>
      rw [Walk.dirtyIn_of_not_cached hleaf] at hset
      exact hkeeps.read64 (by omega) hset
    | false => exact hD (by simp [hset])

end Sys2Proof.Machine
end

section
/-! PROOFS. A read or write by a guest without paging, within one page, through four good EPT entries (42_ept_vmexits.md R120, R123,
41_ept_translation.md R102, 44_ept_ad_pml.md R173, R174). -/

namespace Sys2Proof.Machine

open Sys2Proof

theorem Kept.agents_nil {c : Cfg} {x y : Ctx} (h : Kept c x y) (hagents : x.st.agents = []) : y.st.agents = [] := by
  obtain ⟨⟨_, _, _, _, hst, -⟩, -⟩ := h
  rw [hst, hagents]
  exact List.drop_nil

/-- R312: there is no APIC-access page without the control. -/
theorem apicHit_of_not_virtualized {s : State} (h : s.vmcs.virtualizeApic = false) (pa : Word) : apicHit s pa = false := by
  simp [apicHit, State.apicPage, h]

/-! An access that is one part. -/

/-- Bytes within one page are one part, which crosses nothing. -/
theorem Access.parts_page {c : Cfg} {s : State} {a : Access} (hwrap : s.linWrap c a.la = a.la) (hpos : 0 < a.op.size)
    (hpage : (a.la &&& 0xFFF#64).toNat + a.op.size ≤ 4096) : a.parts c s = [⟨a.op.kind, a.la, a.op.size, false, a.origin⟩] := by
  rw [toNat_low12] at hpage
  rw [Access.parts, hwrap, pageParts_page hpos hpos hpage]
  rfl

theorem accessParts_one {c : Cfg} {p : Part} {s : State} {d : PartDone} {z : Ctx} (h : accessPart c p (Ctx.start s) = .ok d z) :
    accessParts c [p] (Ctx.start s) = .ok [{ d with walk := z.typed }] z := by
  rw [accessParts, show { Ctx.start s with typed := [] } = Ctx.start s from rfl, h]
  rfl

section
variable {c : Cfg} {s : State} {la : Word} {o : Origin} {d : PartDone} {z : Ctx} (hwrap : s.linWrap c la = la)
  (hagents : z.st.agents = [])
include hwrap hagents

/-- A read within one page, whose part is performed at `d.pa`. -/
theorem runInput_read_page {n : Nat} (hpos : 0 < n) (hpage : (la &&& 0xFFF#64).toNat + n ≤ 4096)
    (haccess : accessPart c ⟨.dataRead, la, n, false, o⟩ (Ctx.start s) = .ok d z) (hsize : d.size = n)
    (hrange : inRange c d.pa.toNat n = true) :
    ∃ parts, runInput c (.access ⟨.read n, la, o⟩) s =
      .next { z.st with report := .access parts (z.st.mem.readBytes d.pa.toNat n) } := by
  have hparts := Access.parts_page (a := ⟨.read n, la, o⟩) hwrap hpos hpage
  have hread : readParts c [{ d with walk := z.typed }] z = .ok (z.st.mem.readBytes d.pa.toNat n) z := by
    rw [readParts_eq hagents _ (by simpa [hsize] using hrange)]
    simp [hsize]
  exact ⟨_, runInput_access_ok (linearAccess_read (by rw [Ctx.start_st, hparts]; exact accessParts_one haccess) hread)⟩

/-- A write within one page, whose part is performed at `d.pa`. -/
theorem runInput_write_page {bs : List Byte} (hpos : 0 < bs.length) (hpage : (la &&& 0xFFF#64).toNat + bs.length ≤ 4096)
    (haccess : accessPart c ⟨.dataWrite, la, bs.length, false, o⟩ (Ctx.start s) = .ok d z) (hsize : d.size = bs.length)
    (hrange : inRange c d.pa.toNat bs.length = true) :
    ∃ parts, runInput c (.access ⟨.write bs, la, o⟩) s =
      .next { z.st with mem := z.st.mem.writeBytes d.pa.toNat bs, report := .access parts [] } := by
  have hparts := Access.parts_page (a := ⟨.write bs, la, o⟩) hwrap hpos hpage
  have hwrite : writeParts c [{ d with walk := z.typed }] bs z =
      .ok () (z.mapSt fun t => t.withMem (t.mem.writeBytes d.pa.toNat bs)) := by
    rw [writeParts, hsize, List.take_length, physWrite_nil hagents hrange]
    rfl
  exact ⟨_, runInput_access_ok (linearAccess_write (by rw [Ctx.start_st, hparts]; exact accessParts_one haccess) hwrite)⟩

end

/-! The walk, and the entries it notes. -/

/-- What a walk through the entries `es` to the entry `e` of a level, which maps a page, comes to (R98, R102). -/
def leafWalk (s : State) (gpa : Word) (es : List Word) (level : Nat) (base e : Word) : Walk :=
  walkLeaf gpa level (base + 8#64 * gpaIndex gpa level) e ((es.foldl Rights.meet .full).meet e)
    (readEntries gpa 4 (tableBase s.vmcs.eptp) es ++ [readEntry gpa level base e])

theorem readEntry_inMemory {c : Cfg} {s : State} {gpa : Word} {level : Nat} {base e : Word} (h : entryIs c s gpa level base e) :
    (readEntry gpa level base e).inMemory c s := by
  obtain ⟨-, hrange, rfl⟩ := h
  exact ⟨rfl, hrange, WalkEntry.accessedIn_of_not_cached rfl _⟩

theorem readEntries_inMemory {c : Cfg} {s : State} {gpa : Word} {es : List Word} {level : Nat} {base t : Word}
    (h : eptPath c s gpa level base es t) : ∀ u ∈ readEntries gpa level base es, u.inMemory c s := by
  induction es generalizing level base with
  | nil => exact List.forall_mem_nil _
  | cons e es ih =>
    obtain ⟨hentry, -, hrest⟩ := h
    exact List.forall_mem_cons.2 ⟨readEntry_inMemory hentry, ih hrest⟩

section
variable {c : Cfg} {s : State} {gpa : Word} {es : List Word} {n : Nat} {base e : Word} (h : eptLeaf c s gpa es (n + 1) base e)
include h

theorem eptWalk_leafWalk (acc : GAccess) :
    ∃ y : Ctx, y.st = s ∧ eptWalk c acc gpa (Ctx.start s) = .ok (leafWalk s gpa es (n + 1) base e) y :=
  eptWalk_eptLeaf (x := Ctx.start s) acc h

theorem leafWalk_used_inMemory : ∀ u ∈ (leafWalk s gpa es (n + 1) base e).used, u.inMemory c s := by
  obtain ⟨-, hpath, hentry, -⟩ := h
  intro u hu
  rcases List.mem_append.1 hu with hu | hu
  · exact readEntries_inMemory hpath u hu
  · exact List.mem_singleton.1 hu ▸ readEntry_inMemory hentry

end

/-- The leaf entry is the last that the walk notes. -/
theorem leafWalk_leaf_mem (s : State) (gpa : Word) (es : List Word) (level : Nat) (base e : Word) :
    ∃ u ∈ (leafWalk s gpa es level base e).used, u.addr = (leafWalk s gpa es level base e).leafAddr :=
  ⟨readEntry gpa level base e, List.mem_append_right _ (List.mem_singleton_self _), rfl⟩

/-- The physical address in a 4-KByte page (R98). -/
theorem leafWalk_pa (s : State) (gpa : Word) (es : List Word) (base e : Word) :
    (leafWalk s gpa es 1 base e).pa = tableBase e ||| (gpa &&& 0xFFF#64) := by
  rw [leafWalk, walkLeaf, leafFrame_one]
  rfl

/-- Bytes written elsewhere leave an entry as it is. -/
theorem Memory.read64_writeBytes_outside {m : Memory} (hm : m.wf = true) {a k : Nat} {bs : List Byte}
    (h : a + 8 ≤ k ∨ k + bs.length ≤ a) : (m.writeBytes k bs).read64 a = m.read64 a := by
  rw [Memory.read64, Memory.read64, Memory.readBytes_eq_map, Memory.readBytes_eq_map]
  refine congrArg wordOfBytes (List.map_congr_left fun i hi => Memory.read_writeBytes_outside hm ?_)
  have := List.mem_range.1 hi
  omega

/-! The part, through EPT. -/

theorem effKind_gaccess (s : State) (p : Part) (user : Bool) : effKind s (p.gaccess user) = p.kind := rfl

/-- R172, R173, R181: with no flag to set, a read sets none. -/
theorem eptSetAccessedDirty_read {c : Cfg} {w : Walk} {acc : GAccess} {x : Ctx} (gpa : Word) (hagents : x.st.agents = [])
    (hkind : effKind x.st acc ≠ .dataWrite) (hused : ∀ u ∈ w.used, u.inMemory c x.st ∧ u.accessed = true) :
    eptSetAccessedDirty c w acc gpa x = .ok () x := by
  have hset : ∀ u ∈ w.used, u.accessedIn x.st.mem = true := fun u hu => by
    obtain ⟨⟨-, -, hnoted⟩, haccessed⟩ := hused u hu
    rw [hnoted, haccessed]
  have hrange : ∀ u ∈ w.used, u.cached = false → inRange c u.addr.toNat 8 = true := fun u hu _ => by
    obtain ⟨⟨-, hrange, -⟩, -⟩ := hused u hu
    exact hrange
  have hneedA : needAccessed c w.used x = .ok [] x := by
    rw [needAccessed_nil hagents hrange, List.filter_eq_nil_iff.2 fun u hu => by simp [hset u hu]]
    rfl
  rw [eptSetAccessedDirty, hneedA, Res.bind_ok, needDirty, if_neg hkind, Res.bind_ok, eptUpdateFlags]
  simp

section
variable {c : Cfg} {la : Word} {w : Walk} {y : Ctx} {o : Origin} (hept : y.st.eptInUse = true) (hpg : y.st.pg = false)
  (hcache : y.st.cache = []) (hapic : y.st.vmcs.virtualizeApic = false) (hla : la >>> 48 = 0#64) (hwrap : y.st.linWrap c la = la)
include hept hpg hcache hapic hla

/-- R120, R123: a part whose linear address is a guest-physical address, with nothing cached and no APIC-access page: once the walk of memory
has come to an end, with the state as it was, and allows the access, it is performed. -/
theorem accessPart_ept {p : Part} {z : Ctx} {pa : Word} (hp : p.la = la)
    (hwalk : eptWalk c (p.gaccess false) la (Ctx.start y.st) = .ok w y) (hallowed : eptAllowed y.st w.rights (p.gaccess false) = true)
    (hperform : eptPerform c (p.gaccess false) la w y = .ok pa z) :
    accessPart c p (Ctx.start y.st) = .ok (eptPart c z.st p la pa w.leaf []) z := by
  subst hp
  have htranslate : eptTranslate c (p.gaccess false) p.la (Ctx.start y.st) = .ok w y := by
    rw [eptTranslate_eq_walk (by simp [hcache]), hwalk]
  have hgrant : eptGrant c (p.gaccess false) p.la w y = .ok pa z := by
    rw [eptGrant_allowed hallowed (apicHit_of_not_virtualized hapic _), hperform]
  rw [accessPart_eq_walk (by simp [hcache]), if_neg (by simp [hpg]), accessUnpaged, addressAccess, Ctx.start_st, if_pos hept,
    guestPhysAccess_of_translate hla htranslate, hgrant]
  rfl

include hwrap

/-- A read that the rights allow, with no accessed flag to set. -/
theorem runInput_read_ept {n : Nat} (hpos : 0 < n) (hpage : (la &&& 0xFFF#64).toNat + n ≤ 4096) (hagents : y.st.agents = [])
    (hwalk : eptWalk c (Part.gaccess ⟨.dataRead, la, n, false, o⟩ false) la (Ctx.start y.st) = .ok w y)
    (hused : ∀ u ∈ w.used, u.inMemory c y.st) (hrange : inRange c w.pa.toNat n = true) (hallowed : w.rights.r = true)
    (hflags : y.st.eptAd = false ∨ ∀ u ∈ w.used, u.accessed = true) :
    ∃ parts, runInput c (.access ⟨.read n, la, o⟩) y.st =
      .next { y.st with report := .access parts (y.st.mem.readBytes w.pa.toNat n) } := by
  have hperform : eptPerform c (Part.gaccess ⟨.dataRead, la, n, false, o⟩ false) la w y = .ok w.pa y := by
    cases had : y.st.eptAd with
    | false => exact eptPerform_noFlags had
    | true =>
      have haccessed := hflags.resolve_left (by simp [had])
      exact eptPerform_flags had
        (eptSetAccessedDirty_read la hagents (by simp [effKind_gaccess]) fun u hu => ⟨hused u hu, haccessed u hu⟩)
  exact runInput_read_page hwrap hagents hpos hpage
    (accessPart_ept hept hpg hcache hapic hla rfl hwalk hallowed hperform) rfl hrange

/-- A write that the rights allow: without the flags of EPTP bit 6, with them after they have been set, and with the log off what those are. -/
theorem runInput_write_ept {bs : List Byte} (hpos : 0 < bs.length) (hpage : (la &&& 0xFFF#64).toNat + bs.length ≤ 4096)
    {acc : GAccess} (hacc : acc = Part.gaccess ⟨.dataWrite, la, bs.length, false, o⟩ false)
    (hwalk : eptWalk c acc la (Ctx.start y.st) = .ok w y) (hrange : inRange c w.pa.toNat bs.length = true)
    (hallowed : w.rights.w = true) {z : Ctx} (hz : z.st.agents = [])
    (hflags : (y.st.eptAd = false ∧ z = y) ∨ (y.st.eptAd = true ∧ eptSetAccessedDirty c w acc la y = .ok () z)) :
    ∃ parts, runInput c (.access ⟨.write bs, la, o⟩) y.st =
      .next { z.st with mem := z.st.mem.writeBytes w.pa.toNat bs, report := .access parts [] } := by
  subst hacc
  have hperform : eptPerform c (Part.gaccess ⟨.dataWrite, la, bs.length, false, o⟩ false) la w y = .ok w.pa z := by
    rcases hflags with ⟨had, rfl⟩ | ⟨had, hset⟩
    · exact eptPerform_noFlags had
    · exact eptPerform_flags had hset
  exact runInput_write_page hwrap hz hpos hpage
    (accessPart_ept hept hpg hcache hapic hla rfl hwalk hallowed hperform) rfl hrange

end

/-- R98, R102: what the walk through four good entries comes to, whatever access it is made for. -/
theorem eptWalk_fourEntries {c : Cfg} {s : State} {gpa e4 e3 e2 e : Word} (h : eptLeaf c s gpa [e4, e3, e2] 1 (tableBase e2) e) :
    ∃ w : Walk, (∀ acc, ∃ y : Ctx, y.st = s ∧ eptWalk c acc gpa (Ctx.start s) = .ok w y) ∧
      w.pa = tableBase e ||| (gpa &&& 0xFFF#64) ∧ w.rights = (((Rights.full.meet e4).meet e3).meet e2).meet e ∧
      w.used.map (·.accessed) = [e4.getLsbD 8, e3.getLsbD 8, e2.getLsbD 8, e.getLsbD 8] ∧ (∀ u ∈ w.used, u.inMemory c s) ∧
      w.leafAddr = tableBase e2 + 8#64 * gpaIndex gpa 1 ∧ w.leafCached = false ∧ ∃ u ∈ w.used, u.addr = w.leafAddr :=
  ⟨leafWalk s gpa [e4, e3, e2] 1 (tableBase e2) e, eptWalk_leafWalk (n := 0) h, leafWalk_pa _ _ _ _ _, rfl, rfl,
    leafWalk_used_inMemory (n := 0) h, rfl, rfl, leafWalk_leaf_mem _ _ _ _ _ _⟩

/-- Settles O24: the walk of the four entries allows the access, and what sets the flags decides the state that it ends in. -/
theorem guestAccessThroughEpt : Obligations.GuestAccessThroughEpt := by
  intro c s la n e4 e3 e2 e pa leafAddr hept hpg hcache hapic hla hwrap hpos hpage h4 ref4 h3 ref3 h2 ref2 h1 maps hpa hleafAddr hrange
  obtain ⟨w, hwalk, hwpa, hrights, haccessed, hused, hwleaf, hcached, u, hu, huaddr⟩ :=
    eptWalk_fourEntries ⟨rfl, ⟨h4, ref4, h3, ref3, h2, ref2, rfl⟩, h1, maps⟩
  obtain ⟨hagents, hleafRange, -⟩ := h1
  obtain rfl : w.pa = pa := hwpa.trans hpa.symm
  obtain rfl : w.leafAddr = leafAddr := hwleaf.trans hleafAddr.symm
  rw [← hleafAddr] at hleafRange
  refine ⟨fun r4 r3 r2 r1 hflags => ?_, fun bs o hlen w4 w3 w2 w1 => ?_⟩
  · obtain ⟨y, rfl, hwalk⟩ := hwalk (Part.gaccess ⟨.dataRead, la, n, false, .plain⟩ false)
    refine runInput_read_ept hept hpg hcache hapic hla hwrap hpos hpage hagents hwalk hused hrange ?_ (hflags.imp_right ?_)
    · simp [hrights, Rights.meet, Rights.full, r4, r3, r2, r1]
    · rintro ⟨f4, f3, f2, f1⟩ u hu
      have hmem := List.mem_map_of_mem (f := (·.accessed)) hu
      rw [haccessed, f4, f3, f2, f1] at hmem
      simpa using hmem
  · subst hlen
    obtain ⟨y, rfl, hwalk⟩ := hwalk (Part.gaccess ⟨.dataWrite, la, bs.length, false, o⟩ false)
    have hallowed : w.rights.w = true := by simp [hrights, Rights.meet, Rights.full, w4, w3, w2, w1]
    have hwritten {z : Ctx} (hz : z.st.agents = []) :=
      runInput_write_ept hept hpg hcache hapic hla hwrap hpos hpage rfl hwalk hrange hallowed hz
    refine ⟨fun had => hwritten hagents (.inl ⟨had, rfl⟩), ?_, fun had hlog hm => ?_⟩
    · rintro had _ w' y' z rfl hwalk' hset
      obtain ⟨rfl, rfl⟩ := Res.ok.inj (hwalk.symm.trans hwalk')
      exact hwritten (((eptSetAccessedDirty_keeps ..).kept_of_ok hset).agents_nil hagents) (.inr ⟨had, hset⟩)
    · obtain ⟨mem, hset, hwf, haccessed', hdirty⟩ := eptSetAccessedDirty_write la hagents hm hlog
        (effKind_gaccess y.st ⟨.dataWrite, la, bs.length, false, o⟩ false) hused hcached hleafRange
      obtain ⟨parts, hnext⟩ := hwritten (z := y.mapSt fun s => s.withMem mem) hagents (.inr ⟨had, hset⟩)
      refine ⟨_, parts, hnext, rfl, fun i hi => Memory.read_writeBytes_inside hwf hi, fun hapart => ?_⟩
      have hentry : (mem.writeBytes w.pa.toNat bs).read64 w.leafAddr.toNat = mem.read64 w.leafAddr.toNat :=
        Memory.read64_writeBytes_outside hwf hapart
      exact ⟨(congrArg (·.getLsbD 8) hentry).trans (huaddr ▸ haccessed' u hu), (congrArg (·.getLsbD 9) hentry).trans hdirty⟩

end Sys2Proof.Machine
end

section
/-! PROOFS. The processor's own writes to memory in an access that is performed, beside the bytes written (42_ept_vmexits.md R120, R124,
44_ept_ad_pml.md R173, R174, R183). -/

namespace Sys2Proof.Machine

open Sys2Proof

/-! The writes. -/

/-- One write that the processor makes of its own in an access from the state `s`: an accessed or dirty flag of an EPT entry, with the
flags of EPTP bit 6; an entry of the page-modification log; an update of one of the guest paging-structure entries that `walk` notes. -/
inductive OwnWrite (s : State) (walk : List TypedAccess) : Memory → Memory → Prop where
  | flag {m : Memory} (ea bit : Nat) (hept : s.eptInUse = true) (had : s.eptAd = true) (hbit : bit = 8 ∨ bit = 9) :
    OwnWrite s walk m (m.write64 ea (m.read64 ea ||| (1#64 <<< bit)))
  | log {m : Memory} (i : BitVec 16) (bs : List Byte) (hept : s.eptInUse = true) (hlog : s.pmlOn = true) (hi : i.toNat ≤ 511)
    (hlen : bs.length = 8) : OwnWrite s walk m (m.writeBytes (s.vmcs.pmlAddress + 8#64 * i.setWidth 64).toNat bs)
  | guest {m : Memory} (t : TypedAccess) (bs : List Byte) (hpg : s.pg = true) (ht : t ∈ walk) (hlen : bs.length ≤ 8) :
    OwnWrite s walk m (m.writeBytes t.pa.toNat bs)

/-- Any number of such writes. -/
abbrev OwnWrites (s : State) (walk : List TypedAccess) : Memory → Memory → Prop := Relation.ReflTransGen (OwnWrite s walk)

section
variable {s : State} {walk walk' : List TypedAccess} {m m' : Memory}

theorem OwnWrites.mono (hsub : walk ⊆ walk') (h : OwnWrites s walk m m') : OwnWrites s walk' m m' := by
  induction h with
  | refl => exact .refl
  | tail _ hw ih =>
    refine ih.tail ?_
    cases hw with
    | flag ea bit hept had hbit => exact .flag ea bit hept had hbit
    | log i bs hept hlog hi hlen => exact .log i bs hept hlog hi hlen
    | guest t bs hpg ht hlen => exact .guest t bs hpg (hsub ht) hlen

theorem OwnWrites.wf (h : OwnWrites s walk m m') (hm : m.wf = true) : m'.wf = true := by
  induction h with
  | refl => exact hm
  | tail _ hw ih =>
    cases hw with
    | flag => exact Memory.wf_write64 ih _ _
    | log => exact Memory.wf_writeBytes ih _ _
    | guest => exact Memory.wf_writeBytes ih _ _

/-- Without paging and without the flags of EPTP bit 6 there is none. -/
theorem OwnWrites.eq_of_noFlags (hpg : s.pg = false) (hflags : s.eptAd = false ∨ s.eptInUse = false) (h : OwnWrites s walk m m') :
    m' = m := by
  induction h with
  | refl => rfl
  | tail _ hw _ =>
    cases hw with
    | flag _ _ hept had => simp [hept, had] at hflags
    | log _ _ hept hlog =>
      have had : s.eptAd = true := (Bool.and_eq_true_iff.1 hlog).2
      simp [hept, had] at hflags
    | guest _ _ hpg' => simp [hpg] at hpg'

/-- Of the bytes of an entry a flag sets bits 0 and 1 at most (bits 8 and 9 of the entry). -/
theorem flagByte_and {bit i : Nat} (hbit : bit = 8 ∨ bit = 9) (hi : i < 8) : (1#64 <<< bit).extractLsb' (8 * i) 8 &&& 0xFC#8 = 0#8 := by
  rcases hbit with rfl | rfl <;> (revert i; decide)

/-- From `v` to `v'` bits 0 and 1 of a byte may have been set, if `allowed`. -/
def FlagsSet (allowed : Prop) (v v' : Byte) : Prop := ∃ flags : Byte, flags &&& 0xFC#8 = 0#8 ∧ v' = v ||| flags ∧ (¬ allowed → flags = 0#8)

theorem FlagsSet.refl (allowed : Prop) (v : Byte) : FlagsSet allowed v v := ⟨0#8, rfl, by simp, fun _ => rfl⟩

theorem FlagsSet.trans {allowed : Prop} {v v' v'' : Byte} (h : FlagsSet allowed v v') (h' : FlagsSet allowed v' v'') :
    FlagsSet allowed v v'' := by
  obtain ⟨flags, hbits, rfl, hnone⟩ := h
  obtain ⟨flags', hbits', rfl, hnone'⟩ := h'
  refine ⟨flags ||| flags', ?_, BitVec.or_assoc .., fun hno => by rw [hnone hno, hnone' hno]; rfl⟩
  rw [BitVec.and_comm, BitVec.and_or_distrib_left, BitVec.and_comm, hbits, BitVec.and_comm, hbits']
  rfl

/-- A byte lies outside the log's entries and the guest entries of a walk. -/
def OutsideOwn (s : State) (walk : List TypedAccess) (b : Nat) : Prop :=
  (s.eptInUse = true → s.pmlOn = true → ∀ i : BitVec 16, i.toNat ≤ 511 →
    outside b (s.vmcs.pmlAddress + 8#64 * i.setWidth 64).toNat 8) ∧ ∀ t ∈ walk, outside b t.pa.toNat 8

/-- There a flag is all that can be set. -/
theorem OwnWrite.flagsSet (h : OwnWrite s walk m m') (hm : m.wf = true) {b : Nat} (hb : OutsideOwn s walk b) :
    FlagsSet (s.eptAd = true ∧ s.eptInUse = true) (m.read b) (m'.read b) := by
  obtain ⟨hlogOut, hwalkOut⟩ := hb
  cases h with
  | flag ea bit hept had hbit =>
    refine ⟨_, ?_, Memory.read_write64_or hm ea _ b, fun hno => absurd ⟨had, hept⟩ hno⟩
    split
    · exact flagByte_and hbit (by omega)
    · rfl
  | log i bs hept hlog hi hlen =>
    have hout := hlogOut hept hlog i hi
    rw [Memory.read_writeBytes_outside hm (hlen ▸ hout)]
    exact .refl _ _
  | guest t bs hpg ht hlen =>
    have hout : b < t.pa.toNat ∨ t.pa.toNat + 8 ≤ b := hwalkOut t ht
    rw [Memory.read_writeBytes_outside hm (by omega)]
    exact .refl _ _

theorem OwnWrites.flagsSet (h : OwnWrites s walk m m') (hm : m.wf = true) {b : Nat} (hb : OutsideOwn s walk b) :
    FlagsSet (s.eptAd = true ∧ s.eptInUse = true) (m.read b) (m'.read b) := by
  induction h with
  | refl => exact .refl _ _
  | tail hws hw ih => exact ih.trans (hw.flagsSet (OwnWrites.wf hws hm) hb)

end

/-! What an access keeps track of. -/

/-- A condition on what a computation that comes to a value has come to. -/
def Res.Ends {α : Type} (P : Ctx → Prop) (r : Res α) : Prop := ∀ a y, r = .ok a y → P y

theorem Res.Ends.ok {α : Type} {P : Ctx → Prop} {y : Ctx} (h : P y) (a : α) : (Res.ok a y).Ends P := by
  rintro _ _ ⟨⟩
  exact h

theorem Res.Ends.raised {α : Type} (P : Ctx → Prop) (e : Event) (y : Ctx) : (Res.raised e y : Res α).Ends P := by
  rintro _ _ ⟨⟩

theorem Res.Ends.stopped {α : Type} (P : Ctx → Prop) (t : Stop) : (Res.stopped t : Res α).Ends P := by
  rintro _ _ ⟨⟩

theorem Res.Ends.bind {α β : Type} {P Q : Ctx → Prop} {r : Res α} {f : α → Ctx → Res β} (h : r.Ends P)
    (hf : ∀ a y, r = .ok a y → P y → (f a y).Ends Q) : (r.bind f).Ends Q := by
  intro b z hbind
  obtain ⟨a, y, hr, hfz⟩ := Res.bind_eq_ok.1 hbind
  exact hf a y hr (h a y hr) b z hfz

theorem Res.Ends.ite {α : Type} {P : Ctx → Prop} {b : Prop} [Decidable b] {r r' : Res α} (h : b → r.Ends P) (h' : ¬ b → r'.Ends P) :
    (if b then r else r').Ends P := by
  split
  · exact h ‹_›
  · exact h' ‹_›

/-- An access from the state `s`, with no other agent writing, has come to `x`: nothing but memory, the PML index and the count of free
values is changed, and memory only by the processor's own writes, to guest entries that `walk` notes or that are noted since. -/
structure Tracks (s : State) (walk : List TypedAccess) (x : Ctx) : Prop where
  st : ∃ mem n i, x.st = { s with mem := mem, agents := [], freeCtr := n, vmcs := { s.vmcs with pmlIndex := i } }
  mem : OwnWrites s (walk ++ x.typed) s.mem x.st.mem

section
variable {c : Cfg} {s : State} {walk : List TypedAccess} {x y : Ctx}

theorem Tracks.agents (h : Tracks s walk x) : x.st.agents = [] := by
  obtain ⟨_, _, _, hst⟩ := h.st
  rw [hst]

theorem Tracks.pg (h : Tracks s walk x) : x.st.pg = s.pg := by
  obtain ⟨_, _, _, hst⟩ := h.st
  rw [hst]
  rfl

theorem Tracks.eptInUse (h : Tracks s walk x) : x.st.eptInUse = s.eptInUse := by
  obtain ⟨_, _, _, hst⟩ := h.st
  rw [hst]
  rfl

theorem Tracks.eptAd (h : Tracks s walk x) : x.st.eptAd = s.eptAd := by
  obtain ⟨_, _, _, hst⟩ := h.st
  rw [hst]
  rfl

theorem Tracks.pmlOn (h : Tracks s walk x) : x.st.pmlOn = s.pmlOn := by
  obtain ⟨_, _, _, hst⟩ := h.st
  rw [hst]
  rfl

theorem Tracks.pmlAddress (h : Tracks s walk x) : x.st.vmcs.pmlAddress = s.vmcs.pmlAddress := by
  obtain ⟨_, _, _, hst⟩ := h.st
  rw [hst]

/-- The start of an access. -/
theorem Tracks.start (hagents : s.agents = []) : Tracks s [] (Ctx.start s) :=
  ⟨⟨s.mem, s.freeCtr, s.vmcs.pmlIndex, by rw [← hagents]; rfl⟩, .refl⟩

/-- Free values are drawn, or something is noted other than an access to a guest entry. -/
theorem Tracks.bump (h : Tracks s walk x) {n : Nat} (hst : y.st = x.st.bump n) (htyped : y.typed = x.typed) : Tracks s walk y := by
  obtain ⟨⟨mem, k, i, hx⟩, hmem⟩ := h
  refine ⟨⟨mem, k + n, i, by rw [hst, hx]; rfl⟩, ?_⟩
  rw [htyped, hst]
  exact hmem

theorem Tracks.same (h : Tracks s walk x) (hst : y.st = x.st) (htyped : y.typed = x.typed) : Tracks s walk y :=
  h.bump (n := 0) hst htyped

theorem Tracks.pick {α : Type} {l : List α} {o : Option α} (h : Tracks s walk x) (hpick : pick c x l = (o, y)) : Tracks s walk y := by
  obtain ⟨-, n, hy⟩ := pick_spec c x l
  rw [hpick] at hy
  subst hy
  exact h.bump rfl rfl

theorem Tracks.use (h : Tracks s walk x) (m : Mapping) : Tracks s walk (x.use m) := h.same rfl rfl

theorem Tracks.touch (h : Tracks s walk x) (ea : Word) : Tracks s walk (x.touch ea) := h.same rfl rfl

/-- An access to a guest entry is noted. -/
theorem Tracks.note (h : Tracks s walk x) (t : TypedAccess) : Tracks s walk (x.note t) :=
  ⟨h.st, h.mem.mono (by simp)⟩

/-- What has been noted is handed over to `walk`. -/
theorem Tracks.reset (h : Tracks s walk x) : Tracks s (walk ++ x.typed) { x with typed := [] } :=
  ⟨h.st, h.mem.mono (by simp)⟩

/-- One more of the processor's own writes. -/
theorem Tracks.write (h : Tracks s walk x) (f : Memory → Memory) (hw : OwnWrite s (walk ++ x.typed) x.st.mem (f x.st.mem)) :
    Tracks s walk (x.mapSt fun s => s.withMem (f s.mem)) := by
  obtain ⟨⟨mem, n, i, hx⟩, hmem⟩ := h
  exact ⟨⟨f x.st.mem, n, i, by rw [Ctx.mapSt_st, hx]; rfl⟩, hmem.tail hw⟩

/-- The PML index is counted down. -/
theorem Tracks.withPmlIndex (h : Tracks s walk x) (f : BitVec 16 → BitVec 16) :
    Tracks s walk (x.mapSt fun s => s.withVmcs { s.vmcs with pmlIndex := f s.vmcs.pmlIndex }) := by
  obtain ⟨⟨mem, n, i, hx⟩, hmem⟩ := h
  exact ⟨⟨mem, n, f i, by rw [Ctx.mapSt_st, hx]; rfl⟩, hmem⟩

/-! Computations that write nothing. -/

theorem Tracks.physRead (h : Tracks s walk x) (pa : Word) (n : Nat) : (physRead c x pa n).Ends (Tracks s walk) := by
  intro bs y hread
  obtain ⟨-, -, rfl⟩ := physRead_eq_ok.1 hread
  rwa [Ctx.interleave_nil h.agents]

theorem Tracks.physRead64 (h : Tracks s walk x) (pa : Word) : (physRead64 c x pa).Ends (Tracks s walk) :=
  (h.physRead pa 8).bind fun _ _ _ hy => .ok hy _

theorem Tracks.eptEntry (h : Tracks s walk x) (acc : GAccess) (gpa : Word) (level : Nat) (base : Word) (r : Rights) :
    (eptEntry c acc gpa x level base r).Ends (Tracks s walk) :=
  (h.physRead64 _).bind fun _ _ _ hy => .ite (fun _ => .raised _ _ _) fun _ => .ite (fun _ => .raised _ _ _) fun _ => .ok (hy.touch _) _

theorem Tracks.eptTranslateFrom (h : Tracks s walk x) (acc : GAccess) (gpa : Word) (fuel level : Nat) (base : Word) (r : Rights)
    (used : List WalkEntry) (sources : List Mapping) :
    (eptTranslateFrom c acc gpa fuel level base r used sources x).Ends (Tracks s walk) := by
  induction fuel generalizing level base r used sources x with
  | zero => exact .stopped _ _
  | succ fuel ih =>
    obtain ⟨y, -, hpick | ⟨m, hpick, -⟩ | ⟨m, hpick, -⟩⟩ := pick_gphysUsable c gpa level x
    · rw [eptTranslateFrom_none hpick]
      exact ((h.pick hpick).eptEntry acc gpa level base r).bind fun e z _ hz => .ite (fun _ => .ok hz _) fun _ => ih hz _ _ _ _ _
    · rw [eptTranslateFrom_gphysTr hpick]
      exact .ok ((h.pick hpick).use _) _
    · rw [eptTranslateFrom_gphysPsc hpick]
      exact ih ((h.pick hpick).use _) _ _ _ _ _

theorem Tracks.sppTables (h : Tracks s walk x) (acc : GAccess) (gpa : Word) (n level : Nat) (t : Word) :
    (sppTables c acc gpa n level t x).Ends (Tracks s walk) := by
  induction n generalizing level t x with
  | zero => exact .ok h _
  | succ n ih =>
    have hentry : (sppEntry c acc gpa x t level).Ends (Tracks s walk) :=
      (h.physRead64 _).bind fun _ _ _ hy => .ite (fun _ => .raised _ _ _) fun _ => .ite (fun _ => .raised _ _ _) fun _ => .ok hy _
    exact hentry.bind fun _ _ _ hy => ih hy _ _

theorem Tracks.sppVector (h : Tracks s walk x) (acc : GAccess) (gpa : Word) : (sppVector c acc gpa x).Ends (Tracks s walk) := by
  unfold Machine.sppVector
  split
  · next hpick => exact .ok ((h.pick hpick).use _) _
  · next hpick => exact (((h.pick hpick).use _).sppTables acc gpa _ _ _).bind fun _ _ _ hz => hz.physRead64 _
  · next hpick =>
    have haddr : (sppVectorAddr c acc gpa _).Ends (Tracks s walk) :=
      ((h.pick hpick).sppTables acc gpa 3 4 _).bind fun _ _ _ hz => .ok hz _
    exact haddr.bind fun _ _ _ hz => hz.physRead64 _

theorem Tracks.sppCheck (h : Tracks s walk x) (acc : GAccess) (gpa : Word) (w : Walk) :
    (sppCheck c acc gpa w x).Ends (Tracks s walk) :=
  (h.sppVector acc gpa).bind fun _ _ _ hy => .ite (fun _ => .raised _ _ _) fun _ => .ite (fun _ => .ok hy _) fun _ => .raised _ _ _

theorem Tracks.entryFlag (h : Tracks s walk x) (cached recorded : Bool) (ea : Word) (bit : Nat) :
    (entryFlag c cached recorded ea bit x).Ends (Tracks s walk) :=
  .ite (fun _ => .ok h _) fun _ => (h.physRead64 ea).bind fun _ _ _ hy => .ok hy _

theorem Tracks.needAccessed (h : Tracks s walk x) (us : List WalkEntry) : (needAccessed c us x).Ends (Tracks s walk) := by
  induction us generalizing x with
  | nil => exact .ok h _
  | cons u us ih => exact (h.entryFlag _ _ _ _).bind fun _ _ _ hy => (ih hy).bind fun _ _ _ hz => .ok hz _

theorem Tracks.needDirty (h : Tracks s walk x) (w : Walk) (acc : GAccess) : (needDirty c w acc x).Ends (Tracks s walk) :=
  .ite (fun _ => (h.entryFlag _ _ _ _).bind fun _ _ _ hy => .ok hy _) fun _ => .ok h _

theorem Tracks.chooseBool (h : Tracks s walk x) {b : Bool} (hchoose : chooseBool c x = (b, y)) : Tracks s walk y := by
  obtain ⟨-, rfl⟩ := Prod.mk.inj hchoose
  exact h.bump rfl rfl

theorem Tracks.apicTest (h : Tracks s walk x) (sources : List Mapping) (pa : Word) :
    (apicTest c sources pa x).Ends (Tracks s walk) := by
  refine .ite (fun _ => .ite (fun _ => ?_) fun _ => .raised _ _ _) fun _ => .ok h _
  split
  · next hchoose => exact .ok (h.chooseBool hchoose) _
  · exact .raised _ _ _

theorem Tracks.sppEligible (h : Tracks s walk x) {w : Walk} {acc : GAccess} {b : Bool} (heligible : sppEligible c x w acc = (b, y)) :
    Tracks s walk y := by
  unfold Machine.sppEligible at heligible
  split at heligible
  · split at heligible
    · split at heligible
      · cases heligible
        exact h
      · cases heligible
        exact h
      · exact h.chooseBool heligible
    · cases heligible
      exact h
  · cases heligible
    exact h

end

end Sys2Proof.Machine
end

section
/-! PROOFS. What a performed access leaves unchanged: its parts, step by step (42_ept_vmexits.md R120, R123 to R125, 44_ept_ad_pml.md
R173, R174). -/

namespace Sys2Proof.Machine

open Sys2Proof

section
variable {c : Cfg} {s : State} {walk : List TypedAccess} {x y : Ctx}

/-! The flags of EPT entries and the page-modification log. -/

/-- Only memory changes where bits of entries are set: the PML index, which the log is written by, stays. -/
theorem Tracks.setEntryBits (h : Tracks s walk x) (hept : s.eptInUse = true) (had : s.eptAd = true) {bit : Nat}
    (hbit : bit = 8 ∨ bit = 9) (l : List Word) :
    (setEntryBits c x bit l).Ends fun y => Tracks s walk y ∧ y.st.vmcs = x.st.vmcs := by
  induction l generalizing x with
  | nil => exact .ok ⟨h, rfl⟩ _
  | cons ea l ih =>
    have hset : (setEntryBit c x ea bit).Ends fun y => Tracks s walk y ∧ y.st.vmcs = x.st.vmcs := by
      intro _ y hy
      obtain ⟨-, rfl⟩ := setEntryBit_eq_ok.1 hy
      rw [Ctx.interleave_nil h.agents]
      exact ⟨h.write (fun m => m.write64 ea.toNat (m.read64 ea.toNat ||| (1#64 <<< bit))) (.flag _ _ hept had hbit), rfl⟩
    refine hset.bind fun _ y _ ⟨hy, hvmcs⟩ => ?_
    rw [← hvmcs]
    exact ih hy

theorem Tracks.pmlLog (h : Tracks s walk x) (hept : s.eptInUse = true) (hlog : s.pmlOn = true) (hi : x.st.pmlIndexOk = true)
    (gpa : Word) : (pmlLog c gpa x).Ends (Tracks s walk) := by
  have hwrite : (physWrite c x x.st.pmlEntry (bytesOfWord (gpa &&& ~~~0xFFF#64) 8)).Ends (Tracks s walk) := by
    intro _ y hy
    obtain ⟨-, rfl⟩ := physWrite_eq_ok.1 hy
    rw [Ctx.interleave_nil h.agents]
    refine h.write (fun m => m.writeBytes _ _) ?_
    rw [State.pmlEntry, h.pmlAddress]
    exact .log _ _ hept hlog (of_decide_eq_true hi) (length_bytesOfWord _ _)
  exact hwrite.bind fun _ y _ hy => .ok (hy.withPmlIndex (· - 1#16)) _

theorem Tracks.eptUpdateFlags (h : Tracks s walk x) (hept : s.eptInUse = true) (had : s.eptAd = true) (w : Walk) (gpa : Word)
    (needA : List Word) (needD : Bool) : (eptUpdateFlags c w gpa needA needD x).Ends (Tracks s walk) := by
  refine .ite (fun _ => .ok h _) fun _ => .ite (fun _ => .raised _ _ _) fun hroom => ?_
  refine (h.setEntryBits hept had (.inl rfl) needA).bind fun _ y _ ⟨hy, hvy⟩ => ?_
  refine (hy.setEntryBits hept had (.inr rfl) _).bind fun _ z _ ⟨hz, hvz⟩ => .ite (fun hlog => ?_) fun _ => .ok hz _
  have hon : x.st.pmlOn = true := (Bool.and_eq_true_iff.1 hlog).1
  have hindex : x.st.pmlIndexOk = true := by simpa [hon] using hroom
  refine hz.pmlLog hept (h.pmlOn ▸ hon) ?_ gpa
  rwa [State.pmlIndexOk, hvz, hvy]

theorem Tracks.eptSetAccessedDirty (h : Tracks s walk x) (hept : s.eptInUse = true) (had : s.eptAd = true) (w : Walk) (acc : GAccess)
    (gpa : Word) : (eptSetAccessedDirty c w acc gpa x).Ends (Tracks s walk) :=
  (h.needAccessed w.used).bind fun _ _ _ hy => (hy.needDirty w acc).bind fun _ _ _ hz => hz.eptUpdateFlags hept had w gpa _ _

/-! Accesses to physical and guest-physical addresses. -/

theorem Tracks.eptPerform (h : Tracks s walk x) (hept : s.eptInUse = true) (acc : GAccess) (gpa : Word) (w : Walk) :
    (eptPerform c acc gpa w x).Ends (Tracks s walk) :=
  .ite (fun had => (h.eptSetAccessedDirty hept (h.eptAd ▸ had) w acc gpa).bind fun _ _ _ hy => .ok hy _) fun _ => .ok h _

theorem Tracks.eptGrant (h : Tracks s walk x) (hept : s.eptInUse = true) (acc : GAccess) (gpa : Word) (w : Walk) :
    (eptGrant c acc gpa w x).Ends (Tracks s walk) := by
  refine .ite (fun _ => (h.apicTest _ _).bind fun _ _ _ hy => hy.eptPerform hept acc gpa w) fun _ =>
    .ite (fun _ => ?_) fun _ => .raised _ _ _
  split
  · next heligible =>
    exact ((h.sppEligible heligible).sppCheck acc gpa w).bind fun _ _ _ hz => hz.eptPerform hept acc gpa w
  · exact .raised _ _ _

theorem Tracks.guestPhysAccess (h : Tracks s walk x) (hept : s.eptInUse = true) (acc : GAccess) (gpa : Word) :
    (guestPhysAccess c acc gpa x).Ends (Tracks s walk) :=
  .ite (fun _ => .stopped _ _) fun _ =>
    (h.eptTranslateFrom acc gpa 4 4 _ _ _ _).bind fun w _ _ hy => (hy.eptGrant hept acc gpa w).bind fun _ _ _ hz => .ok hz _

theorem Tracks.addressAccess (h : Tracks s walk x) (acc : GAccess) (a : Word) : (addressAccess c acc a x).Ends (Tracks s walk) :=
  .ite (fun hept => h.guestPhysAccess (h.eptInUse ▸ hept) acc a) fun _ => (h.apicTest _ _).bind fun _ _ _ hy => .ok hy _

/-! The guest's entries. -/

theorem Tracks.guestEntry (h : Tracks s walk x) {o : Option CombPsc} (ho : ∀ m, o = some m → s.eptInUse = true) (kind : AccKind)
    (la : Word) (es : List GuestEntry) (level : Nat) (table : Word) :
    (guestEntry c kind la es level table o x).Ends (Tracks s walk) := by
  refine Res.Ends.bind (P := Tracks s walk) ?_ fun g y _ hy =>
    ((hy.note _).physRead g.pa _).bind fun bs z _ hz => .ite (fun _ => .raised _ _ _) fun _ => .ok hz _
  cases o with
  | none => exact h.addressAccess _ _
  | some m => exact (h.eptGrant (ho m rfl) _ _ _).bind fun _ _ _ hy => .ok hy _

theorem Tracks.guestFindFrom (h : Tracks s walk x) {o : Option CombPsc} (ho : ∀ m, o = some m → s.eptInUse = true) (kind : AccKind)
    (la : Word) (fuel level : Nat) (table : Word) (es : List GuestEntry) :
    (guestFindFrom c kind la fuel level table o es x).Ends (Tracks s walk) := by
  induction fuel generalizing level table o es x with
  | zero => exact .stopped _ _
  | succ fuel ih =>
    obtain ⟨y, -, hpick | ⟨m, hpick⟩ | ⟨m, hpick⟩ | ⟨m, hpick, -⟩ | ⟨m, hpick, hept⟩⟩ := pick_linearUsable c la level x
    · rw [guestFindFrom_none hpick]
      exact ((h.pick hpick).guestEntry ho kind la es level table).bind fun ge z _ hz =>
        .ite (fun _ => ih hz (fun _ hm => by cases hm) _ _ _) fun _ => .ok hz _
    · rw [guestFindFrom_linearTr hpick]
      exact .ok ((h.pick hpick).use _) _
    · rw [guestFindFrom_linearPsc hpick]
      exact ih ((h.pick hpick).use _) (fun _ hm => by cases hm) _ _ _
    · rw [guestFindFrom_combTr hpick]
      exact .ok ((h.pick hpick).use _) _
    · rw [guestFindFrom_combPsc hpick]
      exact ih ((h.pick hpick).use _) (fun _ _ => h.eptInUse ▸ hept) _ _ _

/-- A guest entry is at most 8 bytes wide. -/
theorem guestEntrySize_le (c : Cfg) (s : State) : guestEntrySize c s ≤ 8 := by
  unfold guestEntrySize
  split <;> omega

/-- The guest's flags are written where the access to the entry has been noted. -/
theorem Tracks.guestSetFlags (h : Tracks s walk x) (hpg : s.pg = true) (la : Word) (es : List GuestEntry)
    (l : List (GuestEntry × Word)) : (guestSetFlags c la es l x).Ends (Tracks s walk) := by
  induction l generalizing es x with
  | nil => exact .ok h _
  | cons q rest ih =>
    refine .ite (fun _ => ih h _) fun _ => (h.addressAccess _ _).bind fun g y _ hy => ?_
    refine Res.Ends.bind (P := Tracks s walk) ?_ fun _ z _ hz => ih hz _
    have hnoted := hy.note (typedAccess c y.st q.1.addr g es)
    intro _ z hz
    obtain ⟨-, rfl⟩ := physUpdate_eq_ok.1 hz
    rw [Ctx.interleave_nil hnoted.agents]
    refine hnoted.write (fun m => m.writeBytes _ (bytesOfWord (changeBits _ _ (wordOfBytes (m.readBytes _ _))) _)) ?_
    refine .guest (typedAccess c y.st q.1.addr g es) _ hpg (by simp [Ctx.note]) ?_
    rw [length_bytesOfWord]
    exact guestEntrySize_le c y.st

theorem Tracks.guestPermit (h : Tracks s walk x) (hpg : s.pg = true) (kind : AccKind) (la : Word) (es : List GuestEntry) :
    (guestPermit c kind la es x).Ends (Tracks s walk) :=
  .ite (fun _ => .raised _ _ _) fun _ => h.guestSetFlags hpg la [] _

/-! A part of an access. -/

theorem Tracks.accessAfterWalk (h : Tracks s walk x) (hpg : s.pg = true) (p : Part) (gw : GuestWalk) :
    (accessAfterWalk c p gw x).Ends (Tracks s walk) :=
  (h.guestPermit hpg _ _ _).bind fun _ _ _ hy => (hy.addressAccess _ _).bind fun _ _ _ hz => .ok hz _

theorem Tracks.accessUnpaged (h : Tracks s walk x) (p : Part) : (accessUnpaged c p x).Ends (Tracks s walk) :=
  (h.addressAccess _ _).bind fun _ _ _ hz => .ok hz _

theorem Tracks.accessByCombTr (h : Tracks s walk x) (hept : s.eptInUse = true) (p : Part) (m : CombTr) :
    (accessByCombTr c p m x).Ends (Tracks s walk) :=
  Res.Ends.bind (P := Tracks s walk) (.ite (fun hpg => h.guestPermit (h.pg ▸ hpg) _ _ _) fun _ => .ok h _) fun _ _ _ hy =>
    (hy.eptGrant hept _ _ _).bind fun _ _ _ hz => .ok hz _

theorem Tracks.accessByLinearTr (h : Tracks s walk x) (hpg : s.pg = true) (p : Part) (m : LinearTr) :
    (accessByLinearTr c p m x).Ends (Tracks s walk) :=
  (h.guestPermit hpg _ _ _).bind fun _ _ _ hy => (hy.apicTest _ _).bind fun _ _ _ hz => .ok hz _

theorem Tracks.accessPaged (h : Tracks s walk x) (hpg : s.pg = true) (p : Part) : (accessPaged c p x).Ends (Tracks s walk) := by
  refine (h.guestFindFrom (fun _ hm => by cases hm) _ _ _ _ _ _).bind fun f y hfind hy => ?_
  cases f with
  | walk gw => exact hy.accessAfterWalk hpg p gw
  | comb m => exact hy.accessByCombTr (h.eptInUse ▸ guestFindFrom_comb_eptInUse hfind) p m
  | linear m => exact hy.accessByLinearTr hpg p m

theorem Tracks.accessPart (h : Tracks s walk x) (p : Part) : (accessPart c p x).Ends (Tracks s walk) := by
  refine .ite (fun hpg => h.accessPaged (h.pg ▸ hpg) p) fun _ => .ite (fun _ => .stopped _ _) fun _ => ?_
  obtain ⟨y, -, hpick | ⟨m, hpick⟩ | ⟨m, hpick⟩ | ⟨m, hpick, hept⟩ | ⟨m, hpick, -⟩⟩ := pick_linearUsable c p.la 1 x <;> rw [hpick]
  · exact (h.pick hpick).accessUnpaged p
  · exact (h.pick hpick).accessUnpaged p
  · exact (h.pick hpick).accessUnpaged p
  · exact ((h.pick hpick).use _).accessByCombTr (h.eptInUse ▸ hept) p m
  · exact (h.pick hpick).accessUnpaged p

/-- All parts of an access: what is noted of each is in what it reports. -/
theorem Tracks.accessParts {ps : List Part} {ds : List PartDone} (h : Tracks s walk { x with typed := [] })
    (hparts : accessParts c ps x = .ok ds y) : Tracks s (walk ++ ds.flatMap (·.walk)) { y with typed := [] } := by
  induction ps generalizing walk x ds with
  | nil =>
    cases hparts
    simpa using h
  | cons p ps ih =>
    obtain ⟨d, z, hpart, hrest⟩ := Res.bind_eq_ok.1 hparts
    obtain ⟨ds', u, hrest, hds⟩ := Res.bind_eq_ok.1 hrest
    cases hds
    simpa using ih (h.accessPart p d z hpart).reset hrest

end

/-! The bytes of the access itself. -/

section
variable {c : Cfg} {x y : Ctx} {ds : List PartDone}

/-- An access that is performed: its parts are checked, and then read or written. -/
theorem linearAccess_eq_ok {a : Access} {bytes : List Byte} {z : Ctx} (h : linearAccess c a x = .ok (ds, bytes) z) :
    ∃ y, accessParts c (a.parts c x.st) x = .ok ds y ∧
      (((∃ n, a.op = .read n ∨ a.op = .fetch n) ∧ readParts c ds y = .ok bytes z) ∨
        ∃ bs u, a.op = .write bs ∧ writeParts c ds bs y = .ok u z) := by
  obtain ⟨ds', y, hparts, h⟩ := Res.bind_eq_ok.1 h
  split at h
  case h_1 hop | h_2 hop =>
    obtain ⟨bs, u, hread, h⟩ := Res.bind_eq_ok.1 h
    cases h
    exact ⟨y, hparts, .inl ⟨⟨_, by simp [hop]; rfl⟩, hread⟩⟩
  case h_3 hop =>
    obtain ⟨u, v, hwrite, h⟩ := Res.bind_eq_ok.1 h
    cases h
    exact ⟨y, hparts, .inr ⟨_, u, hop, hwrite⟩⟩

/-- With no other agent writing, reading changes nothing. -/
theorem readParts_ctx {bs : List Byte} (hagents : x.st.agents = []) (h : readParts c ds x = .ok bs y) : y = x := by
  induction ds generalizing x bs with
  | nil =>
    cases h
    rfl
  | cons d ds ih =>
    obtain ⟨bs', z, hread, h⟩ := Res.bind_eq_ok.1 h
    obtain ⟨-, -, rfl⟩ := physRead_eq_ok.1 hread
    rw [Ctx.interleave_nil hagents] at h
    obtain ⟨cs, u, hrest, h⟩ := Res.bind_eq_ok.1 h
    cases h
    exact ih hagents hrest

/-- With no other agent writing, a byte outside the parts written stays. -/
theorem writeParts_outside {bs : List Byte} {u : Unit} {b : Nat} (hagents : x.st.agents = []) (hm : x.st.mem.wf = true)
    (hb : ∀ d ∈ ds, outside b d.pa.toNat d.size) (h : writeParts c ds bs x = .ok u y) : y.st.mem.read b = x.st.mem.read b := by
  induction ds generalizing x bs with
  | nil =>
    cases h
    rfl
  | cons d ds ih =>
    obtain ⟨hd, hrest⟩ := List.forall_mem_cons.1 hb
    obtain ⟨_, z, hwrite, h⟩ := Res.bind_eq_ok.1 h
    obtain ⟨-, rfl⟩ := physWrite_eq_ok.1 hwrite
    rw [Ctx.interleave_nil hagents] at h
    have hout : b < d.pa.toNat ∨ d.pa.toNat + d.size ≤ b := hd
    have hfirst : (x.st.mem.writeBytes d.pa.toNat (bs.take d.size)).read b = x.st.mem.read b :=
      Memory.read_writeBytes_outside hm (by rw [List.length_take]; omega)
    refine (ih ?_ ?_ hrest h).trans hfirst
    · exact hagents
    · exact Memory.wf_writeBytes hm _ _

end

/-! The access as a whole. -/

section
variable {c : Cfg} {a : Access} {s t : State} {parts : List PartDone} {bytes : List Byte}

/-- An access that is reported as performed has come to its end; an event would be reported instead. -/
theorem runInput_access_performed (hrun : runInput c (.access a) s = .next t) (hreport : t.report = .access parts bytes) :
    ∃ x, linearAccess c a (Ctx.start s) = .ok (parts, bytes) x ∧ t = x.st.withReport (.access parts bytes) := by
  rw [runInput, runAccess] at hrun
  obtain ⟨⟨ds, bs⟩, x, hok, hnext⟩ | ⟨e, x, -, rfl⟩ := Res.outcome_eq_next.1 hrun
  · cases hnext
    cases hreport
    exact ⟨x, hok, rfl⟩
  · rcases hexits : e.exits (rollback c s e x) with _ | _
    · rw [deliver_exception hexits] at hreport
      cases hreport
    · obtain ⟨_, _, _, -, -, -, hexit⟩ := deliver_exit hexits c
      rw [hexit] at hreport
      cases hreport

/-- Before its own bytes are read or written, a performed access has changed memory by the processor's own writes only. -/
theorem linearAccess_ownWrites {x : Ctx} (hagents : s.agents = []) (h : linearAccess c a (Ctx.start s) = .ok (parts, bytes) x) :
    ∃ y, OwnWrites s (parts.flatMap (·.walk)) s.mem y.st.mem ∧ y.st.agents = [] ∧
      (((∃ n, a.op = .read n ∨ a.op = .fetch n) ∧ x = y) ∨ ∃ bs u, a.op = .write bs ∧ writeParts c parts bs y = .ok u x) := by
  obtain ⟨y, hparts, hbytes⟩ := linearAccess_eq_ok h
  have htracks := (Tracks.start hagents).accessParts hparts
  have hy : y.st.agents = [] := htracks.agents
  refine ⟨y, by simpa using htracks.mem, hy, ?_⟩
  obtain ⟨hop, hread⟩ | hwrite := hbytes
  · exact .inl ⟨hop, readParts_ctx hy hread⟩
  · exact .inr hwrite

end

/-- Settles O26: the access comes to its end by its parts, each of which changes memory by the processor's own writes only, and its bytes
are then read or written. -/
theorem accessFrame : Obligations.AccessFrame := by
  intro c a s t parts bytes hrun hreport
  obtain ⟨x, hok, rfl⟩ := runInput_access_performed hrun hreport
  refine ⟨?_, fun hagents hpg hflags n hop => ?_, fun hagents hm b hparts hwalk hlog => ?_⟩
  · obtain ⟨⟨mem, i, n, k, hx, -⟩, -⟩ := (linearAccess_keeps c a (Ctx.start s)).kept_of_ok hok
    rw [hx]
    simp [Ctx.start, State.withReport]
  · obtain ⟨y, hown, -, ⟨-, rfl⟩ | ⟨bs, u, hwrite, -⟩⟩ := linearAccess_ownWrites hagents hok
    · exact OwnWrites.eq_of_noFlags hpg hflags hown
    · simp [hwrite] at hop
  · obtain ⟨y, hown, hy, hbytes⟩ := linearAccess_ownWrites hagents hok
    have hout : OutsideOwn s (parts.flatMap (·.walk)) b := by
      refine ⟨hlog, fun t ht => ?_⟩
      obtain ⟨d, hd, htd⟩ := List.mem_flatMap.1 ht
      exact hwalk d hd t htd
    have hsame : x.st.mem.read b = y.st.mem.read b := by
      obtain ⟨-, rfl⟩ | ⟨bs, u, hop, hwrite⟩ := hbytes
      · rfl
      · exact writeParts_outside hy (OwnWrites.wf hown hm) (hparts bs hop) hwrite
    obtain ⟨flags, hbits, hread, hnone⟩ := OwnWrites.flagsSet hown hm hout
    refine ⟨flags, hbits, hsame.trans hread, fun hoff => hnone ?_⟩
    rintro ⟨had, hept⟩
    simp [had, hept] at hoff

end Sys2Proof.Machine
end

section
/-! PROOFS. Sub-page write permissions (43_spp.md): what the SPP vector decides, its lookup, and the writes it decides. -/

namespace Sys2Proof.Machine

open Sys2Proof

/-! The test of the SPP vector (R154, R155, R157, R159). -/

/-- R155, R157: the vector allows a range of sub-pages where bit 2S is 1 for each of them. -/
theorem sppAllows_iff {v : Word} {first count : Nat} :
    sppAllows v first count = true ↔ ∀ sub, first ≤ sub → sub < first + count → v.getLsbD (2 * sub) = true := by
  induction count generalizing first with
  | zero => exact ⟨fun _ sub _ _ => by omega, fun _ => rfl⟩
  | succ count ih =>
    rw [sppAllows, Bool.and_eq_true, ih]
    constructor
    · rintro ⟨hfirst, hrest⟩ sub hle hlt
      obtain rfl | hne := eq_or_ne sub first
      · exact hfirst
      · exact hrest sub (by omega) (by omega)
    · exact fun h => ⟨h first le_rfl (by omega), fun sub hle hlt => h sub (by omega) (by omega)⟩

/-- R155: the sub-pages that a write of some bytes touches are those from its first byte's to its last byte's. -/
theorem sppAllows_sppCount {v : Word} {off size : Nat} (hsize : 0 < size) :
    sppAllows v (off / 128) (sppCount off size) = true ↔
      ∀ sub, off / 128 ≤ sub → sub ≤ (off + size - 1) / 128 → v.getLsbD (2 * sub) = true := by
  have hend : off / 128 + sppCount off size = (off + size - 1) / 128 + 1 := by
    have hle : off / 128 ≤ (off + size - 1) / 128 := Nat.div_le_div_right (by omega)
    rw [sppCount]
    omega
  simp_rw [sppAllows_iff, hend, Nat.lt_succ_iff]

section
variable {c : Cfg} {acc : GAccess} {gpa v : Word} {w : Walk} {x y : Ctx}

theorem sppCheck_oddBit (hvector : sppVector c acc gpa x = .ok v y) (hodd : v &&& sppOddBits ≠ 0#64) :
    sppCheck c acc gpa w x = .raised (.sppMisconfig gpa acc.la) y := by
  simp [sppCheck, hvector, hodd]

theorem sppCheck_evenBits (hvector : sppVector c acc gpa x = .ok v y) (hodd : v &&& sppOddBits = 0#64) :
    sppCheck c acc gpa w x =
      if sppAllows v ((gpa &&& 0xFFF#64).toNat / 128) (sppCount (gpa &&& 0xFFF#64).toNat acc.size) then .ok () y
      else .raised (violation y acc gpa w.rights none) y := by
  simp [sppCheck, hvector, hodd]

end

/-- Settles O29: the odd bits come first, then the sub-pages that the write touches. -/
theorem sppVectorDecides : Obligations.SppVectorDecides := by
  intro c acc gpa v w x y hsize hvector
  refine ⟨sppCheck_oddBit hvector, fun hodd hall => ?_, fun hodd ⟨sub, hfirst, hlast, hbit⟩ => ?_⟩
  · rw [sppCheck_evenBits hvector hodd, if_pos ((sppAllows_sppCount hsize).2 hall)]
  · rw [sppCheck_evenBits hvector hodd, if_neg, violation]
    intro hallows
    exact absurd ((sppAllows_sppCount hsize).1 hallows sub hfirst hlast) (by simp [hbit])

/-! The lookup of the vector (R147, R148, R158, R159). -/

/-- R158, R159: an entry read with no other agent writing. -/
theorem sppEntry_of {c : Cfg} {acc : GAccess} {gpa table e : Word} {level : Nat} {x : Ctx} (h : entryIs c x.st gpa level table e) :
    sppEntry c acc gpa x table level =
      if e.getLsbD 0 = false then .raised (.sppMiss gpa acc.la) x
      else if e &&& sppReserved c ≠ 0#64 then .raised (.sppMisconfig gpa acc.la) x
      else .ok (sppBase c e) x := by
  obtain ⟨hagents, hrange, rfl⟩ := h
  simp [sppEntry, physRead64_nil hagents hrange]

/-- R148, R158, R159: the first entry of a lookup ends it, or leads to the table that the rest of the lookup starts from. -/
theorem sppTables_bind {α : Type} {c : Cfg} {gpa table e : Word} {n level : Nat} {x : Ctx} (acc : GAccess)
    (h : entryIs c x.st gpa level table e) (f : Word → Ctx → Res α) :
    (e.getLsbD 0 = false → (sppTables c acc gpa (n + 1) level table x).bind f = .raised (.sppMiss gpa acc.la) x) ∧
    (e.getLsbD 0 = true → e &&& sppReserved c ≠ 0#64 →
      (sppTables c acc gpa (n + 1) level table x).bind f = .raised (.sppMisconfig gpa acc.la) x) ∧
    (sppEntryOk c e →
      (sppTables c acc gpa (n + 1) level table x).bind f = (sppTables c acc gpa n (level - 1) (sppBase c e) x).bind f) := by
  rw [sppTables, sppEntry_of h]
  refine ⟨fun hvalid => ?_, fun hvalid hreserved => ?_, fun ⟨hvalid, hreserved⟩ => ?_⟩
  · rw [if_pos hvalid, Res.bind_raised, Res.bind_raised]
  · rw [if_neg (by simp [hvalid]), if_pos hreserved, Res.bind_raised, Res.bind_raised]
  · rw [if_neg (by simp [hvalid]), if_neg (not_not_intro hreserved), Res.bind_ok]

/-- Settles O30: each of the three entries ends the lookup or leads on. -/
theorem sppLookup : Obligations.SppLookup := by
  intro c acc gpa x e4 e3 e2 h4
  obtain ⟨miss4, bad4, next4⟩ := sppTables_bind (n := 2) acc h4 fun t y => .ok (t + 8#64 * gpaIndex gpa 1) y
  refine ⟨miss4, bad4, fun ok4 h3 => ?_⟩
  rw [sppVectorAddr, next4 ok4]
  obtain ⟨miss3, bad3, next3⟩ := sppTables_bind (n := 1) acc h3 fun t y => .ok (t + 8#64 * gpaIndex gpa 1) y
  refine ⟨miss3, bad3, fun ok3 h2 => ?_⟩
  rw [next3 ok3]
  obtain ⟨miss2, bad2, next2⟩ := sppTables_bind (n := 0) acc h2 fun t y => .ok (t + 8#64 * gpaIndex gpa 1) y
  exact ⟨miss2, bad2, next2⟩

/-! The writes that sub-page permissions decide (R142 to R146). -/

/-- R142, R143, R145: what makes a write a candidate. -/
theorem sppCandidate_eq_true_iff {s : State} {w : Walk} {acc : GAccess} :
    sppCandidate s w acc = true ↔
      s.vmcs.sppControl = true ∧ w.rights.w = false ∧ w.level = 1 ∧ w.leaf.spp = true ∧ acc.pswalk = false ∧
        acc.origin ≠ .transactional ∧ acc.origin ≠ .enclaveElrange ∧ acc.origin ≠ .sgxEpc := by
  simp [sppCandidate, sppNever, and_assoc]

/-- R117: a write is allowed by the write right. -/
theorem eptAllowed_write {s : State} {r : Rights} {acc : GAccess} (hkind : effKind s acc = .dataWrite) : eptAllowed s r acc = r.w := by
  rw [eptAllowed, hkind]

/-- Settles O31: such a write is no candidate. -/
theorem sppNotApplied : Obligations.SppNotApplied := by
  intro c acc gpa w x hkind hwrite hnot
  have hcandidate : sppCandidate x.st w acc = false := by
    rw [← Bool.not_eq_true, sppCandidate_eq_true_iff]
    rintro ⟨hcontrol, -, hlevel, hspp, hpswalk, htransactional, henclave, hsgx⟩
    simp [hcontrol, hlevel, hspp, hpswalk, htransactional, henclave, hsgx] at hnot
  rw [eptGrant_denied ((eptAllowed_write hkind).trans hwrite) (.inr hcandidate), violation, hkind]

/-! The policy for a candidate (R146, 92_eei_decisions.md D20, D21). -/

section
variable {c : Cfg} {acc : GAccess} {gpa : Word} {w : Walk} {x y : Ctx}

/-- R146: a candidate is eligible as the policy says where it crosses two pages or is one of several writes, and always elsewhere. -/
theorem sppEligible_candidate (h : sppCandidate x.st w acc = true) :
    sppEligible c x w acc =
      if sppMaybeNot acc = false ∨ c.sppPolicy = .apply then (true, x)
      else if c.sppPolicy = .applyToNeither then (false, x) else chooseBool c x := by
  rw [sppEligible, if_pos h]
  cases sppMaybeNot acc <;> cases c.sppPolicy <;> rfl

theorem sppMaybeNot_eq_true_iff : sppMaybeNot acc = true ↔ acc.crosses = true ∨ acc.origin = .multiWrite := by
  simp [sppMaybeNot]

/-- R142, R152: a write that the EPT entries do not allow is decided by the SPP vector where it is eligible, with no APIC-access test. -/
theorem eptGrant_write {b : Bool} (hkind : effKind x.st acc = .dataWrite) (hwrite : w.rights.w = false)
    (h : sppEligible c x w acc = (b, y)) :
    eptGrant c acc gpa w x =
      if b then (sppCheck c acc gpa w y).bind fun _ z => eptPerform c acc gpa w z else .raised (violation y acc gpa w.rights none) y := by
  rw [eptGrant, if_neg (by simp [eptAllowed_write hkind, hwrite]), if_pos hkind, h]
  cases b <;> rfl

/-- R142, R146, D20, D21: a policy that leaves it free decides by one free value. -/
theorem eptGrant_nondet (hkind : effKind x.st acc = .dataWrite) (hcandidate : sppCandidate x.st w acc = true)
    (hmaybe : sppMaybeNot acc = true) (hpolicy : c.sppPolicy = .nondet) (hy : y = x.mapSt fun s => s.bump 1) :
    eptGrant c acc gpa w x = .raised (.eptViolation ⟨.dataWrite, gpa, acc.la, w.rights, acc.pswalk, none, y.mappings⟩) y ∨
      eptGrant c acc gpa w x = (sppCheck c acc gpa w y).bind fun _ z => eptPerform c acc gpa w z := by
  obtain ⟨-, hwrite, -⟩ := sppCandidate_eq_true_iff.1 hcandidate
  have hchoice : sppEligible c x w acc = ((c.free x.st.freeCtr).getLsbD 0, y) := by
    simp [sppEligible_candidate hcandidate, hmaybe, hpolicy, chooseBool, hy]
  have hkind' : effKind y.st acc = .dataWrite := by rw [hy]; exact hkind
  rw [eptGrant_write hkind hwrite hchoice]
  cases (c.free x.st.freeCtr).getLsbD 0 with
  | false => exact .inl (by rw [violation, hkind']; rfl)
  | true => exact .inr rfl

end

/-- Settles O32: such a write is a candidate, and the policy decides what becomes of it. -/
theorem sppDecidesEligibleWrite : Obligations.SppDecidesEligibleWrite := by
  intro c acc gpa w x hkind hwrite hcontrol hlevel hspp hpswalk horigin
  have hcandidate : sppCandidate x.st w acc = true := by
    refine sppCandidate_eq_true_iff.2 ⟨hcontrol, hwrite, hlevel, hspp, hpswalk, ?_⟩
    rcases horigin with h | h <;> simp [h]
  refine ⟨fun hdecided => ?_, fun hmaybe => ?_⟩
  · have heligible : sppEligible c x w acc = (true, x) := by
      rw [sppEligible_candidate hcandidate, if_pos]
      exact hdecided.imp_left fun ⟨hcrosses, hplain⟩ => by simp [sppMaybeNot, hcrosses, hplain]
    rw [eptGrant_write hkind hwrite heligible, if_pos rfl]
    refine ⟨fun e y h => ?_, fun y h had => ?_, fun y h had => ?_⟩
    · rw [h, Res.bind_raised]
    · rw [h, Res.bind_ok, eptPerform_noFlags had]
    · rw [h, Res.bind_ok, eptPerform, if_pos had]
  · have hmaybe : sppMaybeNot acc = true := sppMaybeNot_eq_true_iff.2 hmaybe
    refine ⟨fun hpolicy => ?_, fun hpolicy => ⟨_, rfl, eptGrant_nondet hkind hcandidate hmaybe hpolicy rfl⟩⟩
    have hneither : sppEligible c x w acc = (false, x) := by simp [sppEligible_candidate hcandidate, hmaybe, hpolicy]
    rw [eptGrant_write hkind hwrite hneither, violation, hkind]
    rfl

end Sys2Proof.Machine
end

section
/-! PROOFS. Accessed and dirty flags for EPT and the page-modification log: which flags must be set, what setting them changes, when an entry
is logged (44_ept_ad_pml.md R173, R174, R181 to R186). -/

namespace Sys2Proof.Machine

open Sys2Proof

/-! Which flags must be set (R181 `needA`, `needD`). -/

/-- The dirty flag of a translation's leaf entry is to be set for an access (R181 `needD`). -/
def Walk.toDirty (s : State) (w : Walk) (acc : GAccess) : Bool := effKind s acc == .dataWrite && !w.dirtyIn s.mem

theorem Walk.toDirty_eq_true_iff {s : State} {w : Walk} {acc : GAccess} :
    w.toDirty s acc = true ↔ effKind s acc = .dataWrite ∧ w.dirtyIn s.mem = false := by
  simp [Walk.toDirty]

theorem Walk.toDirty_eq_false_iff {s : State} {w : Walk} {acc : GAccess} :
    w.toDirty s acc = false ↔ effKind s acc ≠ .dataWrite ∨ w.dirtyIn s.mem = true := by
  rw [← Bool.not_eq_true, Walk.toDirty_eq_true_iff, not_and_or, Bool.not_eq_false]

theorem Walk.toAccess_eq_nil_iff {m : Memory} {w : Walk} : w.toAccess m = [] ↔ ∀ u ∈ w.used, u.accessedIn m = true := by
  simp [Walk.toAccess]

section
variable {c : Cfg} {w : Walk} {acc : GAccess} {gpa : Word} {x y : Ctx} {u : Unit}

/-- With no other agent writing, the update is of the flags that memory, or the record of a cached entry, has as clear. -/
theorem eptSetAccessedDirty_nil (hagents : x.st.agents = []) (hused : ∀ u ∈ w.used, u.cached = false → inRange c u.addr.toNat 8 = true)
    (hleaf : w.leafCached = false → inRange c w.leafAddr.toNat 8 = true) :
    eptSetAccessedDirty c w acc gpa x = eptUpdateFlags c w gpa (w.toAccess x.st.mem) (w.toDirty x.st acc) x := by
  rw [eptSetAccessedDirty, needAccessed_nil hagents hused, Res.bind_ok, needDirty_nil hagents hleaf, Res.bind_ok]
  rfl

/-- A flag of an entry that no cached mapping gave is read where the entry exists. -/
theorem entryFlag_inRange {cached recorded isSet : Bool} {ea : Word} {bit : Nat}
    (h : entryFlag c cached recorded ea bit x = .ok isSet y) (hcached : cached = false) : inRange c ea.toNat 8 = true := by
  rw [entryFlag, if_neg (by simp [hcached])] at h
  obtain ⟨e, z, hread, -⟩ := Res.bind_eq_ok.1 h
  obtain ⟨hok, -⟩ := physRead64_eq_ok.1 hread
  exact accessOk_inRange hok

theorem needAccessed_inRange {us : List WalkEntry} {l : List Word} (hagents : x.st.agents = []) (h : needAccessed c us x = .ok l y) :
    ∀ u ∈ us, u.cached = false → inRange c u.addr.toNat 8 = true := by
  induction us generalizing l y with
  | nil => exact List.forall_mem_nil _
  | cons u us ih =>
    obtain ⟨isSet, z, hflag, hrest⟩ := Res.bind_eq_ok.1 h
    obtain ⟨-, rfl⟩ := Res.ok.inj ((entryFlag_nil hagents (entryFlag_inRange hflag)).symm.trans hflag)
    obtain ⟨_, _, hus, -⟩ := Res.bind_eq_ok.1 hrest
    exact List.forall_mem_cons.2 ⟨entryFlag_inRange hflag, ih hus⟩

/-- With no other agent writing, reading the dirty flag, or the record of it, changes nothing. -/
theorem needDirty_ok {needD : Bool} (hagents : x.st.agents = []) (h : needDirty c w acc x = .ok needD y) :
    needD = w.toDirty x.st acc ∧ y = x := by
  by_cases hkind : effKind x.st acc = .dataWrite
  · have hleaf : w.leafCached = false → inRange c w.leafAddr.toNat 8 = true := by
      rw [needDirty, if_pos hkind] at h
      obtain ⟨isSet, z, hflag, -⟩ := Res.bind_eq_ok.1 h
      exact entryFlag_inRange hflag
    rw [needDirty_nil hagents hleaf] at h
    cases h
    exact ⟨rfl, rfl⟩
  · rw [needDirty, if_neg hkind] at h
    cases h
    exact ⟨(Walk.toDirty_eq_false_iff.2 (.inl hkind)).symm, rfl⟩

/-- With no other agent writing, setting the flags of an access that comes to its end is the update of the flags that are clear. -/
theorem eptSetAccessedDirty_ok (hagents : x.st.agents = []) (h : eptSetAccessedDirty c w acc gpa x = .ok u y) :
    eptUpdateFlags c w gpa (w.toAccess x.st.mem) (w.toDirty x.st acc) x = .ok u y := by
  obtain ⟨needA, x1, hneedA, h⟩ := Res.bind_eq_ok.1 h
  obtain ⟨needD, x2, hneedD, h⟩ := Res.bind_eq_ok.1 h
  obtain ⟨rfl, rfl⟩ := Res.ok.inj ((needAccessed_nil hagents (needAccessed_inRange hagents hneedA)).symm.trans hneedA)
  obtain ⟨rfl, rfl⟩ := needDirty_ok hagents hneedD
  exact h

end

/-! The log-full check (R181, R182). -/

section
variable {c : Cfg} {w : Walk} {gpa : Word} {needA : List Word} {needD : Bool} {x : Ctx}

theorem eptUpdateFlags_none : eptUpdateFlags c w gpa [] false x = .ok () x :=
  if_pos ⟨rfl, Bool.false_ne_true⟩

theorem eptUpdateFlags_full (hneed : needA ≠ [] ∨ needD = true) (hlog : x.st.pmlOn = true) (hfull : 511 < x.st.vmcs.pmlIndex.toNat) :
    eptUpdateFlags c w gpa needA needD x = .raised (.pmlFull gpa) x := by
  have hindex : x.st.pmlIndexOk = false := decide_eq_false (by omega)
  rw [eptUpdateFlags, if_neg (by tauto), if_pos (by simp [hlog, hindex])]

end

/-- Settles O33: what must be set is `Walk.toAccess` and `Walk.toDirty`, and the check comes before any write. -/
theorem logFullCheck : Obligations.LogFullCheck := by
  intro c w acc gpa x hagents hused hleaf
  rw [eptSetAccessedDirty_nil hagents hused hleaf]
  refine ⟨fun haccessed hdirty => ?_, fun hneed hlog hfull => eptUpdateFlags_full ?_ hlog hfull⟩
  · rw [Walk.toAccess_eq_nil_iff.2 haccessed, Walk.toDirty_eq_false_iff.2 hdirty, eptUpdateFlags_none]
  · refine hneed.imp (fun ⟨u, hu, hclear⟩ hnil => ?_) Walk.toDirty_eq_true_iff.2
    rw [Walk.toAccess_eq_nil_iff.1 hnil u hu] at hclear
    cases hclear

/-! What setting a bit of several entries changes (20_memory.md R45). -/

/-- From `m` to `m'` a bit of some entries has been set, no bit of memory cleared, and no byte outside those entries changed. -/
structure Memory.BitSet (bit : Nat) (l : List Word) (m m' : Memory) : Prop where
  wf : m'.wf = true
  keeps : m.KeepsSet m'
  isSet : ∀ ea ∈ l, (m'.read64 ea.toNat).getLsbD bit = true
  frame : ∀ b, (∀ ea ∈ l, outside b ea.toNat 8) → m'.read b = m.read b

section
variable {c : Cfg} {bit : Nat} {l : List Word} {x y : Ctx} {u : Unit}

theorem setEntryBits_frame (hagents : x.st.agents = []) (hm : x.st.mem.wf = true) (h : setEntryBits c x bit l = .ok u y) :
    (∀ ea ∈ l, inRange c ea.toNat 8 = true) ∧ ∀ b, (∀ ea ∈ l, outside b ea.toNat 8) → y.st.mem.read b = x.st.mem.read b := by
  induction l generalizing x with
  | nil =>
    cases h
    exact ⟨List.forall_mem_nil _, fun _ _ => rfl⟩
  | cons ea l ih =>
    obtain ⟨_, z, hset, hrest⟩ := Res.bind_eq_ok.1 h
    obtain ⟨hok, -⟩ := setEntryBit_eq_ok.1 hset
    have hea := accessOk_inRange hok
    obtain ⟨-, rfl⟩ := Res.ok.inj ((setEntryBit_nil bit hagents hea).symm.trans hset)
    obtain ⟨hl, hframe⟩ := ih (by exact hagents) (Memory.wf_write64 hm _ _) hrest
    refine ⟨List.forall_mem_cons.2 ⟨hea, hl⟩, fun b hb => ?_⟩
    obtain ⟨hbea, hbl⟩ := List.forall_mem_cons.1 hb
    exact (hframe b hbl).trans (Memory.read_write64_outside hm _ hbea)

/-- With no other agent writing, setting a bit of entries changes memory alone. -/
theorem setEntryBits_ok (hbit : bit < 64) (hagents : x.st.agents = []) (hm : x.st.mem.wf = true)
    (h : setEntryBits c x bit l = .ok u y) :
    ∃ mem, y = (x.mapSt fun s => s.withMem mem) ∧ x.st.mem.BitSet bit l mem := by
  obtain ⟨hrange, hframe⟩ := setEntryBits_frame hagents hm h
  obtain ⟨mem, hset, hwf, hkeeps, hall⟩ := setEntryBits_nil hbit hagents hm hrange
  obtain ⟨-, rfl⟩ := Res.ok.inj (hset.symm.trans h)
  exact ⟨mem, rfl, hwf, hkeeps, hall, hframe⟩

/-- With no other agent writing, a bit can be set in entries that exist. -/
theorem setEntryBits_inRange (hbit : bit < 64) (hagents : x.st.agents = []) (hm : x.st.mem.wf = true)
    (hrange : ∀ ea ∈ l, inRange c ea.toNat 8 = true) :
    ∃ mem, setEntryBits c x bit l = .ok () (x.mapSt fun s => s.withMem mem) ∧ x.st.mem.BitSet bit l mem := by
  obtain ⟨_, hset, -⟩ := setEntryBits_nil hbit hagents hm hrange
  obtain ⟨mem, heq, hbits⟩ := setEntryBits_ok hbit hagents hm hset
  exact ⟨mem, hset.trans (congrArg _ heq), hbits⟩

end

/-! What the update changes: accessed flags, then the dirty flag, then the log entry (R173, R174, R184). -/

/-- From `m` to `m'` the accessed flags of some entries have been set, then the dirty flags of others. -/
def Memory.FlagsWritten (needA needD : List Word) (m m' : Memory) : Prop := ∃ m1, m.BitSet 8 needA m1 ∧ m1.BitSet 9 needD m'

namespace Memory.FlagsWritten
variable {needA needD : List Word} {m m' : Memory}

theorem refl (hm : m.wf = true) : m.FlagsWritten [] [] m := by
  have hnone (bit : Nat) : m.BitSet bit [] m := ⟨hm, .refl m, List.forall_mem_nil _, fun _ _ => rfl⟩
  exact ⟨m, hnone 8, hnone 9⟩

theorem wf (h : m.FlagsWritten needA needD m') : m'.wf = true := by
  obtain ⟨_, -, hD⟩ := h
  exact hD.wf

theorem keeps (h : m.FlagsWritten needA needD m') : m.KeepsSet m' := by
  obtain ⟨_, hA, hD⟩ := h
  exact hA.keeps.trans hD.keeps

theorem accessed (h : m.FlagsWritten needA needD m') : ∀ ea ∈ needA, (m'.read64 ea.toNat).getLsbD 8 = true := by
  obtain ⟨_, hA, hD⟩ := h
  exact fun ea hea => hD.keeps.read64 (by omega) (hA.isSet ea hea)

theorem dirty (h : m.FlagsWritten needA needD m') : ∀ ea ∈ needD, (m'.read64 ea.toNat).getLsbD 9 = true := by
  obtain ⟨_, -, hD⟩ := h
  exact hD.isSet

theorem frame (h : m.FlagsWritten needA needD m') {b : Nat} (hA : ∀ ea ∈ needA, outside b ea.toNat 8)
    (hD : ∀ ea ∈ needD, outside b ea.toNat 8) : m'.read b = m.read b := by
  obtain ⟨_, hA', hD'⟩ := h
  exact (hD'.frame b hD).trans (hA'.frame b hA)

end Memory.FlagsWritten

/-- The state after a log entry for a guest-physical address (R183, R184, R186). -/
def State.logged (gpa : Word) (s : State) : State :=
  (s.withMem (s.mem.write64 s.pmlEntry.toNat (gpa &&& ~~~0xFFF#64))).withVmcs { s.vmcs with pmlIndex := s.vmcs.pmlIndex - 1#16 }

/-- The leaf entry's address, where its dirty flag must be set. -/
def Walk.dirtyList (w : Walk) (needD : Bool) : List Word := if needD then [w.leafAddr] else []

theorem Walk.mem_dirtyList {w : Walk} {needD : Bool} {ea : Word} : ea ∈ w.dirtyList needD ↔ needD = true ∧ ea = w.leafAddr := by
  cases needD <;> simp [Walk.dirtyList]

section
variable {c : Cfg} {w : Walk} {gpa : Word} {needA : List Word} {needD : Bool} {x y : Ctx} {u : Unit} (hagents : x.st.agents = [])
include hagents

theorem pmlLog_eq_ok : pmlLog c gpa x = .ok u y ↔ inRange c x.st.pmlEntry.toNat 8 = true ∧ y = x.mapSt (State.logged gpa) := by
  rw [pmlLog, Res.bind_eq_ok]
  simp only [physWrite_eq_ok, accessOk_nil hagents, Ctx.interleave_nil hagents, length_bytesOfWord]
  constructor
  · rintro ⟨_, _, ⟨hrange, rfl⟩, hy⟩
    cases hy
    exact ⟨hrange, rfl⟩
  · rintro ⟨hrange, rfl⟩
    exact ⟨(), _, ⟨hrange, rfl⟩, rfl⟩

/-- Where entries exist and the log has room, the update sets their flags, and then logs where it has to. -/
theorem eptUpdateFlags_inRange (hm : x.st.mem.wf = true) (hindex : x.st.vmcs.pmlIndex.toNat ≤ 511)
    (hA : ∀ ea ∈ needA, inRange c ea.toNat 8 = true) (hleaf : inRange c w.leafAddr.toNat 8 = true) :
    ∃ mem, x.st.mem.FlagsWritten needA (w.dirtyList needD) mem ∧
      eptUpdateFlags c w gpa needA needD x =
        if x.st.pmlOn && (needD || (c.pmlLogsOnAccessedUpdate && needA ≠ [])) then pmlLog c gpa (x.mapSt fun s => s.withMem mem)
        else .ok () (x.mapSt fun s => s.withMem mem) := by
  by_cases hnone : needA = [] ∧ needD = false
  · obtain ⟨rfl, rfl⟩ := hnone
    exact ⟨x.st.mem, .refl hm, by rw [eptUpdateFlags_none, if_neg (by simp)]; rfl⟩
  · have hD : ∀ ea ∈ w.dirtyList needD, inRange c ea.toNat 8 = true := fun ea hea => by
      obtain ⟨-, rfl⟩ := Walk.mem_dirtyList.1 hea
      exact hleaf
    obtain ⟨m1, hset1, hbits1⟩ := setEntryBits_inRange (bit := 8) (by omega) hagents hm hA
    obtain ⟨m2, hset2, hbits2⟩ :=
      setEntryBits_inRange (bit := 9) (x := x.mapSt fun s => s.withMem m1) (by omega) hagents hbits1.wf hD
    refine ⟨m2, ⟨m1, hbits1, hbits2⟩, ?_⟩
    have hroom : x.st.pmlIndexOk = true := decide_eq_true hindex
    rw [eptUpdateFlags, if_neg (by simpa using hnone), if_neg (by simp [hroom]), hset1, Res.bind_ok, ← Walk.dirtyList, hset2, Res.bind_ok]
    rfl

/-- All that an update that comes to its end can have done: the flags set, and with the log on an entry logged after them. -/
theorem eptUpdateFlags_ok (hm : x.st.mem.wf = true) (h : eptUpdateFlags c w gpa needA needD x = .ok u y) :
    ∃ mem, x.st.mem.FlagsWritten needA (w.dirtyList needD) mem ∧
      ((y = x.mapSt fun s => s.withMem mem) ∨
        (x.st.pmlOn = true ∧ y = (x.mapSt fun s => s.withMem mem).mapSt (State.logged gpa))) := by
  by_cases hnone : needA = [] ∧ needD = false
  · obtain ⟨rfl, rfl⟩ := hnone
    cases eptUpdateFlags_none.symm.trans h
    exact ⟨x.st.mem, .refl hm, .inl rfl⟩
  rw [eptUpdateFlags, if_neg (by simpa using hnone), ← Walk.dirtyList] at h
  split at h
  · cases h
  · obtain ⟨_, x1, hset1, h⟩ := Res.bind_eq_ok.1 h
    obtain ⟨_, x2, hset2, h⟩ := Res.bind_eq_ok.1 h
    obtain ⟨m1, rfl, hbits1⟩ := setEntryBits_ok (by omega) hagents hm hset1
    obtain ⟨m2, rfl, hbits2⟩ := setEntryBits_ok (by omega) (by exact hagents) hbits1.wf hset2
    refine ⟨m2, ⟨m1, hbits1, hbits2⟩, ?_⟩
    split at h
    · next hlog =>
      obtain ⟨-, hy⟩ := (pmlLog_eq_ok (by exact hagents)).1 h
      exact .inr ⟨(Bool.and_eq_true_iff.1 hlog).1, hy⟩
    · cases h
      exact .inl rfl

end

/-- Settles O34: `State.logged` is what a log entry changes, and it is written after the flags, which leave the index as it is. -/
theorem logEntryWritten : Obligations.LogEntryWritten := by
  rintro c gpa x _ rfl hagents hm hrange
  refine ⟨⟨_, (pmlLog_eq_ok hagents).2 ⟨hrange, rfl⟩, rfl, Memory.read64_write64 hm _ _,
    fun b hb => Memory.read_write64_outside hm _ hb⟩, fun w acc hlog hindex hused hleaf => ?_⟩
  rw [eptSetAccessedDirty_nil hagents (fun u hu _ => hused u hu) fun _ => hleaf]
  have hA : ∀ ea ∈ w.toAccess x.st.mem, inRange c ea.toNat 8 = true := fun ea hea => by
    obtain ⟨u, hu, -, rfl⟩ := Walk.mem_toAccess.1 hea
    exact hused u hu
  obtain ⟨mem, hflags, hupdate⟩ :=
    eptUpdateFlags_inRange (gpa := gpa) (needD := w.toDirty x.st acc) hagents hm hindex hA hleaf
  rw [hupdate]
  refine ⟨fun hkind hdirty => ?_, fun hclean hpolicy => ?_⟩
  · rw [if_pos (by simp [hlog, Walk.toDirty_eq_true_iff.2 ⟨hkind, hdirty⟩])]
    exact ⟨_, (pmlLog_eq_ok (by exact hagents)).2 ⟨hrange, rfl⟩, rfl, Memory.read64_write64 hflags.wf _ _⟩
  · rw [Walk.toDirty_eq_false_iff.2 hclean] at hflags ⊢
    rw [if_neg (by simp [hpolicy])]
    refine ⟨_, rfl, rfl, fun b hb => hflags.frame (fun ea hea => ?_) (List.forall_mem_nil _)⟩
    obtain ⟨u, hu, hclear, rfl⟩ := Walk.mem_toAccess.1 hea
    exact hb u hu hclear

/-! Flags are set and never cleared. -/

/-- A byte of which no set bit has been cleared. -/
theorem Memory.KeepsSet.and_not {m m' : Memory} (h : m.KeepsSet m') (b : Nat) : m.read b &&& ~~~(m'.read b) = 0#8 := by
  refine BitVec.eq_of_getLsbD_eq fun j _ => ?_
  rw [BitVec.getLsbD_and, BitVec.getLsbD_not]
  cases hset : (m.read b).getLsbD j with
  | false => simp
  | true => simp [h b j hset]

section
variable {w : Walk} {acc : GAccess} {s : State} {mem : Memory}
  (hflags : s.mem.FlagsWritten (w.toAccess s.mem) (w.dirtyList (w.toDirty s acc)) mem)
include hflags

/-- Each entry used has its accessed flag set in memory, where what a cached mapping recorded as set was set. -/
theorem Memory.FlagsWritten.accessed_of_mem_used {u : WalkEntry} (hu : u ∈ w.used)
    (hrecorded : u.cached = true → u.accessed = true → (s.mem.read64 u.addr.toNat).getLsbD 8 = true) :
    (mem.read64 u.addr.toNat).getLsbD 8 = true := by
  cases hset : u.accessedIn s.mem with
  | false => exact hflags.accessed _ (Walk.mem_toAccess.2 ⟨u, hu, hset, rfl⟩)
  | true =>
    refine hflags.keeps.read64 (by omega) ?_
    cases hcached : u.cached with
    | false => rwa [WalkEntry.accessedIn_of_not_cached hcached] at hset
    | true => exact hrecorded hcached (by rwa [WalkEntry.accessedIn, if_pos hcached] at hset)

/-- After a write the leaf entry has its dirty flag set in memory, where what a cached mapping recorded as set was set. -/
theorem Memory.FlagsWritten.dirty_of_write (hkind : effKind s acc = .dataWrite)
    (hrecorded : w.leafCached = true → w.leaf.dirty = true → (s.mem.read64 w.leafAddr.toNat).getLsbD 9 = true) :
    (mem.read64 w.leafAddr.toNat).getLsbD 9 = true := by
  cases hset : w.dirtyIn s.mem with
  | false => exact hflags.dirty _ (Walk.mem_dirtyList.2 ⟨Walk.toDirty_eq_true_iff.2 ⟨hkind, hset⟩, rfl⟩)
  | true =>
    refine hflags.keeps.read64 (by omega) ?_
    cases hcached : w.leafCached with
    | false => rwa [Walk.dirtyIn_of_not_cached hcached] at hset
    | true => exact hrecorded hcached (by rwa [Walk.dirtyIn, if_pos hcached] at hset)

end

/-- Settles O35: the flags are set by `Memory.FlagsWritten`, and outside the log entry memory is as they leave it. -/
theorem flagsSetAndSticky : Obligations.FlagsSetAndSticky := by
  intro c w acc gpa x y hagents hm h
  obtain ⟨mem, hflags, hy⟩ := eptUpdateFlags_ok hagents hm (eptSetAccessedDirty_ok hagents h)
  have hread : ∀ b, x.st.pmlOn = false ∨ outside b x.st.pmlEntry.toNat 8 → y.st.mem.read b = mem.read b := by
    intro b hb
    rcases hy with rfl | ⟨hlog, rfl⟩
    · rfl
    · exact Memory.read_write64_outside hflags.wf _ (hb.resolve_left (by simp [hlog]))
  refine ⟨fun b hb => ?_, fun b hb hA hD => ?_, fun hlog hrecordedA hrecordedD => ?_⟩
  · rw [hread b hb]
    exact hflags.keeps.and_not b
  · refine (hread b hb).trans (hflags.frame (fun ea hea => ?_) fun ea hea => ?_)
    · obtain ⟨u, hu, hclear, rfl⟩ := Walk.mem_toAccess.1 hea
      exact hA u hu hclear
    · obtain ⟨hneed, rfl⟩ := Walk.mem_dirtyList.1 hea
      obtain ⟨hkind, hclear⟩ := Walk.toDirty_eq_true_iff.1 hneed
      exact hD hkind hclear
  · obtain rfl : y = x.mapSt fun s => s.withMem mem := hy.resolve_right fun ⟨hon, _⟩ => by simp [hlog] at hon
    exact ⟨fun u hu => hflags.accessed_of_mem_used hu (hrecordedA u hu), fun hkind => hflags.dirty_of_write hkind hrecordedD⟩

end Sys2Proof.Machine
end

section
/-! PROOFS. Memory types: of accesses to the EPT paging structures, and the effective one of an access that EPT translated
(45_ept_memtype.md R200 to R207). -/

namespace Sys2Proof.Machine

open Sys2Proof

section
variable {c : Cfg} {s : State} {leaf : LeafBits} {guest : List GuestEntry}

/-! CR0.CD decides first (R200, R203). -/

theorem State.eptStructMemType_of_cd (hcd : s.cd = true) : s.eptStructMemType = some .uc := if_pos hcd

theorem State.eptStructMemType_of_not_cd (hcd : s.cd = false) :
    s.eptStructMemType = decodeEptpMemType (s.vmcs.eptp.extractLsb' 0 3) := by
  simp [State.eptStructMemType, hcd]

/-- Whatever type the leaf holds, a reserved one too. -/
theorem effectiveMemType_of_cd (hcd : s.cd = true) : effectiveMemType c s leaf guest = some .uc := if_pos hcd

theorem effectiveMemType_of_not_cd (hcd : s.cd = false) : effectiveMemType c s leaf guest = structuresMemType c s leaf guest := by
  simp [effectiveMemType, hcd]

/-! What the paging structures give (R204 to R207). -/

/-- R204: the five encodings of an EPT memory type that are not reserved. -/
theorem decodeEptMemType_of_mem {v : BitVec 3} {ept : MemType}
    (h : (v, ept) ∈ [(0#3, MemType.uc), (1#3, .wc), (4#3, .wt), (5#3, .wp), (6#3, .wb)]) : decodeEptMemType v = some ept := by
  simp only [List.mem_cons, List.not_mem_nil, or_false, Prod.mk.injEq] at h
  obtain ⟨rfl, rfl⟩ | ⟨rfl, rfl⟩ | ⟨rfl, rfl⟩ | ⟨rfl, rfl⟩ | ⟨rfl, rfl⟩ := h <;> rfl

theorem structuresMemType_of_decode {ept : MemType} (h : decodeEptMemType leaf.memType = some ept) :
    structuresMemType c s leaf guest = some (if leaf.ignorePat then ept else c.combineMemType ept (patMemType c s guest)) := by
  simp [structuresMemType, h]

end

/-- R203, R228: the memory type of an access through a cached combined translation, with CR0.CD as it is where the access ends. -/
theorem accessByCombTr_memType {c : Cfg} {p : Part} {m : CombTr} {x y : Ctx} {d : PartDone} (h : accessByCombTr c p m x = .ok d y) :
    d.memType = if y.st.cd then some .uc else m.memType := by
  obtain ⟨-, _, -, hgranted⟩ := Res.bind_eq_ok.1 h
  obtain ⟨pa, z, -, hdone⟩ := Res.bind_eq_ok.1 hgranted
  cases hdone
  rfl

/-- Settles O36: with CR0.CD clear it is what bits 2:0 of the EPTP decode to. -/
theorem eptStructuresMemType : Obligations.EptStructuresMemType := by
  intro s
  cases hcd : s.cr0.getLsbD 30 with
  | true => exact State.eptStructMemType_of_cd hcd
  | false => exact State.eptStructMemType_of_not_cd hcd

/-- Settles O37: CR0.CD, then the leaf's type by bit 6; the cached clause is `accessByCombTr_memType`. -/
theorem effectiveMemType_spec : Obligations.EffectiveMemType := by
  refine ⟨fun c s e guest ept hept => ?_, fun _ _ _ _ _ _ h => accessByCombTr_memType h⟩
  cases hcd : s.cr0.getLsbD 30 with
  | true => exact effectiveMemType_of_cd hcd
  | false =>
    have hdecode : decodeEptMemType (leafBitsOf e).memType = some ept := decodeEptMemType_of_mem hept
    exact (effectiveMemType_of_not_cd hcd).trans (structuresMemType_of_decode hdecode)

end Sys2Proof.Machine
end

section
/-! PROOFS. What the walks of a fill come to: the entries they go through, in the EPT and in the guest's tables, and the state they leave
(46_caching.md R224 to R238, 41_ept_translation.md R102, 42_ept_vmexits.md R124, log 29). -/

namespace Sys2Proof.Machine

open Sys2Proof

/-! The state that a fill comes to (log 29). -/

/-- Other agents have made the first of their writes and free values may have been drawn; nothing else has changed. -/
def State.Drifts (s t : State) : Prop :=
  ∃ k n, t = { s with agents := s.agents.drop k, mem := s.mem.writeAll (s.agents.take k).flatten, freeCtr := n }

theorem State.Drifts.refl (s : State) : s.Drifts s := ⟨0, s.freeCtr, rfl⟩

theorem State.Drifts.trans {s t u : State} (hst : s.Drifts t) (htu : t.Drifts u) : s.Drifts u := by
  obtain ⟨k, n, rfl⟩ := hst
  obtain ⟨k', n', rfl⟩ := htu
  exact ⟨k + k', n', by simp [List.drop_drop, List.take_add, Memory.writeAll_append]⟩

theorem State.Drifts.eptInUse {s t : State} (h : s.Drifts t) : t.eptInUse = s.eptInUse := by
  obtain ⟨k, n, rfl⟩ := h
  rfl

/-- With no other agent's write to come, only free values are drawn. -/
theorem State.Drifts.eq_withFreeCtr {s t : State} (h : s.Drifts t) (hagents : s.agents = []) : ∃ n, t = s.withFreeCtr n := by
  obtain ⟨k, n, rfl⟩ := h
  refine ⟨n, ?_⟩
  simp only [hagents, List.drop_nil, List.take_nil, List.flatten_nil]
  rw [State.withFreeCtr, ← hagents]
  rfl

/-- A walk of a fill leaves none of its own effects. -/
theorem Kept.drifts {c : Cfg} {s : State} {x : Ctx} (h : Kept c (Ctx.start s.forFill) x) : s.Drifts (s.meanwhile x) := by
  obtain ⟨⟨k, hagents, hforeign⟩, -⟩ := h.meanwhile
  refine ⟨k, x.st.freeCtr, ?_⟩
  rw [State.meanwhile, hagents, hforeign]
  rfl

/-- R234, R237: a fill finds what its walk comes to. -/
theorem fillRun_eq_some {α : Type} {s t : State} {walk : Ctx → Res α} {a : α} :
    fillRun s walk = some (a, t) ↔ ∃ x, walk (Ctx.start s.forFill) = .ok a x ∧ t = s.meanwhile x := by
  rw [fillRun]
  cases walk (Ctx.start s.forFill) <;> simp [eq_comm]

theorem fillFind_eq_some {α : Type} {s t : State} {walk : Ctx → Res (Option α)} {a : α} :
    fillFind s walk = some (a, t) ↔ ∃ x, walk (Ctx.start s.forFill) = .ok (some a) x ∧ t = s.meanwhile x := by
  rw [← fillRun_eq_some, fillFind]
  rcases fillRun s walk with _ | ⟨_ | b, u⟩ <;> simp

/-! The entries of an EPT walk, with no other agent writing (41_ept_translation.md R91 to R102). -/

/-- R101, R116: an entry that is gone through is present and well configured. -/
theorem eptEntry_eq_ok {c : Cfg} {acc : GAccess} {gpa base e : Word} {level : Nat} {r : Rights} {x y : Ctx} (hagents : x.st.agents = [])
    (h : eptEntry c acc gpa x level base r = .ok e y) :
    entryIs c x.st gpa level base e ∧ eptPresent x.st e = true ∧ eptMisconfigured c x.st e level (isLeaf level e) = false ∧
      y = x.read gpa level base := by
  obtain ⟨e', z, hread, htest⟩ := Res.bind_eq_ok.1 h
  obtain ⟨hok, rfl, rfl⟩ := physRead64_eq_ok.1 hread
  rw [Ctx.interleave_nil hagents] at htest
  rw [accessOk_nil hagents] at hok
  split at htest
  · cases htest
  · rename_i hpresent
    split at htest
    · cases htest
    · rename_i hconfigured
      cases htest
      exact ⟨⟨hagents, hok, rfl⟩, by simpa using hpresent, by simpa using hconfigured, rfl⟩

/-- R98, R102: a walk that comes to an end has gone through entries that reference tables to one that maps a page. -/
theorem eptWalkFrom_eq_ok {c : Cfg} {acc : GAccess} {gpa base : Word} {n : Nat} {r : Rights} {used : List WalkEntry} {w : Walk}
    {x y : Ctx} (hagents : x.st.agents = []) (h : eptWalkFrom c acc gpa n base r used x = .ok w y) :
    ∃ es level b e, es.length + level = n + 1 ∧ eptPath c x.st gpa (n + 1) base es b ∧ entryIs c x.st gpa level b e ∧
      mapsPage c x.st level e ∧
      w = walkLeaf gpa level (b + 8#64 * gpaIndex gpa level) e ((es.foldl Rights.meet r).meet e)
        (used ++ (readEntries gpa (n + 1) base es ++ [readEntry gpa level b e])) := by
  induction n generalizing base r used x with
  | zero =>
    obtain ⟨e, z, hread, hend⟩ := Res.bind_eq_ok.1 (by rwa [eptWalkFrom] at h)
    obtain ⟨hentry, hpresent, hconfigured, -⟩ := eptEntry_eq_ok hagents hread
    have hleaf : isLeaf 1 e = true := rfl
    dsimp only at hend
    rw [if_pos hleaf] at hend
    cases hend
    exact ⟨[], 1, base, e, rfl, rfl, hentry, ⟨hpresent, hleaf ▸ hconfigured, hleaf⟩, rfl⟩
  | succ n ih =>
    obtain ⟨e, z, hread, hend⟩ := Res.bind_eq_ok.1 (by rwa [eptWalkFrom] at h)
    obtain ⟨hentry, hpresent, hconfigured, rfl⟩ := eptEntry_eq_ok hagents hread
    dsimp only at hend
    split at hend
    · rename_i hleaf
      cases hend
      exact ⟨[], n + 2, base, e, by simp, rfl, hentry, ⟨hpresent, hleaf ▸ hconfigured, hleaf⟩, rfl⟩
    · rename_i hleaf
      have hleaf : isLeaf (n + 2) e = false := by simpa using hleaf
      obtain ⟨es, level, b, e', hlen, hpath, hentry', hmaps, rfl⟩ := ih (x := x.read gpa (n + 2) base) hagents hend
      refine ⟨e :: es, level, b, e', by rw [List.length_cons]; omega, ⟨hentry, ⟨hpresent, hleaf ▸ hconfigured, hleaf⟩, hpath⟩,
        hentry', hmaps, ?_⟩
      rw [List.append_assoc]
      rfl

theorem eptWalk_eq_ok {c : Cfg} {acc : GAccess} {gpa : Word} {w : Walk} {x y : Ctx} (hagents : x.st.agents = [])
    (h : eptWalk c acc gpa x = .ok w y) :
    ∃ es level base e, eptLeaf c x.st gpa es level base e ∧ w = leafWalk x.st gpa es level base e := by
  obtain ⟨es, level, base, e, hlen, hpath, hentry, hmaps, rfl⟩ := eptWalkFrom_eq_ok hagents h
  exact ⟨es, level, base, e, ⟨hlen, hpath, hentry, hmaps⟩, rfl⟩

/-- R227: a table that is found is the one that the last entry of a path references. -/
theorem eptTableAt_eq_ok {c : Cfg} {gpa base : Word} {fuel level : Nat} {r : Rights} {used : List WalkEntry}
    {q : Word × Rights × List WalkEntry} {x y : Ctx} (hagents : x.st.agents = [])
    (h : eptTableAt c gpa fuel level base r used x = .ok (some q) y) :
    ∃ es, es ≠ [] ∧ es.length + level = fuel + 1 ∧ eptPath c x.st gpa fuel base es q.1 ∧ q.2.1 = es.foldl Rights.meet r ∧
      q.2.2 = used ++ readEntries gpa fuel base es := by
  induction fuel generalizing base r used x with
  | zero => cases h
  | succ fuel ih =>
    obtain ⟨e, z, hread, hend⟩ := Res.bind_eq_ok.1 h
    obtain ⟨hentry, hpresent, hconfigured, rfl⟩ := eptEntry_eq_ok hagents hread
    dsimp only at hend
    split at hend
    · cases hend
    · rename_i hleaf
      have hleaf : isLeaf (fuel + 1) e = false := by simpa using hleaf
      have href : referencesTable c x.st (fuel + 1) e := ⟨hpresent, hleaf ▸ hconfigured, hleaf⟩
      split at hend
      · rename_i hlevel
        cases hend
        exact ⟨[e], List.cons_ne_nil e [], by simp [← hlevel, Nat.add_comm], ⟨hentry, href, rfl⟩, rfl, rfl⟩
      · obtain ⟨es, -, hlen, hpath, hrights, hused⟩ := ih (x := x.read gpa (fuel + 1) base) hagents hend
        refine ⟨e :: es, List.cons_ne_nil e es, by rw [List.length_cons]; omega, ⟨hentry, href, hpath⟩, hrights, hused.trans ?_⟩
        rw [List.append_assoc]
        rfl

/-! The walks of a fill see the memory and the controls of the state they are made from. -/

theorem eptPath_forFill {c : Cfg} {s : State} {k : Nat} {gpa base t : Word} {level : Nat} {es : List Word} :
    eptPath c (s.withFreeCtr k).forFill gpa level base es t ↔ eptPath c s gpa level base es t := by
  induction es generalizing level base with
  | nil => exact Iff.rfl
  | cons e es ih => exact and_congr Iff.rfl (and_congr Iff.rfl ih)

theorem eptLeaf_forFill {c : Cfg} {s : State} {k : Nat} {gpa base e : Word} {level : Nat} {es : List Word} :
    eptLeaf c (s.withFreeCtr k).forFill gpa es level base e ↔ eptLeaf c s gpa es level base e :=
  and_congr Iff.rfl (and_congr eptPath_forFill Iff.rfl)

/-- R97: an entry of level 1 references no table, so a walk ends at level 1 or above. -/
theorem eptPath_length_lt {c : Cfg} {s : State} {gpa base t : Word} {level : Nat} {es : List Word} (hlevel : 1 ≤ level)
    (h : eptPath c s gpa level base es t) : es.length < level := by
  induction es generalizing level base with
  | nil => exact hlevel
  | cons e es ih =>
    obtain ⟨-, ⟨-, -, hleaf⟩, hrest⟩ := h
    have hne : level ≠ 1 := by
      rintro rfl
      cases hleaf
    have := ih (level := level - 1) (by omega) hrest
    rw [List.length_cons]
    omega

/-! What is recorded of the entries (R102, R230, log 28). -/

/-- R102: the rights of a walk are the ANDs over its entries. -/
theorem foldl_meet_full (es : List Word) : es.foldl Rights.meet .full = rightsOf es := by
  have hfrom : ∀ r : Rights, es.foldl Rights.meet r =
      ⟨r.r && (rightsOf es).r, r.w && (rightsOf es).w, r.x && (rightsOf es).x, r.xu && (rightsOf es).xu⟩ := by
    induction es with
    | nil => simp [rightsOf]
    | cons e es ih => simp [ih, rightsOf, Rights.meet, Bool.and_assoc]
  simp [hfrom, Rights.full]

theorem leafWalk_rights (s : State) (gpa : Word) (es : List Word) (level : Nat) (base e : Word) :
    (leafWalk s gpa es level base e).rights = rightsOf (es ++ [e]) := by
  rw [← foldl_meet_full, List.foldl_append]
  rfl

/-- R102: the bits of the frame and those of the offset in the page are different ones. -/
theorem leafFrame_or_lowBits (e gpa : Word) (level : Nat) :
    leafFrame e level ||| lowBits gpa (eptRegionBits level) = leafFrame e level + lowBits gpa (eptRegionBits level) := by
  refine (BitVec.add_eq_or_of_and_eq_zero _ _ (BitVec.eq_of_getLsbD_eq fun i hi => ?_)).symm
  simp only [leafFrame, lowBits, BitVec.getLsbD_and, BitVec.getLsbD_not]
  generalize ((1#64 <<< eptRegionBits level) - 1#64).getLsbD i = b
  cases b <;> simp

theorem leafWalk_pa_sub (s : State) (gpa : Word) (es : List Word) (level : Nat) (base e : Word) :
    (leafWalk s gpa es level base e).pa - lowBits gpa (eptRegionBits level) = leafFrame e level := by
  rw [leafWalk, walkLeaf, leafFrame_or_lowBits, BitVec.add_sub_cancel]

/-- R230: the kept bits, the flags as read or, with EPTP bit 6 clear, as set. -/
theorem fillLeaf_leafBitsOf (s : State) (e : Word) : fillLeaf s (leafBitsOf e) = recordedLeaf s e := by
  rw [fillLeaf, recordedLeaf]
  cases s.eptAd <;> simp [leafBitsOf, LeafBits.flagged]

theorem fillUsed_readEntries (s : State) (gpa : Word) (level : Nat) (base : Word) (es : List Word) :
    fillUsed s (readEntries gpa level base es) = recordsOf s gpa level base es := by
  induction es generalizing level base with
  | nil => rfl
  | cons e es ih => exact congrArg _ (ih (level - 1) (tableBase e))

/-- The entries of a path and one more at the table it leads to. -/
theorem readEntries_append {c : Cfg} {s : State} {gpa base b : Word} {level : Nat} {es : List Word} (e : Word)
    (h : eptPath c s gpa level base es b) :
    readEntries gpa level base (es ++ [e]) = readEntries gpa level base es ++ [readEntry gpa (level - es.length) b e] := by
  induction es generalizing level base with
  | nil =>
    cases h
    rfl
  | cons e' es ih =>
    obtain ⟨-, -, hrest⟩ := h
    rw [List.cons_append, readEntries, ih hrest, List.length_cons, Nat.sub_sub, Nat.add_comm 1]
    rfl

theorem fillUsed_leafWalk {c : Cfg} {s : State} {gpa base e : Word} {level : Nat} {es : List Word} (h : eptLeaf c s gpa es level base e) :
    fillUsed s (leafWalk s gpa es level base e).used = recordsOf s gpa 4 (tableBase s.vmcs.eptp) (es ++ [e]) := by
  obtain ⟨hlen, hpath, -⟩ := h
  obtain rfl : level = 4 - es.length := by omega
  rw [← fillUsed_readEntries, readEntries_append e hpath]
  rfl

/-! The EPT's part of a fill (R226, R229, R234). -/

section
variable {c : Cfg} {s t u : State} {gpa : Word} {w : Walk}

theorem fillEpt_eq_some :
    fillEpt c gpa s = some (w, t) ↔
      s.eptInUse = true ∧ gpaOk gpa = true ∧ ∃ x, eptWalk c fillAccess gpa (Ctx.start s.forFill) = .ok w x ∧ t = s.meanwhile x := by
  rw [fillEpt, ← fillRun_eq_some, ← and_assoc, ← Bool.and_eq_true]
  split <;> simp [*]

theorem fillEpt_drifts (h : fillEpt c gpa s = some (w, t)) : s.Drifts t := by
  obtain ⟨-, -, x, hwalk, rfl⟩ := fillEpt_eq_some.1 h
  exact ((eptWalkFrom_keeps ..).kept_of_ok hwalk).drifts

/-- R226, R304: with no other agent writing, the EPT's part comes from the walk in memory, whatever free values were drawn before. -/
theorem fillEpt_leafWalk (hagents : s.agents = []) (hdrift : s.Drifts t) (h : fillEpt c gpa t = some (w, u)) :
    ∃ es level base e, eptLeaf c s gpa es level base e ∧ w = leafWalk s gpa es level base e := by
  obtain ⟨n, rfl⟩ := hdrift.eq_withFreeCtr hagents
  obtain ⟨-, -, x, hwalk, -⟩ := fillEpt_eq_some.1 h
  obtain ⟨es, level, base, e, hleaf, rfl⟩ := eptWalk_eq_ok hagents hwalk
  exact ⟨es, level, base, e, eptLeaf_forFill.1 hleaf, rfl⟩

/-- R234: a walk of memory that ends at a page is found. -/
theorem fillEpt_of_eptLeaf {es : List Word} {level : Nat} {base e : Word} (hept : s.eptInUse = true) (hgpa : gpa >>> 48 = 0#64)
    (h : eptLeaf c s gpa es level base e) : ∃ w t, fillEpt c gpa s = some (w, t) := by
  have hlevel : level ≠ 0 := by
    obtain ⟨hlen, hpath, -⟩ := h
    have := eptPath_length_lt (by omega) hpath
    omega
  obtain ⟨n, rfl⟩ := Nat.exists_eq_succ_of_ne_zero hlevel
  obtain ⟨x, -, hwalk⟩ := eptWalk_leafWalk (s := s.forFill) (eptLeaf_forFill (k := s.freeCtr).2 h) fillAccess
  exact ⟨_, _, fillEpt_eq_some.2 ⟨hept, by rw [gpaOk, hgpa]; rfl, x, hwalk, rfl⟩⟩

/-- R229: a fill holds nothing of the sub-page permissions, or what a lookup comes to. -/
theorem fillSpp_cases (c : Cfg) (gpa : Word) (w : Walk) (f : SppFill) (s : State) :
    fillSpp c gpa w f s = (none, s) ∨
      (s.vmcs.sppControl = true ∧ w.level = 1 ∧ w.leaf.spp = true ∧
        ((∃ v x, sppVector c fillAccess gpa (Ctx.start s.forFill) = .ok v x ∧ fillSpp c gpa w f s = (some (.vector v), s.meanwhile x)) ∨
          ∃ above b x, above < 3 ∧ sppTables c fillAccess gpa (3 - above) 4 (sppBase c s.vmcs.spptp) (Ctx.start s.forFill) = .ok b x ∧
            fillSpp c gpa w f s = (some (.table above b), s.meanwhile x))) := by
  unfold fillSpp
  extract_lets found
  rcases hfound : found with _ | ⟨h, t⟩
  · exact .inl rfl
  · refine .inr ?_
    dsimp only [found] at hfound
    split at hfound
    · rename_i heligible
      simp only [Bool.and_eq_true, beq_iff_eq] at heligible
      obtain ⟨⟨hcontrol, hlevel⟩, hspp⟩ := heligible
      refine ⟨hcontrol, hlevel, hspp, ?_⟩
      cases f with
      | nothing => cases hfound
      | vector =>
        obtain ⟨x, hwalk, rfl⟩ := fillRun_eq_some.1 hfound
        obtain ⟨v, y, hvector, hend⟩ := Res.bind_eq_ok.1 hwalk
        cases hend
        exact .inl ⟨v, x, hvector, rfl⟩
      | table above =>
        dsimp only at hfound
        split at hfound
        · rename_i habove
          obtain ⟨x, hwalk, rfl⟩ := fillRun_eq_some.1 hfound
          obtain ⟨b, y, htables, hend⟩ := Res.bind_eq_ok.1 hwalk
          cases hend
          exact .inr ⟨above, b, x, habove, htables, rfl⟩
        · cases hfound
    · cases hfound

theorem fillSpp_drifts (c : Cfg) (gpa : Word) (w : Walk) (f : SppFill) (s : State) : s.Drifts (fillSpp c gpa w f s).2 := by
  obtain h | ⟨-, -, -, ⟨v, x, hvector, h⟩ | ⟨above, b, x, -, htables, h⟩⟩ := fillSpp_cases c gpa w f s <;> rw [h]
  · exact .refl s
  · exact ((sppVector_keeps ..).kept_of_ok hvector).drifts
  · exact ((sppTables_keeps ..).kept_of_ok htables).drifts

/-- R229: with no other agent writing, what is held is what the lookup in memory comes to. -/
theorem sppRecorded_fillSpp {e : Word} (hagents : s.agents = []) (hdrift : s.Drifts t) (hspp : w.leaf.spp = e.getLsbD 61) (f : SppFill) :
    sppRecorded c s gpa w.level e (fillSpp c gpa w f t).1 := by
  obtain ⟨n, rfl⟩ := hdrift.eq_withFreeCtr hagents
  obtain h | ⟨hcontrol, hlevel, hleaf, hheld⟩ := fillSpp_cases c gpa w f (s.withFreeCtr n)
  · rw [h]
    exact .inl rfl
  · refine .inr ⟨hcontrol, hlevel, hspp ▸ hleaf, ?_⟩
    obtain ⟨v, x, hvector, h⟩ | ⟨above, b, x, habove, htables, h⟩ := hheld <;> rw [h]
    · exact .inl ⟨v, n, x, rfl, hvector⟩
    · exact .inr ⟨above, b, n, x, habove, rfl, htables⟩

end

/-! The guest's part of a fill (R224, R225, R228, R231, 42_ept_vmexits.md R124). -/

/-- A walk that comes to an end has read the entries of a path. -/
theorem guestPath_of_guestWalkFrom {c : Cfg} {kind : AccKind} {la table : Word} {n : Nat} {es : List GuestEntry} {g : GuestWalk}
    {x z : Ctx} (h : guestWalkFrom c kind la n table es x = .ok g z) :
    ∃ ges ge, guestPath c kind la (ges ++ [ge]) n table es x z := by
  induction n generalizing table es x with
  | zero =>
    obtain ⟨ge, y, hentry, hend⟩ := Res.bind_eq_ok.1 (by rwa [guestWalkFrom] at h)
    cases hend
    exact ⟨[], ge, z, hentry, .inl ⟨rfl, .inl rfl, rfl⟩⟩
  | succ n ih =>
    obtain ⟨ge, y, hentry, hend⟩ := Res.bind_eq_ok.1 (by rwa [guestWalkFrom] at h)
    dsimp only at hend
    split at hend
    · rename_i href
      obtain ⟨ges, ge', hpath⟩ := ih hend
      exact ⟨ge :: ges, ge', y, hentry, .inr ⟨n, rfl, href, hpath⟩⟩
    · rename_i hlast
      cases hend
      exact ⟨[], ge, z, hentry, .inl ⟨rfl, .inr (by simpa using hlast), rfl⟩⟩

/-- A table that is found is the one that the last of `depth` entries references. -/
theorem guestTableAt_eq_ok {c : Cfg} {la table : Word} {depth n : Nat} {es : List GuestEntry} {q : Word × Nat × List GuestEntry}
    {x y : Ctx} (h : guestTableAt c la depth n table es x = .ok (some q) y) :
    ∃ ges, ges ≠ [] ∧ ges.length = depth ∧ depth + q.2.1 = n + 2 ∧ q.2.2 = es ++ ges ∧ guestTables c la ges n table es x q.1 := by
  induction depth generalizing n table es x with
  | zero => cases h
  | succ depth ih =>
    cases n with
    | zero => cases h
    | succ n =>
      obtain ⟨ge, z, hentry, hend⟩ := Res.bind_eq_ok.1 h
      dsimp only at hend
      split at hend
      · rename_i href
        split at hend
        · rename_i hdepth
          cases hend
          exact ⟨[ge], List.cons_ne_nil ge [], by simp [hdepth], by simp only; omega, rfl, y, n, rfl, hentry, href, rfl⟩
        · obtain ⟨ges, -, hlen, hlevel, hguest, htables⟩ := ih hend
          exact ⟨ge :: ges, List.cons_ne_nil ge ges, by simp [hlen], by omega, by simp [hguest], z, n, rfl, hentry, href, htables⟩
      · cases hend

section
variable {c : Cfg} {s t : State} {la : Word}

/-- R231, R236: the guest's part of a translation is that of a walk of memory, with paging. -/
theorem fillGuest_eq_some {g : GuestWalk} (h : fillGuest c la s = some (g, t)) :
    s.pg = true ∧ guestLeaf c s la g.entries g.gpa g.size ∧ s.Drifts t := by
  rw [fillGuest] at h
  split at h
  · rename_i hpg
    obtain ⟨x, hwalk, rfl⟩ := fillRun_eq_some.1 h
    obtain ⟨ges, ge, hpath⟩ := guestPath_of_guestWalkFrom hwalk
    have heq : guestWalk c .dataRead la (Ctx.start s.forFill) = _ := guestWalkFrom_guestPath hpath rfl
    rw [hwalk] at heq
    cases heq
    exact ⟨hpg, ⟨ges, ge, _, x, rfl, hpath, rfl, rfl, rfl⟩, ((guestWalkFrom_keeps ..).kept_of_ok hwalk).drifts⟩
  · cases h

/-- R225, R228: the guest's part of a paging-structure-cache entry, likewise. -/
theorem fillGuestTable_eq_some {depth : Nat} {q : Word × Nat × List GuestEntry} (h : fillGuestTable c la depth s = some (q, t)) :
    s.pg = true ∧ q.2.2.length = depth ∧ guestTableAtLevel c s la q.2.2 q.1 q.2.1 ∧ s.Drifts t := by
  rw [fillGuestTable] at h
  split at h
  · rename_i hpg
    obtain ⟨x, hwalk, rfl⟩ := fillFind_eq_some.1 h
    have hlevel := guestTableAt_level hwalk
    obtain ⟨ges, hne, rfl, hlen, hguest, htables⟩ := guestTableAt_eq_ok hwalk
    obtain rfl : ges = q.2.2 := hguest.symm
    have hpos := List.length_pos_of_ne_nil hne
    exact ⟨hpg, rfl, ⟨hne, by omega, htables⟩, ((guestTableAt_keeps ..).kept_of_ok hwalk).drifts⟩
  · cases h

end

end Sys2Proof.Machine
end

section
/-! PROOFS. Which mappings a fill creates: their tags, their contents, and the guest entries they record (46_caching.md R224 to R238). -/

namespace Sys2Proof.Machine

open Sys2Proof

/-! Guest entries that are present, with no reserved bit set (R232, R237). -/

/-- The guest entries, from that of a level on, are present and have no reserved bit set. -/
def GuestEntriesGood (c : Cfg) (regs : GuestRegs) (level : Nat) (guest : List GuestEntry) : Prop :=
  ∀ i (h : i < guest.length), c.guest.notPresentOrReserved regs (level - i) guest[i].value = false

theorem GuestEntriesGood.nil {c : Cfg} {regs : GuestRegs} {level : Nat} : GuestEntriesGood c regs level [] := nofun

theorem GuestEntriesGood.cons {c : Cfg} {regs : GuestRegs} {level : Nat} {ge : GuestEntry} {rest : List GuestEntry}
    (hfirst : c.guest.notPresentOrReserved regs (level + 1) ge.value = false) (hrest : GuestEntriesGood c regs level rest) :
    GuestEntriesGood c regs (level + 1) (ge :: rest)
  | 0, _ => hfirst
  | i + 1, h => by
    rw [Nat.add_sub_add_right]
    exact hrest i (Nat.lt_of_succ_lt_succ h)

/-- R232, R237: an entry that is read without a page fault is good; the guest's registers stay as they are. -/
theorem guestEntry_good {c : Cfg} {kind : AccKind} {la table : Word} {es : List GuestEntry} {level : Nat} {o : Option CombPsc}
    {ge : GuestEntry} {x y : Ctx} (h : guestEntry c kind la es level table o x = .ok ge y) :
    c.guest.notPresentOrReserved x.st.guestRegs level ge.value = false ∧ y.st.guestRegs = x.st.guestRegs := by
  have hregs : y.st.guestRegs = x.st.guestRegs := ((guestEntry_keeps ..).kept_of_ok h).guestRegs
  obtain ⟨g, u, -, hread⟩ := Res.bind_eq_ok.1 h
  obtain ⟨bs, z, -, htest⟩ := Res.bind_eq_ok.1 hread
  dsimp only at htest
  split at htest
  · cases htest
  · rename_i hgood
    cases htest
    exact ⟨by simpa [hregs] using hgood, hregs⟩

theorem guestPath_good {c : Cfg} {kind : AccKind} {la table : Word} {ges es : List GuestEntry} {n : Nat} {x z : Ctx}
    (h : guestPath c kind la ges n table es x z) : GuestEntriesGood c x.st.guestRegs (n + 1) ges := by
  induction ges generalizing n table es x with
  | nil => exact h.elim
  | cons ge rest ih =>
    obtain ⟨y, hentry, hend⟩ := h
    obtain ⟨hgood, hregs⟩ := guestEntry_good hentry
    obtain ⟨rfl, -⟩ | ⟨k, rfl, -, hrest⟩ := hend
    · exact .cons hgood .nil
    · exact .cons hgood (hregs ▸ ih hrest)

theorem guestTables_good {c : Cfg} {la table t : Word} {ges es : List GuestEntry} {n : Nat} {x : Ctx}
    (h : guestTables c la ges n table es x t) : GuestEntriesGood c x.st.guestRegs (n + 1) ges := by
  induction ges generalizing n table es x with
  | nil => exact .nil
  | cons ge rest ih =>
    obtain ⟨y, k, rfl, hentry, -, hrest⟩ := h
    obtain ⟨hgood, hregs⟩ := guestEntry_good hentry
    exact .cons hgood (hregs ▸ ih hrest)

section
variable {c : Cfg} {s t : State} {la : Word} {k : Mapping}

theorem guestLeaf_good {guest : List GuestEntry} {gpa : Word} {size : Nat} (h : guestLeaf c s la guest gpa size) :
    GuestEntriesGood c s.guestRegs (c.guest.levels s.guestRegs - 1 + 1) guest := by
  obtain ⟨ges, ge, level, z, -, hpath, -⟩ := h
  exact guestPath_good hpath

theorem guestTableAtLevel_good {guest : List GuestEntry} {table : Word} {level : Nat} (h : guestTableAtLevel c s la guest table level) :
    GuestEntriesGood c s.guestRegs (c.guest.levels s.guestRegs - 1 + 1) guest := by
  obtain ⟨-, -, htables⟩ := h
  exact guestTables_good htables

/-! What each of the six fills creates. -/

theorem fillLinearTr_eq_some (h : fillLinearTr c s la = some (k, t)) :
    s.eptInUse = false ∧ s.Drifts t ∧ ∃ g : GuestWalk, guestLeaf c s la g.entries g.gpa g.size ∧
      k = .linearTr
        ⟨s.currentVpid, s.currentPcid c, c.guest.isGlobal s.guestRegs g.entries, pageOf la g.size, g.gpa - lowBits la g.size, g.size,
          g.entries, c.guest.patType s.guestRegs g.entries, s.apicPage⟩ := by
  rw [fillLinearTr] at h
  split at h
  · cases h
  · rename_i hept
    obtain ⟨⟨g, u⟩, hguest, hk⟩ := Option.map_eq_some_iff.1 h
    obtain ⟨-, hleaf, hdrift⟩ := fillGuest_eq_some hguest
    cases hk
    exact ⟨by simpa using hept, hdrift, g, hleaf, rfl⟩

theorem fillLinearPsc_eq_some {depth : Nat} (h : fillLinearPsc c s la depth = some (k, t)) :
    s.eptInUse = false ∧ s.Drifts t ∧ ∃ table level guest, guest.length = depth ∧ guestTableAtLevel c s la guest table level ∧
      k = .linearPsc ⟨s.currentVpid, s.currentPcid c, pageOf la (c.guest.regionBits s.guestRegs level),
        c.guest.regionBits s.guestRegs level, level, table, guest⟩ := by
  rw [fillLinearPsc] at h
  split at h
  · cases h
  · rename_i hept
    obtain ⟨⟨⟨table, level, guest⟩, u⟩, hfound, hk⟩ := Option.map_eq_some_iff.1 h
    obtain ⟨-, hlen, htable, hdrift⟩ := fillGuestTable_eq_some hfound
    cases hk
    exact ⟨by simpa using hept, hdrift, table, level, guest, hlen, htable, rfl⟩

theorem fillGPhysTr_eq_some {gpa : Word} {f : SppFill} (h : fillGPhysTr c s gpa f = some (k, t)) :
    s.eptInUse = true ∧ s.Drifts t ∧ ∃ w u, fillEpt c gpa s = some (w, u) ∧
      k = .gphysTr ⟨s.ep4ta, pageOf gpa (eptRegionBits w.level), w.pa - lowBits gpa (eptRegionBits w.level), eptRegionBits w.level,
        w.rights, fillLeaf s w.leaf, w.leafAddr, fillUsed s w.used, (fillSpp c gpa w f u).1, s.apicPage⟩ := by
  obtain ⟨⟨w, u⟩, hept, hk⟩ := Option.map_eq_some_iff.1 h
  obtain ⟨huse, -⟩ := fillEpt_eq_some.1 hept
  cases hk
  exact ⟨huse, (fillEpt_drifts hept).trans (fillSpp_drifts c gpa w f u), w, u, hept, rfl⟩

theorem fillGPhysPsc_eq_some {gpa : Word} {level : Nat} (h : fillGPhysPsc c s gpa level = some (k, t)) :
    s.eptInUse = true ∧ s.Drifts t ∧ ∃ q x,
      eptTableAt c gpa 4 level (tableBase s.vmcs.eptp) .full [] (Ctx.start s.forFill) = .ok (some q) x ∧
      k = .gphysPsc ⟨s.ep4ta, pageOf gpa (eptRegionBits level), level, q.1, q.2.1, fillUsed s q.2.2⟩ := by
  rw [fillGPhysPsc] at h
  split at h
  · rename_i huse
    obtain ⟨⟨q, u⟩, hfound, hk⟩ := Option.map_eq_some_iff.1 h
    obtain ⟨x, hwalk, rfl⟩ := fillFind_eq_some.1 hfound
    cases hk
    exact ⟨(Bool.and_eq_true_iff.1 huse).1, ((eptTableAt_keeps ..).kept_of_ok hwalk).drifts, q, x, hwalk, rfl⟩
  · cases h

/-- R228, R236: the guest's part with paging is that of a walk of memory; without paging the guest has none. -/
theorem fillCombTr_eq_some {f : SppFill} (h : fillCombTr c s la f = some (k, t)) :
    s.eptInUse = true ∧ s.Drifts t ∧ ∃ gpa guest isGlobal guestSize w u v,
      (s.pg = true → guestLeaf c s la guest gpa guestSize ∧ isGlobal = c.guest.isGlobal s.guestRegs guest) ∧
      (s.pg = false → guest = [] ∧ gpa = la ∧ guestSize = eptRegionBits w.level ∧ isGlobal = false) ∧
      s.Drifts u ∧ fillEpt c gpa u = some (w, v) ∧ s.Drifts v ∧
      k = combine c s la gpa guest isGlobal guestSize w (fillSpp c gpa w f v).1 := by
  rw [fillCombTr] at h
  split at h
  · rename_i hpg
    obtain ⟨⟨g, u⟩, hguest, hcombined⟩ := Option.bind_eq_some_iff.1 h
    obtain ⟨⟨w, v⟩, hept, hk⟩ := Option.map_eq_some_iff.1 hcombined
    obtain ⟨-, hleaf, hsu⟩ := fillGuest_eq_some hguest
    obtain ⟨huse, -⟩ := fillEpt_eq_some.1 hept
    have hsv := hsu.trans (fillEpt_drifts hept)
    cases hk
    exact ⟨hsu.eptInUse ▸ huse, hsv.trans (fillSpp_drifts c g.gpa w f v), g.gpa, g.entries, _, g.size, w, u, v, fun _ => ⟨hleaf, rfl⟩,
      fun hnot => absurd hpg (by simp [hnot]), hsu, hept, hsv, rfl⟩
  · rename_i hpg
    obtain ⟨⟨w, v⟩, hept, hk⟩ := Option.map_eq_some_iff.1 h
    obtain ⟨huse, -⟩ := fillEpt_eq_some.1 hept
    have hsv := fillEpt_drifts hept
    cases hk
    exact ⟨huse, hsv.trans (fillSpp_drifts c la w f v), la, [], false, _, w, s, v, fun h => absurd h hpg,
      fun _ => ⟨rfl, rfl, rfl, rfl⟩, .refl s, hept, hsv, rfl⟩

theorem fillCombPsc_eq_some {depth : Nat} (h : fillCombPsc c s la depth = some (k, t)) :
    s.eptInUse = true ∧ s.pg = true ∧ s.Drifts t ∧ ∃ table level guest w u, guest.length = depth ∧
      guestTableAtLevel c s la guest table level ∧ s.Drifts u ∧ fillEpt c table u = some (w, t) ∧
      k = .combPsc ⟨s.currentVpid, s.currentPcid c, s.ep4ta, pageOf la (c.guest.regionBits s.guestRegs level),
        c.guest.regionBits s.guestRegs level, level, w.pa, table, guest, w.rights, fillLeaf s w.leaf, w.leafAddr, fillUsed s w.used,
        s.apicPage⟩ := by
  rw [fillCombPsc] at h
  split at h
  · rename_i huse
    obtain ⟨⟨⟨table, level, guest⟩, u⟩, hfound, hcombined⟩ := Option.bind_eq_some_iff.1 h
    obtain ⟨⟨w, v⟩, hept, hk⟩ := Option.map_eq_some_iff.1 hcombined
    obtain ⟨hpg, hlen, htable, hsu⟩ := fillGuestTable_eq_some hfound
    cases hk
    exact ⟨huse, hpg, hsu.trans (fillEpt_drifts hept), table, level, guest, w, u, hlen, htable, hsu, hept, rfl⟩
  · cases h

end

/-- Settles O40: what a linear or combined mapping records of the guest are entries that were read without a page fault. -/
theorem noFillFromBadGuestEntry : Obligations.NoFillFromBadGuestEntry := by
  intro c s t la guest hfill
  have hgood : GuestEntriesGood c s.guestRegs (c.guest.levels s.guestRegs - 1 + 1) guest := by
    obtain ⟨m, h, rfl⟩ | ⟨f, m, h, rfl⟩ | ⟨depth, m, h, rfl⟩ | ⟨depth, m, h, rfl⟩ := hfill
    · obtain ⟨-, -, g, hleaf, hk⟩ := fillLinearTr_eq_some h
      cases hk
      exact guestLeaf_good hleaf
    · obtain ⟨-, -, gpa, guest, isGlobal, guestSize, w, u, v, hpaged, hunpaged, -, -, -, hk⟩ := fillCombTr_eq_some h
      cases hk
      cases hpg : s.pg with
      | true =>
        obtain ⟨hleaf, -⟩ := hpaged hpg
        exact guestLeaf_good hleaf
      | false =>
        obtain ⟨rfl, -⟩ := hunpaged hpg
        exact .nil
    · obtain ⟨-, -, table, level, guest, -, htable, hk⟩ := fillLinearPsc_eq_some h
      cases hk
      exact guestTableAtLevel_good htable
    · obtain ⟨-, -, -, table, level, guest, w, u, -, htable, -, -, hk⟩ := fillCombPsc_eq_some h
      cases hk
      exact guestTableAtLevel_good htable
  rwa [show c.guest.levels s.guestRegs - 1 + 1 = max 1 (c.guest.levels s.guestRegs) by omega] at hgood

/-! Tags (R224 to R228, R231, R233 to R236, R238). -/

/-- The kind and the tags of a mapping are those that section 2 of 46_caching.md lets a fill create. -/
def Mapping.TaggedFor (c : Cfg) (s : State) (m : Mapping) : Prop :=
  (s.eptInUse = false → m.isLinear = true) ∧
  (s.eptInUse = true → m.isGPhysOrCombined = true ∧ m.hasEp4ta s.ep4ta = true) ∧
  (m.isGPhys = false → m.hasVpid s.currentVpid = true ∧ m.hasPcid (s.currentPcid c) = true) ∧
  (s.pg = false → m.isCombined = true → m.isPsc = false)

section
variable {c : Cfg} {s : State} {m : Mapping}

/-- R224, R225, R231: a linear mapping, without EPT. -/
theorem Mapping.TaggedFor.linear (hept : s.eptInUse = false) (hkind : m.isLinear = true) (hcombined : m.isCombined = false)
    (hvpid : m.hasVpid s.currentVpid = true) (hpcid : m.hasPcid (s.currentPcid c) = true) : m.TaggedFor c s :=
  ⟨fun _ => hkind, fun h => by simp [hept] at h, fun _ => ⟨hvpid, hpcid⟩, fun _ h => by simp [hcombined] at h⟩

/-- R226, R227, R234: a guest-physical mapping, with EPT. -/
theorem Mapping.TaggedFor.gphys (hept : s.eptInUse = true) (hkind : m.isGPhys = true) (hcombined : m.isCombined = false)
    (hep4ta : m.hasEp4ta s.ep4ta = true) : m.TaggedFor c s :=
  ⟨fun h => by simp [hept] at h, fun _ => ⟨by simp [Mapping.isGPhysOrCombined, hkind], hep4ta⟩, fun h => by simp [hkind] at h,
    fun _ h => by simp [hcombined] at h⟩

/-- R228, R236: a combined mapping, with EPT; one that is a paging-structure-cache entry, with paging. -/
theorem Mapping.TaggedFor.combined (hept : s.eptInUse = true) (hkind : m.isCombined = true) (hpsc : s.pg = true ∨ m.isPsc = false)
    (hep4ta : m.hasEp4ta s.ep4ta = true) (hvpid : m.hasVpid s.currentVpid = true) (hpcid : m.hasPcid (s.currentPcid c) = true) :
    m.TaggedFor c s :=
  ⟨fun h => by simp [hept] at h, fun _ => ⟨by simp [Mapping.isGPhysOrCombined, hkind], hep4ta⟩, fun _ => ⟨hvpid, hpcid⟩,
    fun hpg _ => hpsc.resolve_left (by simp [hpg])⟩

end

theorem fillMapping_tagged {c : Cfg} {s t : State} {f : FillReq} {m : Mapping} (h : fillMapping c s f = some (m, t)) :
    m.TaggedFor c s ∧ s.Drifts t := by
  cases f with
  | linearTr la =>
    obtain ⟨hept, hdrift, g, -, rfl⟩ := fillLinearTr_eq_some h
    exact ⟨.linear hept rfl rfl (beq_self_eq_true _) (beq_self_eq_true _), hdrift⟩
  | linearPsc la depth =>
    obtain ⟨hept, hdrift, table, level, guest, -, -, rfl⟩ := fillLinearPsc_eq_some h
    exact ⟨.linear hept rfl rfl (beq_self_eq_true _) (beq_self_eq_true _), hdrift⟩
  | gphysTr gpa f =>
    obtain ⟨hept, hdrift, w, u, -, rfl⟩ := fillGPhysTr_eq_some h
    exact ⟨.gphys hept rfl rfl (beq_self_eq_true _), hdrift⟩
  | gphysPsc gpa level =>
    obtain ⟨hept, hdrift, q, x, -, rfl⟩ := fillGPhysPsc_eq_some h
    exact ⟨.gphys hept rfl rfl (beq_self_eq_true _), hdrift⟩
  | combTr la f =>
    obtain ⟨hept, hdrift, gpa, guest, isGlobal, guestSize, w, u, v, -, -, -, -, -, rfl⟩ := fillCombTr_eq_some h
    exact ⟨.combined hept rfl (.inr rfl) (beq_self_eq_true _) (beq_self_eq_true _) (beq_self_eq_true _), hdrift⟩
  | combPsc la depth =>
    obtain ⟨hept, hpg, hdrift, table, level, guest, w, u, -, -, -, -, rfl⟩ := fillCombPsc_eq_some h
    exact ⟨.combined hept rfl (.inl hpg) (beq_self_eq_true _) (beq_self_eq_true _) (beq_self_eq_true _), hdrift⟩

/-- Settles O38: the kind and the tags are `Mapping.TaggedFor`, and the contents are what `leafWalk` gives of the EPT's part and `guestLeaf`
or `guestTableAtLevel` of the guest's. -/
theorem fillsFollowTheRules : Obligations.FillsFollowTheRules := by
  refine ⟨fun c s t f m h => ?_, fun c s gpa f hagents => ⟨fun k t h => ?_, fun es level base e hept hgpa hleaf => ?_⟩,
    ?_, ?_, ?_, ?_, ?_⟩
  · obtain ⟨⟨hlinear, hep4ta, htags, hpsc⟩, hdrift⟩ := fillMapping_tagged h
    exact ⟨hlinear, hep4ta, htags, hpsc, hdrift⟩
  · obtain ⟨-, -, w, u, hept, rfl⟩ := fillGPhysTr_eq_some h
    obtain ⟨es, level, base, e, hleaf, rfl⟩ := fillEpt_leafWalk hagents (.refl s) hept
    exact ⟨_, es, level, base, e, rfl, hleaf, rfl, rfl, leafWalk_pa_sub s gpa es level base e, leafWalk_rights s gpa es level base e,
      fillLeaf_leafBitsOf s e, rfl, fillUsed_leafWalk hleaf, rfl, sppRecorded_fillSpp hagents (fillEpt_drifts hept) rfl f⟩
  · obtain ⟨w, t, hfound⟩ := fillEpt_of_eptLeaf hept hgpa hleaf
    rw [fillMapping, fillGPhysTr, hfound]
    rfl
  · intro c s t gpa level k hagents h
    obtain ⟨-, -, q, x, hwalk, rfl⟩ := fillGPhysPsc_eq_some h
    obtain ⟨es, hne, hlen, hpath, hrights, hused⟩ := eptTableAt_eq_ok hagents hwalk
    refine ⟨_, es, rfl, rfl, rfl, hne, hlen, eptPath_forFill (k := s.freeCtr).1 hpath, hrights.trans (foldl_meet_full es), ?_⟩
    rw [hused]
    exact fillUsed_readEntries s gpa 4 _ es
  · rintro c s t a la k rfl h
    obtain ⟨-, -, g, hleaf, rfl⟩ := fillLinearTr_eq_some h
    exact ⟨_, g.gpa, rfl, hleaf, rfl, BitVec.sub_add_cancel .., rfl, rfl, rfl⟩
  · rintro c s t a la depth k rfl h
    obtain ⟨-, -, table, level, guest, hlen, htable, rfl⟩ := fillLinearPsc_eq_some h
    exact ⟨_, rfl, hlen, htable, rfl, rfl⟩
  · rintro c s t a la f k hagents rfl h
    obtain ⟨-, -, gpa, guest, isGlobal, guestSize, w, u, v, hpaged, hunpaged, hsu, hept, hsv, rfl⟩ := fillCombTr_eq_some h
    obtain ⟨es, level, base, e, hleaf, rfl⟩ := fillEpt_leafWalk hagents hsu hept
    exact ⟨_, gpa, guestSize, es, level, base, e, rfl, hleaf, hpaged, hunpaged, rfl, rfl, BitVec.sub_add_cancel .., BitVec.sub_add_cancel ..,
      leafWalk_rights s gpa es level base e, by rw [← fillLeaf_leafBitsOf]; rfl, rfl, fillUsed_leafWalk hleaf, rfl, rfl,
      sppRecorded_fillSpp hagents hsv rfl f⟩
  · rintro c s t a la depth k hagents rfl h
    obtain ⟨-, -, -, table, level, guest, w, u, hlen, htable, hsu, hept, rfl⟩ := fillCombPsc_eq_some h
    obtain ⟨es, level', base, e, hleaf, rfl⟩ := fillEpt_leafWalk hagents hsu hept
    exact ⟨_, es, level', base, e, rfl, hlen, htable, rfl, rfl, hleaf, rfl, leafWalk_rights s table es level' base e,
      fillLeaf_leafBitsOf s e, rfl, fillUsed_leafWalk hleaf, rfl⟩

end Sys2Proof.Machine
end

section
/-! PROOFS. INVEPT and INVVPID where they complete, fail, or are not executed, and INVLPG (47_invalidation.md R262 to R287, R290 to R296,
R301). -/

namespace Sys2Proof.Machine

open Sys2Proof

/-! Invalidations and what comes after them (R261, R287). -/

/-- The state after an invalidation that succeeds: VMsucceed's flags, and the mappings that had to go are gone. -/
theorem vmSucceed_invalidate (c : Cfg) (required : Mapping → Bool) (s : State) :
    ∃ kept n, vmSucceed (invalidate c required s) =
        { s with flags := ⟨false, false, false, false, false, false⟩, cache := kept, freeCtr := n, report := .ok } ∧
      kept.Sublist s.cache ∧ ∀ k ∈ kept, required k = false := by
  obtain ⟨kept, n, hsub, hgone, heq⟩ := invalidate_spec c required s
  exact ⟨kept, n, by rw [heq]; rfl, hsub, hgone⟩

/-- VMfail with a current VMCS: ZF, and the VM-instruction error. -/
theorem vmFail_current {s : State} (h : s.vmcsCurrent = true) (n : Nat) :
    vmFail n s =
      { s with flags := ⟨false, false, false, true, false, false⟩, vmcs := { s.vmcs with instrError := BitVec.ofNat 32 n },
               report := .vmFail n } := by
  rw [vmFail, if_pos h]
  rfl

/-- VMfail without a current VMCS: CF. -/
theorem vmFail_not_current {s : State} (h : s.vmcsCurrent = false) (n : Nat) :
    vmFail n s = { s with flags := ⟨true, false, false, false, false, false⟩, report := .vmFail n } := by
  rw [vmFail, if_neg (by simp [h])]
  rfl

/-! Past the tests (1) to (3) the operands decide. -/

section
variable {c : Cfg} {type : Word} {d : BitVec 128} {s : State}

theorem inveptOp_of_valid (hcheck : vmxCheck .invept s = none) (h : inveptValid c type d = true) :
    inveptOp c type d s = vmSucceed (invalidate c (inveptRequired type d) s) := by
  rw [inveptOp, hcheck]
  exact if_pos h

theorem inveptOp_of_invalid (hcheck : vmxCheck .invept s = none) (h : inveptValid c type d = false) :
    inveptOp c type d s = vmFail 28 s := by
  rw [inveptOp, hcheck]
  exact if_neg (by simp [h])

theorem invvpidOp_of_valid (hcheck : vmxCheck .invvpid s = none) (h : invvpidValid c type d = true) :
    invvpidOp c type d s = vmSucceed (invalidate c (invvpidRequired type d) s) := by
  rw [invvpidOp, hcheck]
  exact if_pos h

theorem invvpidOp_of_invalid (hcheck : vmxCheck .invvpid s = none) (h : invvpidValid c type d = false) :
    invvpidOp c type d s = vmFail 28 s := by
  rw [invvpidOp, hcheck]
  exact if_neg (by simp [h])

/-- R284 (4) to (6): each of them makes the operands bad. -/
theorem inveptValid_eq_false
    (h : (type ≠ 1#64 ∧ type ≠ 2#64) ∨ (type = 1#64 ∧ c.inveptTypes.getLsbD 1 = false) ∨
      (type = 2#64 ∧ c.inveptTypes.getLsbD 2 = false) ∨ descHigh d ≠ 0#64 ∨ (type = 1#64 ∧ eptpValid c (descEptp d) = false)) :
    inveptValid c type d = false := by
  rcases h with ⟨h1, h2⟩ | ⟨rfl, h⟩ | ⟨rfl, h⟩ | h | ⟨rfl, h⟩
  · simp [inveptValid, h1, h2]
  · rw [inveptValid, h]
    simp
  · rw [inveptValid, h]
    simp
  · simp [inveptValid, h]
  · simp [inveptValid, h]

/-- R276 (4) to (7): each of them makes the operands bad. -/
theorem invvpidValid_eq_false
    (h : 3 < type.toNat ∨ c.invvpidTypes.getLsbD type.toNat = false ∨ descReserved d ≠ 0#48 ∨
      (type ≠ 2#64 ∧ descVpid d = 0#16) ∨ (type = 0#64 ∧ canonical (descHigh d) = false)) :
    invvpidValid c type d = false := by
  rcases h with h | h | h | ⟨htype, h⟩ | ⟨rfl, h⟩
  · have hbig : ¬ type.toNat < 4 := by omega
    simp [invvpidValid, hbig]
  · simp [invvpidValid, h]
  · simp [invvpidValid, h]
  · simp [invvpidValid, htype, h]
  · simp [invvpidValid, h]

end

/-- Settles O45: the tests (1) to (3) are passed, and a bad operand leaves VMfail alone. -/
theorem inveptFails : Obligations.InveptFails := by
  intro c s type d hmode hcpl hcpu hbad
  have hfail : inveptOp c type d s = vmFail 28 s :=
    inveptOp_of_invalid (vmxCheck_eq_none hmode hcpl hcpu _) (inveptValid_eq_false hbad)
  rw [hfail]
  exact ⟨fun hcurrent => vmFail_current hcurrent 28, fun hcurrent => vmFail_not_current hcurrent 28⟩

/-- Settles O47: the tests (1) to (3) are passed, and a bad operand leaves VMfail alone. -/
theorem invvpidFails : Obligations.InvvpidFails := by
  intro c s type d hmode hcpl hcpu hbad
  have hfail : invvpidOp c type d s = vmFail 28 s :=
    invvpidOp_of_invalid (vmxCheck_eq_none hmode hcpl hcpu _) (invvpidValid_eq_false hbad)
  rw [hfail]
  exact ⟨fun hcurrent => vmFail_current hcurrent 28, fun hcurrent => vmFail_not_current hcurrent 28⟩

/-! Where the instructions complete: the descriptor is read where linear addresses are physical. -/

theorem exec_invept (s : State) (r : Reg) (m : MemOp) :
    exec (.invept r m) s = descInstr Config.cfg .invept (inveptOp Config.cfg) r m s := rfl

theorem exec_invvpid (s : State) (r : Reg) (m : MemOp) :
    exec (.invvpid r m) s = descInstr Config.cfg .invvpid (invvpidOp Config.cfg) r m s := rfl

/-- The descriptor is the 16 bytes at its linear address, and reading it changes nothing (30_encoding.md R64, 42_ept_vmexits.md R125). -/
theorem descInstr_flat {c : Cfg} {i : ExitInstr} {s : State} {m : MemOp} (hcheck : vmxCheck i s = none) (hflat : s.Flat)
    (hseg : s.segmentAllows m 16 = true) (hrange : flatInRange c s (s.linearAddr m) 16) (op : Word → BitVec 128 → State → State) (r : Reg) :
    descInstr c i op r m s = .next (op (s.regOperand r) (descOfBytes (s.flatBytes c (s.linearAddr m) 16)) s) := by
  obtain ⟨parts, hread⟩ := linearAccess_flat hflat hrange .plain (.inl rfl)
  exact descInstr_read hcheck op r hseg hread

theorem State.flat_of_root {s : State} (hmode : s.mode = .root) (hpg : s.pg = false) (hagents : s.agents = []) : s.Flat :=
  ⟨hpg, by simp [hmode], hagents⟩

theorem Config.cfg_inveptTypes : Config.cfg.inveptTypes = 0b110#3 := rfl

theorem Config.cfg_invvpidTypes : Config.cfg.invvpidTypes = 0b1111#4 := rfl

/-- R284: the machine supports both types of INVEPT. -/
theorem inveptValid_cfg {type : Word} {d : BitVec 128} (hhigh : descHigh d = 0#64)
    (htype : (type = 1#64 ∧ eptpValid Config.cfg (descEptp d) = true) ∨ type = 2#64) : inveptValid Config.cfg type d = true := by
  rcases htype with ⟨rfl, heptp⟩ | rfl
  · simp [inveptValid, Config.cfg_inveptTypes, hhigh, heptp]
  · simp [inveptValid, Config.cfg_inveptTypes, hhigh]

/-- R276: the machine supports the four types of INVVPID. -/
theorem invvpidValid_cfg {type : Word} {d : BitVec 128} (hreserved : descReserved d = 0#48)
    (htype : type = 2#64 ∨ (type = 1#64 ∧ descVpid d ≠ 0#16) ∨ (type = 3#64 ∧ descVpid d ≠ 0#16) ∨
      (type = 0#64 ∧ descVpid d ≠ 0#16 ∧ canonical (descHigh d) = true)) : invvpidValid Config.cfg type d = true := by
  rcases htype with rfl | ⟨rfl, hvpid⟩ | ⟨rfl, hvpid⟩ | ⟨rfl, hvpid, hcanonical⟩
  · simp [invvpidValid, Config.cfg_invvpidTypes, hreserved]
  · simp [invvpidValid, Config.cfg_invvpidTypes, hreserved, hvpid]
  · simp [invvpidValid, Config.cfg_invvpidTypes, hreserved, hvpid]
  · simp [invvpidValid, Config.cfg_invvpidTypes, hreserved, hvpid, hcanonical]

/-- R285: INVEPT with operands that are valid. -/
theorem exec_invept_completes {s : State} {r : Reg} {m : MemOp} {d : BitVec 128} (hcheck : vmxCheck .invept s = none) (hflat : s.Flat)
    (hseg : s.segmentAllows m 16 = true) (hrange : flatInRange Config.cfg s (s.linearAddr m) 16)
    (hd : d = descOfBytes (s.flatBytes Config.cfg (s.linearAddr m) 16)) (hvalid : inveptValid Config.cfg (s.regOperand r) d = true) :
    ∃ kept n, exec (.invept r m) s =
        .next { s with flags := ⟨false, false, false, false, false, false⟩, cache := kept, freeCtr := n, report := .ok } ∧
      kept.Sublist s.cache ∧ ∀ k ∈ kept, inveptRequired (s.regOperand r) d k = false := by
  obtain ⟨kept, n, heq, hkept⟩ := vmSucceed_invalidate Config.cfg (inveptRequired (s.regOperand r) d) s
  exact ⟨kept, n, by rw [exec_invept, descInstr_flat hcheck hflat hseg hrange, ← hd, inveptOp_of_valid hcheck hvalid, heq], hkept⟩

/-- Settles O44: what `inveptRequired` names of a type is what had to go. -/
theorem inveptCompletes : Obligations.InveptCompletes := by
  intro s r m d hmode hcpl hcpu hpg hagents hseg hrange hd hhigh
  have hcompletes := exec_invept_completes (r := r) (vmxCheck_eq_none hmode hcpl hcpu _) (State.flat_of_root hmode hpg hagents) hseg hrange hd
  refine ⟨fun htype heptp => ?_, fun htype => ?_⟩
  · obtain ⟨kept, n, heq, hsub, hgone⟩ := hcompletes (inveptValid_cfg hhigh (.inl ⟨htype, heptp⟩))
    refine ⟨kept, n, heq, hsub, fun k hk ⟨hkind, htag⟩ => ?_⟩
    have htag : k.hasEp4ta (ep4taOf (descEptp d)) = true := htag
    simpa [inveptRequired, htype, hkind, htag] using hgone k hk
  · obtain ⟨kept, n, heq, hsub, hgone⟩ := hcompletes (inveptValid_cfg hhigh (.inr htype))
    exact ⟨kept, n, heq, hsub, fun k hk => by simpa [inveptRequired, htype] using hgone k hk⟩

/-- Settles O46: what `invvpidRequired` names of a type is what had to go. -/
theorem invvpidCompletes : Obligations.InvvpidCompletes := by
  intro s r m d hmode hcpl hcpu hpg hagents hseg hrange hd hreserved htype
  have hcheck := vmxCheck_eq_none hmode hcpl hcpu .invvpid
  obtain ⟨kept, n, heq, hsub, hgone⟩ := vmSucceed_invalidate Config.cfg (invvpidRequired (s.regOperand r) d) s
  refine ⟨kept, n, ?_, hsub, fun k hk hkind => ?_⟩
  · rw [exec_invvpid, descInstr_flat hcheck (State.flat_of_root hmode hpg hagents) hseg hrange, ← hd,
      invvpidOp_of_valid hcheck (invvpidValid_cfg hreserved htype), heq]
  · have hgone := hgone k hk
    refine ⟨fun h => ?_, fun h => ?_, fun h => ?_, fun h => ?_⟩ <;>
      simpa [invvpidRequired, hkind, h, descVpid, descHigh] using hgone

/-! Where they are not executed (R276 (1) to (3), R284 (1) to (3)). -/

theorem descInstr_trap {c : Cfg} {i : ExitInstr} {s : State} {e : Event} (h : vmxCheck i s = some e)
    (op : Word → BitVec 128 → State → State) (r : Reg) (m : MemOp) : descInstr c i op r m s = .next (deliver c e s) := by
  rw [descInstr, h]

theorem vmxCheck_ud {s : State}
    (h : s.mode = .outsideVmx ∨ s.cpuMode = .realAddress ∨ s.cpuMode = .virtual8086 ∨ s.cpuMode = .compatibility) (i : ExitInstr) :
    vmxCheck i s = some .ud := by
  rcases h with h | h | h | h <;> simp [vmxCheck, h]

theorem vmxCheck_nonRoot {s : State} (hmode : s.mode = .nonRoot) (hcpu : s.cpuMode = .protectedMode ∨ s.cpuMode = .long64)
    (i : ExitInstr) : vmxCheck i s = some (.instr i) := by
  rcases hcpu with hcpu | hcpu <;> simp [vmxCheck, hmode, hcpu]

theorem vmxCheck_gp0 {s : State} (hmode : s.mode = .root) (hcpu : s.cpuMode = .protectedMode ∨ s.cpuMode = .long64) (hcpl : s.cpl ≠ 0#2)
    (i : ExitInstr) : vmxCheck i s = some .gp0 := by
  rcases hcpu with hcpu | hcpu <;> simp [vmxCheck, hmode, hcpu, hcpl]

/-- Settles O42: both instructions begin with `vmxCheck`, which says the event in each of the three cases. -/
theorem invalidationInstrTraps : Obligations.InvalidationInstrTraps := by
  intro s r m
  refine ⟨fun hud => ?_, fun hmode hcpu => ?_, fun hmode hcpu hcpl => ?_⟩
  · exact ⟨descInstr_trap (vmxCheck_ud hud _) _ r m, descInstr_trap (vmxCheck_ud hud _) _ r m⟩
  · exact ⟨descInstr_trap (vmxCheck_nonRoot hmode hcpu _) _ r m, descInstr_trap (vmxCheck_nonRoot hmode hcpu _) _ r m⟩
  · exact ⟨descInstr_trap (vmxCheck_gp0 hmode hcpu hcpl _) _ r m, descInstr_trap (vmxCheck_gp0 hmode hcpu hcpl _) _ r m⟩

/-! Which mappings need not go (R290 to R293, R296). -/

theorem Mapping.isLinearOrCombined_of_isGPhys {m : Mapping} (h : m.isGPhys = true) : m.isLinearOrCombined = false := by
  cases m with
  | gphysTr | gphysPsc => rfl
  | linearTr | linearPsc | combTr | combPsc => cases h

theorem Mapping.isGPhysOrCombined_of_isLinear {m : Mapping} (h : m.isLinear = true) : m.isGPhysOrCombined = false := by
  cases m with
  | linearTr | linearPsc => rfl
  | gphysTr | gphysPsc | combTr | combPsc => cases h

/-- Settles O41: each requirement begins with the kind of the mapping. -/
theorem needNotInvalidate : Obligations.NeedNotInvalidate := by
  intro c s op type d m
  refine ⟨fun hkind => ?_, fun hkind => ?_, fun hvpid => ?_⟩
  · have hother := Mapping.isLinearOrCombined_of_isGPhys hkind
    exact ⟨by simp [tlbRequired, hother], by simp [invvpidRequired, hother], by simp [transitionRequired, hother]⟩
  · simp [inveptRequired, Mapping.isGPhysOrCombined_of_isLinear hkind]
  · simp [transitionRequired, hvpid]

/-! INVLPG, and the configured VM exits (R263, R301). -/

theorem exec_invlpg (s : State) (m : MemOp) : exec (.invlpg m) s = invlpgWith Config.cfg m s := rfl

/-- Settles O48: the operand's address is as wide as linear addresses are, and what is kept is not selected. -/
theorem invlpgCompletes : Obligations.InvlpgCompletes := by
  intro s m hnoExit
  obtain ⟨kept, n, heq, hsub, hgone⟩ := tlbOp_withReport Config.cfg (.invlpg (s.linearAddr m)) s .ok
  refine ⟨kept, n, ?_, hsub, fun k hk hkind hvpid => ?_⟩
  · rw [exec_invlpg, invlpgWith, if_neg (not_configured hnoExit)]
    exact congrArg _ heq
  · have hwrap : s.linWrap Config.cfg (s.linearAddr m) = s.linearAddr m := linWrap_modeWrap s _
    have hselected : tlbSelected Config.cfg s (.invlpg (s.linearAddr m)) k = false := by
      simpa [tlbRequired, hkind, hvpid] using hgone k hk
    simp only [tlbSelected, hwrap, Bool.or_eq_false_iff] at hselected
    obtain ⟨⟨hcovers, hglobal⟩, hpsc⟩ := hselected
    exact ⟨hglobal, fun hpcid => ⟨by simpa [hpcid] using hcovers, by simpa [hpcid] using hpsc⟩⟩

/-- Settles O52: each of the three instructions asks for its exit first. -/
theorem configuredExits : Obligations.ConfiguredExits := by
  intro s m r hmode
  refine ⟨fun h => ?_, fun h => ?_, fun h => ?_⟩
  · rw [exec_invlpg, invlpgWith, if_pos (by simp [hmode, h])]
  · rw [exec_movCr3, movCr3With, if_pos (by simp [hmode, h])]
  · rw [exec_movCr4, movCr4With, if_pos (by simp [hmode, h])]

/-! VMXON and VMXOFF (R297, R298). -/

/-- Mappings may go, and the mode changes. -/
theorem vmxSwitch_frame (c : Cfg) (mode : Mode) (s : State) :
    ∃ kept n, vmxSwitch c mode s = { s with mode := mode, cache := kept, freeCtr := n, report := .ok } ∧ kept.Sublist s.cache := by
  obtain ⟨kept, n, hsub, -, heq⟩ := invalidate_spec c (fun _ => false) s
  exact ⟨kept, n, by rw [vmxSwitch, heq]; rfl, hsub⟩

theorem exec_vmxon (s : State) (m : MemOp) : exec (.vmxon m) s = .next (vmxSwitch Config.cfg .root s) := rfl

theorem exec_vmxoff (s : State) : exec .vmxoff s = .next (vmxSwitch Config.cfg .outsideVmx s) := rfl

/-- Settles O53: both are `vmxSwitch`. -/
theorem vmxonVmxoffComplete : Obligations.VmxonVmxoffComplete := by
  intro s m
  obtain ⟨kept, n, heq, hsub⟩ := vmxSwitch_frame Config.cfg .root s
  obtain ⟨kept', n', heq', hsub'⟩ := vmxSwitch_frame Config.cfg .outsideVmx s
  exact ⟨⟨kept, n, by rw [exec_vmxon, heq], hsub⟩, kept', n', by rw [exec_vmxoff, heq'], hsub'⟩

end Sys2Proof.Machine
end

section
/-! PROOFS. Events taken, VM exits and VM entries (60_exceptions.md R311 to R324, R330, 47_invalidation.md R264 to R266, R309). -/

namespace Sys2Proof.Machine

open Sys2Proof

/-! The state after an event. -/

/-- What taking an event leaves, be it a VM exit or an exception: the registers but RIP, memory, the other agents' writes to come and the PML
index; of the cached mappings none is added (R316, R322, 92_eei_decisions.md D16). -/
structure TakenFrom (s t : State) : Prop where
  gpr : t.gpr = s.gpr
  flags : t.flags = s.flags
  cr0 : t.cr0 = s.cr0
  cr3 : t.cr3 = s.cr3
  cr4 : t.cr4 = s.cr4
  pdpte : t.pdpte = s.pdpte
  mem : t.mem = s.mem
  agents : t.agents = s.agents
  controls : t.vmcs.controls = s.vmcs.controls
  pmlIndex : t.vmcs.pmlIndex = s.vmcs.pmlIndex
  cache : t.cache.Sublist s.cache

theorem deliver_takenFrom (c : Cfg) (e : Event) (s : State) : TakenFrom s (deliver c e s) := by
  cases hexits : e.exits s with
  | false =>
    rw [deliver_exception hexits]
    exact ⟨rfl, rfl, rfl, rfl, rfl, rfl, rfl, rfl, rfl, rfl, .refl _⟩
  | true =>
    obtain ⟨kept, n, rip, hsub, -, -, heq⟩ := deliver_exit hexits c
    rw [heq]
    exact ⟨rfl, rfl, rfl, rfl, rfl, rfl, rfl, rfl, recordExit_controls c e s, recordExit_pmlIndex c e s, hsub⟩

/-- An event that is a VM exit: the mode is root and the exit is reported (R316). -/
theorem deliver_exit_mode {e : Event} {s : State} (hexits : e.exits s = true) (c : Cfg) :
    (deliver c e s).mode = .root ∧ (deliver c e s).report = .exit e := by
  obtain ⟨_, _, _, -, -, -, heq⟩ := deliver_exit hexits c
  rw [heq]
  exact ⟨rfl, rfl⟩

/-- A mapping that stays after a VM exit had not to go (47_invalidation.md R264 to R266). -/
theorem deliver_exit_cache {e : Event} {s : State} (hexits : e.exits s = true) {c : Cfg} {m : Mapping} (hm : m ∈ (deliver c e s).cache) :
    transitionRequired s m = false ∧ ∀ v, e = .eptViolation v → violationRequired c s v m = false := by
  obtain ⟨_, _, _, -, htransition, hviolation, heq⟩ := deliver_exit hexits c
  rw [heq] at hm
  exact ⟨htransition m hm, fun v hv => hviolation v hv m hm⟩

/-- The VM-exit fields after a VM exit (R313 to R317). -/
theorem deliver_exit_vmcs {e : Event} {s : State} (hexits : e.exits s = true) (c : Cfg) :
    (deliver c e s).vmcs = (recordExit c e s).vmcs := by
  obtain ⟨_, _, _, -, -, -, heq⟩ := deliver_exit hexits c
  rw [heq]

/-- R311: every event but the exceptions is a VM exit. -/
theorem Event.exits_of_vector_none {e : Event} (h : e.vector = none) (s : State) : e.exits s = true := by
  rw [Event.exits, h]

/-- R324: an exception is a VM exit where the VMM configured one. -/
theorem Event.exits_of_vector_some {e : Event} {n : Nat} (h : e.vector = some n) (s : State) :
    e.exits s = (s.mode == .nonRoot && s.vmcs.selects e n) := by
  rw [Event.exits, h]

/-! An access that ends in an event (R322, 92_eei_decisions.md D12, D28). -/

/-- The access has raised an event, which has been taken in the state before it, with what other agents have written meanwhile. -/
theorem runAccess_event {c : Cfg} {a : Access} {s t : State} (hc : c.speculativeAccessedSet = false)
    (h : runInput c (.access a) s = .next t) (hreport : ∀ parts bytes, t.report ≠ .access parts bytes) :
    ∃ e x k, t = deliver c e (s.meanwhile x) ∧ x.st.agents = s.agents.drop k ∧ x.foreign = (s.agents.take k).flatten := by
  rw [runInput, runAccess] at h
  rcases Res.outcome_eq_next.1 h with ⟨q, x, -, ht⟩ | ⟨e, x, hraised, rfl⟩
  · cases ht
    exact absurd rfl (hreport q.1 q.2)
  · have hkept : Kept c (Ctx.start s) x := (linearAccess_keeps c a (Ctx.start s)).kept_of_raised hraised
    obtain ⟨⟨k, hagents, hforeign⟩, -⟩ := hkept.meanwhile
    exact ⟨e, x, k, by rw [rollback_eq_meanwhile hc], hagents, hforeign⟩

/-- Settles O25: an event leaves what `TakenFrom` says of the state before the access. -/
theorem eventsArePrecise : Obligations.EventsArePrecise := by
  intro c a s t e hc h hreport
  obtain ⟨e', x, k, rfl, hagents, hforeign⟩ := runAccess_event hc h fun parts bytes haccess => by
    rcases hreport with hreport | hreport <;> cases haccess.symm.trans hreport
  have htaken := deliver_takenFrom c e' (s.meanwhile x)
  have hmem : (deliver c e' (s.meanwhile x)).mem = s.mem.writeAll (s.agents.take k).flatten := by
    rw [htaken.mem, State.meanwhile_mem, hforeign]
  refine ⟨⟨k, htaken.agents.trans hagents, hmem⟩, fun hnone => ?_, htaken.pmlIndex, htaken.cache, htaken.gpr, htaken.cr3⟩
  rw [hmem, hnone, List.take_nil]
  rfl

/-! Page faults (R311, R324). -/

/-- What is taken and then reported as an exception is one, of the same event. -/
theorem exits_of_deliver_exception {c : Cfg} {s : State} {e e' : Event} (h : (deliver c e s).report = .exception e') :
    e.exits s = false ∧ e = e' := by
  cases hexits : e.exits s with
  | false =>
    rw [deliver_exception hexits] at h
    cases h
    exact ⟨rfl, rfl⟩
  | true =>
    obtain ⟨-, hreport⟩ := deliver_exit_mode hexits c
    cases hreport.symm.trans h

/-- R324: bit 14 of the exception bitmap is compared with whether the error code under the mask equals the match (log 36). -/
theorem pageFault_exits_iff {s : State} {la : Word} {code : BitVec 32} :
    (Event.pageFault la code).exits s = true ↔
      s.mode = .nonRoot ∧ (s.vmcs.exceptionBitmap.getLsbD 14 = true ↔ code &&& s.vmcs.pfErrorMask = s.vmcs.pfErrorMatch) := by
  rw [Event.exits_of_vector_some (n := 14) rfl, Bool.and_eq_true, beq_iff_eq, Vmcs.selects, beq_iff_eq, Bool.eq_iff_iff, beq_iff_eq]

/-- Settles O28: the page fault of an access is taken as any other event of it, and whether it is a VM exit is `pageFault_exits_iff`. -/
theorem pageFaultStaysInGuest : Obligations.PageFaultStaysInGuest := by
  refine ⟨fun c a s t la code hc h hreport => ?_, fun c s la code => ⟨fun hmode hselects => ?_, fun hnot => ?_⟩⟩
  · obtain ⟨e, x, k, rfl, hagents, hforeign⟩ := runAccess_event hc h fun parts bytes haccess => by
      cases haccess.symm.trans hreport
    obtain ⟨hexits, rfl⟩ := exits_of_deliver_exception hreport
    refine ⟨c.free x.st.freeCtr, x.st.freeCtr + 1, k, ?_⟩
    rw [deliver_exception hexits, ← hagents, ← hforeign]
    rfl
  · exact deliver_exit_mode (pageFault_exits_iff.2 ⟨hmode, hselects⟩) c
  · have hexits : (Event.pageFault la code).exits s = false := by
      rw [Bool.eq_false_iff]
      intro h
      obtain ⟨hmode, hselects⟩ := pageFault_exits_iff.1 h
      exact hnot.elim (absurd hmode) (absurd hselects)
    exact deliver_exception hexits c

/-! An EPT violation (R264, R265, R309). -/

theorem eptViolation_exits (v : EptViolation) (s : State) : (Event.eptViolation v).exits s = true := Event.exits_of_vector_none rfl s

section
variable {c : Cfg} {s : State} {v : EptViolation} {m : Mapping} (h : violationRequired c s v m = false)
include h

/-- R264: no guest-physical mapping of the address stays. -/
theorem violationRequired_gphys : ¬(m.isGPhys = true ∧ m.hasEp4ta s.ep4ta = true ∧ m.coversGpa v.gpa = true) := by
  rintro ⟨hkind, htag, hcovers⟩
  simp [violationRequired, hkind, htag, hcovers] at h

/-- R265: no combined mapping of the linear address that its tags let be used stays (log 44). -/
theorem violationRequired_combined {la : Word} (hla : v.la = some la) :
    ¬(m.isCombined = true ∧ m.tagsMatch s.currentVpid (s.currentPcid c) = true ∧ m.hasEp4ta s.ep4ta = true ∧ m.coversLa la = true) := by
  rintro ⟨hkind, htags, hep4ta, hcovers⟩
  simp [violationRequired, hla, hkind, htags, hep4ta, hcovers] at h

/-- R309: no mapping that the access had used stays. -/
theorem violationRequired_used : m ∉ v.mappings := by
  intro hused
  simp [violationRequired, hused] at h

end

/-- Settles O55: what stays in the cache is not what `violationRequired` names. -/
theorem eptViolationInvalidates : Obligations.EptViolationInvalidates := by
  rintro c v s _ rfl
  have hexits := eptViolation_exits v s
  obtain ⟨hmode, hreport⟩ := deliver_exit_mode hexits c
  have htaken := deliver_takenFrom c (.eptViolation v) s
  have hstays {m : Mapping} (hm : m ∈ (deliver c (.eptViolation v) s).cache) : violationRequired c s v m = false :=
    (deliver_exit_cache hexits hm).2 v rfl
  refine ⟨hmode, hreport, htaken.mem, htaken.cache, fun m hm => violationRequired_gphys (hstays hm), fun la hla _ m hm => ?_⟩
  rintro ⟨hkind, hvpid, hpcid, hep4ta, hcovers⟩
  exact violationRequired_combined (hstays hm) hla ⟨hkind, by simp [Mapping.tagsMatch, hvpid, hpcid], hep4ta, hcovers⟩

/-! The return to the guest (R309, R323). -/

theorem vmEnter_eptInUse (c : Cfg) (s : State) : (vmEnter c s).eptInUse = s.vmcs.enableEpt := by
  obtain ⟨_, _, _, -, heq⟩ := vmEnter_frame c s
  rw [heq]
  rfl

/-- After an EPT violation and the return to the guest what decides which cached mappings are used is as it was before, and the mappings that
had to go are gone. -/
theorem retry_frame (c : Cfg) (v : EptViolation) (s : State) :
    ∃ kept n rip vmcs, vmEnter c (deliver c (.eptViolation v) s) =
        { s with cache := kept, mode := .nonRoot, rip := rip, vmcs := vmcs, freeCtr := n, report := .exit (.eptViolation v) } ∧
      vmcs.controls = s.vmcs.controls ∧ ∀ m ∈ kept, violationRequired c s v m = false := by
  obtain ⟨kept, n, rip, -, -, hgone, hexit⟩ := deliver_exit (eptViolation_exits v s) c
  obtain ⟨kept', n', rip', hsub, henter⟩ := vmEnter_frame c (deliver c (.eptViolation v) s)
  rw [hexit] at hsub henter ⊢
  exact ⟨kept', n', rip', _, henter, recordExit_controls c _ s, fun m hm => hgone v rfl m (hsub.subset hm)⟩

/-- What decides the tags of the mappings that can be used are controls. -/
theorem Vmcs.tags_of_controls {v w : Vmcs} (h : v.controls = w.controls) :
    v.enableEpt = w.enableEpt ∧ v.eptp = w.eptp ∧ v.enableVpid = w.enableVpid ∧ v.vpid = w.vpid :=
  ⟨(congrArg Vmcs.enableEpt h :), (congrArg Vmcs.eptp h :), (congrArg Vmcs.enableVpid h :), (congrArg Vmcs.vpid h :)⟩

/-- Settles O56: no mapping that stays can be used for the addresses of the violation. -/
theorem retryWalksTables : Obligations.RetryWalksTables := by
  rintro c v s _ u rfl hu
  obtain ⟨kept, n, rip, vmcs, heq, hcontrols, hgone⟩ := retry_frame c v s
  rw [heq] at hu
  have hgone : ∀ m ∈ u.cache, violationRequired c s v m = false := by rwa [hu]
  obtain ⟨henableEpt, heptp, henableVpid, hvpid⟩ := Vmcs.tags_of_controls hcontrols
  have hep4ta : u.ep4ta = s.ep4ta := by rw [hu]; exact congrArg ep4taOf heptp
  refine ⟨fun acc => eptTranslate_eq_walk fun m hm => ?_, fun m hused hm => violationRequired_used (hgone m hm) hused,
    fun p hmode hept hla => accessPart_eq_walk fun m hm level => ?_⟩
  · have hnot := violationRequired_gphys (hgone m hm)
    rw [Ctx.start_st, hep4ta]
    simpa only [← not_and_or, Bool.eq_false_iff, ne_eq] using hnot
  · have huse : u.eptInUse = true := by rw [hu]; exact henableEpt.trans hept
    have hvpid : u.currentVpid = s.currentVpid := by simp only [hu, State.currentVpid, hmode, henableVpid, hvpid]
    have hpcid : u.currentPcid c = s.currentPcid c := by rw [hu]; rfl
    have hnot := violationRequired_combined (hgone m hm) hla
    rw [Bool.eq_false_iff]
    intro husable
    simp only [linearUsable, Ctx.start_st, huse, hvpid, hpcid, hep4ta, if_true, Bool.and_eq_true] at husable
    obtain ⟨⟨⟨⟨hcovers, htags⟩, -⟩, -⟩, ⟨hkind, htag⟩, -⟩ := husable
    exact hnot ⟨hkind, htags, htag, hcovers⟩

/-! VM exits (R266, R311 to R316). -/

/-- Outside VMX non-root operation neither EPT nor a VPID of the controls is used (40_vpid.md R73, 41_ept_translation.md R81). -/
theorem State.root_frame {s : State} (h : s.mode = .root) : s.eptInUse = false ∧ s.currentVpid = 0#16 := by
  simp [State.eptInUse, State.currentVpid, h]

/-- R266: with "enable VPID" 0 a mapping that stays has not VPID 0000H; guest-physical ones have none. -/
theorem hasVpid_of_transitionRequired {s : State} {m : Mapping} (h : transitionRequired s m = false) (hvpid : s.vmcs.enableVpid = false) :
    m.hasVpid 0#16 = false := by
  cases m with
  | gphysTr | gphysPsc => rfl
  | linearTr | linearPsc | combTr | combPsc =>
    simpa [transitionRequired, hvpid, Mapping.isLinearOrCombined, Mapping.isLinear, Mapping.isCombined] using h

/-- R311: which events are exceptions. -/
theorem Event.vector_eq_none {e : Event} (hud : e ≠ .ud) (hgp : e ≠ .gp0) (hss : e ≠ .ss0) (hpf : ∀ la code, e ≠ .pageFault la code) :
    e.vector = none := by
  cases e with
  | ud => exact absurd rfl hud
  | gp0 => exact absurd rfl hgp
  | ss0 => exact absurd rfl hss
  | pageFault la code => exact absurd rfl (hpf la code)
  | eptViolation | eptMisconfig | pmlFull | sppMiss | sppMisconfig | apicAccess | instr | otherExit => rfl

theorem runInput_vmExit {s : State} (h : s.mode = .nonRoot) (c : Cfg) : runInput c .vmExit s = .next (deliver c .otherExit s) := by
  rw [runInput, runVmExit, if_pos (by simp [h])]

theorem runInput_vmExit_refused {s : State} (h : s.mode ≠ .nonRoot) (c : Cfg) : runInput c .vmExit s = .refused .vmExitNotPossible := by
  rw [runInput, runVmExit, if_neg (by simpa using h)]

/-- Settles O57: the label is the delivery of an event, and every delivery that is a VM exit leaves what `TakenFrom` says. -/
theorem vmExitEffect : Obligations.VmExitEffect := by
  have heffect (c : Cfg) (s : State) (e : Event) (hexits : e.exits s = true) :
      TakenFrom s (deliver c e s) ∧ (deliver c e s).mode = .root ∧ (deliver c e s).report = .exit e ∧
        (deliver c e s).eptInUse = false ∧ (deliver c e s).currentVpid = 0#16 ∧
        (s.vmcs.enableVpid = false → ∀ m ∈ (deliver c e s).cache, m.hasVpid 0#16 = false) := by
    obtain ⟨hmode, hreport⟩ := deliver_exit_mode hexits c
    obtain ⟨hept, hcurrent⟩ := State.root_frame hmode
    exact ⟨deliver_takenFrom c e s, hmode, hreport, hept, hcurrent,
      fun hvpid m hm => hasVpid_of_transitionRequired (deliver_exit_cache hexits hm).1 hvpid⟩
  refine ⟨fun c s => ⟨fun hmode => ?_, fun hmode => runInput_vmExit_refused hmode c⟩,
    fun s e hud hgp hss hpf => Event.exits_of_vector_none (Event.vector_eq_none hud hgp hss hpf) s, ?_⟩
  · obtain ⟨htaken, hroot, -, hept, hcurrent, hvpid⟩ := heffect c s .otherExit (Event.exits_of_vector_none rfl s)
    exact ⟨_, runInput_vmExit hmode c, hroot, hept, hcurrent, htaken.cache, hvpid, htaken.mem, htaken.gpr, htaken.cr3, htaken.controls⟩
  · rintro c s _ e hexits rfl
    obtain ⟨htaken, hroot, hreport, hept, hcurrent, hvpid⟩ := heffect c s e hexits
    exact ⟨hroot, hreport, hept, hcurrent, htaken.cache, hvpid, htaken.mem, htaken.gpr, htaken.flags, htaken.cr0, htaken.cr3, htaken.cr4,
      htaken.pdpte, htaken.controls, htaken.pmlIndex⟩

/-! VM entries (R266, R323). -/

/-- R266: a mapping that stays after a VM entry had not to go. -/
theorem vmEnter_cache {c : Cfg} {s : State} {m : Mapping} (hm : m ∈ (vmEnter c s).cache) : transitionRequired s m = false :=
  ((invalidate_spec c (transitionRequired s) s).mem hm).2

/-- The mode is non-root and the controls take effect; nothing is saved or loaded (92_eei_decisions.md D16). -/
theorem vmEnter_effect (c : Cfg) (s : State) :
    (vmEnter c s).mode = .nonRoot ∧ (vmEnter c s).eptInUse = s.vmcs.enableEpt ∧
      (vmEnter c s).currentVpid = (if s.vmcs.enableVpid = true then s.vmcs.vpid else 0#16) ∧ (vmEnter c s).vmcs = s.vmcs ∧
      (vmEnter c s).cache.Sublist s.cache ∧
      (s.vmcs.enableVpid = false → ∀ m ∈ (vmEnter c s).cache, m.hasVpid 0#16 = false) ∧ (vmEnter c s).mem = s.mem ∧
      (vmEnter c s).gpr = s.gpr ∧ (vmEnter c s).cr3 = s.cr3 := by
  have hgone : s.vmcs.enableVpid = false → ∀ m ∈ (vmEnter c s).cache, m.hasVpid 0#16 = false :=
    fun hvpid m hm => hasVpid_of_transitionRequired (vmEnter_cache hm) hvpid
  obtain ⟨kept, n, rip, hsub, heq⟩ := vmEnter_frame c s
  rw [heq] at hgone ⊢
  exact ⟨rfl, rfl, rfl, rfl, hsub, hgone, rfl, rfl, rfl⟩

theorem runInput_vmEntry {c : Cfg} {s : State} (hmode : s.mode = .root) (hcurrent : s.vmcsCurrent = true)
    (hcontrols : s.vmcs.wellFormed c = true) (inject : List Access) :
    runInput c (.vmEntry inject) s = runInjected c inject (vmEnter c s) := by
  rw [runInput, runVmEntry, if_pos (by simp [hmode, hcurrent]), if_pos hcontrols]

theorem runInput_vmEntry_illFormed {c : Cfg} {s : State} (hmode : s.mode = .root) (hcurrent : s.vmcsCurrent = true)
    (hcontrols : s.vmcs.wellFormed c = false) (inject : List Access) :
    runInput c (.vmEntry inject) s = .refused .controlsNotWellFormed := by
  rw [runInput, runVmEntry, if_pos (by simp [hmode, hcurrent]), if_neg (by simp [hcontrols])]

theorem runInput_vmEntry_notPossible {s : State} (h : s.mode ≠ .root ∨ s.vmcsCurrent = false) (c : Cfg) (inject : List Access) :
    runInput c (.vmEntry inject) s = .refused .vmEntryNotPossible := by
  rw [runInput, runVmEntry, if_neg (by rcases h with h | h <;> simp [h])]

/-! The accesses that a VM entry makes to inject an event (41_ept_translation.md R81). -/

section
variable {c : Cfg} {a : Access} {rest : List Access} {u : State} {x : Ctx}

/-- One that is performed is followed by the next. -/
theorem runInjected_ok {q : List PartDone × List Byte} (h : linearAccess c a (Ctx.start u) = .ok q x) :
    runInjected c (a :: rest) u = runInjected c rest x.st := by
  rw [runInjected, h, Res.outcome]

/-- An event of one is taken, and the rest are not made. -/
theorem runInjected_raised {e : Event} (h : linearAccess c a (Ctx.start u) = .raised e x) :
    runInjected c (a :: rest) u = .next (deliver c e (rollback c u e x)) := by
  rw [runInjected, h, Res.outcome]

end

/-- What is taken is not reported as Ok. -/
theorem deliver_report_ne_ok (c : Cfg) (e : Event) (s : State) : (deliver c e s).report ≠ .ok := by
  cases hexits : e.exits s with
  | false => simp [deliver_exception hexits]
  | true => simp [(deliver_exit_mode hexits c).2]

/-- Accesses that are all performed leave the mode, the general registers, CR3, the controls and the cached mappings. -/
theorem runInjected_frame {c : Cfg} {inject : List Access} {u t : State} (h : runInjected c inject u = .next t) (hreport : t.report = .ok) :
    t.mode = u.mode ∧ t.gpr = u.gpr ∧ t.cr3 = u.cr3 ∧ t.vmcs.controls = u.vmcs.controls ∧ t.cache = u.cache := by
  induction inject generalizing u with
  | nil =>
    cases h
    exact ⟨rfl, rfl, rfl, rfl, rfl⟩
  | cons a rest ih =>
    rw [runInjected] at h
    rcases Res.outcome_eq_next.1 h with ⟨q, x, hok, hrest⟩ | ⟨e, x, -, rfl⟩
    · obtain ⟨⟨mem, i, n, k, hst, -⟩, -⟩ := (linearAccess_keeps c a (Ctx.start u)).kept_of_ok hok
      have hframe := ih hrest
      rw [hst] at hframe
      exact hframe
    · exact absurd hreport (deliver_report_ne_ok c e _)

/-- Settles O58: a VM entry that is made is `runInjected` from the state after `vmEnter`. -/
theorem vmEntryEffect : Obligations.VmEntryEffect := by
  intro c s
  obtain ⟨hmode, hept, hvpid, hvmcs, hsub, hgone, hmem, hgpr, hcr3⟩ := vmEnter_effect c s
  refine ⟨fun hroot hcurrent hcontrols => ?_, fun hroot hcurrent hcontrols => ?_, fun a rest u => ?_,
    fun hroot hcurrent hcontrols inject => runInput_vmEntry_illFormed hroot hcurrent hcontrols inject,
    fun h inject => runInput_vmEntry_notPossible h c inject⟩
  · exact ⟨(vmEnter c s).withReport .ok, runInput_vmEntry hroot hcurrent hcontrols [], hmode, hept, hvpid, hvmcs, hsub, hgone, hmem, hgpr,
      hcr3⟩
  · have hentry := runInput_vmEntry hroot hcurrent hcontrols
    refine ⟨hmode, hept, fun a rest q x h => ?_, fun a rest e x h => ?_, fun inject t h hreport => ?_⟩
    · rw [hentry, runInjected_ok h]
    · rw [hentry, runInjected_raised h]
    · rw [hentry] at h
      obtain ⟨hmode', hgpr', hcr3', hcontrols', hcache'⟩ := runInjected_frame h hreport
      exact ⟨hmode'.trans hmode, hgpr'.trans hgpr, hcr3'.trans hcr3, hcontrols'.trans (congrArg Vmcs.controls hvmcs), hcache' ▸ hsub⟩
  · exact ⟨rfl, fun q x h => runInjected_ok h, fun e x h => runInjected_raised h⟩

/-! Where VMX non-root operation is entered (R330). -/

/-- A step that consumes no VM-entry label only evolves the state. -/
theorem step_evolves {s t : State} (hlabel : ∀ inject rest, s.inputs ≠ .input (.vmEntry inject) :: rest) (h : step s = .next t) :
    Evolves Config.cfg s t := by
  have hc := Config.cfg_speculativeAccessedSet
  have hfetch {u : State} (hu : fetchNext Config.cfg exec u = .next t) : Evolves Config.cfg u t :=
    fetchThen_evolves hc (fun _ _ => exec_evolves) u maxLength [] hu
  unfold step at h
  split at h
  · rename_i i rest hinputs
    have hi (inject : List Access) : i ≠ .vmEntry inject := fun heq => hlabel inject rest (heq ▸ hinputs)
    exact (withInputs_evolves _ s rest).trans (runInput_evolves hc hi h)
  · exact (withInputs_evolves _ s _).trans (exec_evolves h)
  · exact (withInputs_evolves _ s _).trans (hfetch h)
  · exact hfetch h

/-- Settles O10: what evolves has been in non-root operation before. -/
theorem onlyVmEntryEntersNonRoot : Obligations.OnlyVmEntryEntersNonRoot := by
  intro s t h hmode
  by_cases hlabel : ∃ inject rest, s.inputs = .input (.vmEntry inject) :: rest
  · exact .inr hlabel
  · have hevolves := step_evolves (fun inject rest heq => hlabel ⟨inject, rest, heq⟩) h
    exact .inl (hevolves.nonRoot hmode).1

/-! The VM-exit fields (R311, R313 to R317). -/

section
variable {e : Event} {s : State} (hexits : e.exits s = true) (c : Cfg)
include hexits

theorem deliver_exitReason : (deliver c e s).vmcs.exitReason = e.exitReason.getD ((c.free s.freeCtr).setWidth 16) := by
  rw [deliver_exit_vmcs hexits]
  rfl

theorem deliver_exitQual : (deliver c e s).vmcs.exitQual = e.exitQual s.vmcs.modeBasedExec (c.free (s.freeCtr + 1)) := by
  rw [deliver_exit_vmcs hexits]
  rfl

theorem deliver_guestPhys : (deliver c e s).vmcs.guestPhys = e.guestPhys (c.free (s.freeCtr + 2)) := by
  rw [deliver_exit_vmcs hexits]
  rfl

theorem deliver_guestLinear : (deliver c e s).vmcs.guestLinear = e.guestLinear (c.free (s.freeCtr + 3)) := by
  rw [deliver_exit_vmcs hexits]
  rfl

end

/-- The exit qualification of an EPT violation bit by bit: the bits that the spec gives (R313), and free ones (log 10). -/
theorem violationQual_getLsbD (modeBased : Bool) (v : EptViolation) (free : Word) {i : Nat} (hi : i < 64) :
    (violationQual modeBased v free).getLsbD i =
      if (0x10BF#64).getLsbD i || (modeBased && decide (i = 6)) || (v.la.isSome && decide (i = 8)) then
        (v.kind == .dataRead && decide (i = 0)) || (v.kind == .dataWrite && decide (i = 1)) || (v.kind == .fetch && decide (i = 2)) ||
          (v.rights.r && decide (i = 3)) || (v.rights.w && decide (i = 4)) || (v.rights.x && decide (i = 5)) ||
          (v.rights.xu && decide (i = 6)) || (v.la.isSome && decide (i = 7)) || (!v.pswalk && decide (i = 8))
      else free.getLsbD i := by
  simp only [violationQual, getLsbD_putBits, BitVec.getLsbD_or, getLsbD_bitIf, decide_eq_true hi, Bool.and_true]

/-- Settles O59: the fields are those that `recordExit` writes, and of the exit qualification each bit is one of `violationQual_getLsbD`. -/
theorem eptViolationFields : Obligations.EptViolationFields := by
  rintro c v s _ rfl
  have hexits := eptViolation_exits v s
  have hlinear (la : Word) (hla : v.la = some la) : (deliver c (.eptViolation v) s).vmcs.guestLinear = la := by
    rw [deliver_guestLinear hexits, Event.guestLinear, hla]
    rfl
  have hbit {i : Nat} (hi : i < 64) : (deliver c (.eptViolation v) s).vmcs.exitQual.getLsbD i = _ :=
    (congrArg (·.getLsbD i) (deliver_exitQual hexits c)).trans (violationQual_getLsbD s.vmcs.modeBasedExec v _ hi)
  refine ⟨deliver_exitReason hexits c, deliver_guestPhys hexits c, hlinear, ?_, ?_, ?_, ?_, ?_, ?_, fun hmode => ?_, ?_, fun hla => ?_⟩
  all_goals
    rw [hbit (by decide)]
    simp [*]

/-- Bit 11 of the exit qualification of an SPP-related event (R317). -/
theorem sppQual_bit11 (free value : Word) : (putBits free 0x800#64 value).getLsbD 11 = value.getLsbD 11 := by
  rw [getLsbD_putBits]
  rfl

/-- Settles O60: none of the events is an exception, and the fields are those that `recordExit` writes. -/
theorem otherExitFields : Obligations.OtherExitFields := by
  intro c s gpa pa level la
  have hexits {e : Event} (h : e.vector = none) : e.exits s = true := Event.exits_of_vector_none h s
  refine ⟨deliver_exitReason (hexits rfl) c, deliver_guestPhys (hexits rfl) c, deliver_exitReason (hexits rfl) c,
    deliver_exitReason (hexits rfl) c, deliver_exitReason (hexits rfl) c, deliver_exitReason (hexits rfl) c,
    deliver_exitReason (hexits rfl) c, deliver_guestPhys (hexits rfl) c, ?_, deliver_exitReason (hexits rfl) c,
    deliver_guestPhys (hexits rfl) c, ?_, ?_⟩
  · rw [deliver_exitQual (hexits rfl), Event.exitQual, sppQual_bit11]
    rfl
  · rw [deliver_exitQual (hexits rfl), Event.exitQual, sppQual_bit11]
    rfl
  · rintro a rfl
    exact ⟨deliver_guestLinear (hexits rfl) c, deliver_guestLinear (hexits rfl) c⟩

end Sys2Proof.Machine
end

section
/-! PROOFS. What a fill creates comes from no bad EPT entry where memory is in its canonical form: the guest's walk of the fill sets
accessed and dirty flags of EPT entries and changes nothing else of them (46_caching.md R237, 47_invalidation.md R304, 20_memory.md R45). -/

namespace Sys2Proof.Machine

open Sys2Proof

/-! Where an EPT walk ends, no entry it meets is bad (42_ept_vmexits.md R116). -/

theorem not_eptEntryBad_of_eptWalk {c : Cfg} {acc : GAccess} {gpa : Word} {x y : Ctx} {w : Walk} (h : eptWalk c acc gpa x = .ok w y) :
    ¬ eptEntryBad c x.st gpa := by
  rintro ⟨k, base, e, hk, hreached, hentry, hbad⟩
  obtain ⟨hnotPresent, hmisconfigured⟩ := walkStopsAtBadEntry c acc gpa x k base e hk hreached hentry
  cases hpresent : eptPresent x.st e with
  | false =>
    obtain ⟨r, z, hraised, -⟩ := hnotPresent hpresent
    cases h.symm.trans hraised
  | true =>
    obtain ⟨z, hraised, -⟩ := hmisconfigured hpresent (hbad.resolve_left (by simp [hpresent]))
    cases h.symm.trans hraised

/-- R97: a walk ends at level 1 or above. -/
theorem eptLeaf_level {c : Cfg} {s : State} {gpa : Word} {es : List Word} {level : Nat} {base e : Word}
    (h : eptLeaf c s gpa es level base e) : ∃ n, level = n + 1 := by
  obtain ⟨hlen, hpath, -⟩ := h
  have := eptPath_length_lt (by omega) hpath
  exact ⟨level - 1, by omega⟩

theorem not_eptEntryBad_of_eptLeaf {c : Cfg} {s : State} {gpa : Word} {es : List Word} {level : Nat} {base e : Word}
    (h : eptLeaf c s gpa es level base e) : ¬ eptEntryBad c s gpa := by
  obtain ⟨n, rfl⟩ := eptLeaf_level h
  obtain ⟨y, -, hwalk⟩ := eptWalk_leafWalk h fillAccess
  exact not_eptEntryBad_of_eptWalk hwalk

/-- A path does not go past a bad entry. -/
theorem eptPath_length_le_of_bad {c : Cfg} {s : State} {gpa base b t e : Word} {level : Nat} {es es' : List Word}
    (h : eptPath c s gpa level base es b) (hentry : entryIs c s gpa (level - es.length) b e)
    (hbad : eptPresent s e = false ∨ eptMisconfigured c s e (level - es.length) (isLeaf (level - es.length) e) = true)
    (h' : eptPath c s gpa level base es' t) : es'.length ≤ es.length := by
  induction es generalizing level base es' with
  | nil =>
    cases es' with
    | nil => exact le_rfl
    | cons e' es' =>
      cases h
      obtain ⟨⟨-, -, hread'⟩, ⟨hpresent, hconfigured, hleaf⟩, -⟩ := h'
      obtain ⟨-, -, hread⟩ := hentry
      obtain rfl : e' = e := hread'.symm.trans hread
      simp [hpresent, hleaf, hconfigured] at hbad
  | cons e₁ es ih =>
    cases es' with
    | nil => exact Nat.zero_le _
    | cons e' es' =>
      obtain ⟨⟨-, -, hread⟩, -, hrest⟩ := h
      obtain ⟨⟨-, -, hread'⟩, -, hrest'⟩ := h'
      obtain rfl : e' = e₁ := hread'.symm.trans hread
      rw [List.length_cons, Nat.sub_add_eq, Nat.sub_right_comm] at hentry hbad
      exact Nat.succ_le_succ (ih hrest hentry hbad hrest')

/-! The walks of a fill see the EPT entries of the state it is made from. -/

/-- The EPT's part of what a fill creates comes from a walk that met no bad entry. -/
theorem not_eptEntryBad_of_fillEpt {c : Cfg} {s t u : State} {gpa : Word} {w : Walk} (hdrift : s.Drifts t)
    (h : fillEpt c gpa t = some (w, u)) : ¬ eptEntryBad c s gpa := by
  intro hbad
  obtain ⟨_, _, _, -, -, ⟨hagents, -⟩, -⟩ := id hbad
  obtain ⟨_, _, _, _, hleaf, -⟩ := fillEpt_leafWalk hagents hdrift h
  exact not_eptEntryBad_of_eptLeaf hleaf hbad

theorem fillEpt_eq_none_of_bad {c : Cfg} {s : State} {gpa : Word} (h : eptEntryBad c s gpa) : fillEpt c gpa s = none := by
  cases hfound : fillEpt c gpa s with
  | none => rfl
  | some f => exact absurd h (not_eptEntryBad_of_fillEpt (.refl s) hfound)

/-- R304, R237: the first clause of `Obligations.NoFillFromBadEptEntry`, which holds of any memory. -/
theorem fillMapping_eq_none_of_bad {c : Cfg} {s : State} {gpa : Word} {k level : Nat} {base e : Word} (f : SppFill) (hk : k < 4)
    (hreached : tableReached c s gpa k base) (hentry : entryIs c s gpa (4 - k) base e)
    (hbad : eptPresent s e = false ∨ eptMisconfigured c s e (4 - k) (isLeaf (4 - k) e) = true) :
    fillMapping c s (.gphysTr gpa f) = none ∧ (level ≤ 4 - k → fillMapping c s (.gphysPsc gpa level) = none) ∧
      (s.pg = false → s.linWrap c gpa = gpa → fillMapping c s (.combTr gpa f) = none) := by
  have hnone := fillEpt_eq_none_of_bad ⟨k, base, e, hk, hreached, hentry, hbad⟩
  refine ⟨?_, fun hlevel => ?_, fun hpg hwrap => ?_⟩
  · rw [fillMapping, fillGPhysTr, hnone]
    rfl
  · by_contra hsome
    obtain ⟨⟨m, t⟩, hfound⟩ := Option.ne_none_iff_exists'.1 hsome
    obtain ⟨-, -, q, x, hwalk, -⟩ := fillGPhysPsc_eq_some hfound
    obtain ⟨hagents, -⟩ := id hentry
    obtain ⟨es', -, hlen, hpath', -⟩ := eptTableAt_eq_ok hagents hwalk
    obtain ⟨es, rfl, hpath⟩ := eptPath_of_tableReached hreached
    have := eptPath_length_le_of_bad hpath hentry hbad (eptPath_forFill (k := s.freeCtr).1 hpath')
    omega
  · rw [fillMapping, hwrap, fillCombTr, if_neg (by simp [hpg]), hnone]
    rfl

/-! Accessed and dirty flags of EPT entries (44_ept_ad_pml.md R173, R174). -/

/-- No bit but the accessed and the dirty flag of an EPT entry is set. -/
def FlagBits (v : Word) : Prop := ∀ i, i ≠ 8 → i ≠ 9 → v.getLsbD i = false

/-- From `m` to `m'`, which is in canonical form, no more than accessed and dirty flags of entries have been set. -/
structure Memory.FlagsAdded (m m' : Memory) : Prop where
  wf : m'.wf = true
  entry : ∀ a, a % 8 = 0 → ∃ v, FlagBits v ∧ m'.read64 a = m.read64 a ||| v

theorem FlagBits.zero : FlagBits 0#64 := fun _ _ _ => BitVec.getLsbD_zero

theorem FlagBits.or {v w : Word} (hv : FlagBits v) (hw : FlagBits w) : FlagBits (v ||| w) := fun i h8 h9 => by
  rw [BitVec.getLsbD_or, hv i h8 h9, hw i h8 h9]
  rfl

theorem FlagBits.bit {bit : Nat} (h : bit = 8 ∨ bit = 9) : FlagBits (1#64 <<< bit) := fun i h8 h9 => by
  have hbit := getLsbD_bitIf true bit i
  rw [bitIf, if_pos rfl] at hbit
  have hne : ¬ i = bit := by omega
  simp [hbit, hne]

theorem Memory.FlagsAdded.refl {m : Memory} (hm : m.wf = true) : m.FlagsAdded m :=
  ⟨hm, fun _ _ => ⟨0#64, .zero, (BitVec.or_zero).symm⟩⟩

/-- An entry that is written changes no other entry. -/
theorem Memory.read64_write64_other {m : Memory} (hm : m.wf = true) {a b : Nat} (ha : a % 8 = 0) (hb : b % 8 = 0) (hne : b ≠ a)
    (w : Word) :
    (m.write64 a w).read64 b = m.read64 b := by
  refine BitVec.eq_of_getLsbD_eq fun j hj => ?_
  rw [Memory.getLsbD_read64 _ _ hj, Memory.getLsbD_read64 _ _ hj, Memory.read_write64_outside hm w (by unfold outside; omega)]

theorem Memory.FlagsAdded.setBit {m m' : Memory} (h : m.FlagsAdded m') {a bit : Nat} (ha : a % 8 = 0) (hbit : bit = 8 ∨ bit = 9) :
    m.FlagsAdded (m'.write64 a (m'.read64 a ||| (1#64 <<< bit))) := by
  refine ⟨Memory.wf_write64 h.wf _ _, fun b hb => ?_⟩
  obtain ⟨v, hv, hread⟩ := h.entry b hb
  by_cases heq : b = a
  · subst heq
    exact ⟨v ||| (1#64 <<< bit), hv.or (.bit hbit), by rw [Memory.read64_write64 h.wf, hread, BitVec.or_assoc]⟩
  · exact ⟨v, hv, by rw [Memory.read64_write64_other h.wf ha hb heq, hread]⟩

/-! EPT entries that differ in their flags alone. -/

section
variable {e v : Word} (hv : FlagBits v)
include hv

theorem FlagBits.getLsbD_or {i : Nat} (h8 : i ≠ 8) (h9 : i ≠ 9) : (e ||| v).getLsbD i = e.getLsbD i := by
  rw [BitVec.getLsbD_or, hv i h8 h9, Bool.or_false]

theorem FlagBits.extractLsb'_or {i n : Nat} (h : i + n ≤ 8) : (e ||| v).extractLsb' i n = e.extractLsb' i n := by
  refine BitVec.eq_of_getLsbD_eq fun j hj => ?_
  simp only [BitVec.getLsbD_extractLsb']
  rw [hv.getLsbD_or (by omega) (by omega)]

theorem FlagBits.tableBase_or : tableBase (e ||| v) = tableBase e := by
  refine BitVec.eq_of_getLsbD_eq fun j hj => ?_
  have hmask : (0x000FFFFFFFFFF000#64).getLsbD 8 = false ∧ (0x000FFFFFFFFFF000#64).getLsbD 9 = false := by decide
  simp only [tableBase, BitVec.getLsbD_and]
  by_cases h8 : j = 8
  · simp [h8]
  by_cases h9 : j = 9
  · simp [h9]
  rw [hv.getLsbD_or h8 h9]

theorem FlagBits.isLeaf_or (level : Nat) : isLeaf level (e ||| v) = isLeaf level e := by
  rw [isLeaf, isLeaf, hv.getLsbD_or (by omega) (by omega)]

theorem FlagBits.eptPresent_or (s : State) : eptPresent s (e ||| v) = eptPresent s e := by
  rw [eptPresent, eptPresent, hv.extractLsb'_or (by omega), hv.getLsbD_or (by omega) (by omega)]

/-- An entry whose flags are set is no better configured for it. -/
theorem FlagBits.eptMisconfigured_or {c : Cfg} {s : State} {level : Nat} {leaf : Bool}
    (h : eptMisconfigured c s (e ||| v) level leaf = false) :
    eptMisconfigured c s e level leaf = false := by
  have hreserved : (e ||| v) &&& eptReservedMask c level leaf = 0#64 → e &&& eptReservedMask c level leaf = 0#64 := fun hzero => by
    refine BitVec.eq_of_getLsbD_eq fun j hj => ?_
    have hbit := congrArg (·.getLsbD j) hzero
    simp only [BitVec.getLsbD_and, BitVec.getLsbD_or, BitVec.getLsbD_zero] at hbit ⊢
    cases he : e.getLsbD j <;> simp_all
  simp only [eptMisconfigured, hv.eptPresent_or, hv.extractLsb'_or (show 3 + 3 ≤ 8 by omega),
    hv.getLsbD_or (show 0 ≠ 8 by omega) (show 0 ≠ 9 by omega),
    hv.getLsbD_or (show 1 ≠ 8 by omega) (show 1 ≠ 9 by omega), hv.getLsbD_or (show 2 ≠ 8 by omega) (show 2 ≠ 9 by omega),
    hv.getLsbD_or (show 10 ≠ 8 by omega) (show 10 ≠ 9 by omega), Bool.or_eq_false_iff] at h ⊢
  obtain ⟨⟨⟨⟨h1, h2⟩, h3⟩, h4⟩, h5⟩ := h
  refine ⟨⟨⟨⟨h1, h2⟩, h3⟩, ?_⟩, h5⟩
  simp only [Bool.and_eq_false_iff, bne_eq_false_iff_eq] at h4 ⊢
  exact h4.imp_right hreserved

end

/-! EPT entries stand at multiples of 8 (41_ept_translation.md R91 to R97). -/

theorem tableBase_aligned (e : Word) : (tableBase e).toNat % 8 = 0 := by
  have hlow : tableBase e &&& 7#64 = 0#64 := by
    rw [tableBase, BitVec.and_assoc]
    exact BitVec.and_zero
  have hmod : (tableBase e &&& 7#64).toNat = (tableBase e).toNat % 8 := by
    rw [BitVec.toNat_and]
    exact Nat.and_two_pow_sub_one_eq_mod _ 3
  rw [← hmod, hlow]
  rfl

theorem entry_aligned {base : Word} (h : base.toNat % 8 = 0) (i : Word) : (base + 8#64 * i).toNat % 8 = 0 := by
  rw [BitVec.toNat_add, BitVec.toNat_mul, BitVec.toNat_ofNat]
  omega

theorem eptPath_aligned {c : Cfg} {s : State} {gpa base b : Word} {level : Nat} {es : List Word} (hbase : base.toNat % 8 = 0)
    (h : eptPath c s gpa level base es b) :
    b.toNat % 8 = 0 ∧ ∀ u ∈ readEntries gpa level base es, u.addr.toNat % 8 = 0 := by
  induction es generalizing level base with
  | nil =>
    cases h
    exact ⟨hbase, by simp [readEntries]⟩
  | cons e es ih =>
    obtain ⟨-, -, hrest⟩ := h
    obtain ⟨hb, hentries⟩ := ih (tableBase_aligned e) hrest
    exact ⟨hb, List.forall_mem_cons.2 ⟨entry_aligned hbase _, hentries⟩⟩

/-- The entries that a walk notes, and its leaf entry, stand at multiples of 8. -/
def Walk.Aligned (w : Walk) : Prop := (∀ u ∈ w.used, u.addr.toNat % 8 = 0) ∧ w.leafAddr.toNat % 8 = 0

theorem leafWalk_aligned {c : Cfg} {s : State} {gpa : Word} {es : List Word} {level : Nat} {base e : Word}
    (h : eptLeaf c s gpa es level base e) : (leafWalk s gpa es level base e).Aligned := by
  obtain ⟨-, hpath, -⟩ := h
  obtain ⟨hbase, hentries⟩ := eptPath_aligned (tableBase_aligned _) hpath
  have hleaf := entry_aligned hbase (gpaIndex gpa level)
  exact ⟨List.forall_mem_append.2 ⟨hentries, List.forall_mem_singleton.2 hleaf⟩, hleaf⟩

/-! An EPT walk that ends after flags have been set ended before. -/

/-- What the tests of an entry see of the state is the mode-based control. -/
theorem eptTests_congr {c : Cfg} {s t : State} (hmode : t.vmcs.modeBasedExec = s.vmcs.modeBasedExec) :
    eptPresent t = eptPresent s ∧ eptMisconfigured c t = eptMisconfigured c s := by
  have hpresent : eptPresent t = eptPresent s := by
    funext e
    rw [eptPresent, eptPresent, hmode]
  refine ⟨hpresent, ?_⟩
  funext e level leaf
  rw [eptMisconfigured, eptMisconfigured, hmode, hpresent]

theorem entryIs_of_flagsAdded {c : Cfg} {s t : State} {gpa base e : Word} {level : Nat} (hagents : s.agents = [])
    (hmem : s.mem.FlagsAdded t.mem) (hbase : base.toNat % 8 = 0) (h : entryIs c t gpa level base e) :
    ∃ e' v, FlagBits v ∧ e = e' ||| v ∧ entryIs c s gpa level base e' := by
  obtain ⟨-, hrange, hread⟩ := h
  obtain ⟨v, hv, hflags⟩ := hmem.entry _ (entry_aligned hbase (gpaIndex gpa level))
  exact ⟨_, v, hv, hread.symm.trans hflags, hagents, hrange, rfl⟩

section
variable {c : Cfg} {s t : State} {gpa base b e : Word} {level : Nat} {es : List Word} (hagents : s.agents = [])
  (hmode : t.vmcs.modeBasedExec = s.vmcs.modeBasedExec) (hmem : s.mem.FlagsAdded t.mem)
include hagents hmode hmem

theorem eptPath_of_flagsAdded (hbase : base.toNat % 8 = 0) (h : eptPath c t gpa level base es b) :
    ∃ es', es'.length = es.length ∧ eptPath c s gpa level base es' b := by
  obtain ⟨hpresentEq, hmisconfiguredEq⟩ := eptTests_congr (c := c) hmode
  induction es generalizing level base with
  | nil => exact ⟨[], rfl, h⟩
  | cons e es ih =>
    obtain ⟨hentry, ⟨hpresent, hconfigured, hleaf⟩, hrest⟩ := h
    obtain ⟨e', v, hv, rfl, hentry'⟩ := entryIs_of_flagsAdded hagents hmem hbase hentry
    rw [hpresentEq, hv.eptPresent_or] at hpresent
    rw [hmisconfiguredEq] at hconfigured
    rw [hv.isLeaf_or] at hleaf
    rw [hv.tableBase_or] at hrest
    obtain ⟨es', hlen, hpath⟩ := ih (tableBase_aligned e') hrest
    exact ⟨e' :: es', by simp [hlen], hentry', ⟨hpresent, hv.eptMisconfigured_or hconfigured, hleaf⟩, hpath⟩

theorem eptLeaf_of_flagsAdded (heptp : t.vmcs.eptp = s.vmcs.eptp) (h : eptLeaf c t gpa es level base e) :
    ∃ es' e', eptLeaf c s gpa es' level base e' := by
  obtain ⟨hpresentEq, hmisconfiguredEq⟩ := eptTests_congr (c := c) hmode
  obtain ⟨hlen, hpath, hentry, hpresent, hconfigured, hleaf⟩ := h
  obtain ⟨hbase, -⟩ := eptPath_aligned (tableBase_aligned _) hpath
  rw [heptp] at hpath
  obtain ⟨es', hlen', hpath'⟩ := eptPath_of_flagsAdded hagents hmode hmem (tableBase_aligned _) hpath
  obtain ⟨e', v, hv, rfl, hentry'⟩ := entryIs_of_flagsAdded hagents hmem hbase hentry
  rw [hpresentEq, hv.eptPresent_or] at hpresent
  rw [hmisconfiguredEq] at hconfigured
  rw [hv.isLeaf_or] at hleaf
  exact ⟨es', e', hlen' ▸ hlen, hpath', hentry', hpresent, hv.eptMisconfigured_or hconfigured, hleaf⟩

end

/-! What a guest's walk of a fill changes of memory: flags of EPT entries alone. -/

/-- With no other agent writing and the log off, flags have been added to the entries of the memory `m`. -/
structure FlagsOnly (m : Memory) (x : Ctx) : Prop where
  agents : x.st.agents = []
  pmlOn : x.st.pmlOn = false
  mem : m.FlagsAdded x.st.mem

section
variable {c : Cfg} {m : Memory} {x y : Ctx}

theorem FlagsOnly.same (h : FlagsOnly m x) (hst : y.st = x.st) : FlagsOnly m y := by
  obtain ⟨hagents, hpml, hmem⟩ := h
  rw [← hst] at hagents hpml hmem
  exact ⟨hagents, hpml, hmem⟩

theorem FlagsOnly.setEntryBits (h : FlagsOnly m x) {bit : Nat} (hbit : bit = 8 ∨ bit = 9) {l : List Word}
    (hl : ∀ ea ∈ l, ea.toNat % 8 = 0) : (setEntryBits c x bit l).Ends (FlagsOnly m) := by
  induction l generalizing x with
  | nil => exact .ok h _
  | cons ea l ih =>
    obtain ⟨hea, hl⟩ := List.forall_mem_cons.1 hl
    refine Res.Ends.bind (P := FlagsOnly m) ?_ fun _ _ _ hy => ih hy hl
    intro _ y hy
    obtain ⟨-, rfl⟩ := setEntryBit_eq_ok.1 hy
    rw [Ctx.interleave_nil h.agents]
    exact ⟨h.agents, h.pmlOn, h.mem.setBit hea hbit⟩

theorem FlagsOnly.eptUpdateFlags (h : FlagsOnly m x) {w : Walk} {needA : List Word} (hA : ∀ ea ∈ needA, ea.toNat % 8 = 0)
    (hleaf : w.leafAddr.toNat % 8 = 0) (gpa : Word) (needD : Bool) : (eptUpdateFlags c w gpa needA needD x).Ends (FlagsOnly m) := by
  have hD : ∀ ea ∈ (if needD then [w.leafAddr] else []), ea.toNat % 8 = 0 := by cases needD <;> simp [hleaf]
  refine .ite (fun _ => .ok h _) fun _ => .ite (fun _ => .raised _ _ _) fun _ => ?_
  exact (h.setEntryBits (.inl rfl) hA).bind fun _ y _ hy => (hy.setEntryBits (.inr rfl) hD).bind fun _ z _ hz =>
    .ite (fun hlog => by simp [h.pmlOn] at hlog) fun _ => .ok hz _

theorem FlagsOnly.eptPerform (h : FlagsOnly m x) {w : Walk} (hw : w.Aligned) (acc : GAccess) (gpa : Word) :
    (eptPerform c acc gpa w x).Ends (FlagsOnly m) := by
  obtain ⟨hused, hleaf⟩ := hw
  refine .ite (fun _ => Res.Ends.bind (P := FlagsOnly m) (fun u y hy => ?_) fun _ _ _ hy => .ok hy _) fun _ => .ok h _
  refine h.eptUpdateFlags (fun ea hea => ?_) hleaf gpa _ u y (eptSetAccessedDirty_ok h.agents hy)
  obtain ⟨v, hv, -, rfl⟩ := Walk.mem_toAccess.1 hea
  exact hused v hv

theorem FlagsOnly.apicTest (h : FlagsOnly m x) (sources : List Mapping) (pa : Word) : (apicTest c sources pa x).Ends (FlagsOnly m) := by
  refine .ite (fun _ => .ite (fun _ => ?_) fun _ => .raised _ _ _) fun _ => .ok h _
  split
  · next hchoose =>
    obtain ⟨-, rfl⟩ := Prod.mk.inj hchoose
    exact .ok ⟨h.agents, h.pmlOn, h.mem⟩ _
  · exact .raised _ _ _

/-- R145: sub-page permissions do not decide an access to a guest paging-structure entry. -/
theorem FlagsOnly.eptGrant (h : FlagsOnly m x) {w : Walk} (hw : w.Aligned) {acc : GAccess} (hacc : acc.pswalk = true) (gpa : Word) :
    (eptGrant c acc gpa w x).Ends (FlagsOnly m) := by
  cases hallowed : eptAllowed x.st w.rights acc with
  | true =>
    rw [Machine.eptGrant, if_pos hallowed]
    exact (h.apicTest _ _).bind fun _ y _ hy => hy.eptPerform hw acc gpa
  | false =>
    rw [eptGrant_denied hallowed (.inr (by simp [sppCandidate, sppNever, hacc]))]
    exact .raised _ _ _

end

/-- A walk of a fill from the state `s` has come to `x`. -/
structure FillReached (c : Cfg) (s : State) (x : Ctx) : Prop where
  kept : Kept c (Ctx.start s.forFill) x
  flags : FlagsOnly s.mem x

section
variable {c : Cfg} {s : State} {x y : Ctx}

theorem FillReached.start (hagents : s.agents = []) (hm : s.mem.wf = true) : FillReached c s (Ctx.start s.forFill) :=
  ⟨.refl c _, hagents, rfl, .refl hm⟩

/-- R124: an access to a guest paging-structure entry in a fill comes from an EPT walk that met no bad entry. -/
theorem FillReached.addressAccess (h : FillReached c s x) (hagents : s.agents = []) (hept : s.eptInUse = true) {acc : GAccess}
    (hacc : acc.pswalk = true) {gpa : Word} {g : Granted} (haccess : addressAccess c acc gpa x = .ok g y) :
    FlagsOnly s.mem y ∧ ¬ eptEntryBad c s gpa := by
  have huse : x.st.eptInUse = true := h.kept.eptInUse.trans hept
  have hcache : x.st.cache = [] := h.kept.cache
  obtain ⟨⟨mem, i, n, k, hst, -⟩, -⟩ := h.kept
  rw [Machine.addressAccess, if_pos huse, guestPhysAccess] at haccess
  split at haccess
  · cases haccess
  · obtain ⟨w, z, htranslate, hrest⟩ := Res.bind_eq_ok.1 haccess
    obtain ⟨pa, z', hgrant, hend⟩ := Res.bind_eq_ok.1 hrest
    cases hend
    rw [eptTranslate_eq_walk (by simp [hcache])] at htranslate
    obtain ⟨es, level, base, e, hleaf, rfl⟩ := eptWalk_eq_ok h.flags.agents htranslate
    have hz : z.st = x.st := by
      obtain ⟨n, rfl⟩ := eptLeaf_level hleaf
      obtain ⟨z', hst', hwalk⟩ := eptWalk_eptLeaf acc hleaf
      obtain ⟨-, rfl⟩ := Res.ok.inj (htranslate.symm.trans hwalk)
      exact hst'
    obtain ⟨es', e', hleaf'⟩ := eptLeaf_of_flagsAdded hagents (by rw [hst]; rfl) h.flags.mem (by rw [hst]; rfl) hleaf
    exact ⟨(h.flags.same hz).eptGrant (leafWalk_aligned hleaf) hacc gpa _ _ hgrant, not_eptEntryBad_of_eptLeaf hleaf'⟩

theorem FillReached.guestEntry (h : FillReached c s x) (hagents : s.agents = []) (hept : s.eptInUse = true) {kind : AccKind}
    {la table : Word} {es : List GuestEntry} {level : Nat} {ge : GuestEntry}
    (hentry : guestEntry c kind la es level table none x = .ok ge y) : FillReached c s y ∧ ¬ eptEntryBad c s ge.addr := by
  have hkept := h.kept.trans ((guestEntry_keeps ..).kept_of_ok hentry)
  obtain ⟨g, u, haccess, hread⟩ := Res.bind_eq_ok.1 hentry
  obtain ⟨bs, z, hbytes, htest⟩ := Res.bind_eq_ok.1 hread
  obtain ⟨hflags, hgood⟩ := h.addressAccess hagents hept (acc := pswalkAccess .dataRead _ la) rfl haccess
  obtain ⟨-, -, rfl⟩ := physRead_eq_ok.1 hbytes
  rw [Ctx.interleave_nil (by exact hflags.agents)] at htest
  dsimp only at htest
  split at htest
  · cases htest
  · cases htest
    exact ⟨⟨hkept, hflags.same rfl⟩, hgood⟩

theorem FillReached.guestPath (h : FillReached c s x) (hagents : s.agents = []) (hept : s.eptInUse = true) {kind : AccKind}
    {la table : Word} {ges es : List GuestEntry} {n : Nat} {z : Ctx} (hpath : guestPath c kind la ges n table es x z) :
    ∀ ge ∈ ges, ¬ eptEntryBad c s ge.addr := by
  induction ges generalizing n table es x with
  | nil => exact List.forall_mem_nil _
  | cons ge rest ih =>
    obtain ⟨y, hentry, hend⟩ := hpath
    obtain ⟨hy, hgood⟩ := h.guestEntry hagents hept hentry
    obtain ⟨rfl, -⟩ | ⟨k, -, -, hrest⟩ := hend
    · exact List.forall_mem_singleton.2 hgood
    · exact List.forall_mem_cons.2 ⟨hgood, ih hy hrest⟩

theorem FillReached.guestTables (h : FillReached c s x) (hagents : s.agents = []) (hept : s.eptInUse = true) {la table t : Word}
    {ges es : List GuestEntry} {n : Nat} (htables : guestTables c la ges n table es x t) : ∀ ge ∈ ges, ¬ eptEntryBad c s ge.addr := by
  induction ges generalizing n table es x with
  | nil => exact List.forall_mem_nil _
  | cons ge rest ih =>
    obtain ⟨y, k, -, hentry, -, hrest⟩ := htables
    obtain ⟨hy, hgood⟩ := h.guestEntry hagents hept hentry
    exact List.forall_mem_cons.2 ⟨hgood, ih hy hrest⟩

end

/-! What a fill records with paging. -/

/-- R304, R237: the second clause of `Obligations.NoFillFromBadEptEntry`, for memory in its canonical form. -/
theorem fillMapping_not_bad_of_wf {c : Cfg} {s t : State} {la : Word} (hm : s.mem.wf = true) :
    (∀ f m, s.pg = true → fillMapping c s (.combTr la f) = some (.combTr m, t) →
      (∀ ge ∈ m.guest, ¬ eptEntryBad c s ge.addr) ∧ ¬ eptEntryBad c s (m.gpa + lowBits (s.linWrap c la) m.size)) ∧
    ∀ depth m, fillMapping c s (.combPsc la depth) = some (.combPsc m, t) →
      (∀ ge ∈ m.guest, ¬ eptEntryBad c s ge.addr) ∧ ¬ eptEntryBad c s m.tableGpa := by
  have agents_of_bad {gpa : Word} (hbad : eptEntryBad c s gpa) : s.agents = [] := by
    obtain ⟨_, _, _, -, -, ⟨hagents, -⟩, -⟩ := hbad
    exact hagents
  refine ⟨fun f m hpg h => ?_, fun depth m h => ?_⟩
  · obtain ⟨hept, -, gpa, guest, isGlobal, guestSize, w, u, v, hpaged, -, hsu, hfill, -, hk⟩ := fillCombTr_eq_some h
    cases hk
    obtain ⟨⟨_, _, _, _, -, hpath, -⟩, -⟩ := hpaged hpg
    refine ⟨fun ge hge hbad => ?_, ?_⟩
    · have hagents := agents_of_bad hbad
      exact (FillReached.start hagents hm).guestPath hagents hept hpath ge hge hbad
    · rw [BitVec.sub_add_cancel]
      exact not_eptEntryBad_of_fillEpt hsu hfill
  · obtain ⟨hept, -, -, table, level, guest, w, u, -, ⟨-, -, htables⟩, hsu, hfill, hk⟩ := fillCombPsc_eq_some h
    cases hk
    refine ⟨fun ge hge hbad => ?_, not_eptEntryBad_of_fillEpt hsu hfill⟩
    have hagents := agents_of_bad hbad
    exact (FillReached.start hagents hm).guestTables hagents hept htables ge hge hbad

end Sys2Proof.Machine
end

section
/-! PROOFS. A combined mapping that a fill creates from a bad EPT entry, where memory is not in its canonical form (46_caching.md R237,
47_invalidation.md R304, 20_memory.md R45). -/

namespace Sys2Proof.Machine

open Sys2Proof

/-- A guest paging of two tables: the first at guest-physical address 0, the second at 1 GByte, and of each the first entry is used. -/
def twoTables : GuestPaging :=
  { (default : GuestPaging) with
    levels := fun _ => 2
    referencesTable := fun _ level _ => level == 2
    nextTable := fun _ _ _ => 0x40000000#64 }

/-- Every EPT capability that is used, and no reserved bit. -/
def twoTablesCfg : Cfg := { (default : Cfg) with guest := twoTables, ept1gSupported := true, eptAdSupported := true }

/-- The EPT PML4 table is at 1000H and its first entry reads 2007H, so that the EPT page-directory-pointer table is at 2000H; there the first
entry maps the first GByte, and the second is not present. The byte at 1002H is listed twice, so that writing the 0 that it reads as
uncovers a 1, which moves that table to 12000H. There the second entry maps the second GByte. -/
def doubleListed : Memory :=
  [(0x1000, 0x07#8), (0x1001, 0x20#8), (0x1002, 0x00#8), (0x1002, 0x01#8), (0x2000, 0xB7#8), (0x12008, 0xB7#8)]

/-- A guest with paging and with EPT, whose EPTP enables the accessed and dirty flags. -/
def doubleListedState : State :=
  { State.reset with
    mode := .nonRoot
    vmcsCurrent := true
    vmcs := { (default : Vmcs) with enableEpt := true, eptp := 0x105E#64 }
    cr0 := 0x80000000#64
    mem := doubleListed }

/-- The obstacle: an accessed flag is set by writing all of its entry (R45), and `Memory.write` is only sound for memory in canonical
form. -/
theorem doubleListed_write_uncovers :
    doubleListed.wf = false ∧ doubleListed.read 0x1002 = 0x00#8 ∧ (doubleListed.write 0x1002 0x00#8).read 0x1002 = 0x01#8 := by
  decide

/-- The EPT walk for the address of the second table meets the entry that is not present. -/
theorem doubleListed_eptEntryBad : eptEntryBad twoTablesCfg doubleListedState 0x40000000#64 := by
  refine ⟨1, 0x2000#64, 0#64, by decide, ?_, ⟨rfl, by decide, by decide⟩, .inl (by decide)⟩
  exact ⟨0x1000#64, 0x2007#64, rfl, ⟨rfl, by decide, by decide⟩, ⟨by decide, by decide, by decide⟩, by decide⟩

/-- A combined translation that records a guest entry. -/
def Mapping.recordsEntry (ge : GuestEntry) : Mapping → Bool
  | .combTr m => decide (ge ∈ m.guest)
  | _ => false

/-- The fill for linear address 0 reads the guest entry in the first table, which sets the accessed flag of the EPT PML4 entry, and then the
one in the second, whose address it records. -/
theorem doubleListed_fill :
    ((fillMapping twoTablesCfg doubleListedState (.combTr 0#64 .nothing)).map
      fun f => f.1.recordsEntry ⟨0x40000000#64, 0#64⟩) = some true := by
  decide +kernel

theorem Mapping.recordsEntry_eq_true {ge : GuestEntry} {k : Mapping} (h : k.recordsEntry ge = true) :
    ∃ m, k = .combTr m ∧ ge ∈ m.guest := by
  cases k with
  | combTr m => exact ⟨m, rfl, of_decide_eq_true h⟩
  | linearTr | linearPsc | gphysTr | gphysPsc | combPsc => cases h

/-- Refutes O39: the statement asks for no canonical memory. The state is `doubleListedState`, where the fill for linear address 0 creates a
combined translation that records the guest entry at 40000000H, whose EPT walk meets an entry that is not present. The first clause of the
statement holds in every state (`fillMapping_eq_none_of_bad`), the second where memory is canonical (`fillMapping_not_bad_of_wf`). -/
theorem not_noFillFromBadEptEntry : ¬ Obligations.NoFillFromBadEptEntry := by
  rintro ⟨-, hpaged⟩
  obtain ⟨⟨k, t⟩, hfill, hrecords⟩ := Option.map_eq_some_iff.1 doubleListed_fill
  obtain ⟨m, rfl, hmem⟩ := Mapping.recordsEntry_eq_true hrecords
  obtain ⟨hcomb, -⟩ := hpaged twoTablesCfg doubleListedState t 0#64
  obtain ⟨hguest, -⟩ := hcomb .nothing m rfl hfill
  exact hguest _ hmem doubleListed_eptEntryBad

end Sys2Proof.Machine
end
